-- ==== Sys2Proof/Word.lean ====
section
/-! DEFINITION. The plainest types: bytes, the numbered things of the part (voices, sources, pots),
the two parts, and total tables of a fixed length. -/

namespace Sys2Proof

/-- One byte of a frame or of the slot memory. -/
abbrev Byte := BitVec 8

/-- A voice V0..V15. -/
abbrev VoiceNo := Fin 16

/-- A source index: 0 OSC A, 1 OSC B, 2 FLT (00, voices, parts and sources). -/
abbrev SourceIdx := Fin 3

/-- A source number 3v + s. -/
abbrev SourceNo := Fin 48

abbrev PotNo := Fin 96
abbrev SwitchNo := Fin 32
abbrev ParamNo := Fin 80
abbrev ChannelNo := Fin 128
abbrev SlotNo := Fin 256

/-- A set of voices, bit v for Vv (R187). -/
abbrev VoiceSet := BitVec 16

/-- The two timbral parts. -/
inductive Part where
  | A
  | B
  deriving DecidableEq, Repr

/-- One value for each part. -/
structure ByPart (α : Type) where
  a : α
  b : α
  deriving DecidableEq, Repr

namespace ByPart

variable {α : Type}

def get (x : ByPart α) : Part → α
  | .A => x.a
  | .B => x.b

def set (x : ByPart α) (p : Part) (y : α) : ByPart α :=
  match p with
  | .A => { x with a := y }
  | .B => { x with b := y }

def modify (x : ByPart α) (p : Part) (f : α → α) : ByPart α := x.set p (f (x.get p))

@[simp] theorem get_set_same (x : ByPart α) (p : Part) (y : α) : (x.set p y).get p = y := by
  cases p <;> rfl

@[simp] theorem get_set_ne (x : ByPart α) {p q : Part} (y : α) (h : q ≠ p) :
    (x.set p y).get q = x.get q := by
  cases p <;> cases q <;> first | rfl | exact absurd rfl h

theorem get_set (x : ByPart α) (p q : Part) (y : α) :
    (x.set p y).get q = if q = p then y else x.get q := by
  cases p <;> cases q <;> rfl

theorem get_modify (x : ByPart α) (p q : Part) (f : α → α) :
    (x.modify p f).get q = if q = p then f (x.get p) else x.get q := get_set ..

end ByPart

/-- A table of n entries given by a function. -/
def tabulate {α : Type} {n : Nat} (f : Fin n → α) : Vector α n := ⟨(List.ofFn f).toArray, by simp⟩

/-- Entry i of a table. -/
def look {α : Type} {n : Nat} (t : Vector α n) (i : Fin n) : α := t[i]

/-- A table with entry i replaced. -/
def put {α : Type} {n : Nat} (t : Vector α n) (i : Fin n) (x : α) : Vector α n := t.set i x

@[simp] theorem look_tabulate {α : Type} {n : Nat} (f : Fin n → α) (i : Fin n) :
    look (tabulate f) i = f i := by
  simp [look, tabulate]

theorem look_put {α : Type} {n : Nat} (t : Vector α n) (i j : Fin n) (x : α) :
    look (put t i x) j = if j = i then x else look t j := by
  simp only [look, put, Fin.getElem_fin, Vector.getElem_set, Fin.ext_iff, eq_comm]

@[simp] theorem look_put_same {α : Type} {n : Nat} (t : Vector α n) (i : Fin n) (x : α) :
    look (put t i x) i = x := by
  simp [look_put]

@[simp] theorem look_put_ne {α : Type} {n : Nat} (t : Vector α n) {i j : Fin n} (x : α)
    (h : j ≠ i) : look (put t i x) j = look t j := by
  simp [look_put, h]

@[simp] theorem look_replicate {α : Type} {n : Nat} (x : α) (i : Fin n) :
    look (Vector.replicate n x) i = x := by
  simp [look]

theorem table_ext {α : Type} {n : Nat} {t u : Vector α n} (h : ∀ i, look t i = look u i) :
    t = u := by
  ext i hi
  exact h ⟨i, hi⟩

end Sys2Proof
end

