-- ==== Sys2Proof/Syntax.lean ====
section
/-! DEFINITION. The commands of the part: one constructor for each row of spec/opcode_table.json.
A host command carries its argument bytes as R187 to R190 lay them out, so that every argument a
frame can hold can be written; an event carries what it brings in from outside (log 4). -/

namespace Sys2Proof

/-- A probe edge (R70, R187). -/
inductive Edge where
  | rising
  | falling
  deriving DecidableEq, Repr

/-- A character string of a patch name, 23 bytes (R187). -/
abbrev Name := Vector Byte 23

/-- Bits of a slot image that stayed 1 where programming should have cleared them: offset in the
image and the bits (R152, R155). -/
abbrev StuckBits := List (Fin 128 × Byte)

inductive Instr where
  -- notes
  | noteStart (part key velocity : Byte)
  | noteEnd (part key : Byte)
  | notePressure (part key value : Byte)
  | sustain (part setting : Byte)
  | performanceSet (part control : Byte) (value : BitVec 16)
  | allNotesClear (target : Byte)
  | voiceRead (voice : Byte)
  | partSettings (part : Byte) (pool : BitVec 16) (scale : Byte)
  | seed (value : BitVec 16)
  /-- VOICE SERVICE with setting 0, and with the settings no row names (log 17). -/
  | voiceServiceOff (voice setting : Byte)
  /-- VOICE SERVICE with setting 1. -/
  | voiceServiceOn (voice : Byte)
  | dampExpiry (voice : VoiceNo)
  | tailExpiry (voice : VoiceNo)
  | retriggerGapExpiry (voice : VoiceNo)
  -- pitch
  | glideUpdate (voice : VoiceNo)
  | masterPitch (value : BitVec 16)
  | scaleSet (table : Byte) (offsets : Vector (BitVec 16) 12)
  | overrideSet (part key : Byte) (pitch : BitVec 24)
  | overrideClear (selector part key : Byte)
  -- calibration
  | minuteEvent
  | calRead (source : Byte)
  | calSave
  | tuneSettings (oscGain fltGain : BitVec 16) (oscEdge fltEdge retune autoPark : Byte)
  -- tune engine
  | tuneAdd (voices : BitVec 16) (sources mode : Byte)
  /-- TUNE CONTROL with action 0 RUN, and with the actions no row names (log 17). -/
  | tuneControlRun (action : Byte)
  | tuneControlHalt
  | tuneControlStep
  | tuneControlCancel
  | tuneRead
  | settlingExpiry
  /-- A PRB edge of the given kind, before the capture counter runs. -/
  | firstProbeEdge (edge : Edge)
  /-- A PRB edge of the given kind while the capture counter runs, `ticks` ticks from now: one of those
  that the part counts, or the (N_k+1)-th, which closes the gate (log 4). -/
  | gateClose (edge : Edge) (ticks : Nat)
  | gateWindowExpiry
  -- panel
  | sweepTimerExpiry
  /-- A sampling event: what the ADC converts from PADC and the level of SWIN (true: high). -/
  | scanSample (padc : BitVec 12) (swin : Bool)
  | scheduleSet (profile interval : Byte) (mask : BitVec 16)
  | profileSet (slot shift deadband : Byte)
  | potRead (pot : Byte)
  -- edit buffers
  | paramWrite (part param : Byte) (value : BitVec 16)
  | paramRead (part item : Byte)
  | nameSet (part : Byte) (name : Name) (category : Byte)
  | potMapSet (pot target param mode slot : Byte)
  | switchMapSet (switch action field param count : Byte)
  | focusSet (focus : Byte)
  -- slot memory
  | patchStore (part : Byte) (slot : BitVec 16)
  | slotWrite (slot : BitVec 16) (name : Name) (category : Byte) (params : Vector (BitVec 16) 80)
  | slotClear (slot : BitVec 16)
  | patchRecall (slot : BitVec 16) (part : Byte)
  | slotRead (slot : BitVec 16)
  | guardSet (extent anchor invert : Byte)
  | guardFreeze
  | guardRead
  | eraseExpiry
  /-- The program phase ends; `stuck` are the bits that did not program (log 4). -/
  | programExpiry (stuck : StuckBits)
  /-- The resume time ends; `stuck` matters where a program phase has no time left (R163). -/
  | resumeExpiry (stuck : StuckBits)
  -- output
  | routeSet (channel source : Byte)
  | routeRead (channel : Byte)
  | refreshWrite
  -- link
  | nextNotice
  | noticeEnable (mask : Byte)
  /-- A command byte that is in no row of R189 and R190. -/
  | voidFrame (code : Byte)
  /-- nCS rises after `bits` clocks of SCK: off a byte boundary, or before a command is taken. -/
  | frameCut (bits : Nat)
  -- resets
  | powerOnReset
  | pinReset
  | resetExit
  /-- nCS falls; `sckHigh` is the level of SCK. -/
  | frameStart (sckHigh : Bool)
  deriving DecidableEq, Repr

end Sys2Proof
end

