-- ==== Sys2Proof/Decode.lean ====
section
/-! DEFINITION. The link's frames: the command code table, the bytes of a host command's frame
(R183, R187 to R190), the frame decoder, and the command that a word of frame bytes spells. -/

namespace Sys2Proof

namespace Frame

/-- Two bytes, most significant first (R187). -/
def two (w : BitVec 16) : List Byte := [w.extractLsb' 8 8, w.extractLsb' 0 8]

/-- Three bytes, most significant first (R187). -/
def three (w : BitVec 24) : List Byte :=
  [w.extractLsb' 16 8, w.extractLsb' 8 8, w.extractLsb' 0 8]

def join2 (hi lo : Byte) : BitVec 16 := hi ++ lo

def join3 (hi mid lo : Byte) : BitVec 24 := hi ++ mid ++ lo

/-- The 16-bit quantities a list of bytes holds, most significant byte first. -/
def words : List Byte → List (BitVec 16)
  | hi :: lo :: rest => join2 hi lo :: words rest
  | _ => []

/-- A list as a table of n entries, `none` unless it has exactly n. -/
def exactly {α : Type} (n : Nat) (l : List α) : Option (Vector α n) :=
  if h : l.length = n then some ⟨l.toArray, by simpa using h⟩ else none

/-- The command byte and argument bytes of a host command (R189, R190); none for an event. -/
def bytes : Instr → Option (List Byte)
  | .noteStart p k v => some [0x10, p, k, v]
  | .noteEnd p k => some [0x11, p, k]
  | .notePressure p k v => some [0x12, p, k, v]
  | .sustain p x => some [0x13, p, x]
  | .performanceSet p c v => some ([0x14, p, c] ++ two v)
  | .allNotesClear t => some [0x15, t]
  | .voiceRead v => some [0x16, v]
  | .partSettings p pool sc => some ([0x17, p] ++ two pool ++ [sc])
  | .seed v => some ([0x56] ++ two v)
  | .voiceServiceOff v x => some [0x46, v, x]
  | .voiceServiceOn v => some [0x46, v, 1]
  | .masterPitch v => some ([0x52] ++ two v)
  | .scaleSet t offs => some ([0x53, t] ++ offs.toList.flatMap two)
  | .overrideSet p k v => some ([0x54, p, k] ++ three v)
  | .overrideClear sel p k => some [0x55, sel, p, k]
  | .calRead n => some [0x43, n]
  | .calSave => some [0x44]
  | .tuneSettings og fg oe fe r ap => some ([0x45] ++ two og ++ two fg ++ [oe, fe, r, ap])
  | .tuneAdd vs ss m => some ([0x40] ++ two vs ++ [ss, m])
  | .tuneControlRun a => some [0x41, a]
  | .tuneControlHalt => some [0x41, 1]
  | .tuneControlStep => some [0x41, 2]
  | .tuneControlCancel => some [0x41, 3]
  | .tuneRead => some [0x42]
  | .scheduleSet p i m => some ([0x63, p, i] ++ two m)
  | .profileSet sl sh d => some [0x62, sl, sh, d]
  | .potRead n => some [0x65, n]
  | .paramWrite p n v => some ([0x20, p, n] ++ two v)
  | .paramRead p n => some [0x21, p, n]
  | .nameSet p name c => some ([0x23, p] ++ name.toList ++ [c])
  | .potMapSet n t p m sl => some [0x60, n, t, p, m, sl]
  | .switchMapSet n a f p c => some [0x61, n, a, f, p, c]
  | .focusSet f => some [0x64, f]
  | .patchStore p sl => some ([0x31, p] ++ two sl)
  | .slotWrite sl name c ps => some ([0x33] ++ two sl ++ name.toList ++ [c] ++ ps.toList.flatMap two)
  | .slotClear sl => some ([0x32] ++ two sl)
  | .patchRecall sl p => some ([0x30] ++ two sl ++ [p])
  | .slotRead sl => some ([0x34] ++ two sl)
  | .guardSet e a i => some [0x35, e, a, i]
  | .guardFreeze => some [0x36]
  | .guardRead => some [0x37]
  | .routeSet c src => some [0x50, c, src]
  | .routeRead c => some [0x51, c]
  | .nextNotice => some [0x28]
  | .noticeEnable m => some [0x2A, m]
  | .dampExpiry _ => none
  | .tailExpiry _ => none
  | .retriggerGapExpiry _ => none
  | .glideUpdate _ => none
  | .minuteEvent => none
  | .settlingExpiry => none
  | .firstProbeEdge _ => none
  | .gateClose _ _ => none
  | .gateWindowExpiry => none
  | .sweepTimerExpiry => none
  | .scanSample _ _ => none
  | .eraseExpiry => none
  | .programExpiry _ => none
  | .resumeExpiry _ => none
  | .refreshWrite => none
  | .voidFrame _ => none
  | .frameCut _ => none
  | .powerOnReset => none
  | .pinReset => none
  | .resetExit => none
  | .frameStart _ => none

/-- SCALE SET from its argument bytes. -/
def decodeScaleSet (t : Byte) (rest : List Byte) : Option Instr :=
  if rest.length = 24 then (exactly 12 (words rest)).map (.scaleSet t) else none

/-- NAME SET from its argument bytes after the part. -/
def decodeNameSet (p : Byte) (rest : List Byte) : Option Instr :=
  match exactly 23 (rest.take 23), rest.drop 23 with
  | some name, [c] => some (.nameSet p name c)
  | _, _ => none

/-- SLOT WRITE from its argument bytes after the slot. -/
def decodeSlotWrite (slot : BitVec 16) (rest : List Byte) : Option Instr :=
  match exactly 23 (rest.take 23), rest.drop 23 with
  | some name, c :: ps =>
    if ps.length = 160 then (exactly 80 (words ps)).map (.slotWrite slot name c) else none
  | _, _ => none

/-- The frame decoder: the command of a command byte with exactly its argument bytes (R183, R189,
R190), none for every other list of bytes. -/
def decode : List Byte → Option Instr
  | [] => none
  | code :: args =>
    match code.toNat, args with
    | 0x10, [p, k, v] => some (.noteStart p k v)
    | 0x11, [p, k] => some (.noteEnd p k)
    | 0x12, [p, k, v] => some (.notePressure p k v)
    | 0x13, [p, x] => some (.sustain p x)
    | 0x14, [p, c, h, l] => some (.performanceSet p c (join2 h l))
    | 0x15, [t] => some (.allNotesClear t)
    | 0x16, [v] => some (.voiceRead v)
    | 0x17, [p, h, l, sc] => some (.partSettings p (join2 h l) sc)
    | 0x20, [p, n, h, l] => some (.paramWrite p n (join2 h l))
    | 0x21, [p, n] => some (.paramRead p n)
    | 0x23, p :: rest => decodeNameSet p rest
    | 0x28, [] => some .nextNotice
    | 0x2A, [m] => some (.noticeEnable m)
    | 0x30, [h, l, p] => some (.patchRecall (join2 h l) p)
    | 0x31, [p, h, l] => some (.patchStore p (join2 h l))
    | 0x32, [h, l] => some (.slotClear (join2 h l))
    | 0x33, h :: l :: rest => decodeSlotWrite (join2 h l) rest
    | 0x34, [h, l] => some (.slotRead (join2 h l))
    | 0x35, [e, a, i] => some (.guardSet e a i)
    | 0x36, [] => some .guardFreeze
    | 0x37, [] => some .guardRead
    | 0x40, [h, l, ss, m] => some (.tuneAdd (join2 h l) ss m)
    | 0x41, [a] =>
      some (if a = 1 then .tuneControlHalt else if a = 2 then .tuneControlStep
        else if a = 3 then .tuneControlCancel else .tuneControlRun a)
    | 0x42, [] => some .tuneRead
    | 0x43, [n] => some (.calRead n)
    | 0x44, [] => some .calSave
    | 0x45, [oh, ol, fh, fl, oe, fe, r, ap] =>
      some (.tuneSettings (join2 oh ol) (join2 fh fl) oe fe r ap)
    | 0x46, [v, x] => some (if x = 1 then .voiceServiceOn v else .voiceServiceOff v x)
    | 0x50, [c, src] => some (.routeSet c src)
    | 0x51, [c] => some (.routeRead c)
    | 0x52, [h, l] => some (.masterPitch (join2 h l))
    | 0x53, t :: rest => decodeScaleSet t rest
    | 0x54, [p, k, h, m, l] => some (.overrideSet p k (join3 h m l))
    | 0x55, [sel, p, k] => some (.overrideClear sel p k)
    | 0x56, [h, l] => some (.seed (join2 h l))
    | 0x60, [n, t, p, m, sl] => some (.potMapSet n t p m sl)
    | 0x61, [n, a, f, p, c] => some (.switchMapSet n a f p c)
    | 0x62, [sl, sh, d] => some (.profileSet sl sh d)
    | 0x63, [p, i, h, l] => some (.scheduleSet p i (join2 h l))
    | 0x64, [f] => some (.focusSet f)
    | 0x65, [n] => some (.potRead n)
    | _, _ => none

/-- The command code table: each code of R189 and R190 with the number of its argument bytes. -/
def codes : List (Nat × Nat) :=
  [(0x10, 3), (0x11, 2), (0x12, 3), (0x13, 2), (0x14, 4), (0x15, 1), (0x16, 1), (0x17, 4),
   (0x20, 4), (0x21, 2), (0x23, 25), (0x28, 0), (0x2A, 1), (0x30, 3), (0x31, 3), (0x32, 2),
   (0x33, 186), (0x34, 2), (0x35, 3), (0x36, 0), (0x37, 0), (0x40, 4), (0x41, 1), (0x42, 0),
   (0x43, 1), (0x44, 0), (0x45, 8), (0x46, 2), (0x50, 2), (0x51, 1), (0x52, 2), (0x53, 25),
   (0x54, 5), (0x55, 3), (0x56, 2), (0x60, 5), (0x61, 5), (0x62, 3), (0x63, 4), (0x64, 1),
   (0x65, 1)]

/-- How many argument bytes follow a command byte (R183); none for a code that the table has not. -/
def argumentBytes (code : Byte) : Option Nat := codes.lookup code.toNat

/-- The command byte is in the command code table (R186). -/
def listed (code : Byte) : Bool := (argumentBytes code).isSome

/-- Byte i of a word, the first byte at bit 0. -/
def byteAt (w i : Nat) : Byte := BitVec.ofNat 8 (w >>> (8 * i))

end Frame

/-- The command that a word spells as the bytes of a frame, the command byte first (R183, R189, R190): the
code picks the command and how many argument bytes it has, and bytes past the word's end are 0. A code
that no row has spells the void frame (R186). A word without a whole byte, as a row of
spec/opcode_table.json has, spells no command (log 6). -/
def decodeTableWord (nbits w : Nat) : Option Instr :=
  if nbits < 8 then none
  else
    let x := w % 2 ^ nbits
    let code := Frame.byteAt x 0
    match Frame.argumentBytes code with
    | some n => Frame.decode ((List.range (n + 1)).map (Frame.byteAt x))
    | none => some (.voidFrame code)

end Sys2Proof
end

