-- ==== Sys2Proof/Config.lean ====
section
/-! DEFINITION. What is fixed for the part: its durations in ticks of the 8 MHz reference clock, its
tuning constants, and the free values of what the spec leaves open (no body, so nothing can be
proved of them). -/

namespace Sys2Proof.Config

/-- Ticks of the 8 MHz reference in one millisecond (00, time). -/
def ticksPerMs : Nat := 8000

/-- The minute timer's period, 60 s (R72). -/
def minuteTicks : Nat := 60000 * ticksPerMs

/-- The retrigger gap, 1 ms (R39, R181). -/
def gapTicks : Nat := ticksPerMs

/-- The period of glide updates, 1 ms (R43). -/
def glideTicks : Nat := ticksPerMs

/-- The settle after the bus grant, 2 ms (R91). -/
def settlingTicks : Nat := 2 * ticksPerMs

/-- The gate window, 80 ms (R93). -/
def windowTicks : Nat := 640000

/-- The settle at each scan address, 20 us (R112). -/
def scanTicks : Nat := 160

/-- One refresh write, 3.75 us (R178). -/
def refreshTicks : Nat := 30

/-- The erase phase, 3 ms (R155). -/
def eraseTicks : Nat := 3 * ticksPerMs

/-- The program phase of a slot, 2 ms (R155). -/
def programTicks : Nat := 2 * ticksPerMs

/-- The program phase of the system record, 4 ms (R75, R155). -/
def sysProgramTicks : Nat := 4 * ticksPerMs

/-- The resume time after a read of another slot, 0.2 ms (R163). -/
def resumeTicks : Nat := 1600

/-- The target count T of a gate (R92). -/
def target : Nat := 290909

/-- The count of a slow gate, 2T (R93). -/
def slowCount : Nat := 581818

/-- The convergence window, in ticks (R96). -/
def tolerance : Nat := 17

/-- The measurements allowed at one breakpoint (R97). -/
def maxIterations : Nat := 6

/-- FREE VALUE (log 5): the conversion that a scan sample reads, where the model's own clock and not
the sender brings the sample about. -/
opaque padcSample : Nat → BitVec 12

/-- FREE VALUE (log 5): the level of SWIN that such a scan sample reads. -/
opaque swinLevel : Nat → Bool

/-- FREE VALUE (log 5): the bits that fail to program, where the model's own clock ends the program
phase: (offset in the image, bits that stayed 1). -/
opaque stuckBits : Nat → List (Fin 128 × Byte)

/-- FREE VALUE (log 7): what an aborted phase left in one byte of its target. -/
opaque abortedBits : Nat → Byte

end Sys2Proof.Config
end

