-- ==== Sys2Proof/Machine/State.lean ====
section
/-! DEFINITION. The state of the part, block by block as the spec gives each block its own, the
reasons a step could stop, and the state in which the part leaves power-on reset. Every time is held
in ticks of the 8 MHz reference (log 13). -/

namespace Sys2Proof.Machine

/-! ## Reasons to stop -/

/-- No condition of the spec stops the part: what it does not take it answers with a code on the link
(00, refusal and clamping; R188), so there is no fault. Nobody raises one; safe. -/
inductive Fault where
  deriving DecidableEq, Repr

/-- Why the model gives a command no meaning. -/
inductive Refusal where
  /-- Raised by an arm of exec for a row without a meaning; safe. No arm raises it. -/
  | notModelled (mnemonic : String)
  deriving DecidableEq, Repr

/-! ## Times that are restarted as they run -/

/-- A time that a command restarts while it runs, the retrigger gap (R39) and the resume time (R163): what
is left of it, and whether an expiry that a restart has overtaken is still to be taken (log 2). -/
structure Countdown where
  left : Nat
  late : Bool
  deriving DecidableEq, Repr

/-! ## Voice Allocator -/

/-- R2, R24, R25. -/
inductive ParkReason where
  | noSignal
  | host
  deriving DecidableEq, Repr

/-- The four bound states of R1 with the time each of RELEASING and MUTING holds (R2). -/
inductive BoundPhase where
  | held
  | sustained
  | releasing (tail : Nat)
  | muting (damp : Nat)
  deriving DecidableEq, Repr

/-- The fields a voice has in its bound states (R2). -/
structure Note where
  part : Part
  key : Nat
  velocity : Nat
  pressure : Nat
  deriving DecidableEq, Repr

/-- The seven states of R1, each with the fields that are present in it (R2). In TUNING the voice is
foreground-tuning or background-tuning, and tuned-while-parked is set when a park reason is kept. -/
inductive VoiceStatus where
  | free
  | bound (note : Note) (phase : BoundPhase)
  | tuning (foreground : Bool) (parked : Option ParkReason)
  | parked (reason : ParkReason)
  deriving DecidableEq, Repr

/-- A voice record (R2). -/
structure Voice where
  status : VoiceStatus
  unisonIndex : Nat
  unisonSize : Nat
  slop : Int
  clamp : Vector Bool 3
  deriving DecidableEq, Repr

/-- A part record (R4). -/
structure PartRec where
  sustain : Bool
  bend : Int
  mod : Nat
  pressure : Nat
  expression : Nat
  pool : VoiceSet
  cursor : VoiceNo
  scale : Fin 2
  heldKeys : List Nat
  solo : Option VoiceSet
  deriving DecidableEq, Repr

structure Val where
  voices : Vector Voice 16
  freeList : List VoiceNo
  startOrder : ByPart (List VoiceNo)
  releaseOrder : List VoiceNo
  parts : ByPart PartRec
  seed : BitVec 16
  deriving DecidableEq, Repr

/-! ## Pitch Unit -/

/-- An entry of the key override map (R46). -/
structure Override where
  part : Part
  key : Nat
  pitch : Nat
  deriving DecidableEq, Repr

/-- A glide record (R40) with the time to its next update, absent while none is due (R43). -/
structure Glide where
  part : Part
  key : Nat
  target : Int
  pos : Int
  timer : Option Nat
  deriving DecidableEq, Repr

structure Ptu where
  master : Int
  scales : Vector (Vector Int 12) 2
  overrides : List Override
  glide : Vector Glide 16
  unison : Vector Int 16
  codes : Vector Nat 48
  deriving DecidableEq, Repr

/-! ## Calibration Store -/

/-- The four failure reasons of R67. -/
inductive FailReason where
  | noSignal
  | notConverged
  | outOfRange
  | nonMonotonic
  deriving DecidableEq, Repr

/-- R67: the failure reason is present with FAILED only. -/
inductive CalStatus where
  | nominal
  | tuned
  | failed (reason : FailReason)
  deriving DecidableEq, Repr

/-- A committed source record (R67). -/
structure SourceRec where
  codes : Vector Nat 9
  status : CalStatus
  age : Nat
  deriving DecidableEq, Repr

/-- The six tune settings (R70). -/
structure TuneSettings where
  oscGain : Nat
  fltGain : Nat
  oscEdge : Edge
  fltEdge : Edge
  retune : Nat
  autoPark : Bool
  deriving DecidableEq, Repr

structure Cal where
  records : Vector SourceRec 48
  settings : TuneSettings
  minute : Nat
  damaged : Bool
  deriving DecidableEq, Repr

/-! ## Tune Engine -/

inductive EntryMode where
  | fg
  | bg
  deriving DecidableEq, Repr

/-- An entry of the tune plan (R80). -/
structure Entry where
  voice : VoiceNo
  src : SourceIdx
  mode : EntryMode
  deriving DecidableEq, Repr

inductive TuneMode where
  | run
  | halt
  | step
  deriving DecidableEq, Repr

/-- What runs from the first selected edge on: the capture counter, and how many selected edges have
come after the first (R92). -/
structure Capture where
  count : Nat
  edges : Nat
  deriving DecidableEq, Repr

/-- The activity (R83, R90 to R93): SETTLING holds the time left of its 2 ms; GATING the edge kept
for the gate, the time left of the window, and the capture once it runs. -/
inductive Activity where
  | idle
  | busWait
  | settling (left : Nat)
  | gating (edge : Edge) (window : Nat) (capture : Option Capture)
  deriving DecidableEq, Repr

/-- The current entry with its breakpoint, iteration count, trial code and work copy (R83). -/
structure Current where
  voice : VoiceNo
  src : SourceIdx
  k : Fin 9
  iter : Nat
  trial : Nat
  work : Vector (Option Nat) 9
  deriving DecidableEq, Repr

structure Tne where
  plan : List Entry
  mode : TuneMode
  activity : Activity
  current : Option Current
  lastM : Option Nat
  failed : VoiceSet
  deriving DecidableEq, Repr

/-! ## Panel Scanner -/

inductive Requester where
  | scanner
  | engine
  deriving DecidableEq, Repr

inductive ProfileName where
  | normal
  | tune
  deriving DecidableEq, Repr

/-- A schedule profile: interval in ms and group mask (R113). -/
structure Schedule where
  interval : Nat
  mask : BitVec 16
  deriving DecidableEq, Repr

/-- The scanner's phase (R111); SCANNING holds the time left of the address settle (R112). -/
inductive ScanPhase where
  | resting
  | busWait
  | scanning (settle : Nat)
  deriving DecidableEq, Repr

/-- A pot record (R115). -/
structure Pot where
  acc : Nat
  stable : Option Nat
  slot : Fin 4
  deriving DecidableEq, Repr

/-- A smoothing profile (R116). -/
structure Smoothing where
  shift : Nat
  deadband : Nat
  deriving DecidableEq, Repr

/-- A switch record (R123). -/
structure Switch where
  closed : Bool
  run : Nat
  deriving DecidableEq, Repr

structure Psc where
  holder : Option Requester
  scannerWaits : Bool
  engineWaits : Bool
  lastHolder : Option Requester
  addr : Fin 16
  normal : Schedule
  tune : Schedule
  inUse : ProfileName
  sweepTimer : Option Nat
  startPending : Bool
  phase : ScanPhase
  groups : List (Fin 11)
  pots : Vector Pot 96
  profiles : Vector Smoothing 4
  switches : Vector Switch 32
  deriving DecidableEq, Repr

/-! ## Edit Buffer Unit -/

/-- What a patch is, in an edit buffer and in a slot (R128, R151). -/
structure Patch where
  name : Name
  category : Nat
  params : Vector Nat 80
  deriving DecidableEq, Repr

/-- An edit buffer (R128). -/
structure EditBuffer where
  patch : Patch
  modified : Bool
  deriving DecidableEq, Repr

/-- The panel focus (R139). -/
inductive Focus where
  | a
  | b
  | both
  deriving DecidableEq, Repr

/-- The targets other than NONE (R137, R138). -/
inductive Target where
  | a
  | b
  | focus
  | both
  deriving DecidableEq, Repr

inductive TakeoverMode where
  | jump
  | catching
  | scale
  deriving DecidableEq, Repr

/-- What a pot map entry with a target other than NONE holds (R137). -/
structure PotLink where
  target : Target
  param : ParamNo
  mode : TakeoverMode
  deriving DecidableEq, Repr

/-- A pot map entry (R137); no link is target NONE. -/
structure PotEntry where
  link : Option PotLink
  slot : Fin 4
  deriving DecidableEq, Repr

/-- A switch map entry (R138). -/
inductive SwitchEntry where
  | hostOnly
  | step (target : Target) (param : ParamNo) (count : Nat)
  | focus (value : Focus)
  deriving DecidableEq, Repr

/-- A takeover record's state (R140). -/
inductive Takeover where
  | caught
  | jumpPending
  | waitAbove
  | waitBelow
  | scaling
  deriving DecidableEq, Repr

structure Ebu where
  buffers : ByPart EditBuffer
  potMap : Vector PotEntry 96
  switchMap : Vector SwitchEntry 32
  focus : Focus
  takeover : ByPart (Vector Takeover 96)
  deriving DecidableEq, Repr

/-! ## Slot Memory Controller -/

/-- The bank guard (R157). -/
structure Guard where
  extent : Nat
  high : Bool
  invert : Bool
  deriving DecidableEq, Repr

/-- The contents of the system record, as stored numbers (R75). -/
structure SysRecord where
  codes : Vector (Vector Nat 9) 48
  status : Vector Nat 48
  guard : Guard
  check : Nat
  deriving DecidableEq, Repr

/-- The system area: its state byte and what a load can take from it (log 8). -/
structure SysArea where
  state : Byte
  contents : Option SysRecord
  deriving DecidableEq, Repr

/-- Operation, target and staging image of a write (R154). -/
inductive Job where
  | store (slot : SlotNo) (image : List Byte)
  | write (slot : SlotNo) (image : List Byte)
  | clear (slot : SlotNo)
  | calSave (record : SysRecord)
  | guardSet (record : SysRecord)
  deriving DecidableEq, Repr

inductive NvPhase where
  | erase
  | program
  deriving DecidableEq, Repr

/-- The write in flight (R154); `resume` is the suspension with its own remaining time (R163). -/
structure NvWrite where
  job : Job
  phase : NvPhase
  remaining : Nat
  resume : Option Countdown
  deriving DecidableEq, Repr

structure Smc where
  slots : List Host.Cell
  sys : SysArea
  write : Option NvWrite
  guard : Guard
  frozen : Bool
  deriving DecidableEq, Repr

/-! ## CV Output Unit -/

/-- The four performance controls (R5). -/
inductive Control where
  | bend
  | mod
  | pressure
  | expression
  deriving DecidableEq, Repr

/-- The source catalogue (R171). -/
inductive CvSource where
  | pitch (n : SourceNo)
  | velocity (v : VoiceNo)
  | pressure (v : VoiceNo)
  | param (part : Part) (n : Fin 64)
  | control (part : Part) (c : Control)
  | zero
  deriving DecidableEq, Repr

/-- The trial code override (R177). -/
structure Trial where
  source : SourceNo
  code : Nat
  deriving DecidableEq, Repr

structure Cvo where
  route : Vector CvSource 128
  presented : Vector Nat 128
  trialMark : Vector Bool 128
  trial : Option Trial
  gaps : Vector (Option Countdown) 16
  next : ChannelNo
  refresh : Nat
  shifted : BitVec 24
  deriving DecidableEq, Repr

/-! ## Link Interface -/

/-- The frame decoder (R186): what became of the frame in progress. -/
inductive FrameState where
  | idle
  | receiving
  | taken
  | void
  deriving DecidableEq, Repr

/-- The kinds of link error (R186). -/
inductive LinkFault where
  | offBoundary
  | short
  | unknown
  deriving DecidableEq, Repr

/-- The operations of a nonvolatile write, as NV RESULT names them (R154, R193). -/
inductive NvOp where
  | store
  | write
  | clear
  | calSave
  | guardSet
  deriving DecidableEq, Repr

/-- The NV RESULT contents (R156); no slot is the system area. -/
structure NvResult where
  op : NvOp
  slot : Option SlotNo
  ok : Bool
  deriving DecidableEq, Repr

/-- The notice set (R192): a LINK ERROR and an NV RESULT mark are present with their contents. -/
structure Notices where
  linkError : Option LinkFault
  nvResult : Option NvResult
  voiceParked : Vector Bool 16
  tuneFailed : Vector Bool 48
  tuneDone : Bool
  switch : Vector Bool 32
  potMoved : Vector Bool 16
  paramChanged : ByPart (Vector Bool 80)
  deriving DecidableEq, Repr

/-- The link's registers and the frame in progress. `deaf`: the frame in progress is ignored until nCS
rises (R195). `tail`: a reset found a frame whose command had been taken, and nCS has neither risen nor
fallen since, so that what may be left of it sets no mark (R195, log 9). -/
structure Lnk where
  frame : FrameState
  bytes : List Byte
  mode3 : Bool
  deaf : Bool
  tail : Bool
  status : Byte
  turnaround : Byte
  answer : List Byte
  notices : Notices
  enable : BitVec 8
  deriving DecidableEq, Repr

/-! ## The whole part -/

/-- Running, or held in one of the two resets (R195). -/
inductive Running where
  | running
  | inPowerOnReset
  | inPinReset
  deriving DecidableEq, Repr

/-- The state of the part. `free` is the model's own: it picks the next free value (log 5). -/
structure State where
  pending : List Instr
  run : Running
  free : Nat
  val : Val
  ptu : Ptu
  cal : Cal
  tne : Tne
  psc : Psc
  ebu : Ebu
  smc : Smc
  cvo : Cvo
  lnk : Lnk
  deriving DecidableEq, Repr

/-! ## Reset values, as each block's chapter gives them -/

/-- A voice after reset (R27). -/
def Voice.reset : Voice :=
  { status := .free, unisonIndex := 0, unisonSize := 1, slop := 0, clamp := Vector.replicate 3 false }

/-- A part record after reset (R4). -/
def PartRec.reset : PartRec :=
  { sustain := false, bend := 0, mod := 0, pressure := 0, expression := 0, pool := 0xFFFF,
    cursor := 15, scale := 0, heldKeys := [], solo := none }

/-- R27. -/
def Val.reset : Val :=
  { voices := Vector.replicate 16 Voice.reset, freeList := List.finRange 16,
    startOrder := ⟨[], []⟩, releaseOrder := [], parts := ⟨PartRec.reset, PartRec.reset⟩,
    seed := 0xACE1 }

/-- R40. -/
def Glide.reset : Glide := { part := .A, key := 60, target := 60000, pos := 60000, timer := none }

/-- R66; the source codes are those of nominal records, before the load. -/
def Ptu.reset : Ptu :=
  { master := 0, scales := Vector.replicate 2 (Vector.replicate 12 0), overrides := [],
    glide := Vector.replicate 16 Glide.reset, unison := Vector.replicate 16 0,
    codes := tabulate fun n => if n.val % 3 = 2 then 56474 else 24896 }

/-- The nominal codes (R60). -/
def nominalCodes : Vector Nat 9 := tabulate fun k => 4096 + 6400 * k.val

/-- A nominal record (R77). -/
def SourceRec.nominal : SourceRec := { codes := nominalCodes, status := .nominal, age := 0 }

/-- R70. -/
def TuneSettings.reset : TuneSettings :=
  { oscGain := 2080, fltGain := 2080, oscEdge := .rising, fltEdge := .rising, retune := 0,
    autoPark := true }

/-- R79, with the records as a failing load leaves them (R77). -/
def Cal.reset : Cal :=
  { records := Vector.replicate 48 SourceRec.nominal, settings := TuneSettings.reset,
    minute := Config.minuteTicks, damaged := true }

/-- R83, R105. -/
def Tne.reset : Tne :=
  { plan := [], mode := .halt, activity := .idle, current := none, lastM := none, failed := 0 }

/-- R126, with no sweep begun. DESIGN CHOICE (log 19): until the first sweep start, the profile in use
is NORMAL and the sweep timer does not run. -/
def Psc.reset : Psc :=
  { holder := none, scannerWaits := false, engineWaits := false, lastHolder := none, addr := 0,
    normal := { interval := 4, mask := 0x063F }, tune := { interval := 8, mask := 0x0207 },
    inUse := .normal, sweepTimer := none, startPending := false, phase := .resting, groups := [],
    pots := Vector.replicate 96 { acc := 0, stable := none, slot := 0 },
    profiles := tabulate fun i =>
      match i with
      | 0 => { shift := 2, deadband := 1 }
      | 1 => { shift := 4, deadband := 2 }
      | 2 => { shift := 0, deadband := 0 }
      | 3 => { shift := 6, deadband := 4 },
    switches := Vector.replicate 32 { closed := false, run := 0 } }

/-- The init patch (R128, R133): INIT and 19 spaces. -/
def Patch.init : Patch :=
  { name := tabulate fun i =>
      match i.val with
      | 0 => 0x49
      | 1 => 0x4E
      | 2 => 0x49
      | 3 => 0x54
      | _ => 0x20,
    category := 0,
    params := tabulate fun n =>
      match n.val with
      | 71 => 82
      | 72 => 256
      | 74 => 512
      | 75 => 512
      | 76 => 1023
      | 78 => 512
      | 79 => 256
      | _ => 0 }

def EditBuffer.reset : EditBuffer := { patch := Patch.init, modified := false }

/-- The pot map after reset (R137). -/
def PotEntry.reset (n : PotNo) : PotEntry :=
  { link := if h : n.val < 80 then some { target := .focus, param := ⟨n.val, h⟩, mode := .catching }
      else none,
    slot := 0 }

/-- R150. -/
def Ebu.reset : Ebu :=
  { buffers := ⟨EditBuffer.reset, EditBuffer.reset⟩, potMap := tabulate PotEntry.reset,
    switchMap := Vector.replicate 32 .hostOnly, focus := .a,
    takeover := ⟨Vector.replicate 96 .jumpPending, Vector.replicate 96 .jumpPending⟩ }

/-- "All banks protected" (R77). -/
def Guard.all : Guard := { extent := 5, high := false, invert := false }

/-- R169, over an erased memory (log 6). -/
def Smc.reset : Smc :=
  { slots := [], sys := { state := 0xFF, contents := none }, write := none, guard := Guard.all,
    frozen := false }

/-- The route table after reset (R173). -/
def CvSource.reset (c : ChannelNo) : CvSource :=
  if h : c.val < 48 then .pitch ⟨c.val, h⟩
  else if h : c.val < 64 then .velocity ⟨c.val - 48, by omega⟩
  else if h : c.val < 80 then .pressure ⟨c.val - 64, by omega⟩
  else .zero

/-- R182. DESIGN CHOICE: the first refresh write is one tick away (log 11) and the DAC bits are 0 (log
15). -/
def Cvo.reset : Cvo :=
  { route := tabulate CvSource.reset, presented := Vector.replicate 128 0,
    trialMark := Vector.replicate 128 false, trial := none, gaps := Vector.replicate 16 none,
    next := 0, refresh := 1, shifted := 0 }

/-- The empty notice set (R196). -/
def Notices.empty : Notices :=
  { linkError := none, nvResult := none, voiceParked := Vector.replicate 16 false,
    tuneFailed := Vector.replicate 48 false, tuneDone := false, switch := Vector.replicate 32 false,
    potMoved := Vector.replicate 16 false,
    paramChanged := ⟨Vector.replicate 80 false, Vector.replicate 80 false⟩ }

/-- R196. DESIGN CHOICE (log 15): SPI mode 0, status and turnaround bytes 0. -/
def Lnk.reset : Lnk :=
  { frame := .idle, bytes := [], mode3 := false, deaf := false, tail := false, status := 0,
    turnaround := 0, answer := [], notices := Notices.empty, enable := 0xFF }

/-- The state in which a part with erased nonvolatile memory leaves power-on reset (log 6): the reset
values above, with the first sweep begun and its first group granted (R111, R195). -/
def State.reset : State :=
  { pending := [], run := .running, free := 0, val := Val.reset, ptu := Ptu.reset, cal := Cal.reset,
    tne := Tne.reset,
    psc := { Psc.reset with
      holder := some .scanner, lastHolder := some .scanner,
      sweepTimer := some (4 * Config.ticksPerMs), phase := .scanning Config.scanTicks,
      groups := [0, 1, 2, 3, 4, 5, 9, 10] },
    ebu := Ebu.reset, smc := Smc.reset, cvo := Cvo.reset, lnk := Lnk.reset }

end Sys2Proof.Machine
end

