-- ==== Sys2Proof/Machine/Ops.lean ====
section
/-! DEFINITION. The operations that every block shares: the roundings of the spec, the voice table
and the ordered lists over it, retrigger gaps, marks, and the byte memory of the slots. -/

namespace Sys2Proof.Machine

/-! ## Arithmetic (00, rounding) -/

def clampNat (lo hi x : Nat) : Nat := max lo (min hi x)

def clampInt (lo hi x : Int) : Int := max lo (min hi x)

/-- The quotient n / d, rounded half away from zero. -/
def rhaz (n : Int) (d : Nat) : Int :=
  if 0 ≤ n then (2 * n + d) / (2 * d) else -((2 * -n + d) / (2 * d))

/-- The quotient n / d, truncated toward zero. -/
def trunc (n : Int) (d : Nat) : Int := n.tdiv d

/-! ## Times that are restarted as they run (R39, R163) -/

/-- The time begun anew. Where the old one had run out and its expiry had not been taken, the restart has
overtaken that expiry (log 2). -/
def restart (old : Option Countdown) (ticks : Nat) : Countdown :=
  { left := ticks
    late := match old with
      | some x => x.late || x.left == 0
      | none => false }

/-- What an expiry leaves of the time: one that a restart has overtaken leaves it running. -/
def Countdown.expire (x : Countdown) : Option Countdown :=
  if x.late then some { x with late := false } else none

/-! ## Sources -/

/-- The source number 3v + s (00, voices, parts and sources). -/
def sourceNo (v : VoiceNo) (i : SourceIdx) : SourceNo := ⟨3 * v.val + i.val, by omega⟩

def sourceVoice (n : SourceNo) : VoiceNo := ⟨n.val / 3, by omega⟩

def sourceIdx (n : SourceNo) : SourceIdx := ⟨n.val % 3, by omega⟩

/-! ## Voice sets -/

def inSet (m : VoiceSet) (v : VoiceNo) : Bool := m.getLsbD v.val

def setAdd (m : VoiceSet) (v : VoiceNo) : VoiceSet := m ||| (1#16 <<< v.val)

def setDrop (m : VoiceSet) (v : VoiceNo) : VoiceSet := m &&& ~~~(1#16 <<< v.val)

def setOf (l : List VoiceNo) : VoiceSet := l.foldl setAdd 0

/-- The members in ascending voice order. -/
def setList (m : VoiceSet) : List VoiceNo := (List.finRange 16).filter fun v => inSet m v

/-! ## The voice table -/

def State.voice (s : State) (v : VoiceNo) : Voice := look s.val.voices v

def State.status (s : State) (v : VoiceNo) : VoiceStatus := (s.voice v).status

def State.part (s : State) (p : Part) : PartRec := s.val.parts.get p

def State.setVoice (s : State) (v : VoiceNo) (x : Voice) : State :=
  { s with val := { s.val with voices := put s.val.voices v x } }

def State.setStatus (s : State) (v : VoiceNo) (x : VoiceStatus) : State :=
  s.setVoice v { s.voice v with status := x }

def State.modPart (s : State) (p : Part) (f : PartRec → PartRec) : State :=
  { s with val := { s.val with parts := s.val.parts.modify p f } }

def State.setFreeList (s : State) (l : List VoiceNo) : State :=
  { s with val := { s.val with freeList := l } }

def State.setStartOrder (s : State) (p : Part) (l : List VoiceNo) : State :=
  { s with val := { s.val with startOrder := s.val.startOrder.set p l } }

def State.setReleaseOrder (s : State) (l : List VoiceNo) : State :=
  { s with val := { s.val with releaseOrder := l } }

def State.setGap (s : State) (v : VoiceNo) (t : Option Countdown) : State :=
  { s with cvo := { s.cvo with gaps := put s.cvo.gaps v t } }

/-- A member leaves a solo group; the group becomes absent with its last member (R31). -/
def soloDrop (v : VoiceNo) : Option VoiceSet → Option VoiceSet
  | none => none
  | some m => if setDrop m v = 0 then none else some (setDrop m v)

/-- The list without a voice. -/
def without (v : VoiceNo) (l : List VoiceNo) : List VoiceNo := l.filter (· != v)

/-- A voice leaves whatever list its state put it on, its part's solo group and its retrigger gap
(R3, R31, R39). A voice on none of them leaves nothing. -/
def State.detach (s : State) (v : VoiceNo) : State :=
  { s with
    val := { s.val with
      freeList := without v s.val.freeList
      startOrder := ⟨without v s.val.startOrder.a, without v s.val.startOrder.b⟩
      releaseOrder := without v s.val.releaseOrder
      parts := ⟨{ s.val.parts.a with solo := soloDrop v s.val.parts.a.solo },
                { s.val.parts.b with solo := soloDrop v s.val.parts.b.solo }⟩ }
    cvo := { s.cvo with gaps := put s.cvo.gaps v none } }

/-- The note of a voice in a bound state. -/
def VoiceStatus.note? : VoiceStatus → Option Note
  | .bound n _ => some n
  | _ => none

def VoiceStatus.isFree : VoiceStatus → Bool
  | .free => true
  | _ => false

def VoiceStatus.isHeld : VoiceStatus → Bool
  | .bound _ .held => true
  | _ => false

def VoiceStatus.isSustained : VoiceStatus → Bool
  | .bound _ .sustained => true
  | _ => false

def VoiceStatus.isReleasing : VoiceStatus → Bool
  | .bound _ (.releasing _) => true
  | _ => false

def VoiceStatus.isMuting : VoiceStatus → Bool
  | .bound _ (.muting _) => true
  | _ => false

/-- Foreground-tuning (R1). -/
def VoiceStatus.isFgTuning : VoiceStatus → Bool
  | .tuning true _ => true
  | _ => false

/-- Background-tuning (R1). -/
def VoiceStatus.isBgTuning : VoiceStatus → Bool
  | .tuning false _ => true
  | _ => false

/-- TUNING, of either kind. -/
def VoiceStatus.isTuning : VoiceStatus → Bool
  | .tuning _ _ => true
  | _ => false

/-- Bound to this part. -/
def VoiceStatus.onPart (x : VoiceStatus) (p : Part) : Bool :=
  match x with
  | .bound n _ => n.part == p
  | _ => false

/-- Bound to this part on this key. -/
def VoiceStatus.onKey (x : VoiceStatus) (p : Part) (key : Nat) : Bool :=
  match x with
  | .bound n _ => n.part == p && n.key == key
  | _ => false

/-- HELD, SUSTAINED or MUTING: the note still sounds or will (R9, R20). -/
def VoiceStatus.isSounding : VoiceStatus → Bool
  | .bound _ (.releasing _) => false
  | .bound _ _ => true
  | _ => false

/-- The park reason a voice has (R2). -/
def VoiceStatus.reason? : VoiceStatus → Option ParkReason
  | .parked r => some r
  | .tuning _ r => r
  | _ => none

/-- Ascending unison index; equal indices keep the order given (log 14). -/
def State.byUnison (s : State) (l : List VoiceNo) : List VoiceNo :=
  l.insertionSort fun v w => (s.voice v).unisonIndex ≤ (s.voice w).unisonIndex

/-! ## Transitions of the voice record -/

/-- A voice enters FREE: off every other list, at the free-list tail (R3). -/
def State.enterFree (s : State) (v : VoiceNo) : State :=
  let s := (s.detach v).setStatus v .free
  s.setFreeList (s.val.freeList ++ [v])

/-- A bound voice enters RELEASING with a tail in ticks (R19). -/
def State.enterReleasing (s : State) (v : VoiceNo) (tail : Nat) : State :=
  match s.status v with
  | .bound n _ =>
    let s := (s.setStatus v (.bound n (.releasing tail))).setGap v none
    s.setReleaseOrder (without v s.val.releaseOrder ++ [v])
  | _ => s

/-- A bound voice changes its phase and nothing else. -/
def State.setPhase (s : State) (v : VoiceNo) (ph : BoundPhase) : State :=
  match s.status v with
  | .bound n _ => s.setStatus v (.bound n ph)
  | _ => s

/-- A bound voice's note is rewritten. -/
def State.modNote (s : State) (v : VoiceNo) (f : Note → Note) : State :=
  match s.status v with
  | .bound n ph => s.setStatus v (.bound (f n) ph)
  | _ => s

/-- A voice moves to the tail of a part's start-order list (R3). -/
def State.toStartTail (s : State) (p : Part) (v : VoiceNo) : State :=
  s.setStartOrder p (without v (s.val.startOrder.get p) ++ [v])

/-! ## Marks (R192) -/

/-- One mark of the notice set, with its contents where it has any. -/
inductive Mark where
  | linkError (kind : LinkFault)
  | nvResult (r : NvResult)
  | voiceParked (v : VoiceNo)
  | tuneFailed (n : SourceNo)
  | tuneDone
  | switch (n : SwitchNo)
  /-- POT MOVED of pot 80 + i. -/
  | potMoved (i : Fin 16)
  | paramChanged (p : Part) (n : ParamNo)
  deriving DecidableEq, Repr

/-- Setting a mark that is present leaves one mark; contents are replaced (R192). -/
def Notices.set (n : Notices) : Mark → Notices
  | .linkError k => { n with linkError := some k }
  | .nvResult r => { n with nvResult := some r }
  | .voiceParked v => { n with voiceParked := put n.voiceParked v true }
  | .tuneFailed i => { n with tuneFailed := put n.tuneFailed i true }
  | .tuneDone => { n with tuneDone := true }
  | .switch i => { n with switch := put n.switch i true }
  | .potMoved i => { n with potMoved := put n.potMoved i true }
  | .paramChanged p i => { n with paramChanged := n.paramChanged.modify p fun t => put t i true }

/-- Clearing a mark, with its contents (R193). -/
def Notices.clear (n : Notices) : Mark → Notices
  | .linkError _ => { n with linkError := none }
  | .nvResult _ => { n with nvResult := none }
  | .voiceParked v => { n with voiceParked := put n.voiceParked v false }
  | .tuneFailed i => { n with tuneFailed := put n.tuneFailed i false }
  | .tuneDone => { n with tuneDone := false }
  | .switch i => { n with switch := put n.switch i false }
  | .potMoved i => { n with potMoved := put n.potMoved i false }
  | .paramChanged p i => { n with paramChanged := n.paramChanged.modify p fun t => put t i false }

/-- The marks present, in the priority order of R192. -/
def Notices.present (n : Notices) : List Mark :=
  (n.linkError.map .linkError).toList ++ (n.nvResult.map .nvResult).toList
    ++ ((List.finRange 16).filter fun v => look n.voiceParked v).map .voiceParked
    ++ ((List.finRange 48).filter fun i => look n.tuneFailed i).map .tuneFailed
    ++ (if n.tuneDone then [.tuneDone] else [])
    ++ ((List.finRange 32).filter fun i => look n.switch i).map .switch
    ++ ((List.finRange 16).filter fun i => look n.potMoved i).map .potMoved
    ++ ((List.finRange 80).filter fun i => look n.paramChanged.a i).map (.paramChanged .A)
    ++ ((List.finRange 80).filter fun i => look n.paramChanged.b i).map (.paramChanged .B)

/-- The class of a mark, 1..8 in the priority order of R192. -/
def Mark.cls : Mark → Nat
  | .linkError _ => 1
  | .nvResult _ => 2
  | .voiceParked _ => 3
  | .tuneFailed _ => 4
  | .tuneDone => 5
  | .switch _ => 6
  | .potMoved _ => 7
  | .paramChanged _ _ => 8

/-- The mark's class is enabled: enable bit class − 1 (R192, R194). -/
def Mark.enabled (m : Mark) (mask : BitVec 8) : Bool := mask.getLsbD (m.cls - 1)

def State.mark (s : State) (m : Mark) : State :=
  { s with lnk := { s.lnk with notices := s.lnk.notices.set m } }

/-! ## The slot memory: one byte an address, canonical form (log 6) -/

/-- An unlisted byte reads as erased memory does (R151). -/
def erasedByte : Byte := 0xFF

/-- The byte at an address. -/
def memRead : List Host.Cell → Nat → Byte
  | [], _ => erasedByte
  | (b, x) :: m, a => if b = a then x else memRead m a

/-- The memory with one byte written, in canonical form again. -/
def memWrite : List Host.Cell → Nat → Byte → List Host.Cell
  | [], a, x => if x = erasedByte then [] else [(a, x)]
  | (b, y) :: m, a, x =>
    if b < a then (b, y) :: memWrite m a x
    else
      let rest := if b = a then m else (b, y) :: m
      if x = erasedByte then rest else (a, x) :: rest

/-- Addresses strictly rising from `lo` on, and no entry that equals an unlisted byte. -/
def memWfFrom : Nat → List Host.Cell → Bool
  | _, [] => true
  | lo, (a, x) :: m => decide (lo ≤ a) && x != erasedByte && memWfFrom (a + 1) m

/-- The canonical form of the slot memory. -/
def Memory.wf (m : List Host.Cell) : Bool := memWfFrom 0 m

/-- The bytes written one after another from an address on. -/
def memWriteAll : List Host.Cell → Nat → List Byte → List Host.Cell
  | m, _, [] => m
  | m, a, x :: xs => memWriteAll (memWrite m a x) (a + 1) xs

/-- The address of a slot's state byte. -/
def slotBase (n : SlotNo) : Nat := 128 * n.val

/-- A slot's 128 bytes as stored (R151). -/
def slotImage (m : List Host.Cell) (n : SlotNo) : List Byte :=
  (List.range 128).map fun i => memRead m (slotBase n + i)

end Sys2Proof.Machine
end

