-- ==== Sys2Proof/Machine/Flags.lean ====
section
/-! DEFINITION. What is formed from the state and held nowhere: the status byte (R184), nATTN (R194),
the voice lines (R1, R180, R181), the strobes (R106), the selected schedule profile (R113) and what SDO
clocks out (R183, R185, R186). -/

namespace Sys2Proof.Machine

/-- nATTN is asserted: a mark of an enabled class is present, outside reset (R194, R195). -/
def attn (s : State) : Bool :=
  s.run == .running && s.lnk.notices.present.any fun m => m.enabled s.lnk.enable

/-- Bit n of a byte, set or clear. -/
def bit (n : Nat) (x : Bool) : Byte := if x then 1#8 <<< n else 0

/-- The tune plan holds an FG entry. -/
def fgTune (s : State) : Bool := s.tne.plan.any fun e => e.mode == .fg

/-- The write in flight is suspended (R154). -/
def nvSuspended (s : State) : Bool :=
  match s.smc.write with
  | some w => w.resume.isSome
  | none => false

/-- The status byte (R184). -/
def statusByte (s : State) : Byte :=
  bit 7 (attn s) ||| bit 6 s.smc.write.isSome ||| bit 5 (nvSuspended s)
    ||| bit 4 (s.tne.activity != .idle) ||| bit 3 (s.tne.mode == .halt) ||| bit 2 (fgTune s)
    ||| bit 1 s.smc.frozen ||| bit 0 s.cal.damaged

/-- GATEv is open: HELD or SUSTAINED, outside a retrigger gap (R1, R181). -/
def gateOpen (s : State) (v : VoiceNo) : Bool :=
  ((s.status v).isHeld || (s.status v).isSustained) && (look s.cvo.gaps v).isNone

/-- MUTEv is asserted in MUTING, TUNING and PARKED (R1). -/
def muteAsserted (s : State) (v : VoiceNo) : Bool :=
  match s.status v with
  | .bound _ (.muting _) => true
  | .tuning _ _ => true
  | .parked _ => true
  | _ => false

/-- TUNEv is asserted in TUNING (R1). -/
def tuneAsserted (s : State) (v : VoiceNo) : Bool := (s.status v).isTuning

/-- The strobe asserted on GS0..GS10: the group of the scanner, or probe group 6 + s of the engine's
current entry (R91, R106). -/
def strobe (s : State) : Option (Fin 11) :=
  match s.psc.holder with
  | some .scanner => s.psc.groups.head?
  | some .engine => s.tne.current.map fun c => ⟨6 + c.src.val, by omega⟩
  | none => none

/-- The selected schedule profile follows the engine's activity (R113). -/
def selectedProfile (s : State) : ProfileName := if s.tne.activity = .idle then .normal else .tune

/-- The part takes commands from the link: it is out of reset, and nCS did not fall before it left
(R195). -/
def hears (s : State) : Bool := s.run == .running && !s.lnk.deaf

/-- Byte i of the frame in progress as SDO clocks it out, none while SDO is high-impedance: the status
byte (R184), 0x00 up to the last argument byte (R183), then the turnaround byte, the answer and 0x00
after it (R185). A frame whose command is not taken goes on with 0x00 (R186). With no frame, in reset,
and through a frame that is ignored, SDO is high-impedance (R183, R195, log 9). -/
def sdo (s : State) (i : Nat) : Option Byte :=
  if hears s then
    match s.lnk.frame, i with
    | .idle, _ => none
    | _, 0 => some s.lnk.status
    | .taken, _ =>
      some (if i < s.lnk.bytes.length then 0
        else if i = s.lnk.bytes.length then s.lnk.turnaround
        else s.lnk.answer.getD (i - (s.lnk.bytes.length + 1)) 0)
    | _, _ => some 0
  else none

end Sys2Proof.Machine
end

