-- ==== Sys2Proof/Machine/Operands.lean ====
section
/-! DEFINITION. The arguments of host commands as R187 and R188 read them (a structural argument that
names nothing is none), the bytes of answers, and how a host command or an event is taken. -/

namespace Sys2Proof.Machine

abbrev Outcome := Host.Outcome State Fault Refusal

/-! ## Structural arguments -/

/-- A number that names one of n things. -/
def fin? (n x : Nat) : Option (Fin n) := if h : x < n then some ⟨x, h⟩ else none

def part? (b : Byte) : Option Part :=
  match b.toNat with
  | 0 => some .A
  | 1 => some .B
  | _ => none

def voice? (b : Byte) : Option VoiceNo := fin? 16 b.toNat

def key? (b : Byte) : Option Nat := if b.toNat ≤ 127 then some b.toNat else none

/-- An on/off setting. -/
def onOff? (b : Byte) : Option Bool :=
  match b.toNat with
  | 0 => some false
  | 1 => some true
  | _ => none

def control? (b : Byte) : Option Control :=
  match b.toNat with
  | 0 => some .bend
  | 1 => some .mod
  | 2 => some .pressure
  | 3 => some .expression
  | _ => none

/-- The target of ALL NOTES CLEAR: the parts named, A before B. -/
def clearTarget? (b : Byte) : Option (List Part) :=
  match b.toNat with
  | 0 => some [.A]
  | 1 => some [.B]
  | 2 => some [.A, .B]
  | _ => none

def entryMode? (b : Byte) : Option EntryMode :=
  match b.toNat with
  | 0 => some .fg
  | 1 => some .bg
  | _ => none

def edge? (b : Byte) : Option Edge :=
  match b.toNat with
  | 0 => some .rising
  | 1 => some .falling
  | _ => none

/-- Pot target codes 1..4, the targets other than NONE. -/
def target? (b : Byte) : Option Target :=
  match b.toNat with
  | 1 => some .a
  | 2 => some .b
  | 3 => some .focus
  | 4 => some .both
  | _ => none

def takeoverMode? (b : Byte) : Option TakeoverMode :=
  match b.toNat with
  | 0 => some .jump
  | 1 => some .catching
  | 2 => some .scale
  | _ => none

def focus? (b : Byte) : Option Focus :=
  match b.toNat with
  | 0 => some .a
  | 1 => some .b
  | 2 => some .both
  | _ => none

def profileName? (b : Byte) : Option ProfileName :=
  match b.toNat with
  | 0 => some .normal
  | 1 => some .tune
  | _ => none

/-- An anchor: HIGH or LOW. -/
def anchor? (b : Byte) : Option Bool := onOff? b

def slot? (w : BitVec 16) : Option SlotNo := fin? 256 w.toNat

/-- A route source of the catalogue (R171); 216..254 name none. -/
def cvSource? (b : Byte) : Option CvSource :=
  let n := b.toNat
  if h : n < 48 then some (.pitch ⟨n, h⟩)
  else if h : n < 64 then some (.velocity ⟨n - 48, by omega⟩)
  else if h : n < 80 then some (.pressure ⟨n - 64, by omega⟩)
  else if h : n < 144 then some (.param .A ⟨n - 80, by omega⟩)
  else if h : n < 208 then some (.param .B ⟨n - 144, by omega⟩)
  else match n with
    | 208 => some (.control .A .bend)
    | 209 => some (.control .A .mod)
    | 210 => some (.control .A .pressure)
    | 211 => some (.control .A .expression)
    | 212 => some (.control .B .bend)
    | 213 => some (.control .B .mod)
    | 214 => some (.control .B .pressure)
    | 215 => some (.control .B .expression)
    | 255 => some .zero
    | _ => none

/-- A name byte outside 0x20..0x7E becomes a space (R132). -/
def nameByte (b : Byte) : Byte := if 0x20 ≤ b.toNat ∧ b.toNat ≤ 0x7E then b else 0x20

def cleanName (n : Name) : Name := tabulate fun i => nameByte (look n i)

/-- The schedule interval: the largest of 1, 2, 4, 8, 16, 32 not above the value, 1 for 0 (R114). -/
def scheduleInterval (x : Nat) : Nat :=
  if 32 ≤ x then 32 else if 16 ≤ x then 16 else if 8 ≤ x then 8
  else if 4 ≤ x then 4 else if 2 ≤ x then 2 else 1

/-- The scan groups 0..5, 9 and 10 as mask bits (R114, R190). -/
def scanGroupMask : BitVec 16 := 0x063F

/-! ## Answers -/

/-- The answer codes (00, answer codes). -/
inductive Code where
  | ok
  | notPlaced
  | unknownNote
  | busy
  | guarded
  | empty
  | damaged
  | range
  | routeClass
  | mapFull
  | frozen
  | notHalted
  deriving DecidableEq, Repr

def Code.byte : Code → Byte
  | .ok => 0x00
  | .notPlaced => 0x01
  | .unknownNote => 0x02
  | .busy => 0x03
  | .guarded => 0x04
  | .empty => 0x05
  | .damaged => 0x06
  | .range => 0x07
  | .routeClass => 0x08
  | .mapFull => 0x0A
  | .frozen => 0x0B
  | .notHalted => 0x0C

/-- What taking a command gives: the state it leaves and its answer bytes, the code first. -/
abbrev Answered := State × List Byte

/-- The command is answered with a code and data. -/
def answer (s : State) (c : Code) (data : List Byte) : Answered := (s, c.byte :: data)

/-- The command is answered OK with data. -/
def ok (s : State) (data : List Byte) : Answered := answer s .ok data

/-- The command is refused: nothing changes, and its n data bytes read 0 (R185, R188). -/
def refuse (s : State) (c : Code) (n : Nat) : Answered := answer s c (List.replicate n 0)

/-- A number as one byte. -/
def b1 (n : Nat) : Byte := BitVec.ofNat 8 n

/-- A number as two bytes, most significant first. -/
def b2 (n : Nat) : List Byte := Frame.two (BitVec.ofNat 16 n)

/-- A number as three bytes, most significant first. -/
def b3 (n : Nat) : List Byte := Frame.three (BitVec.ofNat 24 n)

def flag (b : Bool) : Byte := if b then 1 else 0

def partByte : Part → Byte
  | .A => 0
  | .B => 1

def edgeByte : Edge → Byte
  | .rising => 0
  | .falling => 1

def Target.byte : Target → Byte
  | .a => 1
  | .b => 2
  | .focus => 3
  | .both => 4

def TakeoverMode.byte : TakeoverMode → Byte
  | .jump => 0
  | .catching => 1
  | .scale => 2

def Focus.byte : Focus → Byte
  | .a => 0
  | .b => 1
  | .both => 2

def Control.index : Control → Nat
  | .bend => 0
  | .mod => 1
  | .pressure => 2
  | .expression => 3

/-- The number of a source in the catalogue (R171). -/
def CvSource.number : CvSource → Nat
  | .pitch n => n.val
  | .velocity v => 48 + v.val
  | .pressure v => 64 + v.val
  | .param .A n => 80 + n.val
  | .param .B n => 144 + n.val
  | .control .A c => 208 + c.index
  | .control .B c => 212 + c.index
  | .zero => 255

/-- A voice that may be absent (R187). -/
def voiceByte : Option VoiceNo → Byte
  | some v => b1 v.val
  | none => 0xFF

/-! ## Taking a command, taking an event -/

/-- A host command is taken (R183): its effect, then its answer and the turnaround byte, both from the
state it left (R183, R185). Where the part does not hear the link nothing happens (R195, log 9). -/
def hostCommand (c : Instr) (s : State) (f : State → Answered) : Outcome :=
  if hears s then
    let r := f s
    .next { r.1 with lnk := { r.1.lnk with
      frame := .taken, bytes := (Frame.bytes c).getD [], answer := r.2,
      turnaround := statusByte r.1 } }
  else .next s

/-- An event of the part is taken; in reset no event happens (R195). -/
def event (s : State) (f : State → State) : Outcome :=
  if s.run = .running then .next (f s) else .next s

end Sys2Proof.Machine
end

