-- ==== Sys2Proof/Machine/Link.lean ====
section
/-! DEFINITION. The Link Interface: the start, the voiding and the cut of a frame (R183 to R186), NEXT
NOTICE and NOTICE ENABLE (R193, R194). -/

namespace Sys2Proof.Machine

def State.setLnk (s : State) (x : Lnk) : State := { s with lnk := x }

/-- FRAME START (R183, R184): the SPI mode and the status byte are taken as nCS falls. A frame begun
in reset is not heard, then or later (R195). Whatever frame a reset found is over. -/
def execFrameStart (sckHigh : Bool) (s : State) : Outcome :=
  if s.run = .running then
    .next (s.setLnk { s.lnk with
      frame := .receiving, bytes := [], mode3 := sckHigh, deaf := false, tail := false,
      status := statusByte s, answer := [] })
  else .next (s.setLnk { s.lnk with deaf := true, tail := false })

/-- VOID FRAME (R186): an unlisted command byte voids the frame; LINK ERROR kind 3. -/
def execVoidFrame (code : Byte) (s : State) : Outcome :=
  if hears s ∧ !Frame.listed code then
    .next ((s.setLnk { s.lnk with frame := .void, bytes := [code], answer := [] }).mark
      (.linkError .unknown))
  else .next s

/-- What a cut frame's end is, after `bits` clocks (R183, R186): none for a frame that ends well, is
empty, was void, or had its command taken before a reset (R195). -/
def cutFault (x : Lnk) (bits : Nat) : Option LinkFault :=
  match x.frame with
  | .void => none
  | .taken => if bits % 8 = 0 then none else some .offBoundary
  | .receiving => early
  | .idle => if x.tail then none else early
where
  early : Option LinkFault :=
    if bits = 0 then none else if bits % 8 = 0 then some .short else some .offBoundary

/-- The bytes clocked out whole after a taken command's own bytes and the turnaround: the answer, and
0x00 past its end (R185). -/
def answerClocked (x : Lnk) (bits : Nat) : List Byte :=
  if x.frame = .taken then
    (List.range (bits / 8 - (x.bytes.length + 1))).map fun j => x.answer.getD j 0
  else []

/-- FRAME CUT (R186): nCS rises after `bits` clocks. -/
def execFrameCut (bits : Nat) (s : State) : Outcome :=
  if hears s then
    let t := s.setLnk { s.lnk with
      frame := .idle, bytes := [], tail := false, answer := answerClocked s.lnk bits }
    match cutFault s.lnk bits with
    | some k => .next (t.mark (.linkError k))
    | none => .next t
  else .next (s.setLnk { s.lnk with deaf := false, tail := false })

/-! ## Notices (R193, R194) -/

def LinkFault.kind : LinkFault → Byte
  | .offBoundary => 1
  | .short => 2
  | .unknown => 3

def NvOp.byte : NvOp → Byte
  | .store => 0
  | .write => 1
  | .clear => 2
  | .calSave => 3
  | .guardSet => 4

/-- The target of an NV RESULT: a slot, or 0xFFFF for the system area. -/
def nvTarget : Option SlotNo → List Byte
  | some n => b2 n.val
  | none => [0xFF, 0xFF]

/-- Bytes 2 to 7 of NEXT NOTICE's data (R193). -/
def Mark.bytes : Mark → List Byte
  | .linkError k => [0, k.kind, 0, 0, 0, 0]
  | .nvResult r => [0, 0, r.op.byte] ++ nvTarget r.slot ++ [if r.ok then 0x00 else 0x06]
  | .voiceParked v => [0, b1 v.val, 0, 0, 0, 0]
  | .tuneFailed n => [0, b1 n.val, 0, 0, 0, 0]
  | .tuneDone => [0, 0, 0, 0, 0, 0]
  | .switch n => [0, b1 n.val, 0, 0, 0, 0]
  | .potMoved i => [0, b1 (80 + i.val), 0, 0, 0, 0]
  | .paramChanged p n => [partByte p, b1 n.val, 0, 0, 0, 0]

/-- The present mark of highest priority whose class is enabled (R193). -/
def nextMark (x : Lnk) : Option Mark := x.notices.present.find? fun m => m.enabled x.enable

/-- NEXT NOTICE (R193). -/
def nextNotice (s : State) : Answered :=
  match nextMark s.lnk with
  | some m =>
    ok (s.setLnk { s.lnk with notices := s.lnk.notices.clear m }) (b1 m.cls :: m.bytes)
  | none => ok s (List.replicate 7 0)

def execNextNotice (s : State) : Outcome := hostCommand .nextNotice s nextNotice

/-- NOTICE ENABLE (R194). -/
def noticeEnable (mask : Byte) (s : State) : Answered :=
  ok (s.setLnk { s.lnk with enable := mask }) [mask]

def execNoticeEnable (mask : Byte) (s : State) : Outcome :=
  hostCommand (.noticeEnable mask) s (noticeEnable mask)

end Sys2Proof.Machine
end

