-- ==== Sys2Proof/Machine/Params.lean ====
section
/-! DEFINITION. The engine quantities derived from parameters 64..79 (R133), and the arithmetic of the
glide rate (R42), the bend (R52) and the unison offset (R54). -/

namespace Sys2Proof.Machine

inductive KeyMode where
  | poly
  | solo
  deriving DecidableEq, Repr

/-- The allocation policies (R11). -/
inductive AllocPolicy where
  | rotate
  | oldestFree
  | lowest
  deriving DecidableEq, Repr

/-- The steal policies (R14). -/
inductive StealPolicy where
  | oldest
  | quietest
  | none
  deriving DecidableEq, Repr

/-- Parameter n of a patch. -/
def Patch.param (p : Patch) (n : ParamNo) : Nat := look p.params n

def Patch.keyMode (p : Patch) : KeyMode := if p.param 64 < 512 then .poly else .solo

/-- Unison count U, 1..8. -/
def Patch.unison (p : Patch) : Nat := 1 + 8 * p.param 65 / 1024

/-- Unison spread S, in dc. -/
def Patch.spread (p : Patch) : Nat := p.param 66

def Patch.allocPolicy (p : Patch) : AllocPolicy :=
  match 3 * p.param 67 / 1024 with
  | 0 => .rotate
  | 1 => .oldestFree
  | _ => .lowest

def Patch.stealPolicy (p : Patch) : StealPolicy :=
  match 3 * p.param 68 / 1024 with
  | 0 => .oldest
  | 1 => .quietest
  | _ => .none

/-- The glide rate R in dc/ms for parameter value v, 1..1023 (R42). -/
def glideRate (v : Nat) : Nat := 1048576 / (v * v + 1024)

/-- Glide mode LEGATO ONLY; ALWAYS below 512. -/
def Patch.legatoOnly (p : Patch) : Bool := decide (512 ≤ p.param 70)

/-- Bend range in semitones. -/
def Patch.bendRange (p : Patch) : Nat := 25 * p.param 71 / 1024

/-- Release tail in ms. -/
def Patch.releaseMs (p : Patch) : Nat := 4 + p.param 72 * p.param 72 / 256

/-- Release tail in ticks. -/
def Patch.releaseTicks (p : Patch) : Nat := p.releaseMs * Config.ticksPerMs

/-- Slop depth D in dc. -/
def Patch.slopDepth (p : Patch) : Nat := p.param 73 / 8

/-- OSC B detune in dc. -/
def Patch.detune (p : Patch) : Int := (p.param 74 : Int) - 512

/-- A parameter value as −24..+24 semitones. -/
def semitones (v : Nat) : Int := ((49 * v / 1024 : Nat) : Int) - 24

def Patch.interval (p : Patch) : Int := semitones (p.param 75)

/-- Cutoff pitch in dc. -/
def Patch.cutoff (p : Patch) : Int := 21000 + 96 * (p.param 76 : Int)

/-- Filter track, 0..64. -/
def Patch.track (p : Patch) : Nat := 65 * p.param 77 / 1024

def Patch.transpose (p : Patch) : Int := semitones (p.param 78)

/-- Steal damp d in ms. -/
def Patch.dampMs (p : Patch) : Nat := 16 * p.param 79 / 1024

/-- The bend term in dc (R52). -/
def bendDc (bend : Int) (range : Nat) : Int := trunc (bend * range * 1000) 8192

/-- The unison offset in dc (R54). -/
def unisonOffset (spread size index : Nat) : Int :=
  if size ≤ 1 then 0
  else trunc ((spread : Int) * (2 * (index : Int) - ((size : Int) - 1))) (2 * (size - 1))

/-- The live patch of a part. -/
def State.patch (s : State) (p : Part) : Patch := (s.ebu.buffers.get p).patch

end Sys2Proof.Machine
end

