-- ==== Sys2Proof/Machine/Pitch.lean ====
section
/-! DEFINITION. The Pitch Unit: the five stages from key to code (R45 to R60), recomputation (R61),
glide (R40 to R44), and the commands MASTER PITCH, SCALE SET, OVERRIDE SET, OVERRIDE CLEAR and
GLIDE UPDATE. -/

namespace Sys2Proof.Machine

/-! ## Stages 1 and 2 -/

/-- The override entry of a (part, key) pair (R46). -/
def overridePitch (s : State) (p : Part) (key : Nat) : Option Nat :=
  (s.ptu.overrides.find? fun o => o.part == p && o.key == key).map Override.pitch

/-- The scale offset of a key on a part (R49). -/
def scaleOffset (s : State) (p : Part) (key : Nat) : Int :=
  look (look s.ptu.scales (s.part p).scale) ⟨key % 12, by omega⟩

/-- P_key (R46, R49). -/
def keyPitch (s : State) (p : Part) (key : Nat) : Int :=
  match overridePitch s p key with
  | some x => (x : Int)
  | none => 1000 * (key : Int) + scaleOffset s p key

/-- P_note (R50). -/
def notePitch (s : State) (p : Part) (key : Nat) : Int :=
  keyPitch s p key + 1000 * (s.patch p).transpose

/-! ## Stages 3 and 4 -/

def State.glide (s : State) (v : VoiceNo) : Glide := look s.ptu.glide v

/-- The pitch part of a voice (R45). -/
def pitchPart (s : State) (v : VoiceNo) : Part := (s.glide v).part

/-- P_common (R51). -/
def commonPitch (s : State) (v : VoiceNo) : Int :=
  let p := pitchPart s v
  (s.glide v).pos + bendDc (s.part p).bend (s.patch p).bendRange + s.ptu.master
    + (s.voice v).slop + look s.ptu.unison v

/-- The pitch of a source in Stage 4 (R55, R56). -/
def stage4 (s : State) (v : VoiceNo) (i : SourceIdx) : Int :=
  let x := s.patch (pitchPart s v)
  match i with
  | 0 => commonPitch s v
  | 1 => commonPitch s v + 1000 * x.interval + x.detune
  | 2 => x.cutoff + trunc ((commonPitch s v - 60000) * x.track) 64

/-- The pitch a source is converted from, by the voice's state (R45). -/
def sourcePitch (s : State) (v : VoiceNo) (i : SourceIdx) : Int :=
  match s.status v with
  | .tuning _ _ => 69000
  | .parked _ => 60000
  | _ => stage4 s v i

/-! ## Stage 5 -/

/-- The segment k of a pitch (R57). -/
def segment (pitch : Int) : Fin 8 :=
  ⟨(clampInt 0 7 ((pitch - 21000) / 12000)).toNat, by unfold clampInt; omega⟩

/-- The code before clamping (R57, R58). -/
def rawCode (codes : Vector Nat 9) (pitch : Int) : Int :=
  let k := segment pitch
  let lo : Int := ((look codes k.castSucc : Nat) : Int)
  let hi : Int := ((look codes k.succ : Nat) : Int)
  lo + rhaz ((hi - lo) * (pitch - (21000 + 12000 * (k.val : Int)))) 12000

/-- The source code and its clamp flag (R59). -/
def toCode (codes : Vector Nat 9) (pitch : Int) : Nat × Bool :=
  let x := rawCode codes pitch
  ((clampInt 0 65535 x).toNat, decide (x < 0 ∨ 65535 < x))

/-- What the chain of arithmetic gives for a source as the state stands (R45). -/
def chain (s : State) (n : SourceNo) : Nat × Bool :=
  toCode (look s.cal.records n).codes (sourcePitch s (sourceVoice n) (sourceIdx n))

/-! ## Recomputation (R61) -/

/-- The chosen sources are recomputed: source codes and clamp flags. -/
def recompute (sel : SourceNo → Bool) (s : State) : State :=
  { s with
    ptu := { s.ptu with
      codes := tabulate fun n => if sel n then (chain s n).1 else look s.ptu.codes n }
    val := { s.val with
      voices := tabulate fun v =>
        { s.voice v with
          clamp := tabulate fun i =>
            if sel (sourceNo v i) then (chain s (sourceNo v i)).2 else look (s.voice v).clamp i } } }

/-- One voice, all three sources. -/
def recomputeVoice (v : VoiceNo) (s : State) : State := recompute (fun n => sourceVoice n == v) s

/-- Every voice whose pitch part is the part. -/
def recomputePart (p : Part) (s : State) : State :=
  recompute (fun n => pitchPart s (sourceVoice n) == p) s

def recomputeAll (s : State) : State := recompute (fun _ => true) s

/-! ## Glide -/

def State.setGlide (s : State) (v : VoiceNo) (g : Glide) : State :=
  { s with ptu := { s.ptu with glide := put s.ptu.glide v g } }

/-- Updates run while g differs from t; a period already running is kept (R43). -/
def Glide.settleTimer (g : Glide) : Glide :=
  { g with timer :=
      if g.pos = g.target then none
      else match g.timer with
        | some t => some t
        | none => some Config.glideTicks }

/-- VAL hands over a part and key for a voice (R41); the voice is recomputed. -/
def handOver (v : VoiceNo) (p : Part) (key : Nat) (another : Bool) (s : State) : State :=
  let t := notePitch s p key
  let x := s.patch p
  let g := s.glide v
  let pos := if x.param 69 = 0 then t else if x.legatoOnly && !another then t else g.pos
  recomputeVoice v
    (s.setGlide v ({ part := p, key, target := t, pos, timer := g.timer } : Glide).settleTimer)

/-- The unison offset is set at a placement hand-over (R54). -/
def setUnison (v : VoiceNo) (p : Part) (s : State) : State :=
  let x := s.voice v
  { s with ptu := { s.ptu with
    unison := put s.ptu.unison v
      (unisonOffset (s.patch p).spread x.unisonSize x.unisonIndex) } }

/-- How far the note pitch of a voice's key moved between two states. -/
def noteMove (old new : State) (v : VoiceNo) : Int :=
  let g := old.glide v
  notePitch new g.part g.key - notePitch old g.part g.key

/-- Target and position move together by the change of note pitch from `old` to `new` (R44), and the
voices moved are recomputed. -/
def moveNotes (old new : State) : State :=
  recompute (fun n => noteMove old new (sourceVoice n) != 0)
    { new with ptu := { new.ptu with
      glide := tabulate fun v =>
        let g := new.glide v
        let d := noteMove old new v
        { g with target := g.target + d, pos := g.pos + d } } }

/-- One glide update (R43): R toward the target, or the target itself. -/
def glideStep (v : Nat) (g : Glide) : Int :=
  if v = 0 then g.target
  else
    let r : Int := glideRate v
    if g.target - g.pos ≤ r ∧ g.pos - g.target ≤ r then g.target
    else if g.pos < g.target then g.pos + r
    else g.pos - r

/-- GLIDE UPDATE of a voice whose position differs from its target (R43). -/
def glideUpdate (v : VoiceNo) (s : State) : State :=
  let g := s.glide v
  if g.pos = g.target then s
  else
    let pos := glideStep ((s.patch g.part).param 69) g
    recomputeVoice v (s.setGlide v ({ g with pos, timer := none } : Glide).settleTimer)

def execGlideUpdate (v : VoiceNo) (s : State) : Outcome := event s (glideUpdate v)

/-! ## Commands -/

/-- MASTER PITCH (R53). -/
def masterPitch (x : Int) (s : State) : Answered :=
  ok (recomputeAll { s with ptu := { s.ptu with master := clampInt (-1000) 1000 x } }) []

def execMasterPitch (value : BitVec 16) (s : State) : Outcome :=
  hostCommand (.masterPitch value) s (masterPitch value.toInt)

/-- SCALE SET (R49). -/
def scaleSet (table : Byte) (offsets : Vector (BitVec 16) 12) (s : State) : Answered :=
  match fin? 2 table.toNat with
  | none => refuse s .range 0
  | some t =>
    let row := tabulate fun c => clampInt (-500) 500 (look offsets c).toInt
    ok (moveNotes s { s with ptu := { s.ptu with scales := put s.ptu.scales t row } }) []

def execScaleSet (table : Byte) (offsets : Vector (BitVec 16) 12) (s : State) : Outcome :=
  hostCommand (.scaleSet table offsets) s (scaleSet table offsets)

/-- Order of the override map: part A before B, then key (R46). -/
def Override.before (p : Part) (key : Nat) (o : Override) : Bool :=
  match p, o.part with
  | .A, .B => true
  | .B, .A => false
  | _, _ => decide (key < o.key)

/-- An override entered in its place in the order, or replacing the pair's entry. -/
def overrideInsert (o : Override) : List Override → List Override
  | [] => [o]
  | x :: xs =>
    if x.part = o.part ∧ x.key = o.key then o :: xs
    else if Override.before o.part o.key x then o :: x :: xs
    else x :: overrideInsert o xs

/-- OVERRIDE SET (R47). -/
def overrideSet (part key : Byte) (pitch : BitVec 24) (s : State) : Answered :=
  match part? part, key? key with
  | some p, some k =>
    if (overridePitch s p k).isNone ∧ 32 ≤ s.ptu.overrides.length then refuse s .mapFull 0
    else
      let o : Override := { part := p, key := k, pitch := clampNat 0 127000 pitch.toNat }
      ok (moveNotes s { s with ptu := { s.ptu with
        overrides := overrideInsert o s.ptu.overrides } }) []
  | _, _ => refuse s .range 0

def execOverrideSet (part key : Byte) (pitch : BitVec 24) (s : State) : Outcome :=
  hostCommand (.overrideSet part key pitch) s (overrideSet part key pitch)

/-- The map with the entries a predicate names removed; voices on their keys move (R48). -/
def overrideRemove (gone : Override → Bool) (s : State) : State :=
  moveNotes s { s with ptu := { s.ptu with
    overrides := s.ptu.overrides.filter fun o => !gone o } }

/-- OVERRIDE CLEAR (R48): selector 0 one pair, 1 ALL. -/
def overrideClear (selector part key : Byte) (s : State) : Answered :=
  match onOff? selector with
  | none => refuse s .range 0
  | some true => ok (overrideRemove (fun _ => true) s) []
  | some false =>
    match part? part, key? key with
    | some p, some k => ok (overrideRemove (fun o => o.part == p && o.key == k) s) []
    | _, _ => refuse s .range 0

def execOverrideClear (selector part key : Byte) (s : State) : Outcome :=
  hostCommand (.overrideClear selector part key) s (overrideClear selector part key)

end Sys2Proof.Machine
end

