-- ==== Sys2Proof/Machine/Output.lean ====
section
/-! DEFINITION. The CV Output Unit: the route table, code formation and the refresh cycle, with ROUTE
SET, ROUTE READ and REFRESH WRITE (R171 to R179). -/

namespace Sys2Proof.Machine

/-! ## Codes (R176, R177) -/

/-- A 10-bit value as a 12-bit code. -/
def code10 (v : Nat) : Nat := 4 * v + v / 256

/-- A 7-bit value as a 12-bit code. -/
def code7 (v : Nat) : Nat := 32 * v + v / 4

/-- BEND as a 12-bit code. -/
def codeBend (x : Int) : Nat := ((x + 8192) / 4).toNat

/-- The code of a performance control. -/
def codeControl (r : PartRec) : Control → Nat
  | .bend => codeBend r.bend
  | .mod => code10 r.mod
  | .pressure => code7 r.pressure
  | .expression => code10 r.expression

/-- A field of the voice's note, 0 where it is absent (R172). -/
def noteField (x : VoiceStatus) (f : Note → Nat) : Nat :=
  match x.note? with
  | some n => f n
  | none => 0

/-- The trial code that stands in for a source, while it is under measurement (R177). -/
def trialFor (s : State) (n : SourceNo) : Option Nat :=
  match s.cvo.trial with
  | some t => if t.source = n then some t.code else none
  | none => none

/-- The code a channel of this source presents, as the state stands (R176, R177). -/
def sourceCode (s : State) : CvSource → Nat
  | .pitch n => (trialFor s n).getD (look s.ptu.codes n)
  | .velocity v => code7 (noteField (s.status v) Note.velocity)
  | .pressure v => code7 (noteField (s.status v) Note.pressure)
  | .param p n => code10 ((s.patch p).param ⟨n.val, by omega⟩)
  | .control p c => codeControl (s.part p) c
  | .zero => 0

/-- The source carries the trial code (R175). -/
def carriesTrial (s : State) : CvSource → Bool
  | .pitch n => (trialFor s n).isSome
  | _ => false

/-- Channels 0..47 are the precision channels (R173). -/
def precision (c : ChannelNo) : Bool := decide (c.val < 48)

/-! ## The refresh cycle (R178) -/

/-- The 24 bits of a write: 8 of channel number, then the 16-bit code, or the 12-bit code and four
bits of 0 (R178). -/
def dacWord (c : ChannelNo) (code : Nat) : BitVec 24 :=
  BitVec.ofNat 24 (c.val * 65536 + (if precision c then code else code * 16))

/-- REFRESH WRITE: the next channel's code is formed, recorded and shifted out (R178). -/
def refreshWrite (s : State) : State :=
  let c := s.cvo.next
  let src := look s.cvo.route c
  let code := sourceCode s src
  { s with cvo := { s.cvo with
    presented := put s.cvo.presented c code
    trialMark := put s.cvo.trialMark c (carriesTrial s src)
    shifted := dacWord c code
    next := ⟨(c.val + 1) % 128, by omega⟩
    refresh := Config.refreshTicks } }

def execRefreshWrite (s : State) : Outcome := event s refreshWrite

/-! ## Commands -/

/-- The source may be routed to the channel (R173, R174): pitch sources to precision channels, general
sources to general channels, ZERO to both. -/
def routable (c : ChannelNo) : CvSource → Bool
  | .pitch _ => precision c
  | .zero => true
  | _ => !precision c

/-- ROUTE SET (R174): RANGE, then ROUTE CLASS. -/
def routeSet (channel source : Byte) (s : State) : Answered :=
  match fin? 128 channel.toNat, cvSource? source with
  | some c, some src =>
    if routable c src then
      ok { s with cvo := { s.cvo with route := put s.cvo.route c src } } [b1 c.val, b1 src.number]
    else refuse s .routeClass 2
  | _, _ => refuse s .range 2

def execRouteSet (channel source : Byte) (s : State) : Outcome :=
  hostCommand (.routeSet channel source) s (routeSet channel source)

/-- ROUTE READ (R175). -/
def routeRead (channel : Byte) (s : State) : Answered :=
  match fin? 128 channel.toNat with
  | some c =>
    ok s (b1 (look s.cvo.route c).number :: b2 (look s.cvo.presented c)
      ++ [flag (look s.cvo.trialMark c)])
  | none => refuse s .range 4

def execRouteRead (channel : Byte) (s : State) : Outcome :=
  hostCommand (.routeRead channel) s (routeRead channel)

end Sys2Proof.Machine
end

