-- ==== Sys2Proof/Machine/Bus.lean ====
section
/-! DEFINITION. The select bus: request, grant, release and withdrawal (R107 to R110), and the start of
a sweep (R111). A requester that releases and asks again is modelled as a release followed by a
request, which gives R109's table (log 18). -/

namespace Sys2Proof.Machine

def State.setPsc (s : State) (p : Psc) : State := { s with psc := p }

def State.setActivity (s : State) (a : Activity) : State := { s with tne := { s.tne with activity := a } }

/-- The grant is taken in the event that makes it (R108): the scanner starts its group at address 0
(R112); the engine drives its voice's address and settles (R91). -/
def grantBus (r : Requester) (s : State) : State :=
  match r with
  | .scanner =>
    s.setPsc { s.psc with
      holder := some .scanner, lastHolder := some .scanner, scannerWaits := false, addr := 0,
      phase := .scanning Config.scanTicks }
  | .engine =>
    (s.setPsc { s.psc with
      holder := some .engine, lastHolder := some .engine, engineWaits := false,
      addr := match s.tne.current with
        | some c => c.voice
        | none => s.psc.addr }).setActivity (.settling Config.settlingTicks)

/-- A request: granted on a free bus, else the requester waits (R108). -/
def requestBus (r : Requester) (s : State) : State :=
  match s.psc.holder with
  | none => grantBus r s
  | some _ =>
    match r with
    | .scanner => s.setPsc { s.psc with scannerWaits := true, phase := .busWait }
    | .engine => (s.setPsc { s.psc with engineWaits := true }).setActivity .busWait

/-- A release by the holder: the bus goes to the other requester if it waits (R109). -/
def releaseBus (r : Requester) (s : State) : State :=
  if s.psc.holder = some r then
    let s := s.setPsc { s.psc with holder := none }
    match r with
    | .scanner => if s.psc.engineWaits then grantBus .engine s else s
    | .engine => if s.psc.scannerWaits then grantBus .scanner s else s
  else s

/-- The engine leaves the waiting set (R110). -/
def withdrawEngine (s : State) : State := s.setPsc { s.psc with engineWaits := false }

/-- The scan groups a mask enables, in the order a sweep visits them (R111). -/
def sweepGroups (mask : BitVec 16) : List (Fin 11) :=
  ([0, 1, 2, 3, 4, 5, 9, 10] : List (Fin 11)).filter fun g => mask.getLsbD g.val

def Psc.schedule (p : Psc) : ProfileName → Schedule
  | .normal => p.normal
  | .tune => p.tune

/-- A sweep starts (R111): profile in use, mask, interval and timer are taken now; the first group's
bus request follows, or with no group enabled the sweep ends at once. -/
def startSweep (s : State) : State :=
  let name := selectedProfile s
  let sched := s.psc.schedule name
  let groups := sweepGroups sched.mask
  let s := s.setPsc { s.psc with
    inUse := name, sweepTimer := some (sched.interval * Config.ticksPerMs), startPending := false,
    groups := groups, phase := .resting }
  if groups.isEmpty then s else requestBus .scanner s

/-- SWEEP TIMER EXPIRY (R111): a start while resting, else a start becomes pending. -/
def sweepTimerExpiry (s : State) : State :=
  let s := s.setPsc { s.psc with sweepTimer := none }
  if s.psc.phase = .resting then startSweep s else s.setPsc { s.psc with startPending := true }

def execSweepTimerExpiry (s : State) : Outcome := event s sweepTimerExpiry

end Sys2Proof.Machine
end

