-- ==== Sys2Proof/Machine/Tune.lean ====
section
/-! DEFINITION. The Tune Engine: the plan, choosing work, the control modes, one measurement, the
search, the end of an entry and interruptions (R80 to R105), with VAL's and CAL's side of it (R24,
R25, R68, R69). -/

namespace Sys2Proof.Machine

def State.setTne (s : State) (t : Tne) : State := { s with tne := t }

def State.record (s : State) (n : SourceNo) : SourceRec := look s.cal.records n

def State.setRecord (s : State) (n : SourceNo) (r : SourceRec) : State :=
  { s with cal := { s.cal with records := put s.cal.records n r } }

def Entry.source (e : Entry) : SourceNo := sourceNo e.voice e.src

def Current.source (c : Current) : SourceNo := sourceNo c.voice c.src

/-- The entry is the plan's entry for this pair (R80). -/
def Entry.isPair (e : Entry) (v : VoiceNo) (i : SourceIdx) : Bool := e.voice == v && e.src == i

/-- The plan holds an entry for the pair. -/
def inPlan (s : State) (v : VoiceNo) (i : SourceIdx) : Bool := s.tne.plan.any fun e => e.isPair v i

/-- The plan holds an entry of the voice. -/
def voiceInPlan (s : State) (v : VoiceNo) : Bool := s.tne.plan.any fun e => e.voice == v

/-- The current entry with all that comes with it, and the trial code override that follows it (R83,
R85, R177). -/
def State.setCurrent (s : State) (c : Option Current) : State :=
  { s with
    tne := { s.tne with current := c }
    cvo := { s.cvo with trial := c.map fun x => { source := x.source, code := x.trial } } }

def State.setPlan (s : State) (l : List Entry) : State := { s with tne := { s.tne with plan := l } }

def State.setMode (s : State) (m : TuneMode) : State := { s with tne := { s.tne with mode := m } }

def State.setLastM (s : State) (m : Option Nat) : State := { s with tne := { s.tne with lastM := m } }

def State.setFailed (s : State) (m : VoiceSet) : State := { s with tne := { s.tne with failed := m } }

/-! ## Voices lent and returned (R24, R25) -/

/-- A voice enters TUNING from whatever state it is in; a bound voice is cut, a PARKED voice keeps its
reason and is tuned-while-parked (R24). Its sources are recomputed (R65). No failure has come since this
claim, so a voice that was TUNING leaves the failed-in-lending set (R83). -/
def claimVoice (v : VoiceNo) (foreground : Bool) (s : State) : State :=
  match s.status v with
  | .tuning _ r =>
    let s := recomputeVoice v (s.setStatus v (.tuning foreground r))
    s.setFailed (setDrop s.tne.failed v)
  | .parked r => recomputeVoice v (s.setStatus v (.tuning foreground (some r)))
  | _ => recomputeVoice v ((s.detach v).setStatus v (.tuning foreground none))

/-- A voice goes to PARKED: off its lists, out of the failed-in-lending set, recomputed (R22, R25,
R65, R100). -/
def parkVoice (v : VoiceNo) (r : ParkReason) (s : State) : State :=
  let s := recomputeVoice v ((s.detach v).setStatus v (.parked r))
  s.setFailed (setDrop s.tne.failed v)

/-- A voice goes from TUNING or PARKED to FREE and is recomputed (R25, R65). -/
def freeVoice (v : VoiceNo) (s : State) : State :=
  let s := recomputeVoice v (s.enterFree v)
  s.setFailed (setDrop s.tne.failed v)

/-- A TUNING voice whose last entry left the plan is returned (R100). -/
def returnVoice (v : VoiceNo) (s : State) : State :=
  match s.status v with
  | .tuning _ (some r) => if inSet s.tne.failed v then parkVoice v r s else freeVoice v s
  | .tuning _ none => freeVoice v s
  | _ => s

/-! ## Choosing work (R84, R85, R90) -/

/-- The entry that the engine would choose (R84). -/
def choose (s : State) : Option Entry :=
  match s.tne.plan.find? fun e => (s.status e.voice).isFgTuning with
  | some e => some e
  | none =>
    match s.tne.plan.find? fun e => (s.status e.voice).isBgTuning with
    | some e => some e
    | none => s.tne.plan.find? fun e => e.mode == .bg && (s.status e.voice).isFree

/-- An entry becomes current (R85). -/
def makeCurrent (e : Entry) (s : State) : State :=
  s.setCurrent (some
    { voice := e.voice, src := e.src, k := 4, iter := 0, trial := look (s.record e.source).codes 4,
      work := Vector.replicate 9 none })

/-- A measurement begins: BUS WAIT and a request for the bus (R90). -/
def beginMeasurement (s : State) : State := requestBus .engine (s.setActivity .busWait)

/-- The next measurement of the current entry, or of an entry now chosen; with nothing runnable the
activity is IDLE (R84). -/
def startNext (s : State) : State :=
  match s.tne.current with
  | some _ => beginMeasurement s
  | none =>
    match choose s with
    | some e =>
      let s := if (s.status e.voice).isFree then claimVoice e.voice false s else s
      beginMeasurement (makeCurrent e s)
    | none => s.setActivity .idle

/-- A measurement begins if the mode allows it and none is in flight (R84). -/
def kick (s : State) : State :=
  if s.tne.mode ≠ .halt ∧ s.tne.activity = .idle then startNext s else s

/-! ## Abandonment (R102, R103, R110) -/

/-- The measurement in flight, if any, is stopped: a request is withdrawn, a bus held is released. A
step is used up by it (R88). -/
def stopMeasurement (s : State) : State :=
  match s.tne.activity with
  | .idle => s
  | .busWait => stepUsed ((withdrawEngine s).setActivity .idle)
  | _ => stepUsed ((releaseBus .engine s).setActivity .idle)
where
  stepUsed (s : State) : State := if s.tne.mode = .step then s.setMode .halt else s

/-- The current entry is abandoned; it stays in the plan (R102). -/
def abandonCurrent (s : State) : State := (stopMeasurement s).setCurrent none

/-- The engine loses a voice: its current entry, if it is current, and its place in the
failed-in-lending set (R102, R103). -/
def engineLoses (v : VoiceNo) (s : State) : State :=
  let s := match s.tne.current with
    | some c => if c.voice = v then abandonCurrent s else s
    | none => s
  s.setFailed (setDrop s.tne.failed v)

/-- TUNE DONE where the plan has become empty (R101). -/
def doneIfEmpty (s : State) : State := if s.tne.plan.isEmpty then s.mark .tuneDone else s

/-! ## The end of an entry (R98 to R101) -/

/-- The entry leaves the plan and the source leaves measurement (R98). -/
def dropEntry (c : Current) (s : State) : State :=
  (s.setPlan (s.tne.plan.filter fun e => !e.isPair c.voice c.src)).setCurrent none

/-- The voice is returned if it has no entry left (R99, R100). -/
def returnIfDone (v : VoiceNo) (s : State) : State :=
  if voiceInPlan s v then s else returnVoice v s

/-- A commit: the record whole, and the source recomputed (R64, R68). -/
def commit (n : SourceNo) (codes : Vector Nat 9) (s : State) : State :=
  recompute (fun i => i == n) (s.setRecord n { codes, status := .tuned, age := 0 })

/-- An entry ends in success (R99). -/
def entrySucceeds (c : Current) (codes : Vector Nat 9) (s : State) : State :=
  doneIfEmpty (returnIfDone c.voice (commit c.source codes (dropEntry c s)))

/-- A failure report reaches CAL (R69). -/
def reportFailure (n : SourceNo) (r : FailReason) (s : State) : State :=
  s.setRecord n { s.record n with status := .failed r }

/-- An entry ends in failure, with parking for NO SIGNAL where auto-park is on (R100). -/
def entryFails (c : Current) (r : FailReason) (s : State) : State :=
  let s := reportFailure c.source r (dropEntry c s)
  let s := s.mark (.tuneFailed c.source)
  let s := s.setFailed (setAdd s.tne.failed c.voice)
  if r = .noSignal ∧ s.cal.settings.autoPark then
    let s := s.setPlan (s.tne.plan.filter fun e => e.voice != c.voice)
    doneIfEmpty ((parkVoice c.voice .noSignal s).mark (.voiceParked c.voice))
  else doneIfEmpty (returnIfDone c.voice s)

/-! ## The search (R95 to R97) -/

/-- The breakpoint measured after k; after 0 the work copy is complete (R95). -/
def nextBreakpoint (k : Fin 9) : Option (Fin 9) :=
  match k with
  | 4 => some 5
  | 5 => some 6
  | 6 => some 7
  | 7 => some 8
  | 8 => some 3
  | 3 => some 2
  | 2 => some 1
  | 1 => some 0
  | 0 => none

/-- The starting trial code of breakpoint k from the work copy and the committed codes, clamped
(R95). -/
def startingTrial (committed : Vector Nat 9) (work : Vector (Option Nat) 9) (k : Fin 9) : Nat :=
  let code (j : Fin 9) : Int := ((look committed j : Nat) : Int)
  let done (j : Fin 9) : Int := (((look work j).getD 0 : Nat) : Int)
  let below : Fin 9 := ⟨k.val - 1, by omega⟩
  let above : Fin 9 := ⟨min 8 (k.val + 1), by omega⟩
  let x :=
    if k = 4 then code 4
    else if 4 < k then done below + (code k - code below)
    else done above - (code above - code k)
  (clampInt 0 65535 x).toNat

/-- The converged code keeps the order of the work copy (R97). -/
def inOrder (work : Vector (Option Nat) 9) (k : Fin 9) (x : Nat) : Bool :=
  if k = 4 then true
  else if 4 < k then
    match look work ⟨k.val - 1, by omega⟩ with
    | some y => decide (y < x)
    | none => true
  else
    match look work ⟨min 8 (k.val + 1), by omega⟩ with
    | some y => decide (x < y)
    | none => true

/-- The gain of a source's class (R70). -/
def TuneSettings.gain (t : TuneSettings) (i : SourceIdx) : Nat := if i = 2 then t.fltGain else t.oscGain

/-- The probe edge of a source's class (R70). -/
def TuneSettings.edge (t : TuneSettings) (i : SourceIdx) : Edge := if i = 2 then t.fltEdge else t.oscEdge

/-- The correction for a count m (R96). -/
def correction (m gain : Nat) : Int :=
  let d : Int := (m : Int) - Config.target
  let x := rhaz (d * gain) 65536
  if x = 0 then (if 0 < d then 1 else -1) else x

/-- The count converges (R96). -/
def converges (m : Nat) : Bool :=
  decide (m ≤ Config.target + Config.tolerance ∧ Config.target ≤ m + Config.tolerance)

/-- A breakpoint converges: the work copy takes the trial code; the next breakpoint begins, or the
entry succeeds (R95, R96), unless the code is out of order (R97). -/
def convergeAt (c : Current) (s : State) : State :=
  if inOrder c.work c.k c.trial then
    let work := put c.work c.k (some c.trial)
    match nextBreakpoint c.k with
    | some k =>
      s.setCurrent (some { c with
        k, iter := 0, work, trial := startingTrial (s.record c.source).codes work k })
    | none => entrySucceeds c (tabulate fun j => (look work j).getD 0) s
  else entryFails c .nonMonotonic s

/-- A count that does not converge corrects the trial code or fails the entry (R96, R97). -/
def correctTrial (c : Current) (m : Nat) (s : State) : State :=
  let d := correction m (s.cal.settings.gain c.src)
  if (c.trial = 65535 ∧ 0 < d) ∨ (c.trial = 0 ∧ d < 0) then entryFails c .outOfRange s
  else
    let c' := { c with iter := c.iter + 1, trial := (clampInt 0 65535 (c.trial + d)).toNat }
    let s := s.setCurrent (some c')
    if Config.maxIterations ≤ c'.iter then entryFails c' .notConverged s else s

/-- The search is applied to a count (R95 to R97); last m is set to it (R93). -/
def applyCount (m : Nat) (s : State) : State :=
  let s := s.setLastM (some m)
  match s.tne.current with
  | some c => if converges m then convergeAt c s else correctTrial c m s
  | none => s

/-- NO SIGNAL: no first edge within the window (R93). -/
def applyNoSignal (s : State) : State :=
  let s := s.setLastM none
  match s.tne.current with
  | some c => entryFails c .noSignal s
  | none => s

/-- After a measurement: RUN goes on, STEP returns to HALT, HALT idles (R94). -/
def afterMeasurement (s : State) : State :=
  match s.tne.mode with
  | .run => startNext s
  | .step => (s.setMode .halt).setActivity .idle
  | .halt => s.setActivity .idle

/-- A measurement ends with a count, or without one (R94): the bus is released, the outcome applied,
and the engine goes on by its mode. A count above 2T is taken as 2T (R93). -/
def endMeasurement (count : Option Nat) (s : State) : State :=
  let s := releaseBus .engine s
  afterMeasurement <| match count with
    | some m => applyCount (min m Config.slowCount) s
    | none => applyNoSignal s

/-! ## Events of a measurement -/

/-- SETTLING EXPIRY (R91): GATING begins, with the edge of the source's class (R92). -/
def settlingExpiry (s : State) : State :=
  match s.tne.activity, s.tne.current with
  | .settling _, some c =>
    s.setActivity (.gating (s.cal.settings.edge c.src) Config.windowTicks none)
  | _, _ => s

def execSettlingExpiry (s : State) : Outcome := event s settlingExpiry

/-- FIRST PROBE EDGE (R92): the first edge of the kept kind starts the capture counter. -/
def firstProbeEdge (edge : Edge) (s : State) : State :=
  match s.tne.activity with
  | .gating kept window none =>
    if edge = kept then s.setActivity (.gating kept window (some { count := 0, edges := 0 })) else s
  | _ => s

def execFirstProbeEdge (edge : Edge) (s : State) : Outcome := event s (firstProbeEdge edge)

/-- The whole periods that a gate at breakpoint k spans, N_k (R92). -/
def periods (k : Fin 9) : Nat := 2 ^ k.val

/-- GATE CLOSE (R92 to R94): a selected edge `ticks` ticks from now (log 4). One past the window's end
comes too late, and the gate is slow (R93). The selected edges after the first are counted, and the
N_k-th of them closes the gate with what the capture counter has reached then. -/
def gateClose (edge : Edge) (ticks : Nat) (s : State) : State :=
  match s.tne.activity, s.tne.current with
  | .gating kept window (some x), some c =>
    if edge ≠ kept then s
    else if window < ticks then endMeasurement (some Config.slowCount) s
    else if x.edges + 1 < periods c.k then
      s.setActivity (.gating kept window (some { x with edges := x.edges + 1 }))
    else endMeasurement (some (x.count + ticks)) s
  | _, _ => s

def execGateClose (edge : Edge) (ticks : Nat) (s : State) : Outcome := event s (gateClose edge ticks)

/-- GATE WINDOW EXPIRY (R93): NO SIGNAL without a first edge, else a slow gate. -/
def gateWindowExpiry (s : State) : State :=
  match s.tne.activity with
  | .gating _ _ none => endMeasurement none s
  | .gating _ _ (some _) => endMeasurement (some Config.slowCount) s
  | _ => s

def execGateWindowExpiry (s : State) : Outcome := event s gateWindowExpiry

/-! ## Commands -/

/-- One pair of a TUNE ADD: added at the tail, upgraded in its place, or passed over (R81). The result
is the plan and the pairs added and upgraded so far. -/
def addPair (mode : EntryMode) (acc : List Entry × List VoiceNo × List VoiceNo)
    (e : VoiceNo × SourceIdx) : List Entry × List VoiceNo × List VoiceNo :=
  let (plan, added, upgraded) := acc
  match plan.find? fun x => x.isPair e.1 e.2 with
  | none => (plan ++ [{ voice := e.1, src := e.2, mode }], added ++ [e.1], upgraded)
  | some x =>
    if x.mode = .bg ∧ mode = .fg then
      (plan.map fun y => if y.isPair e.1 e.2 then { y with mode := .fg } else y, added,
        upgraded ++ [e.1])
    else acc

/-- The pairs of a voice set and a source mask, voice by voice (R81). -/
def pairsOf (voices : VoiceSet) (sources : Byte) : List (VoiceNo × SourceIdx) :=
  (setList voices).flatMap fun v =>
    ((List.finRange 3).filter fun i => sources.getLsbD i.val).map fun i => (v, i)

/-- Foreground claims, in ascending voice order, of the voices not yet foreground-tuning (R82). -/
def claimAll (voices : List VoiceNo) (s : State) : State :=
  voices.foldl (fun s v => if (s.status v).isFgTuning then s else claimVoice v true s) s

/-- TUNE ADD (R81, R82). -/
def tuneAdd (voices : VoiceSet) (sources mode : Byte) (s : State) : Answered :=
  match entryMode? mode with
  | none => refuse s .range 3
  | some m =>
    if 8 ≤ sources.toNat then refuse s .range 3
    else
      let (plan, added, upgraded) :=
        (pairsOf voices sources).foldl (addPair m) (s.tne.plan, [], [])
      let s := s.setPlan plan
      let touched := (List.finRange 16).filter fun v => v ∈ added ∨ v ∈ upgraded
      let s := kick (if m = .fg then claimAll touched s else s)
      ok s [b1 added.length, b1 upgraded.length, b1 plan.length]

def execTuneAdd (voices : BitVec 16) (sources mode : Byte) (s : State) : Outcome :=
  hostCommand (.tuneAdd voices sources mode) s (tuneAdd voices sources mode)

/-- TUNE CONTROL RUN (R86); an action byte above 3 is refused (log 17). -/
def tuneRun (action : Byte) (s : State) : Answered :=
  if action = 0 then ok (kick (s.setMode .run)) [] else refuse s .range 0

def execTuneControlRun (action : Byte) (s : State) : Outcome :=
  hostCommand (.tuneControlRun action) s (tuneRun action)

/-- TUNE CONTROL HALT (R87). -/
def tuneHalt (s : State) : Answered := ok (s.setMode .halt) []

def execTuneControlHalt (s : State) : Outcome := hostCommand .tuneControlHalt s tuneHalt

/-- TUNE CONTROL STEP (R88). -/
def tuneStep (s : State) : Answered :=
  if s.tne.mode = .halt ∧ s.tne.activity = .idle then ok (kick (s.setMode .step)) []
  else refuse s .notHalted 0

def execTuneControlStep (s : State) : Outcome := hostCommand .tuneControlStep s tuneStep

/-- A TUNING voice is returned by a CANCEL: to PARKED where tuned-while-parked is set, else to FREE
(R89). -/
def cancelVoice (s : State) (v : VoiceNo) : State :=
  match s.status v with
  | .tuning _ (some r) => parkVoice v r s
  | .tuning _ none => freeVoice v s
  | _ => s

/-- TUNE CONTROL CANCEL (R89). -/
def tuneCancel (s : State) : Answered :=
  let s := (abandonCurrent s).setPlan []
  let s := (List.finRange 16).foldl cancelVoice s
  ok (((s.setFailed 0).setLastM none).setMode .halt) []

def execTuneControlCancel (s : State) : Outcome := hostCommand .tuneControlCancel s tuneCancel

def TuneMode.byte : TuneMode → Byte
  | .run => 0
  | .halt => 1
  | .step => 2

def Activity.byte : Activity → Byte
  | .idle => 0
  | .busWait => 1
  | .settling _ => 2
  | .gating _ _ _ => 3

/-- The mode of the current entry is its plan entry's (R83, log 16). -/
def currentMode (s : State) (c : Current) : EntryMode :=
  match s.tne.plan.find? fun e => e.isPair c.voice c.src with
  | some e => e.mode
  | none => .fg

def EntryMode.byte : EntryMode → Byte
  | .fg => 0
  | .bg => 1

/-- TUNE READ's data (R104, R191). -/
def tuneData (s : State) : List Byte :=
  [s.tne.mode.byte, s.tne.activity.byte]
    ++ (match s.tne.current with
        | some c => [1, b1 c.voice.val, b1 c.src.val, (currentMode s c).byte, b1 c.k.val, b1 c.iter]
            ++ b2 c.trial
        | none => List.replicate 8 0)
    ++ (match s.tne.lastM with
        | some m => 1 :: b3 m
        | none => List.replicate 4 0)
    ++ [b1 s.tne.plan.length]

def execTuneRead (s : State) : Outcome := hostCommand .tuneRead s fun s => ok s (tuneData s)

end Sys2Proof.Machine
end

