-- ==== Sys2Proof/Machine/Notes.lean ====
section
/-! DEFINITION. The Voice Allocator's note path: the held-key list, the candidate search, placement,
retrigger, solo playing, note ends, damp, tail and gap expiries (R7 to R20, R28 to R39). -/

namespace Sys2Proof.Machine

/-! ## The held-key list (R28 to R30) -/

/-- A started key joins at the tail; a key already there moves; a 17th key drops the head (R29). -/
def enterKey (key : Nat) (l : List Nat) : List Nat :=
  let l := l.filter (· != key)
  (if 16 ≤ l.length then l.drop 1 else l) ++ [key]

def leaveKey (key : Nat) (l : List Nat) : List Nat := l.filter (· != key)

/-- The list holds a key other than this one (R15, R41). -/
def holdsOther (key : Nat) (l : List Nat) : Bool := l.any (· != key)

def State.setKeys (s : State) (p : Part) (l : List Nat) : State :=
  s.modPart p fun x => { x with heldKeys := l }

def State.setSolo (s : State) (p : Part) (g : Option VoiceSet) : State :=
  s.modPart p fun x => { x with solo := g }

/-! ## The slop source (R7) -/

/-- One advance of the Galois register. -/
def advanceSeed (l : BitVec 16) : BitVec 16 :=
  let r := l >>> 1
  if l.getLsbD 0 then r ^^^ 0xB400 else r

/-- The slop offset a register value gives for a depth. -/
def slopOf (l : BitVec 16) (depth : Nat) : Int :=
  ((l.toNat % (2 * depth + 1) : Nat) : Int) - (depth : Int)

/-! ## The candidate search (R10 to R14) -/

/-- The step of the search that found a voice. -/
inductive FoundBy where
  | reclaim
  | free
  | releasing
  | background
  | steal
  deriving DecidableEq, Repr

/-- A voice found by steps 3 and 5 is stolen (R12, R14, R15). -/
def FoundBy.stolen : FoundBy → Bool
  | .releasing => true
  | .steal => true
  | _ => false

/-- The voices counting up from the one after a cursor, wrapping from V15 to V0 (R11). -/
def countFrom (cursor : VoiceNo) : List VoiceNo :=
  (List.finRange 16).map fun i => ⟨(cursor.val + 1 + i.val) % 16, by omega⟩

/-- Step 1: RELEASING voices of the part on the key, in release order. -/
def searchReclaim (s : State) (p : Part) (key : Nat) : List VoiceNo :=
  s.val.releaseOrder.filter fun v => (s.status v).isReleasing && (s.status v).onKey p key

/-- Step 2: FREE voices in the pool, by the allocation policy (R11). -/
def searchFree (s : State) (p : Part) (cursor : VoiceNo) : List VoiceNo :=
  let inPool := fun v => inSet (s.part p).pool v
  match (s.patch p).allocPolicy with
  | .rotate => (countFrom cursor).filter fun v => (s.status v).isFree && inPool v
  | .oldestFree => s.val.freeList.filter fun v => (s.status v).isFree && inPool v
  | .lowest => (List.finRange 16).filter fun v => (s.status v).isFree && inPool v

/-- Step 3: RELEASING voices in the pool, in release order (R12). -/
def searchReleasing (s : State) (p : Part) : List VoiceNo :=
  s.val.releaseOrder.filter fun v => (s.status v).isReleasing && inSet (s.part p).pool v

/-- Step 4: the background-tuning voice, if it lies in the pool (R13). -/
def searchBackground (s : State) (p : Part) : List VoiceNo :=
  (List.finRange 16).filter fun v => (s.status v).isBgTuning && inSet (s.part p).pool v

/-- The velocity of a bound voice. -/
def velocityOf (s : State) (v : VoiceNo) : Nat := ((s.status v).note?.map Note.velocity).getD 0

/-- A voice on the highest held key, when two or more distinct keys are held (R14). -/
def topKeyProtected (s : State) (p : Part) (keys : List Nat) (v : VoiceNo) : Bool :=
  let top := keys.foldl max 0
  holdsOther top keys && (s.status v).onKey p top

/-- Step 5: the part's own HELD and SUSTAINED voices, by the steal policy, but for protected ones
(R14). -/
def searchSteal (s : State) (p : Part) : List VoiceNo :=
  let keys := (s.part p).heldKeys
  let own := (s.val.startOrder.get p).filter fun v => !topKeyProtected s p keys v
  match (s.patch p).stealPolicy with
  | .oldest =>
    own.filter (fun v => (s.status v).isSustained) ++ own.filter (fun v => (s.status v).isHeld)
  | .quietest =>
    (own.filter fun v => (s.status v).isSustained || (s.status v).isHeld).insertionSort
      fun v w => velocityOf s v ≤ velocityOf s w
  | .none => []

/-- Voices found so far, in order, each with its step. -/
abbrev Found := List (VoiceNo × FoundBy)

/-- A step adds the voices it may take that no earlier step took, as long as voices are wanted. -/
def addFound (wanted : Nat) (by' : FoundBy) (l : List VoiceNo) (found : Found) : Found :=
  let fresh := l.filter fun v => !(found.any fun x => x.1 == v)
  found ++ (fresh.take (wanted - found.length)).map fun v => (v, by')

/-- The rotate cursor follows each voice as the search takes it (R11). -/
def cursorAfter (cursor : VoiceNo) (found : Found) : VoiceNo :=
  match found.getLast? with
  | some x => x.1
  | none => cursor

/-- The candidate search for U voices (R10 to R14). -/
def search (s : State) (p : Part) (key : Nat) : Found :=
  let u := (s.patch p).unison
  let found := addFound u .reclaim (searchReclaim s p key) []
  let found := addFound u .free (searchFree s p (cursorAfter (s.part p).cursor found)) found
  let found := addFound u .releasing (searchReleasing s p) found
  let found := addFound u .background (searchBackground s p) found
  addFound u .steal (searchSteal s p) found

/-! ## Placement (R15, R16) -/

/-- One found voice is placed: off its old lists, bound to the note, one slop draw, at the tail of the
start-order list, HELD or MUTING (R15, R16). -/
def placeOne (p : Part) (key velocity size : Nat) (s : State) (x : (VoiceNo × FoundBy) × Nat) : State :=
  let v := x.1.1
  let patch := s.patch p
  let s := if x.1.2 = .background then engineLoses v s else s
  let s := s.detach v
  let seed := advanceSeed s.val.seed
  let phase : BoundPhase :=
    if x.1.2.stolen ∧ 0 < patch.dampMs then .muting (patch.dampMs * Config.ticksPerMs) else .held
  let s := s.setVoice v { s.voice v with
    status := .bound { part := p, key, velocity, pressure := 0 } phase
    unisonIndex := x.2, unisonSize := size, slop := slopOf seed patch.slopDepth }
  let s := { s with val := { s.val with seed } }
  s.toStartTail p v

/-- The found voices are placed in order, then handed to the Pitch Unit (R15, R54). -/
def place (p : Part) (key velocity : Nat) (found : Found) (s : State) : State :=
  let size := (s.patch p).unison
  let another := holdsOther key (s.part p).heldKeys
  let s := found.zipIdx.foldl (placeOne p key velocity size) s
  let s := s.modPart p fun x => { x with cursor := cursorAfter x.cursor found }
  found.foldl (fun s x => handOver x.1 p key another (setUnison x.1 p s)) s

/-- The answer of a NOTE START: placed set, stolen set, first voice (R15, R189). -/
def noteAnswer (s : State) (c : Code) (placed stolen : List VoiceNo) : Answered :=
  answer s c (Frame.two (setOf placed) ++ Frame.two (setOf stolen) ++ [voiceByte placed.head?])

/-- A search and, if it finds a voice, a placement (R15). In SOLO key mode the placed voices become the
solo group (R32). -/
def searchAndPlace (p : Part) (key velocity : Nat) (solo : Bool) (s : State) : Answered :=
  let found := search s p key
  if found.isEmpty then noteAnswer s .notPlaced [] []
  else
    let voices := found.map Prod.fst
    let s := place p key velocity found s
    let s := if solo then s.setSolo p (some (setOf voices)) else s
    noteAnswer (kick s) .ok voices ((found.filter fun x => x.2.stolen).map Prod.fst)

/-! ## Retrigger (R9, R39) -/

/-- A gate retrigger: GATE closes for a gap of 1 ms, from now, one that runs being restarted (R39). -/
def startGap (v : VoiceNo) (s : State) : State :=
  s.setGap v (some (restart (look s.cvo.gaps v) Config.gapTicks))

/-- A HELD or SUSTAINED voice goes to or stays HELD with its gate retriggered; a MUTING voice stays
(R9, R34). -/
def retriggerGate (v : VoiceNo) (s : State) : State :=
  if (s.status v).isHeld || (s.status v).isSustained then startGap v (s.setPhase v .held) else s

/-- One voice of a repeated POLY key (R9). -/
def retriggerOne (p : Part) (velocity : Nat) (s : State) (v : VoiceNo) : State :=
  (retriggerGate v (s.modNote v fun n => { n with velocity })).toStartTail p v

/-- The part's voices that are HELD, SUSTAINED or MUTING on a key, in ascending unison index. -/
def soundingOn (s : State) (p : Part) (key : Nat) : List VoiceNo :=
  s.byUnison ((s.val.startOrder.get p).filter fun v =>
    (s.status v).onKey p key && (s.status v).isSounding)

/-- NOTE START in POLY key mode, its key already entered (R8, R9). -/
def polyStart (p : Part) (key velocity : Nat) (s : State) : Answered :=
  match soundingOn s p key with
  | [] => searchAndPlace p key velocity false s
  | vs => noteAnswer (vs.foldl (retriggerOne p velocity) s) .ok vs []

/-! ## Solo (R31 to R36) -/

/-- The group's members, in ascending unison index. -/
def soloMembers (s : State) (g : VoiceSet) : List VoiceNo := s.byUnison (setList g)

/-- The sounding key: the key its members carry (R31, log 16). -/
def soundingKey (s : State) (g : VoiceSet) : Option Nat :=
  (soloMembers s g).head?.bind fun v => (s.status v).note?.map Note.key

/-- Every member takes a key and is handed over (R33, R35). -/
def legatoMove (p : Part) (key : Nat) (members : List VoiceNo) (s : State) : State :=
  members.foldl
    (fun s v => handOver v p key true (s.modNote v fun n => { n with key })) s

/-- One member of a retriggered group (R34). -/
def soloRetriggerOne (p : Part) (key velocity : Nat) (s : State) (v : VoiceNo) : State :=
  let s := s.modNote v fun n => { n with key, velocity }
  let s :=
    if (s.status v).isReleasing then
      (s.setPhase v .held).setReleaseOrder (without v s.val.releaseOrder)
    else retriggerGate v s
  handOver v p key false (s.toStartTail p v)

/-- SOLO NOTE START, its key already entered (R32 to R34). -/
def soloStart (p : Part) (key velocity : Nat) (s : State) : Answered :=
  match (s.part p).solo with
  | none => searchAndPlace p key velocity true s
  | some g =>
    let members := soloMembers s g
    let s :=
      if holdsOther key (s.part p).heldKeys then legatoMove p key members s
      else members.foldl (soloRetriggerOne p key velocity) s
    noteAnswer s .ok members []

/-- NOTE START (R8): the key is entered before anything is decided (R29). -/
def noteStart (part key velocity : Byte) (s : State) : Answered :=
  match part? part, key? key with
  | some p, some k =>
    let vel := clampNat 1 127 velocity.toNat
    let s := s.setKeys p (enterKey k (s.part p).heldKeys)
    match (s.patch p).keyMode with
    | .poly => polyStart p k vel s
    | .solo => soloStart p k vel s
  | _, _ => refuse s .range 5

def execNoteStart (part key velocity : Byte) (s : State) : Outcome :=
  hostCommand (.noteStart part key velocity) s (noteStart part key velocity)

/-! ## Note ends (R18, R19, R35, R36) -/

/-- A HELD voice whose key was let go (R18); a MUTING voice goes to FREE, never having sounded. -/
def endVoice (p : Part) (s : State) (v : VoiceNo) : State :=
  if (s.status v).isMuting then s.enterFree v
  else if (s.status v).isHeld then
    if (s.part p).sustain then s.setPhase v .sustained
    else s.enterReleasing v (s.patch p).releaseTicks
  else s

/-- NOTE END in POLY key mode (R18). -/
def polyEnd (p : Part) (key : Nat) (s : State) : Answered :=
  let s := s.setKeys p (leaveKey key (s.part p).heldKeys)
  match (soundingOn s p key).filter fun v => !(s.status v).isSustained with
  | [] => refuse s .unknownNote 0
  | vs => ok (kick (vs.foldl (endVoice p) s)) []

/-- The group's sounding key was let go, the list now `rest` (R35, R36). -/
def soloKeyUp (p : Part) (g : VoiceSet) (rest : List Nat) (s : State) : State :=
  match rest.getLast? with
  | some k => legatoMove p k (soloMembers s g) s
  | none => kick ((soloMembers s g).foldl (endVoice p) s)

/-- SOLO NOTE END (R35, R36). -/
def soloEnd (p : Part) (key : Nat) (s : State) : Answered :=
  let keys := (s.part p).heldKeys
  if key ∈ keys then
    let rest := leaveKey key keys
    let s := s.setKeys p rest
    match (s.part p).solo with
    | some g => ok (if soundingKey s g = some key then soloKeyUp p g rest s else s) []
    | none => ok s []
  else refuse s .unknownNote 0

/-- NOTE END (R18). -/
def noteEnd (part key : Byte) (s : State) : Answered :=
  match part? part, key? key with
  | some p, some k =>
    match (s.patch p).keyMode with
    | .poly => polyEnd p k s
    | .solo => soloEnd p k s
  | _, _ => refuse s .range 0

def execNoteEnd (part key : Byte) (s : State) : Outcome :=
  hostCommand (.noteEnd part key) s (noteEnd part key)

/-! ## Pressure and sustain (R20, R38) -/

/-- NOTE PRESSURE (R20). -/
def notePressure (part key value : Byte) (s : State) : Answered :=
  match part? part, key? key with
  | some p, some k =>
    match soundingOn s p k with
    | [] => refuse s .unknownNote 0
    | vs =>
      let x := min 127 value.toNat
      ok (vs.foldl (fun s v => s.modNote v fun n => { n with pressure := x }) s) []
  | _, _ => refuse s .range 0

def execNotePressure (part key value : Byte) (s : State) : Outcome :=
  hostCommand (.notePressure part key value) s (notePressure part key value)

/-- The part's SUSTAINED voices go to RELEASING, in start order (R38). -/
def releaseSustained (p : Part) (s : State) : State :=
  ((s.val.startOrder.get p).filter fun v => (s.status v).isSustained).foldl
    (fun s v => s.enterReleasing v (s.patch p).releaseTicks) s

/-- SUSTAIN (R38). -/
def sustain (part setting : Byte) (s : State) : Answered :=
  match part? part, onOff? setting with
  | some p, some x =>
    if (s.part p).sustain = x then ok s []
    else
      let s := s.modPart p fun r => { r with sustain := x }
      ok (if x then s else releaseSustained p s) []
  | _, _ => refuse s .range 0

def execSustain (part setting : Byte) (s : State) : Outcome :=
  hostCommand (.sustain part setting) s (sustain part setting)

/-! ## Expiries (R17, R19, R39) -/

/-- DAMP EXPIRY (R17). -/
def dampExpiry (v : VoiceNo) (s : State) : State :=
  if (s.status v).isMuting then s.setPhase v .held else s

def execDampExpiry (v : VoiceNo) (s : State) : Outcome := event s (dampExpiry v)

/-- TAIL EXPIRY (R19); the FREE voice may make a BG entry runnable (R84). -/
def tailExpiry (v : VoiceNo) (s : State) : State :=
  if (s.status v).isReleasing then kick (s.enterFree v) else s

def execTailExpiry (v : VoiceNo) (s : State) : Outcome := event s (tailExpiry v)

/-- RETRIGGER GAP EXPIRY (R39, R181): the gap becomes absent and GATE follows the state. A gap restarted
before its expiry was taken runs on. -/
def gapExpiry (v : VoiceNo) (s : State) : State :=
  s.setGap v ((look s.cvo.gaps v).bind Countdown.expire)

def execRetriggerGapExpiry (v : VoiceNo) (s : State) : Outcome := event s (gapExpiry v)

/-! ## A change of key mode (R37) -/

/-- One voice of a part whose key mode changed (R37). -/
def modeChangeVoice (p : Part) (s : State) (v : VoiceNo) : State :=
  if (s.status v).isMuting then s.enterFree v
  else if (s.status v).isHeld || (s.status v).isSustained then
    s.enterReleasing v (s.patch p).releaseTicks
  else s

/-- A part's notes are released, its keys dropped and its group dissolved (R37). -/
def releasePart (p : Part) (s : State) : State :=
  (((s.val.startOrder.get p).foldl (modeChangeVoice p) s).setKeys p []).setSolo p none

end Sys2Proof.Machine
end

