-- ==== Sys2Proof/Machine/Edit.lean ====
section
/-! DEFINITION. The Edit Buffer Unit: parameter writes and their effects (R129, R134), image loads
(R136), takeover (R139 to R145), switches (R146, R147), and the commands PARAM WRITE, PARAM READ, NAME
SET, POT MAP SET, SWITCH MAP SET and FOCUS SET. -/

namespace Sys2Proof.Machine

def State.buffer (s : State) (p : Part) : EditBuffer := s.ebu.buffers.get p

def State.setBuffer (s : State) (p : Part) (b : EditBuffer) : State :=
  { s with ebu := { s.ebu with buffers := s.ebu.buffers.set p b } }

def State.pot (s : State) (n : PotNo) : Pot := look s.psc.pots n

def State.setPot (s : State) (n : PotNo) (x : Pot) : State :=
  { s with psc := { s.psc with pots := put s.psc.pots n x } }

def State.potEntry (s : State) (n : PotNo) : PotEntry := look s.ebu.potMap n

def State.takeover (s : State) (n : PotNo) (p : Part) : Takeover := look (s.ebu.takeover.get p) n

def State.setTakeover (s : State) (n : PotNo) (p : Part) (x : Takeover) : State :=
  { s with ebu := { s.ebu with takeover := s.ebu.takeover.modify p fun t => put t n x } }

def State.setFocus (s : State) (f : Focus) : State := { s with ebu := { s.ebu with focus := f } }

/-! ## Re-arming (R141) -/

/-- The state a record is re-armed to, from the entry, the pot's stable value and the live patch. -/
def armed (e : PotEntry) (stable : Option Nat) (x : Patch) : Takeover :=
  match e.link, stable with
  | some l, some k =>
    let p := x.param l.param
    match l.mode with
    | .jump => .jumpPending
    | .catching => if p = k then .caught else if k < p then .waitAbove else .waitBelow
    | .scale => if p = k then .caught else .scaling
  | _, _ => .jumpPending

/-- The records (Q, part) of the chosen pots Q are re-armed as things stand. -/
def reArm (sel : PotNo → Bool) (p : Part) (s : State) : State :=
  { s with ebu := { s.ebu with
    takeover := s.ebu.takeover.set p (tabulate fun q =>
      if sel q then armed (s.potEntry q) (s.pot q).stable (s.patch p) else s.takeover q p) } }

/-- The entry names the parameter: a target other than NONE, with this parameter (R129). -/
def PotEntry.names (e : PotEntry) (n : ParamNo) : Bool :=
  match e.link with
  | some l => l.param == n
  | none => false

/-! ## Parameter writes (R129) -/

/-- The writers of one parameter (R129). -/
inductive Writer where
  | pot (n : PotNo)
  | step
  | host
  deriving DecidableEq, Repr

/-- What a changed engine parameter reaches within the write (R134); `old` is the state before it. -/
def engineEffect (old : State) (p : Part) (n : ParamNo) (s : State) : State :=
  match n.val with
  | 64 => if (s.patch p).keyMode = (old.patch p).keyMode then s else releasePart p s
  | 71 => recomputePart p s
  | 74 => recomputePart p s
  | 75 => recomputePart p s
  | 76 => recomputePart p s
  | 77 => recomputePart p s
  | 78 => recomputePart p (moveNotes old s)
  | _ => s

/-- The value is stored, and a change sets the modified flag (R129, steps 1 and 2). -/
def storeParam (p : Part) (n : ParamNo) (x : Nat) (s : State) : State :=
  let b := s.buffer p
  s.setBuffer p
    { patch := { b.patch with params := put b.patch.params n x }
      modified := b.modified || x != b.patch.param n }

/-- A parameter write, whole (R129). -/
def writeParam (w : Writer) (p : Part) (n : ParamNo) (value : Nat) (s : State) : State :=
  let x := min 1023 value
  let changed := x ≠ (s.patch p).param n
  let t := storeParam p n x s
  let t := reArm (fun q => (t.potEntry q).names n && w != .pot q) p t
  let t := if changed then engineEffect s p n t else t
  if changed ∧ w ≠ .host then t.mark (.paramChanged p n) else t

/-- An image load (R136, R62). -/
def loadImage (p : Part) (x : Patch) (s : State) : State :=
  let t := s.setBuffer p { patch := x, modified := false }
  let t := reArm (fun _ => true) p t
  let t := if (t.patch p).keyMode = (s.patch p).keyMode then t else releasePart p t
  recomputePart p (moveNotes s t)

/-! ## Takeover (R139, R142 to R145) -/

/-- The part is reached by a target under a focus (R139). -/
def Target.reaches (t : Target) (f : Focus) (p : Part) : Bool :=
  match t, f, p with
  | .a, _, .A => true
  | .b, _, .B => true
  | .both, _, _ => true
  | .focus, .a, .A => true
  | .focus, .b, .B => true
  | .focus, .both, _ => true
  | _, _, _ => false

/-- A CATCH, JUMP or CAUGHT record writes at this move (R143). -/
def catches (x : Takeover) (p k1 : Nat) : Bool :=
  match x with
  | .caught => true
  | .jumpPending => true
  | .waitAbove => decide (p ≤ k1)
  | .waitBelow => decide (k1 ≤ p)
  | .scaling => false

/-- The proportional value p1 of a SCALING record (R144). -/
def scaled (p0 k0 k1 : Nat) : Nat :=
  if k0 < k1 then p0 + (1023 - p0) * (k1 - k0) / (1023 - k0) else p0 - p0 * (k0 - k1) / k0

/-- A SCALING record meets its pot (R144): p1 equals k1, or lies on the other side of it. -/
def meets (p0 p1 k0 k1 : Nat) : Bool :=
  decide (p1 = k1 ∨ ((p1 : Int) - k1) * ((p0 : Int) - k0) < 0)

/-- A record of a reached part is applied (R143, R144). -/
def applyTakeover (q : PotNo) (l : PotLink) (k0 k1 : Nat) (p : Part) (s : State) : State :=
  let p0 := (s.patch p).param l.param
  let write (x : Nat) (s : State) : State := writeParam (.pot q) p l.param x s
  if s.takeover q p = .scaling then
    let p1 := scaled p0 k0 k1
    if meets p0 p1 k0 k1 then (write k1 s).setTakeover q p .caught
    else if p1 = p0 then s
    else write p1 s
  else if catches (s.takeover q p) p0 k1 then (write k1 s).setTakeover q p .caught
  else s

/-- A stable change at one part: applied where it is reached, else the record is re-armed (R142). -/
def stableChangeAt (q : PotNo) (k0 k1 : Nat) (s : State) (p : Part) : State :=
  match (s.potEntry q).link with
  | some l =>
    if l.target.reaches s.ebu.focus p then applyTakeover q l k0 k1 p s
    else reArm (fun i => i == q) p s
  | none => reArm (fun i => i == q) p s

/-- A stable change (R142), with POT MOVED for a target-NONE pot 80..95 (R145). -/
def stableChange (q : PotNo) (k0 k1 : Nat) (s : State) : State :=
  let s' := stableChangeAt q k0 k1 (stableChangeAt q k0 k1 s .A) .B
  if h : 80 ≤ q.val then
    if (s.potEntry q).link.isNone then s'.mark (.potMoved ⟨q.val - 80, by omega⟩) else s'
  else s'

/-- A first-reading notice re-arms both records of the pot (R118, R141). -/
def firstReading (q : PotNo) (s : State) : State :=
  reArm (fun i => i == q) .B (reArm (fun i => i == q) .A s)

/-! ## Switches (R146, R147) -/

/-- The value of the step after the one v lies in, of `count` steps (R146). -/
def stepValue (count v : Nat) : Nat :=
  let next := (v * count / 1024 + 1) % count
  (2 * next + 1) * 1024 / (2 * count)

/-- A press of a STEP switch at one part (R146). -/
def stepAt (t : Target) (n : ParamNo) (count : Nat) (s : State) (p : Part) : State :=
  if t.reaches s.ebu.focus p then
    writeParam .step p n (stepValue count ((s.patch p).param n)) s
  else s

/-- A switch change: a press when `pressed`, else a release (R146, R147). -/
def switchChange (n : SwitchNo) (pressed : Bool) (s : State) : State :=
  match look s.ebu.switchMap n with
  | .hostOnly => s.mark (.switch n)
  | .focus f => if pressed then s.setFocus f else s
  | .step t i count => if pressed then stepAt t i count (stepAt t i count s .A) .B else s

/-! ## Commands -/

/-- PARAM WRITE (R130); a voice set free by a key-mode change may make an entry runnable (R84). -/
def paramWrite (part param : Byte) (value : BitVec 16) (s : State) : Answered :=
  match part? part, fin? 80 param.toNat with
  | some p, some n =>
    let s := kick (writeParam .host p n value.toNat s)
    ok s (b2 ((s.patch p).param n))
  | _, _ => refuse s .range 2

def execParamWrite (part param : Byte) (value : BitVec 16) (s : State) : Outcome :=
  hostCommand (.paramWrite part param value) s (paramWrite part param value)

/-- PARAM READ (R131). -/
def paramRead (part item : Byte) (s : State) : Answered :=
  match part? part, fin? 81 item.toNat with
  | some p, some i =>
    let b := s.buffer p
    if h : i.val < 80 then ok s (b2 (b.patch.param ⟨i.val, h⟩))
    else ok s (b.patch.name.toList ++ [b1 b.patch.category, flag b.modified])
  | _, _ => refuse s .range (if item.toNat = 80 then 25 else 2)

def execParamRead (part item : Byte) (s : State) : Outcome :=
  hostCommand (.paramRead part item) s (paramRead part item)

/-- NAME SET (R132). -/
def nameSet (part : Byte) (name : Name) (category : Byte) (s : State) : Answered :=
  match part? part with
  | some p =>
    let b := s.buffer p
    let name := cleanName name
    let cat := min 15 category.toNat
    let changed := name != b.patch.name || cat != b.patch.category
    ok (s.setBuffer p
        { patch := { b.patch with name, category := cat }, modified := b.modified || changed })
      (name.toList ++ [b1 cat])
  | none => refuse s .range 24

def execNameSet (part : Byte) (name : Name) (category : Byte) (s : State) : Outcome :=
  hostCommand (.nameSet part name category) s (nameSet part name category)

/-- The link that POT MAP SET's arguments name: target 0 is NONE, whose parameter and mode are not
checked (R137). -/
def potLink? (target param mode : Byte) : Option (Option PotLink) :=
  if target = 0 then some none
  else match target? target, fin? 80 param.toNat, takeoverMode? mode with
    | some t, some n, some m => some (some { target := t, param := n, mode := m })
    | _, _, _ => none

/-- An entry as POT MAP SET sends it back (R190). -/
def PotEntry.bytes (e : PotEntry) : List Byte :=
  match e.link with
  | some l => [l.target.byte, b1 l.param.val, l.mode.byte, b1 e.slot.val]
  | none => [0, 0, 0, b1 e.slot.val]

/-- POT MAP SET (R137). -/
def potMapSet (pot target param mode slot : Byte) (s : State) : Answered :=
  match fin? 96 pot.toNat, potLink? target param mode, fin? 4 slot.toNat with
  | some q, some l, some sl =>
    let e : PotEntry := { link := l, slot := sl }
    let s := { s with ebu := { s.ebu with potMap := put s.ebu.potMap q e } }
    let s := s.setPot q { s.pot q with slot := sl }
    ok (firstReading q s) e.bytes
  | _, _, _ => refuse s .range 4

def execPotMapSet (pot target param mode slot : Byte) (s : State) : Outcome :=
  hostCommand (.potMapSet pot target param mode slot) s (potMapSet pot target param mode slot)

/-- The entry that SWITCH MAP SET's arguments name (R138, R190): only the fields its action uses are
checked. -/
def switchEntry? (action field param count : Byte) : Option SwitchEntry :=
  match action.toNat with
  | 0 => some .hostOnly
  | 1 =>
    match target? field, fin? 80 param.toNat with
    | some t, some n => some (.step t n (clampNat 2 16 count.toNat))
    | _, _ => none
  | 2 => (focus? field).map .focus
  | _ => none

/-- An entry as SWITCH MAP SET sends it back (R190). -/
def SwitchEntry.bytes : SwitchEntry → List Byte
  | .hostOnly => [0, 0, 0, 0]
  | .step t n count => [1, t.byte, b1 n.val, b1 count]
  | .focus f => [2, f.byte, 0, 0]

/-- SWITCH MAP SET (R138). -/
def switchMapSet (switch action field param count : Byte) (s : State) : Answered :=
  match fin? 32 switch.toNat, switchEntry? action field param count with
  | some n, some e =>
    ok { s with ebu := { s.ebu with switchMap := put s.ebu.switchMap n e } } e.bytes
  | _, _ => refuse s .range 4

def execSwitchMapSet (switch action field param count : Byte) (s : State) : Outcome :=
  hostCommand (.switchMapSet switch action field param count) s
    (switchMapSet switch action field param count)

/-- FOCUS SET (R139). -/
def focusSet (focus : Byte) (s : State) : Answered :=
  match focus? focus with
  | some f => ok (s.setFocus f) [f.byte]
  | none => refuse s .range 1

def execFocusSet (focus : Byte) (s : State) : Outcome :=
  hostCommand (.focusSet focus) s (focusSet focus)

end Sys2Proof.Machine
end

