-- ==== Sys2Proof/Machine/Panel.lean ====
section
/-! DEFINITION. The Panel Scanner's sampling event (R111, R112), pot and switch readings (R118, R119,
R123), and the commands SCHEDULE SET, PROFILE SET and POT READ (R114, R117, R122). -/

namespace Sys2Proof.Machine

/-! ## Readings -/

/-- The value of an accumulator (R118, R119). -/
def potValue (acc : Nat) : Nat := min 1023 ((acc + 32) / 64)

/-- One smoothing step (R119): acc + floor((16x − acc) / 2^h). -/
def smooth (acc x shift : Nat) : Nat :=
  ((acc : Int) + (16 * (x : Int) - acc) / ((2 ^ shift : Nat) : Int)).toNat

/-- The reading is reported (R119): beyond the deadband, or an end of the travel. -/
def reported (value stable deadband : Nat) : Bool :=
  decide (deadband < max value stable - min value stable
    ∨ ((value = 0 ∨ value = 1023) ∧ value ≠ stable))

/-- A pot is read (R118, R119), with its notice to the Edit Buffer Unit (R124). -/
def readPot (q : PotNo) (x : Nat) (s : State) : State :=
  let r := s.pot q
  match r.stable with
  | none =>
    let acc := 16 * x
    firstReading q (s.setPot q { r with acc, stable := some (potValue acc) })
  | some k0 =>
    let prof := look s.psc.profiles r.slot
    let acc := smooth r.acc x prof.shift
    let k1 := potValue acc
    if reported k1 k0 prof.deadband then
      stableChange q k0 k1 (s.setPot q { r with acc, stable := some k1 })
    else s.setPot q { r with acc }

def State.setSwitch (s : State) (n : SwitchNo) (x : Switch) : State :=
  { s with psc := { s.psc with switches := put s.psc.switches n x } }

/-- A switch is read (R123): CLOSED when SWIN is low. -/
def readSwitch (n : SwitchNo) (swin : Bool) (s : State) : State :=
  let r := look s.psc.switches n
  let closed := !swin
  if closed = r.closed then s.setSwitch n { r with run := 0 }
  else if r.run < 2 then s.setSwitch n { r with run := r.run + 1 }
  else switchChange n closed (s.setSwitch n { closed, run := 0 })

/-- The item at an address of a scan group is read (R106, R112). -/
def readItem (group : Fin 11) (addr : Fin 16) (padc : BitVec 12) (swin : Bool) (s : State) : State :=
  if h : group.val < 6 then readPot ⟨16 * group.val + addr.val, by omega⟩ padc.toNat s
  else if group.val = 9 then readSwitch ⟨addr.val, by omega⟩ swin s
  else if group.val = 10 then readSwitch ⟨16 + addr.val, by omega⟩ swin s
  else s

/-! ## The sampling event -/

/-- A group ends (R112): the scanner releases the bus and asks for its next group; with none left the
sweep ends, and a pending start begins the next (R111). -/
def endGroup (s : State) : State :=
  let s := releaseBus .scanner s
  let rest := s.psc.groups.drop 1
  let s := s.setPsc { s.psc with groups := rest, phase := .resting }
  if rest.isEmpty then (if s.psc.startPending then startSweep s else s) else requestBus .scanner s

/-- SCAN SAMPLE (R112): the sample is handled, then the next address is driven or the group ends. What
the sample made runnable is chosen before the group ends (R125). -/
def scanSample (padc : BitVec 12) (swin : Bool) (s : State) : State :=
  match s.psc.phase, s.psc.groups with
  | .scanning _, group :: _ =>
    let addr := s.psc.addr
    let s := kick (readItem group addr padc swin s)
    if h : addr.val < 15 then
      s.setPsc { s.psc with addr := ⟨addr.val + 1, by omega⟩, phase := .scanning Config.scanTicks }
    else endGroup s
  | _, _ => s

def execScanSample (padc : BitVec 12) (swin : Bool) (s : State) : Outcome :=
  event s (scanSample padc swin)

/-! ## Commands -/

def Psc.setSchedule (p : Psc) (n : ProfileName) (x : Schedule) : Psc :=
  match n with
  | .normal => { p with normal := x }
  | .tune => { p with tune := x }

/-- SCHEDULE SET (R114). -/
def scheduleSet (profile interval : Byte) (mask : BitVec 16) (s : State) : Answered :=
  match profileName? profile with
  | some n =>
    let x : Schedule :=
      { interval := scheduleInterval interval.toNat, mask := mask &&& scanGroupMask }
    ok (s.setPsc (s.psc.setSchedule n x)) (b1 x.interval :: Frame.two x.mask)
  | none => refuse s .range 3

def execScheduleSet (profile interval : Byte) (mask : BitVec 16) (s : State) : Outcome :=
  hostCommand (.scheduleSet profile interval mask) s (scheduleSet profile interval mask)

/-- PROFILE SET (R117). -/
def profileSet (slot shift deadband : Byte) (s : State) : Answered :=
  match fin? 4 slot.toNat with
  | some i =>
    let x : Smoothing := { shift := min 7 shift.toNat, deadband := min 15 deadband.toNat }
    ok (s.setPsc { s.psc with profiles := put s.psc.profiles i x }) [b1 x.shift, b1 x.deadband]
  | none => refuse s .range 2

def execProfileSet (slot shift deadband : Byte) (s : State) : Outcome :=
  hostCommand (.profileSet slot shift deadband) s (profileSet slot shift deadband)

/-- POT READ's data (R122, R190). -/
def Pot.bytes (r : Pot) : List Byte :=
  b2 r.acc ++ (match r.stable with
    | some k => 1 :: b2 k
    | none => [0, 0, 0]) ++ [b1 r.slot.val]

/-- POT READ (R122). -/
def potRead (pot : Byte) (s : State) : Answered :=
  match fin? 96 pot.toNat with
  | some q => ok s (s.pot q).bytes
  | none => refuse s .range 6

def execPotRead (pot : Byte) (s : State) : Outcome :=
  hostCommand (.potRead pot) s (potRead pot)

end Sys2Proof.Machine
end

