-- ==== Sys2Proof/Machine/Calibration.lean ====
section
/-! DEFINITION. The Calibration Store: the minute event with its retune decision, TUNE SETTINGS, CAL
READ, and the system record's contents, check and load (R70 to R77). -/

namespace Sys2Proof.Machine

/-! ## Age and retune (R72, R73) -/

/-- Every age is increased by 1, up to 255 (R72). -/
def ageAll (s : State) : State :=
  { s with cal := { s.cal with
    records := tabulate fun n => { s.record n with age := min 255 ((s.record n).age + 1) } } }

/-- The voice is out of service: PARKED, or TUNING with tuned-while-parked set (R73). -/
def outOfService (s : State) (v : VoiceNo) : Bool := (s.status v).reason?.isSome

/-- The retune decision adds a BG entry for the source (R73). -/
def retuneDue (s : State) (n : SourceNo) : Bool :=
  decide (s.cal.settings.retune ≤ (s.record n).age) && !outOfService s (sourceVoice n)
    && !inPlan s (sourceVoice n) (sourceIdx n)

/-- The entries that the retune decision adds, in ascending source order (R73). -/
def retuneEntries (s : State) : List Entry :=
  if s.cal.settings.retune = 0 then []
  else ((List.finRange 48).filter fun n => retuneDue s n).map fun n =>
    { voice := sourceVoice n, src := sourceIdx n, mode := .bg }

/-- MINUTE EVENT (R72, R73); the timer starts its next 60 s. -/
def minuteEvent (s : State) : State :=
  let s := ageAll { s with cal := { s.cal with minute := Config.minuteTicks } }
  kick (s.setPlan (s.tne.plan ++ retuneEntries s))

def execMinuteEvent (s : State) : Outcome := event s minuteEvent

/-! ## Commands -/

/-- The six settings as TUNE SETTINGS sends them back (R71, R190). -/
def TuneSettings.bytes (t : TuneSettings) : List Byte :=
  b2 t.oscGain ++ b2 t.fltGain ++ [edgeByte t.oscEdge, edgeByte t.fltEdge, b1 t.retune, flag t.autoPark]

/-- TUNE SETTINGS (R71). -/
def tuneSettings (oscGain fltGain : BitVec 16) (oscEdge fltEdge retune autoPark : Byte)
    (s : State) : Answered :=
  match edge? oscEdge, edge? fltEdge, onOff? autoPark with
  | some oe, some fe, some ap =>
    let t : TuneSettings :=
      { oscGain := clampNat 256 8191 oscGain.toNat, fltGain := clampNat 256 8191 fltGain.toNat,
        oscEdge := oe, fltEdge := fe, retune := retune.toNat, autoPark := ap }
    ok { s with cal := { s.cal with settings := t } } t.bytes
  | _, _, _ => refuse s .range 8

def execTuneSettings (oscGain fltGain : BitVec 16) (oscEdge fltEdge retune autoPark : Byte)
    (s : State) : Outcome :=
  hostCommand (.tuneSettings oscGain fltGain oscEdge fltEdge retune autoPark) s
    (tuneSettings oscGain fltGain oscEdge fltEdge retune autoPark)

def CalStatus.byte : CalStatus → Byte
  | .nominal => 0
  | .tuned => 1
  | .failed _ => 2

/-- The failure reason, 0 where absent (R191). -/
def CalStatus.reasonByte : CalStatus → Byte
  | .failed .noSignal => 1
  | .failed .notConverged => 2
  | .failed .outOfRange => 3
  | .failed .nonMonotonic => 4
  | _ => 0

/-- CAL READ's data (R74, R191). -/
def SourceRec.bytes (r : SourceRec) : List Byte :=
  r.codes.toList.flatMap b2 ++ [r.status.byte, r.status.reasonByte, b1 r.age]

/-- CAL READ (R74). -/
def calRead (source : Byte) (s : State) : Answered :=
  match fin? 48 source.toNat with
  | some n => ok s (s.record n).bytes
  | none => refuse s .range 21

def execCalRead (source : Byte) (s : State) : Outcome :=
  hostCommand (.calRead source) s (calRead source)

/-! ## The system record (R75 to R77) -/

/-- A status as the system record counts it (R75). -/
def CalStatus.number : CalStatus → Nat
  | .nominal => 0
  | .tuned => 1
  | .failed .noSignal => 2
  | .failed .notConverged => 3
  | .failed .outOfRange => 4
  | .failed .nonMonotonic => 5

/-- The status of a stored number (R75, R76). -/
def calStatus? : Nat → Option CalStatus
  | 0 => some .nominal
  | 1 => some .tuned
  | 2 => some (.failed .noSignal)
  | 3 => some (.failed .notConverged)
  | 4 => some (.failed .outOfRange)
  | 5 => some (.failed .nonMonotonic)
  | _ => none

/-- The guard as the check counts it (R75). -/
def Guard.number (g : Guard) : Nat := g.extent + (if g.high then 8 else 0) + (if g.invert then 16 else 0)

/-- The check of stored contents (R75). -/
def sysCheck (codes : Vector (Vector Nat 9) 48) (status : Vector Nat 48) (g : Guard) : Nat :=
  ((codes.toList.map fun c => c.toList.sum).sum + status.toList.sum + g.number) % 65536

/-- The image of a system-record write, from the committed records and a guard (R75). -/
def sysImage (s : State) (g : Guard) : SysRecord :=
  let codes := tabulate fun n => (s.record n).codes
  let status := tabulate fun n => (s.record n).status.number
  { codes, status, guard := g, check := sysCheck codes status g }

/-- The codes strictly increase from C_0 to C_8 (R67, R76). -/
def rising (codes : Vector Nat 9) : Bool :=
  (List.finRange 8).all fun k => decide (look codes k.castSucc < look codes k.succ)

/-- The tests of a load on stored contents (R76). -/
def SysRecord.passes (r : SysRecord) : Bool :=
  r.check == sysCheck r.codes r.status r.guard
    && (List.finRange 48).all (fun n => decide (look r.status n ≤ 5) && rising (look r.codes n))
    && decide (r.guard.extent ≤ 5)

/-- What a load takes from the system area, none where it fails a test (R76). -/
def SysArea.load (a : SysArea) : Option SysRecord :=
  if a.state = 0x3F then
    match a.contents with
    | some r => if r.passes then some r else none
    | none => none
  else none

/-- The load at reset: records and guard from the system record, or the fallback (R76, R77). -/
def loadSystem (s : State) : State :=
  match s.smc.sys.load with
  | some r =>
    { s with
      cal := { s.cal with
        records := tabulate fun n =>
          { codes := look r.codes n, status := (calStatus? (look r.status n)).getD .nominal, age := 0 }
        damaged := false }
      smc := { s.smc with guard := r.guard } }
  | none =>
    { s with
      cal := { s.cal with records := Vector.replicate 48 SourceRec.nominal, damaged := true }
      smc := { s.smc with guard := Guard.all } }

end Sys2Proof.Machine
end

