-- ==== Sys2Proof/Machine/Slots.lean ====
section
/-! DEFINITION. The Slot Memory Controller: slot images and their readout (R151 to R153), the write in
flight and its phases (R154 to R156, R163), the bank guard (R157, R165 to R167), and the commands that
write and read slots and the system record (R78, R158 to R162). -/

namespace Sys2Proof.Machine

/-! ## Images (R151, R153) -/

/-- Parameters packed 10 bits each, most significant bit first, four to five bytes (R151). -/
def packParams : List Nat → List Byte
  | a :: b :: c :: d :: rest =>
    b1 (a / 4) :: b1 (a % 4 * 64 + b / 16) :: b1 (b % 16 * 16 + c / 64) :: b1 (c % 64 * 4 + d / 256)
      :: b1 (d % 256) :: packParams rest
  | _ => []

/-- The parameters of packed bytes. -/
def unpackParams : List Byte → List Nat
  | v :: w :: x :: y :: z :: rest =>
    (v.toNat * 4 + w.toNat / 64) :: (w.toNat % 64 * 16 + x.toNat / 16)
      :: (x.toNat % 16 * 64 + y.toNat / 4) :: (y.toNat % 4 * 256 + z.toNat) :: unpackParams rest
  | _ => []

/-- The check: 104 numbers summed modulo 65536 (R153). -/
def imageCheck (name : List Byte) (category : Nat) (params : List Nat) : Nat :=
  ((name.map BitVec.toNat).sum + category + params.sum) % 65536

/-- The 128 bytes of a patch's image, state 0x3F and version 0x01 (R151, R158). -/
def patchImage (x : Patch) : List Byte :=
  0x3F :: 0x01 :: b2 (imageCheck x.name.toList x.category x.params.toList)
    ++ x.name.toList ++ [b1 x.category] ++ packParams x.params.toList

/-- What a readout of an image finds (R152). -/
inductive Readout where
  | erased
  | damaged
  | valid (x : Patch)
  deriving DecidableEq, Repr

/-- The patch an image holds, with a name byte or category outside its range handed on as NAME SET
stores it (R153). -/
def imagePatch (img : List Byte) : Patch :=
  let params := unpackParams (img.drop 28)
  { name := tabulate fun i => nameByte (img.getD (4 + i.val) 0)
    category := min 15 (img.getD 27 0).toNat
    params := tabulate fun n => params.getD n.val 0 }

/-- The stored check equals the one computed from the stored bytes (R153). -/
def imageCheckOk (img : List Byte) : Bool :=
  (img.getD 2 0).toNat * 256 + (img.getD 3 0).toNat
    == imageCheck ((img.drop 4).take 23) (img.getD 27 0).toNat (unpackParams (img.drop 28))

/-- The readout of a stored image (R152). -/
def readout (img : List Byte) : Readout :=
  if img.getD 0 0 = 0xFF then .erased
  else if img.getD 0 0 = 0x3F ∧ img.getD 1 0 = 0x01 ∧ imageCheckOk img then .valid (imagePatch img)
  else .damaged

/-! ## The guard (R157) -/

/-- The count of banks an extent names. -/
def Guard.count (g : Guard) : Nat :=
  match g.extent with
  | 0 => 0
  | 1 => 1
  | 2 => 2
  | 3 => 4
  | 4 => 8
  | _ => 16

/-- The bank is protected. -/
def Guard.protects (g : Guard) (bank : Nat) : Bool :=
  let named := if g.high then decide (16 - g.count ≤ bank) else decide (bank < g.count)
  named != g.invert

/-- The slot's bank is protected; slot = 16 bank + index (R151, R157). -/
def slotGuarded (s : State) (n : SlotNo) : Bool := s.smc.guard.protects (n.val / 16)

/-! ## The write in flight (R154 to R156) -/

def State.setSmc (s : State) (x : Smc) : State := { s with smc := x }

/-- The slot a write is aimed at; none is the system area. -/
def Job.slot? : Job → Option SlotNo
  | .store n _ => some n
  | .write n _ => some n
  | .clear n => some n
  | .calSave _ => none
  | .guardSet _ => none

def Job.op : Job → NvOp
  | .store _ _ => .store
  | .write _ _ => .write
  | .clear _ => .clear
  | .calSave _ => .calSave
  | .guardSet _ => .guardSet

/-- The program phase's length; CLEAR has none (R155). -/
def Job.programTicks : Job → Nat
  | .store _ _ => Config.programTicks
  | .write _ _ => Config.programTicks
  | .clear _ => 0
  | .calSave _ => Config.sysProgramTicks
  | .guardSet _ => Config.sysProgramTicks

/-- The target's state byte is programmed. -/
def setStateByte (j : Job) (x : Byte) (s : State) : State :=
  match j.slot? with
  | some n => s.setSmc { s.smc with slots := memWrite s.smc.slots (slotBase n) x }
  | none => s.setSmc { s.smc with sys := { s.smc.sys with state := x } }

/-- A write is accepted (R155): phase ERASE with its full time, the target's state byte 0x00. -/
def accept (j : Job) (s : State) : State :=
  let s := setStateByte j 0x00 s
  s.setSmc { s.smc with
    write := some { job := j, phase := .erase, remaining := Config.eraseTicks, resume := none } }

/-- The completion of a write (R156, R165, R77). -/
def complete (j : Job) (good : Bool) (s : State) : State :=
  let s := s.setSmc { s.smc with write := none }
  let s := s.mark (.nvResult { op := j.op, slot := j.slot?, ok := good })
  match j, good with
  | .calSave _, true => { s with cal := { s.cal with damaged := false } }
  | .guardSet r, true =>
    { s with cal := { s.cal with damaged := false }, smc := { s.smc with guard := r.guard } }
  | _, _ => s

/-- The whole target reads 0xFF (R155). -/
def eraseTarget (j : Job) (s : State) : State :=
  match j.slot? with
  | some n => s.setSmc { s.smc with
      slots := memWriteAll s.smc.slots (slotBase n) (List.replicate 128 erasedByte) }
  | none => s.setSmc { s.smc with sys := { state := 0xFF, contents := none } }

/-- The erase expiry (R155): a CLEAR completes; else WRITING and the program phase. -/
def endErase (w : NvWrite) (s : State) : State :=
  let s := eraseTarget w.job s
  match w.job with
  | .clear _ => complete w.job true s
  | _ =>
    let s := setStateByte w.job 0x7F s
    s.setSmc { s.smc with
      write := some { w with phase := .program, remaining := w.job.programTicks, resume := none } }

/-- The bits of byte i that stayed 1. -/
def stuckAt (l : StuckBits) (i : Nat) : Byte :=
  l.foldl (fun acc x => if x.1.val = i then acc ||| x.2 else acc) 0

/-- What programming leaves of bytes 1..127 of an image: stuck bits stay 1 (R152, R155). -/
def programmed (img : List Byte) (stuck : StuckBits) : List Byte :=
  (img.zipIdx.drop 1).map fun x => x.1 ||| stuckAt stuck x.2

/-- The bytes 1..127 of an image are programmed and read back; VALID when they agree (R155). -/
def programSlot (j : Job) (n : SlotNo) (img : List Byte) (stuck : StuckBits) (s : State) : State :=
  let back := programmed img stuck
  let s := s.setSmc { s.smc with slots := memWriteAll s.smc.slots (slotBase n + 1) back }
  if back = img.drop 1 then complete j true (setStateByte j 0x3F s) else complete j false s

/-- The system record is programmed and read back; any bit that did not program makes a difference
(R155, log 8). -/
def programSys (j : Job) (r : SysRecord) (stuck : StuckBits) (s : State) : State :=
  if stuck.all fun x => x.2 == 0 then
    complete j true (s.setSmc { s.smc with sys := { state := 0x3F, contents := some r } })
  else complete j false s

/-- The program expiry (R155). -/
def endProgram (w : NvWrite) (stuck : StuckBits) (s : State) : State :=
  match w.job with
  | .store n img => programSlot w.job n img stuck s
  | .write n img => programSlot w.job n img stuck s
  | .clear _ => s
  | .calSave r => programSys w.job r stuck s
  | .guardSet r => programSys w.job r stuck s

/-- ERASE EXPIRY: while a suspension is present the phase stands still (R155, R163). -/
def eraseExpiry (s : State) : State :=
  match s.smc.write with
  | some w => if w.phase = .erase ∧ w.resume = none then endErase w s else s
  | none => s

def execEraseExpiry (s : State) : Outcome := event s eraseExpiry

/-- PROGRAM EXPIRY, likewise. -/
def programExpiry (stuck : StuckBits) (s : State) : State :=
  match s.smc.write with
  | some w => if w.phase = .program ∧ w.resume = none then endProgram w stuck s else s
  | none => s

def execProgramExpiry (stuck : StuckBits) (s : State) : Outcome := event s (programExpiry stuck)

/-- RESUME EXPIRY (R163): the suspension becomes absent, and a phase with no time left ends. A resume time
restarted before its expiry was taken runs on. -/
def resumeExpiry (stuck : StuckBits) (s : State) : State :=
  match s.smc.write with
  | some w =>
    match w.resume with
    | some x =>
      let w := { w with resume := x.expire }
      let s := s.setSmc { s.smc with write := some w }
      if w.resume = none ∧ w.remaining = 0 then
        match w.phase with
        | .erase => endErase w s
        | .program => endProgram w stuck s
      else s
    | none => s
  | none => s

def execResumeExpiry (stuck : StuckBits) (s : State) : Outcome := event s (resumeExpiry stuck)

/-! ## Writing (R158 to R160, R165, R78) -/

/-- The tests of a slot write after RANGE: GUARDED, then BUSY (R158). -/
def slotWriteRefused (s : State) (n : SlotNo) : Option Code :=
  if slotGuarded s n then some .guarded else if s.smc.write.isSome then some .busy else none

/-- PATCH STORE (R158): the modified flag is cleared at acceptance. -/
def patchStore (part : Byte) (slot : BitVec 16) (s : State) : Answered :=
  match part? part, slot? slot with
  | some p, some n =>
    match slotWriteRefused s n with
    | some c => refuse s c 0
    | none =>
      let b := s.buffer p
      let s := accept (.store n (patchImage b.patch)) s
      ok (s.setBuffer p { b with modified := false }) []
  | _, _ => refuse s .range 0

def execPatchStore (part : Byte) (slot : BitVec 16) (s : State) : Outcome :=
  hostCommand (.patchStore part slot) s (patchStore part slot)

/-- The patch SLOT WRITE names, brought into range (R159). -/
def hostPatch (name : Name) (category : Byte) (params : Vector (BitVec 16) 80) : Patch :=
  { name := cleanName name, category := min 15 category.toNat
    params := tabulate fun n => min 1023 (look params n).toNat }

/-- SLOT WRITE (R159). -/
def slotWrite (slot : BitVec 16) (name : Name) (category : Byte) (params : Vector (BitVec 16) 80)
    (s : State) : Answered :=
  match slot? slot with
  | some n =>
    match slotWriteRefused s n with
    | some c => refuse s c 0
    | none => ok (accept (.write n (patchImage (hostPatch name category params))) s) []
  | none => refuse s .range 0

def execSlotWrite (slot : BitVec 16) (name : Name) (category : Byte)
    (params : Vector (BitVec 16) 80) (s : State) : Outcome :=
  hostCommand (.slotWrite slot name category params) s (slotWrite slot name category params)

/-- SLOT CLEAR (R160). -/
def slotClear (slot : BitVec 16) (s : State) : Answered :=
  match slot? slot with
  | some n =>
    match slotWriteRefused s n with
    | some c => refuse s c 0
    | none => ok (accept (.clear n) s) []
  | none => refuse s .range 0

def execSlotClear (slot : BitVec 16) (s : State) : Outcome :=
  hostCommand (.slotClear slot) s (slotClear slot)

/-- CAL SAVE (R78): BUSY is its only refusal. -/
def calSave (s : State) : Answered :=
  if s.smc.write.isSome then refuse s .busy 0
  else ok (accept (.calSave (sysImage s s.smc.guard)) s) []

def execCalSave (s : State) : Outcome := hostCommand .calSave s calSave

/-- GUARD SET (R165): RANGE, then FROZEN, then BUSY. -/
def guardSet (extent anchor invert : Byte) (s : State) : Answered :=
  match fin? 6 extent.toNat, anchor? anchor, onOff? invert with
  | some e, some high, some inv =>
    if s.smc.frozen then refuse s .frozen 0
    else if s.smc.write.isSome then refuse s .busy 0
    else
      let g : Guard := { extent := e.val, high, invert := inv }
      ok (accept (.guardSet (sysImage s g)) s) []
  | _, _, _ => refuse s .range 0

def execGuardSet (extent anchor invert : Byte) (s : State) : Outcome :=
  hostCommand (.guardSet extent anchor invert) s (guardSet extent anchor invert)

/-- GUARD FREEZE (R166). -/
def guardFreeze (s : State) : Answered := ok (s.setSmc { s.smc with frozen := true }) []

def execGuardFreeze (s : State) : Outcome := hostCommand .guardFreeze s guardFreeze

/-- A GUARD SET is in flight (R167). -/
def guardSetInFlight (s : State) : Bool :=
  match s.smc.write with
  | some w => w.job.op == .guardSet
  | none => false

/-- GUARD READ's data (R167, R189). -/
def guardData (s : State) : List Byte :=
  [b1 s.smc.guard.extent, flag s.smc.guard.high, flag s.smc.guard.invert, flag s.smc.frozen,
    flag (guardSetInFlight s)]

def execGuardRead (s : State) : Outcome := hostCommand .guardRead s fun s => ok s (guardData s)

/-! ## Reading (R161 to R164) -/

/-- The write in flight, if it is aimed at this slot. -/
def writeOn (s : State) (n : SlotNo) : Option Job :=
  match s.smc.write with
  | some w => if w.job.slot? = some n then some w.job else none
  | none => none

/-- The bytes a slot reads as: the staging image or an erased slot for the target of the write in
flight (R164), else the bytes stored (R162). -/
def slotBytes (s : State) (n : SlotNo) : List Byte :=
  match writeOn s n with
  | some (.store _ img) => img
  | some (.write _ img) => img
  | some _ => List.replicate 128 erasedByte
  | none => slotImage s.smc.slots n

/-- A read of the stored image suspends a write in flight for a full resume time, and restarts one that
runs (R163); a read of the write's own target does not (R164). -/
def suspendFor (n : SlotNo) (s : State) : State :=
  match s.smc.write with
  | some w =>
    if w.job.slot? = some n then s
    else s.setSmc { s.smc with
      write := some { w with resume := some (restart w.resume Config.resumeTicks) } }
  | none => s

/-- PATCH RECALL (R161). -/
def patchRecall (slot : BitVec 16) (part : Byte) (s : State) : Answered :=
  match slot? slot, part? part with
  | some n, some p =>
    let t := suspendFor n s
    match readout (slotBytes s n) with
    | .erased => answer t .empty []
    | .damaged => answer t .damaged []
    | .valid x => ok (kick (loadImage p x t)) []
  | _, _ => refuse s .range 0

def execPatchRecall (slot : BitVec 16) (part : Byte) (s : State) : Outcome :=
  hostCommand (.patchRecall slot part) s (patchRecall slot part)

def Readout.code : Readout → Code
  | .erased => .empty
  | .damaged => .damaged
  | .valid _ => .ok

/-- SLOT READ (R162). -/
def slotRead (slot : BitVec 16) (s : State) : Answered :=
  match slot? slot with
  | some n => answer (suspendFor n s) (readout (slotBytes s n)).code (slotBytes s n)
  | none => refuse s .range 128

def execSlotRead (slot : BitVec 16) (s : State) : Outcome :=
  hostCommand (.slotRead slot) s (slotRead slot)

/-! ## A write aborted by a reset (R168) -/

/-- What an aborted phase leaves of bytes 1..127 (log 7): erasing raises bits of the stored bytes,
programming leaves bits of the staging image not yet lowered. -/
def abortedBytes (base : List Byte) (free : Nat) : List Byte :=
  (base.zipIdx.drop 1).map fun x => x.1 ||| Config.abortedBits (free + x.2)

/-- The bytes a phase works on. -/
def abortBase (w : NvWrite) (n : SlotNo) (s : State) : List Byte :=
  match w.phase, w.job with
  | .program, .store _ img => img
  | .program, .write _ img => img
  | _, _ => slotImage s.smc.slots n

/-- The write in flight is aborted (R79, R168): its target keeps state byte 0x00 or 0x7F, which its
phase programmed; a slot's other bytes are free. -/
def abortWrite (s : State) : State :=
  match s.smc.write with
  | none => s
  | some w =>
    let s := s.setSmc { s.smc with write := none }
    match w.job.slot? with
    | some n =>
      { s with
        smc := { s.smc with
          slots := memWriteAll s.smc.slots (slotBase n + 1) (abortedBytes (abortBase w n s) s.free) }
        free := s.free + 128 }
    | none => s.setSmc { s.smc with sys := { s.smc.sys with contents := none } }

end Sys2Proof.Machine
end

