-- ==== Sys2Proof/Machine/Voices.lean ====
section
/-! DEFINITION. The Voice Allocator's other commands: PERFORMANCE SET, PART SETTINGS, SEED, ALL NOTES
CLEAR, VOICE SERVICE off and on, VOICE READ (R5 to R7, R21 to R23, R26, R191). -/

namespace Sys2Proof.Machine

/-- The range of a performance control (R4). -/
def Control.clamp (c : Control) (x : Int) : Int :=
  match c with
  | .bend => clampInt (-8192) 8191 x
  | .mod => clampInt 0 1023 x
  | .pressure => clampInt 0 127 x
  | .expression => clampInt 0 1023 x

def PartRec.control (r : PartRec) : Control → Int
  | .bend => r.bend
  | .mod => r.mod
  | .pressure => r.pressure
  | .expression => r.expression

def PartRec.setControl (r : PartRec) (c : Control) (x : Int) : PartRec :=
  match c with
  | .bend => { r with bend := x }
  | .mod => { r with mod := x.toNat }
  | .pressure => { r with pressure := x.toNat }
  | .expression => { r with expression := x.toNat }

/-- PERFORMANCE SET (R5): a new BEND recomputes every voice of the part. -/
def performanceSet (part control : Byte) (value : BitVec 16) (s : State) : Answered :=
  match part? part, control? control with
  | some p, some c =>
    let x := c.clamp value.toInt
    let old := (s.part p).control c
    let s := s.modPart p fun r => r.setControl c x
    ok (if c = .bend ∧ x ≠ old then recomputePart p s else s) []
  | _, _ => refuse s .range 0

def execPerformanceSet (part control : Byte) (value : BitVec 16) (s : State) : Outcome :=
  hostCommand (.performanceSet part control value) s (performanceSet part control value)

/-- PART SETTINGS (R6): a change of scale select moves the part's voices key by key (R49). -/
def partSettings (part : Byte) (pool : BitVec 16) (scale : Byte) (s : State) : Answered :=
  match part? part, fin? 2 scale.toNat with
  | some p, some t => ok (moveNotes s (s.modPart p fun r => { r with pool, scale := t })) []
  | _, _ => refuse s .range 0

def execPartSettings (part : Byte) (pool : BitVec 16) (scale : Byte) (s : State) : Outcome :=
  hostCommand (.partSettings part pool scale) s (partSettings part pool scale)

/-- SEED (R7): 0 is clamped to 1. -/
def seed (value : BitVec 16) (s : State) : Answered :=
  ok { s with val := { s.val with seed := if value = 0 then 1 else value } } []

def execSeed (value : BitVec 16) (s : State) : Outcome := hostCommand (.seed value) s (seed value)

/-- One part of an ALL NOTES CLEAR (R21). -/
def clearPart (s : State) (p : Part) : State :=
  let s := ((List.finRange 16).filter fun v => (s.status v).onPart p).foldl State.enterFree s
  s.modPart p fun r => { r with heldKeys := [], sustain := false, solo := none }

/-- ALL NOTES CLEAR (R21). -/
def allNotesClear (target : Byte) (s : State) : Answered :=
  match clearTarget? target with
  | some ps => ok (kick (ps.foldl clearPart s)) []
  | none => refuse s .range 0

def execAllNotesClear (target : Byte) (s : State) : Outcome :=
  hostCommand (.allNotesClear target) s (allNotesClear target)

/-- The Tune Engine's side of VOICE SERVICE off for a TUNING voice (R103): its entries leave the plan,
its measurement is abandoned, TUNE DONE if the removal empties the plan. -/
def removeEntries (v : VoiceNo) (s : State) : State :=
  let had := voiceInPlan s v
  let s := engineLoses v s
  let s := s.setPlan (s.tne.plan.filter fun e => e.voice != v)
  if had then doneIfEmpty s else s

/-- VOICE SERVICE off (R22); a setting byte above 1 is refused (log 17). -/
def serviceOff (voice setting : Byte) (s : State) : Answered :=
  match voice? voice with
  | none => refuse s .range 0
  | some v =>
    if setting ≠ 0 then refuse s .range 0
    else
      let s := if (s.status v).isTuning then removeEntries v s else s
      ok (kick (parkVoice v .host s)) []

def execVoiceServiceOff (voice setting : Byte) (s : State) : Outcome :=
  hostCommand (.voiceServiceOff voice setting) s (serviceOff voice setting)

/-- VOICE SERVICE on (R23): a PARKED voice goes to FREE; any other state is left. -/
def serviceOn (voice : Byte) (s : State) : Answered :=
  match voice? voice with
  | none => refuse s .range 0
  | some v =>
    match s.status v with
    | .parked _ => ok (kick (freeVoice v s)) []
    | _ => ok s []

def execVoiceServiceOn (voice : Byte) (s : State) : Outcome :=
  hostCommand (.voiceServiceOn voice) s (serviceOn voice)

/-- A time in ticks as whole milliseconds, a begun one counted (log 13). -/
def msOf (t : Nat) : Nat := (t + (Config.ticksPerMs - 1)) / Config.ticksPerMs

def VoiceStatus.byte : VoiceStatus → Byte
  | .free => 0
  | .bound _ .held => 1
  | .bound _ .sustained => 2
  | .bound _ (.releasing _) => 3
  | .bound _ (.muting _) => 4
  | .tuning _ _ => 5
  | .parked _ => 6

/-- Presence bits: 0 the note, 1 tail, 2 damp, 3 park reason (R191). -/
def VoiceStatus.presence (x : VoiceStatus) : Byte :=
  bit 0 x.note?.isSome ||| bit 1 x.isReleasing ||| bit 2 x.isMuting ||| bit 3 x.reason?.isSome

/-- The note's fields, 0 where absent. -/
def VoiceStatus.noteBytes (x : VoiceStatus) : List Byte :=
  match x.note? with
  | some n => [partByte n.part, b1 n.key, b1 n.velocity, b1 n.pressure]
  | none => [0, 0, 0, 0]

/-- Tail or damp remaining in ms (R191). -/
def VoiceStatus.remainingMs : VoiceStatus → Nat
  | .bound _ (.releasing t) => msOf t
  | .bound _ (.muting t) => msOf t
  | _ => 0

def VoiceStatus.reasonByte (x : VoiceStatus) : Byte :=
  match x.reason? with
  | some .host => 1
  | _ => 0

/-- Flags: bits 0..2 the clamp flags, 3 tuned-while-parked, 4 foreground-tuning (R191). -/
def Voice.flags (x : Voice) : Byte :=
  bit 0 (look x.clamp 0) ||| bit 1 (look x.clamp 1) ||| bit 2 (look x.clamp 2)
    ||| bit 3 (x.status.isTuning && x.status.reason?.isSome) ||| bit 4 x.status.isFgTuning

/-- VOICE READ's data (R26, R191). -/
def voiceData (x : Voice) : List Byte :=
  [x.status.byte, x.status.presence] ++ x.status.noteBytes
    ++ [b1 x.unisonIndex, b1 x.unisonSize, BitVec.ofInt 8 x.slop] ++ b2 x.status.remainingMs
    ++ [x.status.reasonByte, x.flags]

/-- VOICE READ (R26). -/
def voiceRead (voice : Byte) (s : State) : Answered :=
  match voice? voice with
  | some v => ok s (voiceData (s.voice v))
  | none => refuse s .range 13

def execVoiceRead (voice : Byte) (s : State) : Outcome :=
  hostCommand (.voiceRead voice) s (voiceRead voice)

end Sys2Proof.Machine
end

