-- ==== Sys2Proof/Machine/Reset.lean ====
section
/-! DEFINITION. The two resets and the end of reset (R195), with what each block keeps and loses (R27,
R66, R79, R105, R126, R150, R168, R169, R182, R196). -/

namespace Sys2Proof.Machine

/-- A reset is entered: the write in flight is aborted, every block takes its reset values, and the
nonvolatile memory and (where kept) the guard-frozen flag stand. A frame in progress is lost: where no
command was taken in it, it is ignored until nCS rises; where one was, what is left of it sets no mark
(R195, log 9). -/
def enterReset (kind : Running) (frozen : Bool) (s : State) : State :=
  let t := abortWrite s
  { pending := s.pending, run := kind, free := t.free, val := Val.reset, ptu := Ptu.reset,
    cal := Cal.reset, tne := Tne.reset, psc := Psc.reset, ebu := Ebu.reset,
    smc := { Smc.reset with slots := t.smc.slots, sys := t.smc.sys, frozen := frozen },
    cvo := Cvo.reset,
    lnk := { Lnk.reset with
      deaf := s.lnk.deaf || s.lnk.frame == .receiving || s.lnk.frame == .void
      tail := s.lnk.tail || s.lnk.frame == .taken } }

/-- POWER-ON RESET clears the guard-frozen flag (R166, R195). -/
def execPowerOnReset (s : State) : Outcome := .next (enterReset .inPowerOnReset false s)

/-- PIN RESET keeps it (R166, R195). -/
def execPinReset (s : State) : Outcome := .next (enterReset .inPinReset s.smc.frozen s)

/-- The part leaves reset (R195): CAL loads the system record (R76), the Pitch Unit computes the source
codes (R66), and the first sweep begins (R111). -/
def leaveReset (s : State) : State :=
  startSweep (recomputeAll (loadSystem { s with run := .running }))

def execResetExit (s : State) : Outcome := if s.run = .running then .next s else .next (leaveReset s)

end Sys2Proof.Machine
end

