-- ==== Sys2Proof/Machine/Clock.lean ====
section
/-! DEFINITION. One tick of the 8 MHz reference (log 1): every running time falls by one, the capture
counter rises by one, and each time that reaches 0 puts its expiry event on the queue. What a tick
brings in from outside is a free value (log 5). -/

namespace Sys2Proof.Machine

def fall (t : Option Nat) : Option Nat := t.map (· - 1)

def Countdown.elapse (x : Countdown) : Countdown := { x with left := x.left - 1 }

/-- The time runs out with this tick. -/
def endsNow (t : Option Countdown) : Bool := t.any fun x => x.left == 1

/-! ## The events that this tick makes due -/

def voiceDue (s : State) (v : VoiceNo) : List Instr :=
  (match s.status v with
    | .bound _ (.releasing 1) => [.tailExpiry v]
    | .bound _ (.muting 1) => [.dampExpiry v]
    | _ => [])
  ++ (if endsNow (look s.cvo.gaps v) then [.retriggerGapExpiry v] else [])
  ++ (if (s.glide v).timer = some 1 then [.glideUpdate v] else [])

def engineDue (s : State) : List Instr :=
  match s.tne.activity with
  | .settling 1 => [.settlingExpiry]
  | .gating _ 1 _ => [.gateWindowExpiry]
  | _ => []

def scannerDue (s : State) : List Instr :=
  (if s.psc.sweepTimer = some 1 then [.sweepTimerExpiry] else [])
  ++ (if s.psc.phase = .scanning 1 then
        [.scanSample (Config.padcSample s.free) (Config.swinLevel s.free)] else [])

/-- The free stuck bits of a program phase that the clock ends, in the bytes it programs. -/
def freeStuck (s : State) : StuckBits := (Config.stuckBits s.free).filter fun x => x.1.val != 0

def writeDue (s : State) : List Instr :=
  match s.smc.write with
  | some w =>
    match w.resume with
    | some _ => if endsNow w.resume then [.resumeExpiry (freeStuck s)] else []
    | none =>
      if w.remaining = 1 then
        match w.phase with
        | .erase => [.eraseExpiry]
        | .program => [.programExpiry (freeStuck s)]
      else []
  | none => []

/-- The events due, in the order in which the clock puts them on the queue (log 1). -/
def dueEvents (s : State) : List Instr :=
  (List.finRange 16).flatMap (voiceDue s)
    ++ (if s.cal.minute = 1 then [.minuteEvent] else [])
    ++ engineDue s ++ scannerDue s ++ writeDue s
    ++ (if s.cvo.refresh = 1 then [.refreshWrite] else [])

/-! ## The passing of one tick -/

def VoiceStatus.elapse : VoiceStatus → VoiceStatus
  | .bound n (.releasing t) => .bound n (.releasing (t - 1))
  | .bound n (.muting t) => .bound n (.muting (t - 1))
  | x => x

/-- The capture counter runs from the first edge on (R92), up to 639999 (R83). -/
def Activity.elapse : Activity → Activity
  | .settling t => .settling (t - 1)
  | .gating e w c => .gating e (w - 1) (c.map fun x => { x with count := min 639999 (x.count + 1) })
  | x => x

def ScanPhase.elapse : ScanPhase → ScanPhase
  | .scanning t => .scanning (t - 1)
  | x => x

/-- A phase's time falls only while no suspension is present (R155, R163). -/
def NvWrite.elapse (w : NvWrite) : NvWrite :=
  match w.resume with
  | some x => { w with resume := some x.elapse }
  | none => { w with remaining := w.remaining - 1 }

def elapse (s : State) : State :=
  { s with
    free := s.free + 1
    val := { s.val with
      voices := tabulate fun v => { s.voice v with status := (s.status v).elapse } }
    ptu := { s.ptu with
      glide := tabulate fun v => { s.glide v with timer := fall (s.glide v).timer } }
    cal := { s.cal with minute := s.cal.minute - 1 }
    tne := { s.tne with activity := s.tne.activity.elapse }
    psc := { s.psc with sweepTimer := fall s.psc.sweepTimer, phase := s.psc.phase.elapse }
    smc := { s.smc with write := s.smc.write.map NvWrite.elapse }
    cvo := { s.cvo with
      gaps := tabulate fun v => (look s.cvo.gaps v).map Countdown.elapse
      refresh := s.cvo.refresh - 1 } }

/-- One tick; in reset the part's times stand still (log 10). -/
def tick (s : State) : State :=
  if s.run = .running then { elapse s with pending := s.pending ++ dueEvents s } else s

end Sys2Proof.Machine
end

