-- ==== Sys2Proof/Machine/Dispatch.lean ====
section
/-! DEFINITION. The dispatch: one arm for each row of spec/opcode_table.json, in the table's order. -/

namespace Sys2Proof.Machine

/-- The effect of a command on everything but the queue. -/
def exec (i : Instr) (s : State) : Host.Outcome State Fault Refusal :=
  match i with
  | .noteStart part key velocity => Sys2Proof.Machine.execNoteStart part key velocity s
  | .noteEnd part key => Sys2Proof.Machine.execNoteEnd part key s
  | .notePressure part key value => Sys2Proof.Machine.execNotePressure part key value s
  | .sustain part setting => Sys2Proof.Machine.execSustain part setting s
  | .performanceSet part control value => Sys2Proof.Machine.execPerformanceSet part control value s
  | .allNotesClear target => Sys2Proof.Machine.execAllNotesClear target s
  | .voiceRead voice => Sys2Proof.Machine.execVoiceRead voice s
  | .partSettings part pool scale => Sys2Proof.Machine.execPartSettings part pool scale s
  | .seed value => Sys2Proof.Machine.execSeed value s
  | .voiceServiceOff voice setting => Sys2Proof.Machine.execVoiceServiceOff voice setting s
  | .voiceServiceOn voice => Sys2Proof.Machine.execVoiceServiceOn voice s
  | .dampExpiry voice => Sys2Proof.Machine.execDampExpiry voice s
  | .tailExpiry voice => Sys2Proof.Machine.execTailExpiry voice s
  | .retriggerGapExpiry voice => Sys2Proof.Machine.execRetriggerGapExpiry voice s
  | .glideUpdate voice => Sys2Proof.Machine.execGlideUpdate voice s
  | .masterPitch value => Sys2Proof.Machine.execMasterPitch value s
  | .scaleSet table offsets => Sys2Proof.Machine.execScaleSet table offsets s
  | .overrideSet part key pitch => Sys2Proof.Machine.execOverrideSet part key pitch s
  | .overrideClear selector part key => Sys2Proof.Machine.execOverrideClear selector part key s
  | .minuteEvent => Sys2Proof.Machine.execMinuteEvent s
  | .calRead source => Sys2Proof.Machine.execCalRead source s
  | .calSave => Sys2Proof.Machine.execCalSave s
  | .tuneSettings oscGain fltGain oscEdge fltEdge retune autoPark => Sys2Proof.Machine.execTuneSettings oscGain fltGain oscEdge fltEdge retune autoPark s
  | .tuneAdd voices sources mode => Sys2Proof.Machine.execTuneAdd voices sources mode s
  | .tuneControlRun action => Sys2Proof.Machine.execTuneControlRun action s
  | .tuneControlHalt => Sys2Proof.Machine.execTuneControlHalt s
  | .tuneControlStep => Sys2Proof.Machine.execTuneControlStep s
  | .tuneControlCancel => Sys2Proof.Machine.execTuneControlCancel s
  | .tuneRead => Sys2Proof.Machine.execTuneRead s
  | .settlingExpiry => Sys2Proof.Machine.execSettlingExpiry s
  | .firstProbeEdge edge => Sys2Proof.Machine.execFirstProbeEdge edge s
  | .gateClose edge ticks => Sys2Proof.Machine.execGateClose edge ticks s
  | .gateWindowExpiry => Sys2Proof.Machine.execGateWindowExpiry s
  | .sweepTimerExpiry => Sys2Proof.Machine.execSweepTimerExpiry s
  | .scanSample padc swin => Sys2Proof.Machine.execScanSample padc swin s
  | .scheduleSet profile interval mask => Sys2Proof.Machine.execScheduleSet profile interval mask s
  | .profileSet slot shift deadband => Sys2Proof.Machine.execProfileSet slot shift deadband s
  | .potRead pot => Sys2Proof.Machine.execPotRead pot s
  | .paramWrite part param value => Sys2Proof.Machine.execParamWrite part param value s
  | .paramRead part item => Sys2Proof.Machine.execParamRead part item s
  | .nameSet part name category => Sys2Proof.Machine.execNameSet part name category s
  | .potMapSet pot target param mode slot => Sys2Proof.Machine.execPotMapSet pot target param mode slot s
  | .switchMapSet switch action field param count => Sys2Proof.Machine.execSwitchMapSet switch action field param count s
  | .focusSet focus => Sys2Proof.Machine.execFocusSet focus s
  | .patchStore part slot => Sys2Proof.Machine.execPatchStore part slot s
  | .slotWrite slot name category params => Sys2Proof.Machine.execSlotWrite slot name category params s
  | .slotClear slot => Sys2Proof.Machine.execSlotClear slot s
  | .patchRecall slot part => Sys2Proof.Machine.execPatchRecall slot part s
  | .slotRead slot => Sys2Proof.Machine.execSlotRead slot s
  | .guardSet extent anchor invert => Sys2Proof.Machine.execGuardSet extent anchor invert s
  | .guardFreeze => Sys2Proof.Machine.execGuardFreeze s
  | .guardRead => Sys2Proof.Machine.execGuardRead s
  | .eraseExpiry => Sys2Proof.Machine.execEraseExpiry s
  | .programExpiry stuck => Sys2Proof.Machine.execProgramExpiry stuck s
  | .resumeExpiry stuck => Sys2Proof.Machine.execResumeExpiry stuck s
  | .routeSet channel source => Sys2Proof.Machine.execRouteSet channel source s
  | .routeRead channel => Sys2Proof.Machine.execRouteRead channel s
  | .refreshWrite => Sys2Proof.Machine.execRefreshWrite s
  | .nextNotice => Sys2Proof.Machine.execNextNotice s
  | .noticeEnable mask => Sys2Proof.Machine.execNoticeEnable mask s
  | .voidFrame code => Sys2Proof.Machine.execVoidFrame code s
  | .frameCut bits => Sys2Proof.Machine.execFrameCut bits s
  | .powerOnReset => Sys2Proof.Machine.execPowerOnReset s
  | .pinReset => Sys2Proof.Machine.execPinReset s
  | .resetExit => Sys2Proof.Machine.execResetExit s
  | .frameStart sckHigh => Sys2Proof.Machine.execFrameStart sckHigh s

end Sys2Proof.Machine
end

