-- ==== Sys2Proof/WellFormed.lean ====
section
/-! DEFINITION. Which commands can reach the part. Most arguments are bytes, and every byte can be
sent; what is left are the rows that share a command code, the unlisted command byte of a void
frame, and the bits that can fail to program. -/

namespace Sys2Proof

/-- A stuck bit lies in the bytes that the program phase programs, 1..127 (R155). -/
def StuckBits.ok (l : StuckBits) : Bool := l.all fun x => x.1.val != 0

/-- The command can be sent to the part. -/
def Instr.wellFormed : Instr → Bool
  | .voiceServiceOff _ setting => setting != 1
  | .tuneControlRun action => !(action == 1 || action == 2 || action == 3)
  | .voidFrame code => !Frame.listed code
  | .programExpiry stuck => StuckBits.ok stuck
  | .resumeExpiry stuck => StuckBits.ok stuck
  | _ => true

end Sys2Proof
end

