-- ==== Sys2Proof/Safety.lean ====
section
/-! DEFINITION. The laws of the device: what the rules say holds of the state at every moment. Each law
is a predicate of one state; claims say that no step breaks it. Beside them stand the predicates that
the claims about commands are written with. -/

namespace Sys2Proof.Machine

/-! ## Voices and notes -/

/-- R3: every voice is on exactly the lists that its state puts it on, and on none twice. -/
structure VoiceLaw (s : State) : Prop where
  freeNodup : s.val.freeList.Nodup
  free : ∀ v, v ∈ s.val.freeList ↔ (s.status v).isFree = true
  startNodup : ∀ p, (s.val.startOrder.get p).Nodup
  start : ∀ p v, v ∈ s.val.startOrder.get p ↔ (s.status v).onPart p = true
  releaseNodup : s.val.releaseOrder.Nodup
  release : ∀ v, v ∈ s.val.releaseOrder ↔ (s.status v).isReleasing = true

/-- R28: no key twice, at most 16 keys, each 0..127. -/
def HeldKeysLaw (s : State) : Prop :=
  ∀ p, (s.part p).heldKeys.Nodup ∧ (s.part p).heldKeys.length ≤ 16 ∧
    ∀ k ∈ (s.part p).heldKeys, k ≤ 127

/-- R31: a present solo group has members, all bound to the part, all on one key, all with one unison
size, and no two with one unison index. -/
def SoloLaw (s : State) : Prop :=
  ∀ p g, (s.part p).solo = some g → g ≠ 0 ∧
    (∀ v, inSet g v = true → (s.status v).onPart p = true) ∧
    ∀ v w, inSet g v = true → inSet g w = true →
      ((s.status v).note?.map Note.key = (s.status w).note?.map Note.key) ∧
      (s.voice v).unisonSize = (s.voice w).unisonSize ∧
      ((s.voice v).unisonIndex = (s.voice w).unisonIndex → v = w)

/-- R39, R181: a retrigger gap runs only for a HELD or SUSTAINED voice. -/
def GapLaw (s : State) : Prop :=
  ∀ v, (look s.cvo.gaps v).isSome = true →
    (s.status v).isHeld = true ∨ (s.status v).isSustained = true

/-- The ranges of a note's fields (R2). -/
def Note.InRange (n : Note) : Prop :=
  n.key ≤ 127 ∧ 1 ≤ n.velocity ∧ n.velocity ≤ 127 ∧ n.pressure ≤ 127

/-- The ranges of the times of RELEASING and MUTING, in ticks (R2). -/
def BoundPhase.InRange : BoundPhase → Prop
  | .releasing t => t ≤ 4092 * Config.ticksPerMs
  | .muting t => t ≤ 15 * Config.ticksPerMs
  | _ => True

def VoiceStatus.InRange : VoiceStatus → Prop
  | .bound n ph => n.InRange ∧ ph.InRange
  | _ => True

/-- R2: every field of a voice record lies in its range. -/
def Voice.InRange (x : Voice) : Prop :=
  x.status.InRange ∧ x.unisonIndex < x.unisonSize ∧ x.unisonSize ≤ 8 ∧
    -127 ≤ x.slop ∧ x.slop ≤ 127

/-- R4, R5: every performance control lies in its range. -/
def PartRec.InRange (r : PartRec) : Prop :=
  -8192 ≤ r.bend ∧ r.bend ≤ 8191 ∧ r.mod ≤ 1023 ∧ r.pressure ≤ 127 ∧ r.expression ≤ 1023

/-- R2, R4, R7: the Voice Allocator's fields lie in their ranges, and L is never 0. -/
def AllocatorRanges (s : State) : Prop :=
  (∀ v, (s.voice v).InRange) ∧ (∀ p, (s.part p).InRange) ∧ s.val.seed ≠ 0

/-! ## Pitch -/

/-- R45, R59, R61: every source code and clamp flag is what the chain of arithmetic gives as the state
stands. -/
def CodesLaw (s : State) : Prop :=
  ∀ n, look s.ptu.codes n = (chain s n).1 ∧
    look (s.voice (sourceVoice n)).clamp (sourceIdx n) = (chain s n).2

/-- R40, R41, R44: the target of a glide is the note pitch of its part and key. -/
def GlideLaw (s : State) : Prop :=
  ∀ v, (s.glide v).target = notePitch s (s.glide v).part (s.glide v).key

/-- R43: glide updates run exactly while the position differs from the target. -/
def GlideTimerLaw (s : State) : Prop :=
  ∀ v, (s.glide v).timer.isSome = true ↔ (s.glide v).pos ≠ (s.glide v).target

/-- One override entry stands before another in the order of R46. -/
def Override.precedes (x y : Override) : Prop :=
  match x.part, y.part with
  | .A, .B => True
  | .B, .A => False
  | _, _ => x.key < y.key

/-- R46: at most 32 entries, each pair once, in order, each key and pitch in range. -/
def OverrideLaw (s : State) : Prop :=
  s.ptu.overrides.length ≤ 32 ∧ s.ptu.overrides.Pairwise Override.precedes ∧
    ∀ o ∈ s.ptu.overrides, o.key ≤ 127 ∧ o.pitch ≤ 127000

/-- R49, R53: master pitch and scale offsets lie in their ranges. -/
def PitchRanges (s : State) : Prop :=
  -1000 ≤ s.ptu.master ∧ s.ptu.master ≤ 1000 ∧
    ∀ t c, -500 ≤ look (look s.ptu.scales t) c ∧ look (look s.ptu.scales t) c ≤ 500

/-! ## Calibration and tuning -/

/-- Nine codes strictly rise within 0..65535 (R67). -/
def Rising (codes : Vector Nat 9) : Prop :=
  (∀ i j : Fin 9, i < j → look codes i < look codes j) ∧ ∀ i, look codes i ≤ 65535

/-- The place of a breakpoint in the order of R95. -/
def rank (k : Fin 9) : Nat := if 4 ≤ k.val then k.val - 4 else 8 - k.val

/-- R83, R95, R97: a work copy holds exactly the breakpoints measured before k, in rising order within
0..65535; the trial code lies in 0..65535, and fewer than six measurements have been made at k. -/
def Current.Lawful (c : Current) : Prop :=
  (∀ j, (look c.work j).isSome = true ↔ rank j < rank c.k) ∧
  (∀ i j x y, look c.work i = some x → look c.work j = some y → i < j → x < y) ∧
  (∀ j x, look c.work j = some x → x ≤ 65535) ∧ c.trial ≤ 65535 ∧ c.iter < 6

/-- The codes of a stored or staged system record lie in 0..65535 (R75). -/
def SysRecord.Lawful (r : SysRecord) : Prop := ∀ n k, look (look r.codes n) k ≤ 65535

def Job.record? : Job → Option SysRecord
  | .calSave r => some r
  | .guardSet r => some r
  | _ => none

/-- R67, with what it rests on: the committed records, the work copy on its way to one, and the codes
that a load or a program phase brings back. -/
structure RecordsLaw (s : State) : Prop where
  committed : ∀ n, Rising (s.record n).codes
  current : ∀ c, s.tne.current = some c → c.Lawful
  stored : ∀ r, s.smc.sys.contents = some r → r.Lawful
  staged : ∀ w r, s.smc.write = some w → w.job.record? = some r → r.Lawful

/-- R70, R72: ages and tune settings lie in their ranges. -/
def CalRanges (s : State) : Prop :=
  (∀ n, (s.record n).age ≤ 255) ∧
  256 ≤ s.cal.settings.oscGain ∧ s.cal.settings.oscGain ≤ 8191 ∧
  256 ≤ s.cal.settings.fltGain ∧ s.cal.settings.fltGain ≤ 8191 ∧ s.cal.settings.retune ≤ 255

/-- R80, R83, R84: no pair twice and at most 48 entries; every TUNING voice has an entry; at most one
voice is background-tuning; the voice of an FG entry is foreground-tuning; the current entry is in the
plan and its voice is TUNING; the failed-in-lending set holds TUNING voices only. -/
structure PlanLaw (s : State) : Prop where
  nodup : s.tne.plan.Pairwise fun x y => ¬(x.voice = y.voice ∧ x.src = y.src)
  length : s.tne.plan.length ≤ 48
  tuning : ∀ v, (s.status v).isTuning = true → voiceInPlan s v = true
  oneBg : ∀ v w, (s.status v).isBgTuning = true → (s.status w).isBgTuning = true → v = w
  fg : ∀ e ∈ s.tne.plan, e.mode = .fg → (s.status e.voice).isFgTuning = true
  current : ∀ c, s.tne.current = some c →
    inPlan s c.voice c.src = true ∧ (s.status c.voice).isTuning = true
  busy : s.tne.activity ≠ .idle → s.tne.current.isSome = true
  failed : ∀ v, inSet s.tne.failed v = true → (s.status v).isTuning = true

/-- R83, R85, R177: the trial code override follows the current entry. -/
def TrialLaw (s : State) : Prop :=
  s.cvo.trial = s.tne.current.map fun c => { source := c.source, code := c.trial }

/-- R83, R92, R93: in GATING the window has at most its 640000 ticks left, the capture counter lies in
0..639999, and fewer than N_k selected edges have come after the first. -/
def GateLaw (s : State) : Prop :=
  ∀ e w capture, s.tne.activity = .gating e w capture → w ≤ 640000 ∧
    ∀ x, capture = some x → x.count ≤ 639999 ∧
      ∀ c, s.tne.current = some c → x.edges < 2 ^ c.k.val

/-- R84, R86: in RUN or STEP the engine never idles with a current entry or a runnable one. -/
def EagerLaw (s : State) : Prop :=
  s.tne.mode ≠ .halt → s.tne.activity = .idle → s.tne.current = none ∧ choose s = none

/-! ## The select bus -/

/-- SETTLING or GATING: the activities that hold the bus (R91, R92). -/
def Activity.holdsBus : Activity → Bool
  | .settling _ => true
  | .gating _ _ _ => true
  | _ => false

def ScanPhase.holdsBus : ScanPhase → Bool
  | .scanning _ => true
  | _ => false

/-- R92, R107, R108, R111: one holder; a requester waits only while the other holds; the activity and
the phase say who holds and who waits; a requester that holds held last; groups are left exactly while
a sweep is in progress; a start is pending only during one; the sweep timer runs unless one is. -/
structure BusLaw (s : State) : Prop where
  reset : s.run ≠ .running → s.psc.phase = .resting ∧ s.tne.activity = .idle ∧ s.psc.groups = []
  engine : s.tne.activity.holdsBus = true ↔ s.psc.holder = some .engine
  scanner : s.psc.phase.holdsBus = true ↔ s.psc.holder = some .scanner
  engineWaits : s.psc.engineWaits = true ↔ s.tne.activity = .busWait
  scannerWaits : s.psc.scannerWaits = true ↔ s.psc.phase = .busWait
  noWaitOnFree : s.psc.holder = none → s.psc.engineWaits = false ∧ s.psc.scannerWaits = false
  last : s.psc.holder.isSome = true → s.psc.lastHolder = s.psc.holder
  groups : s.psc.groups = [] ↔ s.psc.phase = .resting
  pending : s.psc.startPending = true → s.psc.phase ≠ .resting
  timer : s.run = .running → s.psc.sweepTimer.isSome = true ∨ s.psc.startPending = true

/-- R106: the groups that a sweep has left are scan groups; the scanner never strobes a probe group. -/
def ScanLaw (s : State) : Prop := ∀ g ∈ s.psc.groups, g ≠ 6 ∧ g ≠ 7 ∧ g ≠ 8

/-! ## The panel and the edit buffers -/

/-- R115, R116, R123: the ranges of pot records, smoothing profiles and switch records. -/
def PanelRanges (s : State) : Prop :=
  (∀ q, (s.pot q).acc ≤ 65520 ∧ ∀ k, (s.pot q).stable = some k → k ≤ 1023) ∧
  (∀ i, (look s.psc.profiles i).shift ≤ 7 ∧ (look s.psc.profiles i).deadband ≤ 15) ∧
  ∀ n, (look s.psc.switches n).run ≤ 2

/-- A patch is in range: parameters 0..1023, name 0x20..0x7E, category 0..15 (R128). -/
def Patch.InRange (x : Patch) : Prop :=
  (∀ n, x.param n ≤ 1023) ∧ (∀ i, 0x20 ≤ (look x.name i).toNat ∧ (look x.name i).toNat ≤ 0x7E) ∧
    x.category ≤ 15

/-- R128: both edit buffers are in range. -/
def BufferLaw (s : State) : Prop := ∀ p, (s.patch p).InRange

/-- R140: in CAUGHT, the mapped parameter of the part equals the pot's stable value. -/
def CaughtLaw (s : State) : Prop :=
  ∀ q p, s.takeover q p = .caught →
    ∃ l, (s.potEntry q).link = some l ∧ (s.pot q).stable = some ((s.patch p).param l.param)

/-- R115, R137: a pot record names the smoothing slot of the pot's map entry. -/
def SlotLaw (s : State) : Prop := ∀ q, (s.pot q).slot = (s.potEntry q).slot

/-! ## The slot memory and the output -/

/-- The slot memory is in canonical form (log 6). -/
def MemoryLaw (s : State) : Prop := Memory.wf s.smc.slots = true

/-- The state byte of a target (R75, R151). -/
def targetState (s : State) (j : Job) : Byte :=
  match j.slot? with
  | some n => memRead s.smc.slots (slotBase n)
  | none => s.smc.sys.state

/-- R152, R154, R155: while a write is in flight its target's state byte is 0x00 in the erase phase and
0x7F in the program phase, a CLEAR has no program phase, and a staging image has 128 bytes, the first of
them VALID. -/
def WriteLaw (s : State) : Prop :=
  ∀ w, s.smc.write = some w →
    targetState s w.job = (if w.phase = .erase then 0x00 else 0x7F) ∧
      (w.job.op = .clear → w.phase = .erase) ∧
      ∀ n img, w.job = .store n img ∨ w.job = .write n img →
        img.length = 128 ∧ img.head? = some 0x3F

/-- R173: precision channels name pitch sources or ZERO, general channels general sources or ZERO. -/
def RouteLaw (s : State) : Prop := ∀ c, routable c (look s.cvo.route c) = true

/-- R175, R177: a precision channel presents a code in 0..65535, a general one in 0..4095, and a write
of a general channel carries no trial code. -/
def PresentedLaw (s : State) : Prop :=
  ∀ c, look s.cvo.presented c ≤ (if precision c then 65535 else 4095) ∧
    (look s.cvo.trialMark c = true → precision c = true)

/-- Every source code lies in 0..65535 (R45, R59). -/
def CodeRange (s : State) : Prop := ∀ n, look s.ptu.codes n ≤ 65535

/-! ## Reset -/

/-- R195, with R27, R66, R79, R105, R126, R150, R169, R182: while the part is held in reset every block
holds its reset values. -/
def ResetLaw (s : State) : Prop :=
  s.run ≠ .running →
    s.val = Val.reset ∧ s.ptu = Ptu.reset ∧ s.cal = Cal.reset ∧ s.tne = Tne.reset ∧
      s.psc = Psc.reset ∧ s.ebu = Ebu.reset ∧ s.cvo = Cvo.reset ∧ s.smc.write = none ∧
      s.smc.guard = Guard.all ∧ s.lnk.notices = Notices.empty ∧ s.lnk.enable = 0xFF

/-- No step breaks the law, from any state that meets it. -/
def Kept (law : State → Prop) : Prop := ∀ s t, law s → step s = .next t → law t

/-! ## How claims about commands are written -/

/-- The state after a host command: what its effect left, with its frame taken, its answer bytes and
the turnaround byte (R183, R185). -/
def taken (c : Instr) (ans : List Byte) (t : State) : State :=
  { t with lnk := { t.lnk with
      frame := .taken, bytes := (Frame.bytes c).getD [], answer := ans, turnaround := statusByte t } }

/-- The place of a mark in the priority order of R192: by class, then by item within the class. -/
def Mark.rank : Mark → Nat
  | .linkError _ => 1000
  | .nvResult _ => 2000
  | .voiceParked v => 3000 + v.val
  | .tuneFailed n => 4000 + n.val
  | .tuneDone => 5000
  | .switch n => 6000 + n.val
  | .potMoved i => 7000 + i.val
  | .paramChanged .A n => 8000 + n.val
  | .paramChanged .B n => 8080 + n.val

/-- A host command, as against an event of the part (R183, R189, R190). -/
def isHostCommand (c : Instr) : Bool := (Frame.bytes c).isSome

/-- A command with an argument that names nothing (R188, first column), argument by argument as R188
lists them. -/
def namesNothing : Instr → Bool
  | .noteStart p k _ => decide (1 < p.toNat ∨ 127 < k.toNat)
  | .noteEnd p k => decide (1 < p.toNat ∨ 127 < k.toNat)
  | .notePressure p k _ => decide (1 < p.toNat ∨ 127 < k.toNat)
  | .sustain p x => decide (1 < p.toNat ∨ 1 < x.toNat)
  | .performanceSet p c _ => decide (1 < p.toNat ∨ 3 < c.toNat)
  | .allNotesClear t => decide (2 < t.toNat)
  | .voiceRead v => decide (15 < v.toNat)
  | .partSettings p _ sc => decide (1 < p.toNat ∨ 1 < sc.toNat)
  | .voiceServiceOff v x => decide (15 < v.toNat ∨ 1 < x.toNat)
  | .voiceServiceOn v => decide (15 < v.toNat)
  | .scaleSet t _ => decide (1 < t.toNat)
  | .overrideSet p k _ => decide (1 < p.toNat ∨ 127 < k.toNat)
  | .overrideClear sel p k =>
    decide (1 < sel.toNat ∨ (sel.toNat = 0 ∧ (1 < p.toNat ∨ 127 < k.toNat)))
  | .calRead n => decide (47 < n.toNat)
  | .tuneSettings _ _ oe fe _ ap => decide (1 < oe.toNat ∨ 1 < fe.toNat ∨ 1 < ap.toNat)
  | .tuneAdd _ ss m => decide (7 < ss.toNat ∨ 1 < m.toNat)
  | .tuneControlRun a => decide (3 < a.toNat)
  | .scheduleSet p _ _ => decide (1 < p.toNat)
  | .profileSet sl _ _ => decide (3 < sl.toNat)
  | .potRead n => decide (95 < n.toNat)
  | .paramWrite p n _ => decide (1 < p.toNat ∨ 79 < n.toNat)
  | .paramRead p n => decide (1 < p.toNat ∨ 80 < n.toNat)
  | .nameSet p _ _ => decide (1 < p.toNat)
  | .potMapSet n t p m sl =>
    decide (95 < n.toNat ∨ 4 < t.toNat ∨ 3 < sl.toNat ∨
      (t.toNat ≠ 0 ∧ (79 < p.toNat ∨ 2 < m.toNat)))
  | .switchMapSet n a f p _ =>
    decide (31 < n.toNat ∨ 2 < a.toNat ∨
      (a.toNat = 1 ∧ (f.toNat = 0 ∨ 4 < f.toNat ∨ 79 < p.toNat)) ∨ (a.toNat = 2 ∧ 2 < f.toNat))
  | .focusSet f => decide (2 < f.toNat)
  | .patchStore p sl => decide (1 < p.toNat ∨ 255 < sl.toNat)
  | .slotWrite sl _ _ _ => decide (255 < sl.toNat)
  | .slotClear sl => decide (255 < sl.toNat)
  | .patchRecall sl p => decide (255 < sl.toNat ∨ 1 < p.toNat)
  | .slotRead sl => decide (255 < sl.toNat)
  | .guardSet e a i => decide (5 < e.toNat ∨ 1 < a.toNat ∨ 1 < i.toNat)
  | .routeSet c src => decide (127 < c.toNat ∨ (216 ≤ src.toNat ∧ src.toNat ≤ 254))
  | .routeRead c => decide (127 < c.toNat)
  | _ => false

/-- The answer data bytes of a refused command, 0 where its layout gives none (R189, R190, R191). -/
def answerLength : Instr → Nat
  | .noteStart _ _ _ => 5
  | .voiceRead _ => 13
  | .calRead _ => 21
  | .tuneSettings _ _ _ _ _ _ => 8
  | .tuneAdd _ _ _ => 3
  | .scheduleSet _ _ _ => 3
  | .profileSet _ _ _ => 2
  | .potRead _ => 6
  | .paramWrite _ _ _ => 2
  | .paramRead _ n => if n.toNat = 80 then 25 else 2
  | .nameSet _ _ _ => 24
  | .potMapSet _ _ _ _ _ => 4
  | .switchMapSet _ _ _ _ _ => 4
  | .focusSet _ => 1
  | .slotRead _ => 128
  | .routeSet _ _ => 2
  | .routeRead _ => 4
  | _ => 0

/-- The blocks that no note, sustain or clearing command reaches: the records, the edit buffers, the
slot memory, the maps of the Pitch Unit and of the output, the panel's readings, and the marks. -/
structure NoteFrame (s t : State) : Prop where
  pending : t.pending = s.pending
  run : t.run = s.run
  free : t.free = s.free
  cal : t.cal = s.cal
  ebu : t.ebu = s.ebu
  smc : t.smc = s.smc
  lnk : t.lnk = s.lnk
  master : t.ptu.master = s.ptu.master
  scales : t.ptu.scales = s.ptu.scales
  overrides : t.ptu.overrides = s.ptu.overrides
  pots : t.psc.pots = s.psc.pots
  switches : t.psc.switches = s.psc.switches
  profiles : t.psc.profiles = s.psc.profiles
  schedules : t.psc.normal = s.psc.normal ∧ t.psc.tune = s.psc.tune
  route : t.cvo.route = s.cvo.route
  presented : t.cvo.presented = s.cvo.presented ∧ t.cvo.trialMark = s.cvo.trialMark
  refresh : t.cvo.next = s.cvo.next ∧ t.cvo.refresh = s.cvo.refresh ∧ t.cvo.shifted = s.cvo.shifted
  plan : t.tne.plan = s.tne.plan
  lastM : t.tne.lastM = s.tne.lastM

/-- How far the note pitch of a voice's note key moved from one state to another (R44). -/
def pitchMove (s t : State) (v : VoiceNo) : Int :=
  notePitch t (s.glide v).part (s.glide v).key - notePitch s (s.glide v).part (s.glide v).key

/-- R44, R61: target and position of every glide have moved together by the change of its note pitch, the
voices moved are recomputed, the others are as they were, and the note and glide fields stand. -/
structure NotesMoved (s t : State) : Prop where
  glide : ∀ v, t.glide v =
    { s.glide v with
      target := (s.glide v).target + pitchMove s t v, pos := (s.glide v).pos + pitchMove s t v }
  voice : ∀ v, { t.voice v with clamp := (s.voice v).clamp } = s.voice v
  still : ∀ n, pitchMove s t (sourceVoice n) = 0 →
    t.voice (sourceVoice n) = s.voice (sourceVoice n) ∧ look t.ptu.codes n = look s.ptu.codes n
  moved : ∀ n, pitchMove s t (sourceVoice n) ≠ 0 →
    look t.ptu.codes n = (chain t n).1 ∧
      look (t.voice (sourceVoice n)).clamp (sourceIdx n) = (chain t n).2
  unison : t.ptu.unison = s.ptu.unison
  lists : t.val.freeList = s.val.freeList ∧ t.val.startOrder = s.val.startOrder ∧
    t.val.releaseOrder = s.val.releaseOrder ∧ t.val.seed = s.val.seed

/-- R94: a measurement of the current entry is over and the bus released, to the scanner where it waits;
what the Tune Engine does next is not yet begun. What no end of an entry reaches stands. -/
structure MeasurementOver (s u : State) (count : Option Nat) : Prop where
  activity : u.tne.activity = .idle
  mode : u.tne.mode = if s.tne.mode = .step then .halt else s.tne.mode
  lastM : u.tne.lastM = count
  bus : u.psc =
    if s.psc.scannerWaits then
      { s.psc with
        holder := some .scanner, lastHolder := some .scanner, scannerWaits := false, addr := 0,
        phase := .scanning 160 }
    else { s.psc with holder := none }
  trial : TrialLaw u
  queue : u.pending = s.pending ∧ u.run = s.run ∧ u.free = s.free
  blocks : u.ebu = s.ebu ∧ u.smc = s.smc
  link : { u.lnk with notices := s.lnk.notices } = s.lnk
  cal : { u.cal with records := s.cal.records } = s.cal
  output : { u.cvo with trial := s.cvo.trial, gaps := s.cvo.gaps } = s.cvo
  pitch : { u.ptu with codes := s.ptu.codes } = s.ptu
  notes : { u.val with voices := s.val.voices, freeList := s.val.freeList } = s.val

/-- The entry goes on: no record, voice, source code, plan entry or mark changes. -/
def EntryGoesOn (s u : State) : Prop :=
  u.val = s.val ∧ u.ptu = s.ptu ∧ u.cal = s.cal ∧ u.tne.plan = s.tne.plan ∧
    u.tne.failed = s.tne.failed ∧ u.lnk = s.lnk ∧ u.cvo.gaps = s.cvo.gaps

/-- R100: where the end of an entry leaves its TUNING voice: with entries left it stays; else it is
returned, to PARKED with its reason where it was tuned-while-parked and has failed, or to FREE. -/
def returnedTo (x : VoiceStatus) (left failed : Bool) : VoiceStatus :=
  if left then x
  else match x with
    | .tuning _ (some r) => if failed then .parked r else .free
    | .tuning _ none => .free
    | y => y

/-- R98 to R101: the entry has left the plan with what was current, the voice is where the end leaves
it, the marks given are set, and TUNE DONE where the plan is empty. -/
structure EntryEnds (s u : State) (c : Current) (rest : List Entry) (status : VoiceStatus)
    (marks : List Mark) : Prop where
  plan : u.tne.plan = rest
  current : u.tne.current = none
  voice : u.voice c.voice =
    { s.voice c.voice with status := status, clamp := (u.voice c.voice).clamp }
  others : ∀ w, w ≠ c.voice → u.voice w = s.voice w ∧ look u.cvo.gaps w = look s.cvo.gaps w
  freeList : u.val.freeList = s.val.freeList ++ if status = .free then [c.voice] else []
  codes : ∀ n, sourceVoice n ≠ c.voice → look u.ptu.codes n = look s.ptu.codes n
  records : ∀ n, n ≠ c.source → u.record n = s.record n
  marks : u.lnk.notices =
    (marks ++ if rest = [] then [Mark.tuneDone] else []).foldl Notices.set s.lnk.notices

/-- R69, R98, R100: the entry has failed with this reason, its voice not parked for NO SIGNAL. -/
def EntryFails (s u : State) (c : Current) (r : FailReason) : Prop :=
  let plan := s.tne.plan.filter fun e => !e.isPair c.voice c.src
  let left := plan.any fun e => e.voice == c.voice
  EntryEnds s u c plan (returnedTo (s.status c.voice) left true) [.tuneFailed c.source] ∧
    u.record c.source = { s.record c.source with status := .failed r } ∧
    u.tne.failed =
      (if left then setAdd s.tne.failed c.voice else setDrop s.tne.failed c.voice)

/-- R68, R98, R99: the entry has succeeded with these codes. -/
def EntrySucceeds (s u : State) (c : Current) (codes : Vector Nat 9) : Prop :=
  let plan := s.tne.plan.filter fun e => !e.isPair c.voice c.src
  let left := plan.any fun e => e.voice == c.voice
  EntryEnds s u c plan (returnedTo (s.status c.voice) left (inSet s.tne.failed c.voice)) [] ∧
    u.record c.source = { codes := codes, status := .tuned, age := 0 } ∧
    look u.ptu.codes c.source = (chain u c.source).1 ∧
    u.tne.failed = (if left then s.tne.failed else setDrop s.tne.failed c.voice)

/-- The state a takeover record is re-armed to (R141), from an entry, a stable value and a patch. -/
def reArmed (e : PotEntry) (stable : Option Nat) (x : Patch) : Takeover :=
  match e.link, stable with
  | none, _ => .jumpPending
  | _, none => .jumpPending
  | some l, some k =>
    if l.mode = .jump then .jumpPending
    else if x.param l.param = k then .caught
    else if l.mode = .scale then .scaling
    else if k < x.param l.param then .waitAbove
    else .waitBelow

/-- The bit b of parameter n in an image, 800 bits from byte 28 on, most significant first (R151). -/
def paramBit (img : List Byte) (n b : Nat) : Bool :=
  (img.getD (28 + (10 * n + 9 - b) / 8) 0).getLsbD (7 - (10 * n + 9 - b) % 8)

/-- R37: where a change of key mode leaves a voice, with this release tail. -/
def VoiceStatus.letGo (x : VoiceStatus) (p : Part) (tail : Nat) : VoiceStatus :=
  match x with
  | .bound n ph =>
    if n.part = p then
      match ph with
      | .muting _ => .free
      | .releasing d => .bound n (.releasing d)
      | _ => .bound n (.releasing tail)
    else x
  | y => y

/-- R37: a part's notes have been released by a change of key mode: MUTING voices to FREE, HELD and
SUSTAINED voices to RELEASING, in start order, their gaps ended; its keys are dropped and its solo group
dissolved. -/
structure PartReleased (s u : State) (p : Part) (tail : Nat) : Prop where
  status : ∀ v, u.status v = (s.status v).letGo p tail
  freeList : u.val.freeList =
    s.val.freeList ++ (s.val.startOrder.get p).filter fun v => (s.status v).isMuting
  release : u.val.releaseOrder =
    s.val.releaseOrder ++ (s.val.startOrder.get p).filter fun v =>
      (s.status v).isHeld || (s.status v).isSustained
  start : ∀ q, u.val.startOrder.get q =
    (s.val.startOrder.get q).filter fun v => !((s.status v).onPart p && (s.status v).isMuting)
  part : u.part p = { s.part p with heldKeys := [], solo := none }
  otherPart : ∀ q, q ≠ p → u.part q = s.part q
  seed : u.val.seed = s.val.seed
  voices : ∀ v, { u.voice v with status := (s.voice v).status, clamp := (s.voice v).clamp } = s.voice v
  gaps : ∀ v, look u.cvo.gaps v =
    if (s.status v).onPart p && (s.status v).isSounding then none else look s.cvo.gaps v

/-- No voice, list or part record has changed, but for clamp flags. -/
def NotesStand (s u : State) : Prop :=
  { u.val with voices := s.val.voices } = s.val ∧
    ∀ v, { u.voice v with clamp := (s.voice v).clamp } = s.voice v

/-- The fields of a part record that a note command leaves alone. -/
def PartRec.sameControls (x y : PartRec) : Prop :=
  x.bend = y.bend ∧ x.mod = y.mod ∧ x.pressure = y.pressure ∧ x.expression = y.expression ∧
    x.pool = y.pool ∧ x.scale = y.scale

end Sys2Proof.Machine
end

