-- ==== Sys2Proof/Certificates/Slice0/Obligations.lean ====
section
/-! DEFINITION. What is claimed of the part, for the provers: the queue and the clock, resets, refusals,
then the commands block by block, then the laws that no step breaks. -/

section

open Sys2Proof Sys2Proof.Machine

/-! ## The queue, the clock and reset -/

/-- The model's choice (log 1): a step takes the command at the front of the queue and runs it with
the queue's rest. -/
def Obligations.StepTakesFrontCommand : Prop :=
  ∀ (c : Instr) (rest : List Instr) (s : State),
    step { s with pending := c :: rest } = exec c { s with pending := rest }

/-- The model's choice (log 1): with nothing waiting, a step in reset changes nothing, and a step out
of reset lets one tick pass: each time of one tick puts its event on the queue, no other event goes
there, every running time falls by one, the capture counter rises by one, and nothing else changes. -/
def Obligations.IdleStepLetsOneTickPass : Prop :=
  ∀ s : State, s.pending = [] →
    (s.run ≠ .running → step s = .next s) ∧
    (s.run = .running → ∃ t, step s = .next t ∧
      (∀ v, .tailExpiry v ∈ t.pending ↔ ∃ n, s.status v = .bound n (.releasing 1)) ∧
      (∀ v, .dampExpiry v ∈ t.pending ↔ ∃ n, s.status v = .bound n (.muting 1)) ∧
      (∀ v, .retriggerGapExpiry v ∈ t.pending ↔ ∃ x, look s.cvo.gaps v = some x ∧ x.left = 1) ∧
      (∀ v, .glideUpdate v ∈ t.pending ↔ (s.glide v).timer = some 1) ∧
      (.minuteEvent ∈ t.pending ↔ s.cal.minute = 1) ∧
      (.settlingExpiry ∈ t.pending ↔ s.tne.activity = .settling 1) ∧
      (.gateWindowExpiry ∈ t.pending ↔ ∃ e c, s.tne.activity = .gating e 1 c) ∧
      (.sweepTimerExpiry ∈ t.pending ↔ s.psc.sweepTimer = some 1) ∧
      ((∃ x b, .scanSample x b ∈ t.pending) ↔ s.psc.phase = .scanning 1) ∧
      (.eraseExpiry ∈ t.pending ↔
        ∃ w, s.smc.write = some w ∧ w.resume = none ∧ w.remaining = 1 ∧ w.phase = .erase) ∧
      ((∃ l, .programExpiry l ∈ t.pending) ↔
        ∃ w, s.smc.write = some w ∧ w.resume = none ∧ w.remaining = 1 ∧ w.phase = .program) ∧
      ((∃ l, .resumeExpiry l ∈ t.pending) ↔
        ∃ w x, s.smc.write = some w ∧ w.resume = some x ∧ x.left = 1) ∧
      (.refreshWrite ∈ t.pending ↔ s.cvo.refresh = 1) ∧
      (∀ c ∈ t.pending,
        (∃ v, c = .tailExpiry v ∨ c = .dampExpiry v ∨ c = .retriggerGapExpiry v ∨
          c = .glideUpdate v) ∨
        c = .minuteEvent ∨ c = .settlingExpiry ∨ c = .gateWindowExpiry ∨ c = .sweepTimerExpiry ∨
        (∃ x b, c = .scanSample x b) ∨ c = .eraseExpiry ∨ (∃ l, c = .programExpiry l) ∨
        (∃ l, c = .resumeExpiry l) ∨ c = .refreshWrite) ∧
      (∀ v, t.voice v = { s.voice v with
        status := match s.status v with
          | .bound n (.releasing x) => .bound n (.releasing (x - 1))
          | .bound n (.muting x) => .bound n (.muting (x - 1))
          | x => x }) ∧
      (∀ v, t.glide v = { s.glide v with timer := (s.glide v).timer.map (· - 1) }) ∧
      (t.tne.activity = match s.tne.activity with
        | .settling x => .settling (x - 1)
        | .gating e w none => .gating e (w - 1) none
        | .gating e w (some x) =>
          .gating e (w - 1) (some { x with count := min 639999 (x.count + 1) })
        | x => x) ∧
      t.psc.sweepTimer = s.psc.sweepTimer.map (· - 1) ∧
      (t.psc.phase = match s.psc.phase with
        | .scanning x => .scanning (x - 1)
        | x => x) ∧
      t.smc.write = s.smc.write.map (fun w => { w with
        remaining := if w.resume = none then w.remaining - 1 else w.remaining
        resume := w.resume.map fun x => { x with left := x.left - 1 } }) ∧
      (∀ v, look t.cvo.gaps v =
        (look s.cvo.gaps v).map fun x => { x with left := x.left - 1 }) ∧
      t.cal.minute = s.cal.minute - 1 ∧ t.cvo.refresh = s.cvo.refresh - 1 ∧
      { t with
        pending := s.pending, free := s.free
        val := { t.val with voices := s.val.voices }
        ptu := { t.ptu with glide := s.ptu.glide }
        cal := { t.cal with minute := s.cal.minute }
        tne := { t.tne with activity := s.tne.activity }
        psc := { t.psc with sweepTimer := s.psc.sweepTimer, phase := s.psc.phase }
        smc := { t.smc with write := s.smc.write }
        cvo := { t.cvo with gaps := s.cvo.gaps, refresh := s.cvo.refresh } } = s)

/-- No command stops the part, and none touches the queue of those that wait. -/
def Obligations.EveryCommandGoesOnAndLeavesTheQueue : Prop :=
  ∀ (c : Instr) (s : State), ∃ t, exec c s = .next t ∧ t.pending = s.pending

/-- R195: while the part is in reset, nothing but RESET EXIT and a further reset acts: a frame that begins
then is ignored until it ends, and every other command leaves the state as it is. A frame being ignored
is not heard when the part has left reset: no host command of it is taken, no fault of it sets a mark, and
its end leaves the part hearing again. A frame in progress when reset begins is lost: it is ignored where
no command was taken in it, and where one was (log 9), the end of what is left of it sets no mark. -/
def Obligations.NothingIsHeardInReset : Prop :=
  (∀ s : State, s.run ≠ .running →
    (∀ c : Instr, c ≠ .powerOnReset → c ≠ .pinReset → c ≠ .resetExit → (∀ x, c ≠ .frameStart x) →
      (∀ n, c ≠ .frameCut n) → exec c s = .next s) ∧
    (∀ x, exec (.frameStart x) s =
      .next { s with lnk := { s.lnk with deaf := true, tail := false } }) ∧
    (∀ n, exec (.frameCut n) s =
      .next { s with lnk := { s.lnk with deaf := false, tail := false } })) ∧
  (∀ (c : Instr) (s : State), s.run = .running → s.lnk.deaf = true →
    (isHostCommand c = true → exec c s = .next s) ∧
    (∀ code, exec (.voidFrame code) s = .next s) ∧
    (∀ n, exec (.frameCut n) s =
      .next { s with lnk := { s.lnk with deaf := false, tail := false } })) ∧
  (∀ (c : Instr) (s : State), c = .powerOnReset ∨ c = .pinReset → ∃ t, exec c s = .next t ∧
    t.lnk.frame = .idle ∧
    (s.lnk.frame = .receiving ∨ s.lnk.frame = .void → t.lnk.deaf = true) ∧
    (s.lnk.frame = .taken → t.lnk.tail = true) ∧
    (s.lnk.frame = .idle → t.lnk.deaf = s.lnk.deaf ∧ t.lnk.tail = s.lnk.tail)) ∧
  (∀ (s : State) (n : Nat), hears s = true → s.lnk.frame = .idle → s.lnk.tail = true →
    exec (.frameCut n) s =
      .next { s with lnk := { s.lnk with bytes := [], answer := [], tail := false } })

/-- R27, R66, R79, R105, R126, R150, R169, R182, R196: both resets give every block its reset values and
keep the slot memory and the system area where no write is in flight. The states they leave differ in
which reset holds the part and in the guard-frozen flag, and in nothing else. Some of the reset values are
the model's choice: the records, the damaged indicator and the guard before the load (log 10, DESIGN
CHOICE), the time to the first refresh write (log 11, DESIGN CHOICE), the SPI mode, the status and
turnaround bytes and the DAC bits (log 15, DESIGN CHOICE), the profile in use and the sweep timer before
the first sweep (log 19, DESIGN CHOICE), and what is kept of a lost frame (log 9). -/
def Obligations.ResetsGiveEveryBlockItsResetValues : Prop :=
  ∀ s : State, ∃ t u, exec .powerOnReset s = .next t ∧ exec .pinReset s = .next u ∧
    t.run = .inPowerOnReset ∧ t.smc.frozen = false ∧
    u = { t with run := .inPinReset, smc := { t.smc with frozen := s.smc.frozen } } ∧
    ResetLaw t ∧ t.pending = s.pending ∧
    { t.lnk with deaf := false, tail := false } = Lnk.reset ∧
    (s.smc.write = none → t.smc.slots = s.smc.slots ∧ t.smc.sys = s.smc.sys)

/-- R168: a reset that aborts a write leaves the target's state byte as its phase left it, so that a
slot reads DAMAGED afterwards, and touches no byte of another slot. R79: an aborted write of the system
record leaves the system area's state byte 0x00 or 0x7F, and the load at the end of that reset falls back
to nominal records, the guard of all banks and the damaged indicator. -/
def Obligations.AbortedWriteLeavesTargetDamaged : Prop :=
  ∀ (s : State) (w : NvWrite), WriteLaw s → s.smc.write = some w →
    ∀ c t, c = .powerOnReset ∨ c = .pinReset → exec c s = .next t →
      (∀ n, w.job.slot? = some n →
        memRead t.smc.slots (slotBase n) = (if w.phase = .erase then 0x00 else 0x7F) ∧
        readout (slotImage t.smc.slots n) = .damaged ∧
        t.lnk.notices.nvResult = none ∧ t.smc.sys = s.smc.sys ∧
        ∀ m a, m ≠ n → a < 128 →
          memRead t.smc.slots (slotBase m + a) = memRead s.smc.slots (slotBase m + a)) ∧
      (w.job.slot? = none →
        t.smc.sys.state = (if w.phase = .erase then 0x00 else 0x7F) ∧
        t.smc.slots = s.smc.slots ∧ t.lnk.notices.nvResult = none ∧
        ∃ u, exec .resetExit t = .next u ∧
          (∀ n, (u.record n).status = .nominal ∧ (u.record n).age = 0 ∧
            ∀ k, look (u.record n).codes k = 4096 + 6400 * k.val) ∧
          u.smc.guard = { extent := 5, high := false, invert := false } ∧ u.cal.damaged = true)

/-- R76, R77, R66, R111: RESET EXIT loads the system record where it passes, else takes nominal records
and the guard of all banks; it leaves every source code and clamp flag as the chain of arithmetic gives
it, and the first sweep begun; every other field stands. -/
def Obligations.ResetExitLoadsAndStarts : Prop :=
  ∀ s : State, s.run ≠ .running → ResetLaw s → ∃ t, exec .resetExit s = .next t ∧
    t.run = .running ∧ CodesLaw t ∧
    (∀ r, s.smc.sys.state = 0x3F → s.smc.sys.contents = some r → r.passes = true →
      (∀ n, (t.record n).codes = look r.codes n ∧ (t.record n).age = 0 ∧
        some (t.record n).status = calStatus? (look r.status n)) ∧
      t.smc.guard = r.guard ∧ t.cal.damaged = false) ∧
    ((s.smc.sys.state ≠ 0x3F ∨ ∀ r, s.smc.sys.contents = some r → r.passes = false) →
      (∀ n, (t.record n).status = .nominal ∧ (t.record n).age = 0 ∧
        ∀ k, look (t.record n).codes k = 4096 + 6400 * k.val) ∧
      t.smc.guard = { extent := 5, high := false, invert := false } ∧ t.cal.damaged = true) ∧
    t.psc = { s.psc with
      holder := some .scanner, lastHolder := some .scanner, scannerWaits := false,
      groups := [0, 1, 2, 3, 4, 5, 9, 10], addr := 0, phase := .scanning 160, inUse := .normal,
      sweepTimer := some (4 * 8000), startPending := false } ∧
    { t.smc with guard := s.smc.guard } = s.smc ∧
    { t.cal with records := s.cal.records, damaged := s.cal.damaged } = s.cal ∧
    { t.ptu with codes := s.ptu.codes } = s.ptu ∧
    { t.val with voices := s.val.voices } = s.val ∧
    (∀ v, { t.voice v with clamp := (s.voice v).clamp } = s.voice v) ∧
    t.lnk = s.lnk ∧ t.ebu = s.ebu ∧ t.cvo = s.cvo ∧ t.tne = s.tne ∧ t.free = s.free ∧
    t.pending = s.pending

/-- R27, R40, R66, R70, R83, R107, R113, R116, R137, R173, R194 and the rules they rest on: the reset
values that the spec's tables give, read off State.reset (the system area being erased, log 6), and every
law that no step breaks, which State.reset meets. -/
def Obligations.ResetStateHoldsTheTabledValues : Prop :=
  let s := State.reset
  (∀ v, s.voice v =
    { status := .free, unisonIndex := 0, unisonSize := 1, slop := 0,
      clamp := Vector.replicate 3 false }) ∧
  s.val.freeList = List.finRange 16 ∧ s.val.seed = 0xACE1 ∧
  (∀ p, s.val.startOrder.get p = [] ∧ (s.part p).pool = 0xFFFF ∧ (s.part p).cursor = 15 ∧
    (s.part p).heldKeys = [] ∧ (s.part p).solo = none ∧ (s.part p).sustain = false) ∧
  (∀ v, (s.glide v).part = .A ∧ (s.glide v).key = 60 ∧ (s.glide v).target = 60000 ∧
    (s.glide v).pos = 60000) ∧
  (∀ n, look s.ptu.codes n = if n.val % 3 = 2 then 56474 else 24896) ∧
  s.cal.settings =
    { oscGain := 2080, fltGain := 2080, oscEdge := .rising, fltEdge := .rising, retune := 0,
      autoPark := true } ∧
  s.tne =
    { plan := [], mode := .halt, activity := .idle, current := none, lastM := none, failed := 0 } ∧
  s.psc.normal = { interval := 4, mask := 0x063F } ∧ s.psc.tune = { interval := 8, mask := 0x0207 } ∧
  s.psc.profiles.toList = [{ shift := 2, deadband := 1 }, { shift := 4, deadband := 2 },
    { shift := 0, deadband := 0 }, { shift := 6, deadband := 4 }] ∧
  (∀ q, s.pot q = { acc := 0, stable := none, slot := 0 }) ∧
  (∀ q : PotNo, (s.potEntry q).link.isSome = decide (q.val < 80)) ∧
  (∀ c : ChannelNo, c.val < 80 → (look s.cvo.route c).number = c.val) ∧
  (∀ c : ChannelNo, 80 ≤ c.val → look s.cvo.route c = .zero) ∧
  (∀ c, look s.cvo.presented c = 0) ∧ s.lnk.notices = Notices.empty ∧ s.lnk.enable = 0xFF ∧
  statusByte s = 0x09 ∧
  VoiceLaw s ∧ SoloLaw s ∧ HeldKeysLaw s ∧ GapLaw s ∧ AllocatorRanges s ∧ CodesLaw s ∧
  GlideLaw s ∧ GlideTimerLaw s ∧ OverrideLaw s ∧ PitchRanges s ∧ RecordsLaw s ∧ CalRanges s ∧
  PlanLaw s ∧ TrialLaw s ∧ GateLaw s ∧ EagerLaw s ∧ BusLaw s ∧ ScanLaw s ∧ PanelRanges s ∧
  BufferLaw s ∧ CaughtLaw s ∧ SlotLaw s ∧ MemoryLaw s ∧ WriteLaw s ∧ RouteLaw s ∧ CodeRange s ∧
  PresentedLaw s ∧ ResetLaw s

/-! ## The link -/

/-- R188, R185: a host command with an argument that names nothing is refused with RANGE, its data bytes
read 0, and no block changes state. -/
def Obligations.ArgumentThatNamesNothingIsRefused : Prop :=
  ∀ (c : Instr) (s : State), hears s = true → namesNothing c = true →
    exec c s = .next (taken c (0x07 :: List.replicate (answerLength c) 0) s)

/-- R183, R184: FRAME START takes the SPI mode from SCK and samples the status byte, whose eight bits are
the flags of R184, and changes nothing else but the frame in progress. R186: an unknown command byte voids
the frame with LINK ERROR kind 3; a cut of a frame before its command is taken sets kind 1 off a byte
boundary and kind 2 on one, a cut off a boundary after it sets kind 1, and a void, empty or well-ended
frame sets none; nothing but the frame and that mark changes. R183, R185, R186: SDO clocks out the status
byte, 0x00 for each argument byte, then, once a command is taken, the status byte as it left it, its
answer and 0x00 past the answer's end; 0x00 through a void frame; and it is high-impedance with no frame,
in reset, and (log 9) through a frame that is ignored. -/
def Obligations.FramesStartWithTheStatusAndFailWithAMark : Prop :=
  (∀ (sckHigh : Bool) (s : State), s.run = .running →
    ∃ (st : Byte) (t : State), exec (.frameStart sckHigh) s = .next t ∧
      t = { s with lnk := { s.lnk with
        frame := .receiving, bytes := [], mode3 := sckHigh, deaf := false, tail := false,
        status := st, answer := [] } } ∧
      (∀ i, sdo t i = some (if i = 0 then st else 0)) ∧
      (st.getLsbD 7 = true ↔ ∃ m ∈ s.lnk.notices.present, m.enabled s.lnk.enable = true) ∧
      (st.getLsbD 6 = true ↔ s.smc.write ≠ none) ∧
      (st.getLsbD 5 = true ↔ ∃ w, s.smc.write = some w ∧ w.resume ≠ none) ∧
      (st.getLsbD 4 = true ↔ s.tne.activity ≠ .idle) ∧
      (st.getLsbD 3 = true ↔ s.tne.mode = .halt) ∧
      (st.getLsbD 2 = true ↔ ∃ e ∈ s.tne.plan, e.mode = .fg) ∧
      (st.getLsbD 1 = true ↔ s.smc.frozen = true) ∧
      (st.getLsbD 0 = true ↔ s.cal.damaged = true)) ∧
  (∀ s : State, hears s = true →
    (∀ code : Byte, Frame.listed code = false → ∃ t, exec (.voidFrame code) s = .next t ∧
      t.lnk.notices = s.lnk.notices.set (.linkError .unknown) ∧ t.lnk.frame = .void ∧
      t.lnk.enable = s.lnk.enable ∧
      (∀ i, sdo t i = some (if i = 0 then s.lnk.status else 0)) ∧
      { t with lnk := s.lnk } = s) ∧
    (∀ (c : Instr) (l : List Byte), Frame.bytes c = some l → ∃ t, exec c s = .next t ∧
      t.lnk.frame = .taken ∧ t.lnk.turnaround = statusByte t ∧
      ∀ i, sdo t i = some
        (if i = 0 then s.lnk.status else if i < l.length then 0
         else if i = l.length then t.lnk.turnaround else t.lnk.answer.getD (i - l.length - 1) 0)) ∧
    ∀ bits : Nat, ∃ t, exec (.frameCut bits) s = .next t ∧ t.lnk.frame = .idle ∧
      { t with lnk := s.lnk } = s ∧ t.lnk.enable = s.lnk.enable ∧ (∀ i, sdo t i = none) ∧
      (s.lnk.frame = .receiving → bits % 8 ≠ 0 →
        t.lnk.notices = s.lnk.notices.set (.linkError .offBoundary)) ∧
      (s.lnk.frame = .receiving → bits % 8 = 0 → bits ≠ 0 →
        t.lnk.notices = s.lnk.notices.set (.linkError .short)) ∧
      (s.lnk.frame = .taken → bits % 8 ≠ 0 →
        t.lnk.notices = s.lnk.notices.set (.linkError .offBoundary)) ∧
      (s.lnk.frame = .taken → bits % 8 = 0 → t.lnk.notices = s.lnk.notices) ∧
      (s.lnk.frame = .taken → t.lnk.answer.length = bits / 8 - (s.lnk.bytes.length + 1) ∧
        ∀ j, t.lnk.answer.getD j 0 =
          if j < t.lnk.answer.length then s.lnk.answer.getD j 0 else 0) ∧
      (s.lnk.frame = .void → t.lnk.notices = s.lnk.notices) ∧
      (bits = 0 → t.lnk.notices = s.lnk.notices)) ∧
  (∀ (s : State) (i : Nat), s.run ≠ .running ∨ s.lnk.deaf = true ∨ s.lnk.frame = .idle →
    sdo s i = none)

/-- R193: NEXT NOTICE answers and clears the first mark, in the priority order of R192, whose class is
enabled; with none it answers zeros and changes nothing. The marks of disabled classes before it stay. -/
def Obligations.NextNoticeTakesTheHighestEnabledMark : Prop :=
  ∀ s : State, hears s = true →
    ((∀ m ∈ s.lnk.notices.present, m.enabled s.lnk.enable = false) →
      exec .nextNotice s = .next (taken .nextNotice (List.replicate 8 0) s)) ∧
    ((∃ m ∈ s.lnk.notices.present, m.enabled s.lnk.enable = true) →
      ∃ (m : Mark) (before after : List Mark), s.lnk.notices.present = before ++ m :: after ∧
        m.enabled s.lnk.enable = true ∧ (∀ x ∈ before, x.enabled s.lnk.enable = false) ∧
        s.lnk.notices.present.Pairwise (fun x y => x.rank < y.rank) ∧
        ∃ t, exec .nextNotice s = .next (taken .nextNotice (0 :: b1 m.cls :: m.bytes) t) ∧
          t.lnk.notices.present = before ++ after ∧
          { t with lnk := { t.lnk with notices := s.lnk.notices } } = s)

/-- R183, R187, R189, R190: the frame decoder reads every well-formed host command back from its own
bytes, every operand at every value its bytes can hold. -/
def Obligations.FrameDecodeReadsBackEveryHostCommand : Prop :=
  ∀ (c : Instr) (l : List Byte), c.wellFormed = true → Frame.bytes c = some l →
    Frame.decode l = some c

/-! ## Notes -/

/-- R29, R30: how a held-key list takes a key and lets one go. -/
def Obligations.HeldKeyListTakesAndDropsKeys : Prop :=
  ∀ (k : Nat) (l : List Nat), l.Nodup → l.length ≤ 16 →
    (k ∈ l → enterKey k l = l.erase k ++ [k]) ∧
    (k ∉ l → l.length < 16 → enterKey k l = l ++ [k]) ∧
    (k ∉ l → l.length = 16 → enterKey k l = l.tail ++ [k]) ∧
    leaveKey k l = l.erase k

/-- R10 to R14: the candidate search finds at most U voices, no voice twice, step by step; each voice
found meets its step's test; a MUTING, foreground-tuning or PARKED voice is never found; a step finds a
voice only when every voice that an earlier step may take is found, and a search that ends short has left
out no voice that any step may take; and the voices of a step are the first ones, in the order that the
step's rule gives, of those that it may take. -/
def Obligations.CandidateSearchFollowsItsFiveSteps : Prop :=
  ∀ (s : State) (p : Part) (k : Nat), VoiceLaw s →
    let found := search s p k
    let voices := found.map Prod.fst
    let pool := fun v => inSet (s.part p).pool v
    let keys := (s.part p).heldKeys
    let guarded := fun v => keys.any fun top => keys.all (fun x => decide (x ≤ top)) &&
      keys.any (fun x => x != top) && (s.status v).onKey p top
    let steal := fun v => ((s.status v).isHeld || (s.status v).isSustained) &&
      (s.status v).onPart p && !guarded v && decide ((s.patch p).stealPolicy ≠ .none)
    let may := fun (by' : FoundBy) v => match by' with
      | .reclaim => (s.status v).isReleasing && (s.status v).onKey p k
      | .free => (s.status v).isFree && pool v
      | .releasing => (s.status v).isReleasing && pool v
      | .background => (s.status v).isBgTuning && pool v
      | .steal => steal v
    let stepNo := fun (by' : FoundBy) => match by' with
      | .reclaim => 1
      | .free => 2
      | .releasing => 3
      | .background => 4
      | .steal => 5
    let cursor := match (found.filter fun x => x.2 = .reclaim).getLast? with
      | some x => x.1
      | none => (s.part p).cursor
    let by' := fun (b : FoundBy) => (found.filter fun x => x.2 = b).map Prod.fst
    let start := s.val.startOrder.get p
    found.length ≤ (s.patch p).unison ∧ voices.Nodup ∧
    (∀ x ∈ found, may x.2 x.1 = true) ∧
    (∀ x ∈ found, ∀ b v, stepNo b < stepNo x.2 → may b v = true →
      ∃ y ∈ found, y.1 = v ∧ stepNo y.2 ≤ stepNo b) ∧
    (found.length < (s.patch p).unison → ∀ b v, may b v = true → v ∈ voices) ∧
    by' .reclaim ++ by' .free ++ by' .releasing ++ by' .background ++ by' .steal = voices ∧
    by' .reclaim <+: s.val.releaseOrder.filter (may .reclaim) ∧
    ((s.patch p).allocPolicy = .rotate →
      by' .free <+: ((List.range 16).map fun i =>
        (⟨(cursor.val + 1 + i) % 16, Nat.mod_lt _ (by decide)⟩ : VoiceNo)).filter (may .free)) ∧
    ((s.patch p).allocPolicy = .oldestFree → by' .free <+: s.val.freeList.filter (may .free)) ∧
    ((s.patch p).allocPolicy = .lowest →
      by' .free <+: (List.finRange 16).filter (may .free)) ∧
    by' .releasing <+:
      s.val.releaseOrder.filter (fun v => may .releasing v && decide (v ∉ by' .reclaim)) ∧
    by' .background <+: (List.finRange 16).filter (may .background) ∧
    ((s.patch p).stealPolicy = .oldest → by' .steal <+:
      start.filter (fun v => (s.status v).isSustained && steal v) ++
        start.filter (fun v => (s.status v).isHeld && steal v)) ∧
    ((s.patch p).stealPolicy = .quietest → ∃ l : List VoiceNo, l.Perm (start.filter steal) ∧
      by' .steal <+: l ∧
      l.Pairwise fun v w => velocityOf s v < velocityOf s w ∨
        (velocityOf s v = velocityOf s w ∧ [v, w].Sublist start)) ∧
    ((s.patch p).stealPolicy = .none → by' .steal = [])

/-- R8, R9, R39: a POLY NOTE START of a key that sounds retriggers the voices on it, in ascending unison
index: the new velocity, HELD with a gap of 1 ms (a MUTING voice stays), the tail of the start-order
list; nothing else changes. -/
def Obligations.PolyStartOfASoundingKeyRetriggers : Prop :=
  ∀ (s : State) (p : Part) (k : Nat) (vel : Byte), hears s = true → VoiceLaw s → k ≤ 127 →
    (s.patch p).keyMode = .poly →
    (∃ v, (s.status v).onKey p k = true ∧ (s.status v).isSounding = true) →
    ∃ (vs : List VoiceNo) (first : VoiceNo) (t : State),
      (∀ v, v ∈ vs ↔ (s.status v).onKey p k = true ∧ (s.status v).isSounding = true) ∧
      vs.Nodup ∧ vs.head? = some first ∧
      vs.Pairwise (fun v w => (s.voice v).unisonIndex ≤ (s.voice w).unisonIndex) ∧
      exec (.noteStart (partByte p) (b1 k) vel) s =
        .next (taken (.noteStart (partByte p) (b1 k) vel)
          (0x00 :: Frame.two (setOf vs) ++ [0x00, 0x00, b1 first.val]) t) ∧
      NoteFrame s t ∧ t.ptu = s.ptu ∧ t.tne = s.tne ∧ t.psc = s.psc ∧ t.cvo.trial = s.cvo.trial ∧
      t.val.freeList = s.val.freeList ∧ t.val.releaseOrder = s.val.releaseOrder ∧
      t.val.seed = s.val.seed ∧
      (∀ q, t.val.startOrder.get q =
        if q = p then (s.val.startOrder.get p).filter (fun v => v ∉ vs) ++ vs
        else s.val.startOrder.get q) ∧
      (∀ q, t.part q =
        if q = p then { s.part p with heldKeys := enterKey k (s.part p).heldKeys }
        else s.part q) ∧
      (∀ v, v ∉ vs → t.voice v = s.voice v ∧ look t.cvo.gaps v = look s.cvo.gaps v) ∧
      (∀ v n ph, v ∈ vs → s.status v = .bound n ph →
        t.voice v = { s.voice v with
          status := .bound { n with velocity := max 1 (min 127 vel.toNat) }
            (match ph with
            | .muting d => .muting d
            | _ => .held) } ∧
        look t.cvo.gaps v = match ph with
          | .muting _ => look s.cvo.gaps v
          | _ => some (restart (look s.cvo.gaps v) 8000))

/-- R15, R16, R32, R41, R54: a NOTE START that searches (in POLY, the key not sounding; in SOLO, the group
absent) and finds voices places them in the order found: bound to the note with pressure 0, unison
index and size, one slop draw each, HELD or MUTING, off their old lists, at the tail of the start-order
list, no retrigger gap (log 12), their glide and unison offset set; the cursor follows the last; in SOLO
they form the group. Where no voice was found by step 4 the Tune Engine and the bus are left alone, and the
entries of one that was stay in the plan (R102). What that makes runnable is then begun (R84). A search that finds nothing
answers NOT PLACED and leaves its key in the held-key list; nothing else changes. -/
def Obligations.SearchedNoteStartPlacesTheFoundVoices : Prop :=
  (∀ (s : State) (p : Part) (k : Nat) (vel : Byte), hears s = true → VoiceLaw s → k ≤ 127 →
    ((s.patch p).keyMode = .poly ∧
      (∀ v, (s.status v).onKey p k = true → (s.status v).isSounding = false) ∨
     (s.patch p).keyMode = .solo ∧ (s.part p).solo = none) →
    let keys := enterKey k (s.part p).heldKeys
    let found := search (s.setKeys p keys) p k
    let vs := found.map Prod.fst
    let stolen := (found.filter fun x => x.2 = .releasing ∨ x.2 = .steal).map Prod.fst
    let x := s.patch p
    found ≠ [] → ∃ (first : VoiceNo) (t : State), vs.head? = some first ∧
      exec (.noteStart (partByte p) (b1 k) vel) s =
        .next (taken (.noteStart (partByte p) (b1 k) vel)
          (0x00 :: Frame.two (setOf vs) ++ Frame.two (setOf stolen) ++ [b1 first.val]) (kick t)) ∧
      NoteFrame s t ∧
      t.val.freeList = s.val.freeList.filter (fun v => v ∉ vs) ∧
      t.val.releaseOrder = s.val.releaseOrder.filter (fun v => v ∉ vs) ∧
      (∀ q, t.val.startOrder.get q = (s.val.startOrder.get q).filter (fun v => v ∉ vs) ++
        if q = p then vs else []) ∧
      t.val.seed = advanceSeed^[vs.length] s.val.seed ∧
      (t.part p).heldKeys = keys ∧ some (t.part p).cursor = vs.getLast? ∧
      (x.keyMode = .solo → (t.part p).solo = some (setOf vs)) ∧
      (∀ q, (t.part q).sameControls (s.part q) ∧ (t.part q).sustain = (s.part q).sustain ∧
        (q ≠ p → (t.part q).heldKeys = (s.part q).heldKeys ∧
          (t.part q).cursor = (s.part q).cursor)) ∧
      (∀ v, v ∉ vs → t.voice v = s.voice v ∧ look t.cvo.gaps v = look s.cvo.gaps v ∧
        t.glide v = s.glide v ∧ look t.ptu.unison v = look s.ptu.unison v) ∧
      (∀ (j : Nat) (v : VoiceNo) (b : FoundBy), found[j]? = some (v, b) →
        t.status v = .bound
          { part := p, key := k, velocity := max 1 (min 127 vel.toNat), pressure := 0 }
          (if (b = .releasing ∨ b = .steal) ∧ 0 < x.dampMs then .muting (x.dampMs * 8000)
           else .held) ∧
        (t.voice v).unisonIndex = j ∧ (t.voice v).unisonSize = x.unison ∧
        (t.voice v).slop = slopOf (advanceSeed^[j + 1] s.val.seed) x.slopDepth ∧
        look t.cvo.gaps v = none ∧
        look t.ptu.unison v = unisonOffset x.spread x.unison j ∧
        (t.glide v).part = p ∧ (t.glide v).key = k ∧ (t.glide v).target = notePitch s p k ∧
        (t.glide v).pos =
          if x.param 69 = 0 ∨ (512 ≤ x.param 70 ∧ ∀ q ∈ keys, q = k) then notePitch s p k
          else (s.glide v).pos) ∧
      ((∀ y ∈ found, y.2 ≠ .background) →
        t.tne = s.tne ∧ t.psc = s.psc ∧ t.cvo.trial = s.cvo.trial) ∧
      (∀ v c, (v, .background) ∈ found → s.tne.current = some c → c.voice = v → BusLaw s →
        t.tne.current = none ∧ t.cvo.trial = none ∧ t.tne.activity = .idle ∧
        inSet t.tne.failed v = false ∧ t.psc.holder ≠ some .engine ∧ t.psc.engineWaits = false)) ∧
  (∀ (s : State) (p : Part) (k : Nat) (vel : Byte), hears s = true → k ≤ 127 →
    ((s.patch p).keyMode = .poly ∧
      (∀ v ∈ s.val.startOrder.get p, (s.status v).onKey p k = true →
        (s.status v).isSounding = false) ∨
     (s.patch p).keyMode = .solo ∧ (s.part p).solo = none) →
    search (s.setKeys p (enterKey k (s.part p).heldKeys)) p k = [] →
      exec (.noteStart (partByte p) (b1 k) vel) s =
        .next (taken (.noteStart (partByte p) (b1 k) vel) [0x01, 0x00, 0x00, 0x00, 0x00, 0xFF]
          (s.setKeys p (enterKey k (s.part p).heldKeys))))

/-- R33, R41: a SOLO NOTE START with the group present and another key held moves the members to the
key: their key, glide part, note key and target change, the position by R41 with another key held; no
gate, no state, velocity, pressure, unison field, slop or list changes but the held-key list. -/
def Obligations.SoloStartWithAnotherKeyHeldIsALegatoMove : Prop :=
  ∀ (s : State) (p : Part) (k : Nat) (vel : Byte) (g : VoiceSet), hears s = true → SoloLaw s →
    k ≤ 127 → (s.patch p).keyMode = .solo → (s.part p).solo = some g →
    (∃ q ∈ enterKey k (s.part p).heldKeys, q ≠ k) →
    ∃ (first : VoiceNo) (t : State), inSet g first = true ∧
      (∀ v, inSet g v = true → (s.voice first).unisonIndex ≤ (s.voice v).unisonIndex) ∧
      exec (.noteStart (partByte p) (b1 k) vel) s =
        .next (taken (.noteStart (partByte p) (b1 k) vel)
          (0x00 :: Frame.two g ++ [0x00, 0x00, b1 first.val]) t) ∧
      NoteFrame s t ∧ t.tne = s.tne ∧ t.psc = s.psc ∧ t.cvo = s.cvo ∧
      t.val.freeList = s.val.freeList ∧ t.val.releaseOrder = s.val.releaseOrder ∧
      t.val.startOrder = s.val.startOrder ∧ t.val.seed = s.val.seed ∧
      t.ptu.unison = s.ptu.unison ∧
      (∀ q, t.part q =
        if q = p then { s.part p with heldKeys := enterKey k (s.part p).heldKeys }
        else s.part q) ∧
      (∀ v, inSet g v = false → t.voice v = s.voice v ∧ t.glide v = s.glide v) ∧
      (∀ v n ph, inSet g v = true → s.status v = .bound n ph →
        { t.voice v with clamp := (s.voice v).clamp } =
          { s.voice v with status := .bound { n with key := k } ph } ∧
        (t.glide v).part = p ∧ (t.glide v).key = k ∧ (t.glide v).target = notePitch s p k ∧
        (t.glide v).pos = if (s.patch p).param 69 = 0 then notePitch s p k else (s.glide v).pos)

/-- R34, R39, R41: a SOLO NOTE START with the group present and no other key held retriggers the members:
key and velocity, the tail of the start-order list in ascending unison index, HELD with a 1 ms gap from
HELD or SUSTAINED, HELD at once from RELEASING, and MUTING as it was. -/
def Obligations.SoloStartWithNoOtherKeyRetriggersTheGroup : Prop :=
  ∀ (s : State) (p : Part) (k : Nat) (vel : Byte) (g : VoiceSet), hears s = true → VoiceLaw s →
    SoloLaw s → k ≤ 127 → (s.patch p).keyMode = .solo → (s.part p).solo = some g →
    (∀ q ∈ enterKey k (s.part p).heldKeys, q = k) →
    ∃ (vs : List VoiceNo) (first : VoiceNo) (t : State),
      (∀ v, v ∈ vs ↔ inSet g v = true) ∧ vs.Nodup ∧ vs.head? = some first ∧
      vs.Pairwise (fun v w => (s.voice v).unisonIndex ≤ (s.voice w).unisonIndex) ∧
      exec (.noteStart (partByte p) (b1 k) vel) s =
        .next (taken (.noteStart (partByte p) (b1 k) vel)
          (0x00 :: Frame.two g ++ [0x00, 0x00, b1 first.val]) t) ∧
      NoteFrame s t ∧ t.tne = s.tne ∧ t.psc = s.psc ∧ t.cvo.trial = s.cvo.trial ∧
      t.val.freeList = s.val.freeList ∧ t.val.seed = s.val.seed ∧
      t.val.releaseOrder = s.val.releaseOrder.filter (fun v => v ∉ vs) ∧
      t.ptu.unison = s.ptu.unison ∧
      (∀ q, t.val.startOrder.get q =
        if q = p then (s.val.startOrder.get p).filter (fun v => v ∉ vs) ++ vs
        else s.val.startOrder.get q) ∧
      (∀ q, t.part q =
        if q = p then { s.part p with heldKeys := enterKey k (s.part p).heldKeys }
        else s.part q) ∧
      (∀ v, v ∉ vs → t.voice v = s.voice v ∧ t.glide v = s.glide v ∧
        look t.cvo.gaps v = look s.cvo.gaps v) ∧
      (∀ v n ph, v ∈ vs → s.status v = .bound n ph →
        { t.voice v with clamp := (s.voice v).clamp } =
          { s.voice v with
            status := .bound { n with key := k, velocity := max 1 (min 127 vel.toNat) }
              (match ph with
              | .muting d => .muting d
              | _ => .held) } ∧
        (look t.cvo.gaps v = match ph with
          | .held => some (restart (look s.cvo.gaps v) 8000)
          | .sustained => some (restart (look s.cvo.gaps v) 8000)
          | _ => look s.cvo.gaps v) ∧
        (t.glide v).part = p ∧ (t.glide v).key = k ∧ (t.glide v).target = notePitch s p k ∧
        (t.glide v).pos =
          if (s.patch p).param 69 = 0 ∨ 512 ≤ (s.patch p).param 70 then notePitch s p k
          else (s.glide v).pos)

/-- R18, R19: a POLY NOTE END of a key with a HELD or MUTING voice lets the key go and sends each HELD
voice to SUSTAINED or, sustain off, to RELEASING with the release tail, and each MUTING voice to FREE,
in ascending unison index; with none it answers UNKNOWN NOTE and only the key leaves the list. A voice set
FREE leaves its solo group too (R31); the rest of both parts' records stays. -/
def Obligations.PolyEndSendsTheKeysVoicesOn : Prop :=
  ∀ (s : State) (p : Part) (k : Nat), hears s = true → VoiceLaw s → k ≤ 127 →
    (s.patch p).keyMode = .poly →
    let c : Instr := .noteEnd (partByte p) (b1 k)
    let ends := fun v => (s.status v).onKey p k = true ∧
      ((s.status v).isHeld = true ∨ (s.status v).isMuting = true)
    ((∀ v, ¬ ends v) → exec c s =
      .next (taken c [0x02] (s.setKeys p ((s.part p).heldKeys.filter fun q => q ≠ k)))) ∧
    ((∃ v, ends v) → ∃ (vs : List VoiceNo) (t : State),
      (∀ v, v ∈ vs ↔ ends v) ∧ vs.Nodup ∧
      vs.Pairwise (fun v w => (s.voice v).unisonIndex ≤ (s.voice w).unisonIndex) ∧
      exec c s = .next (taken c [0x00] (kick t)) ∧
      NoteFrame s t ∧ t.tne = s.tne ∧ t.psc = s.psc ∧ t.cvo.trial = s.cvo.trial ∧ t.ptu = s.ptu ∧
      t.val.seed = s.val.seed ∧
      let freed := vs.filter fun v => (s.status v).isMuting
      let let_go := vs.filter fun v => (s.status v).isHeld && !(s.part p).sustain
      t.val.freeList = s.val.freeList ++ freed ∧
      t.val.releaseOrder = s.val.releaseOrder ++ let_go ∧
      (∀ q, t.val.startOrder.get q = (s.val.startOrder.get q).filter fun v => v ∉ freed) ∧
      (∀ q, t.part q = { s.part q with
        heldKeys := if q = p then (s.part p).heldKeys.filter (fun q => q ≠ k) else (s.part q).heldKeys
        solo := (t.part q).solo }) ∧
      (∀ q v, (∃ h, (t.part q).solo = some h ∧ inSet h v = true) ↔
        v ∉ freed ∧ ∃ g, (s.part q).solo = some g ∧ inSet g v = true) ∧
      (SoloLaw s → ∀ q h, (t.part q).solo = some h → h ≠ 0) ∧
      (∀ v, v ∉ vs → t.voice v = s.voice v ∧ look t.cvo.gaps v = look s.cvo.gaps v) ∧
      (∀ v n ph, v ∈ vs → s.status v = .bound n ph →
        t.voice v = { s.voice v with
          status := match ph with
            | .muting _ => .free
            | _ => if (s.part p).sustain then .bound n .sustained
              else .bound n (.releasing ((s.patch p).releaseMs * 8000)) } ∧
        look t.cvo.gaps v =
          if ph = .held ∧ (s.part p).sustain = true then look s.cvo.gaps v else none))

/-- R35, R36, R19: a SOLO NOTE END of a key that is not held answers UNKNOWN NOTE and changes nothing; of
a held key that is not sounding, or with no group, it only leaves the list; of the sounding key with
keys left, the members move to the newest of them without a retrigger; of the sounding key as the last
one held, each HELD member goes to SUSTAINED or, sustain off, to RELEASING, and each MUTING member to
FREE and out of the group, in ascending unison index; all else stays. -/
def Obligations.SoloEndReturnsToTheNewestKeyOrLetsGo : Prop :=
  (∀ (s : State) (p : Part) (k : Nat), hears s = true → SoloLaw s → k ≤ 127 →
    (s.patch p).keyMode = .solo →
    let c : Instr := .noteEnd (partByte p) (b1 k)
    let rest := (s.part p).heldKeys.filter fun q => q ≠ k
    (k ∉ (s.part p).heldKeys → exec c s = .next (taken c [0x02] s)) ∧
    (k ∈ (s.part p).heldKeys →
      (∀ g, (s.part p).solo = some g →
        ∀ v, inSet g v = true → (s.status v).onKey p k = false) →
      exec c s = .next (taken c [0x00] (s.setKeys p rest))) ∧
    (∀ g next, k ∈ (s.part p).heldKeys → (s.part p).solo = some g →
      (∀ v, inSet g v = true → (s.status v).onKey p k = true) → rest.getLast? = some next →
      ∃ t, exec c s = .next (taken c [0x00] t) ∧
        NoteFrame s t ∧ t.tne = s.tne ∧ t.psc = s.psc ∧ t.cvo = s.cvo ∧
        t.val.freeList = s.val.freeList ∧ t.val.releaseOrder = s.val.releaseOrder ∧
        t.val.startOrder = s.val.startOrder ∧ t.val.seed = s.val.seed ∧
        t.ptu.unison = s.ptu.unison ∧
        (∀ q, t.part q = if q = p then { s.part p with heldKeys := rest } else s.part q) ∧
        (∀ v, inSet g v = false → t.voice v = s.voice v ∧ t.glide v = s.glide v) ∧
        (∀ v n ph, inSet g v = true → s.status v = .bound n ph →
          { t.voice v with clamp := (s.voice v).clamp } =
            { s.voice v with status := .bound { n with key := next } ph } ∧
          (t.glide v).part = p ∧ (t.glide v).key = next ∧
          (t.glide v).target = notePitch s p next ∧
          (t.glide v).pos =
            if (s.patch p).param 69 = 0 then notePitch s p next else (s.glide v).pos))) ∧
  (∀ (s : State) (p : Part) (k : Nat) (g : VoiceSet), hears s = true → VoiceLaw s → SoloLaw s →
    k ≤ 127 → (s.patch p).keyMode = .solo → (s.part p).solo = some g →
    k ∈ (s.part p).heldKeys → (∀ q ∈ (s.part p).heldKeys, q = k) →
    (∀ v, inSet g v = true → (s.status v).onKey p k = true) →
    ∃ t, exec (.noteEnd (partByte p) (b1 k)) s =
        .next (taken (.noteEnd (partByte p) (b1 k)) [0x00] (kick t)) ∧
      NoteFrame s t ∧ t.tne = s.tne ∧ t.psc = s.psc ∧ t.cvo.trial = s.cvo.trial ∧ t.ptu = s.ptu ∧
      t.val.seed = s.val.seed ∧
      (∃ vs : List VoiceNo, (∀ v, v ∈ vs ↔ inSet g v = true) ∧ vs.Nodup ∧
        vs.Pairwise (fun v w => (s.voice v).unisonIndex ≤ (s.voice w).unisonIndex) ∧
        let freed := vs.filter fun v => (s.status v).isMuting
        t.val.freeList = s.val.freeList ++ freed ∧
        t.val.releaseOrder = s.val.releaseOrder ++
          vs.filter (fun v => (s.status v).isHeld && !(s.part p).sustain) ∧
        ∀ q, t.val.startOrder.get q = (s.val.startOrder.get q).filter fun v => v ∉ freed) ∧
      t.part p = { s.part p with heldKeys := [], solo := (t.part p).solo } ∧
      (∀ v, (∃ h, (t.part p).solo = some h ∧ inSet h v = true) ↔
        inSet g v = true ∧ (s.status v).isMuting = false) ∧
      (∀ h, (t.part p).solo = some h → h ≠ 0) ∧
      (∀ q, q ≠ p → t.part q = s.part q) ∧
      (∀ v, inSet g v = false → t.voice v = s.voice v ∧ look t.cvo.gaps v = look s.cvo.gaps v) ∧
      (∀ v n ph, inSet g v = true → s.status v = .bound n ph →
        t.voice v = { s.voice v with
          status := match ph with
            | .muting _ => .free
            | .held => if (s.part p).sustain then .bound n .sustained
              else .bound n (.releasing ((s.patch p).releaseMs * 8000))
            | _ => .bound n ph } ∧
        look t.cvo.gaps v = match ph with
          | .muting _ => none
          | .held => if (s.part p).sustain then look s.cvo.gaps v else none
          | _ => look s.cvo.gaps v))

/-- R20: NOTE PRESSURE writes the part's HELD, SUSTAINED and MUTING voices on the key, clamped to 127,
and nothing else; with none of them it answers UNKNOWN NOTE and changes nothing.
R38, R19: SUSTAIN on changes no voice; off sends the part's SUSTAINED voices to RELEASING with the
release tail, in start order; a setting already held changes nothing. -/
def Obligations.PressureAndSustainReachTheirVoices : Prop :=
  (∀ (s : State) (p : Part) (k : Nat) (x : Byte), hears s = true → VoiceLaw s → k ≤ 127 →
    let c : Instr := .notePressure (partByte p) (b1 k) x
    let reached := fun v => (s.status v).onKey p k && (s.status v).isSounding
    ((∀ v, reached v = false) → exec c s = .next (taken c [0x02] s)) ∧
    ((∃ v, reached v = true) → ∃ voices : Vector Voice 16,
      exec c s = .next (taken c [0x00] { s with val := { s.val with voices := voices } }) ∧
      (∀ v, reached v = false → look voices v = s.voice v) ∧
      (∀ v n ph, reached v = true → s.status v = .bound n ph → look voices v =
        { s.voice v with status := .bound { n with pressure := min 127 x.toNat } ph }))) ∧
  (∀ (s : State) (p : Part), hears s = true → VoiceLaw s →
    let up : Instr := .sustain (partByte p) 1
    let off : Instr := .sustain (partByte p) 0
    (exec up s = .next (taken up [0x00] (s.modPart p fun r => { r with sustain := true }))) ∧
    ((s.part p).sustain = false → exec off s = .next (taken off [0x00] s)) ∧
    ((s.part p).sustain = true → ∃ t, exec off s = .next (taken off [0x00] t) ∧
      NoteFrame s t ∧ t.tne = s.tne ∧ t.psc = s.psc ∧ t.cvo.trial = s.cvo.trial ∧ t.ptu = s.ptu ∧
      t.val.freeList = s.val.freeList ∧ t.val.startOrder = s.val.startOrder ∧
      t.val.seed = s.val.seed ∧
      (∀ q, t.part q = if q = p then { s.part p with sustain := false } else s.part q) ∧
      t.val.releaseOrder = s.val.releaseOrder ++
        (s.val.startOrder.get p).filter (fun v => (s.status v).isSustained) ∧
      (∀ v, ((s.status v).onPart p && (s.status v).isSustained) = false →
        t.voice v = s.voice v ∧ look t.cvo.gaps v = look s.cvo.gaps v) ∧
      (∀ v n, s.status v = .bound n .sustained → n.part = p →
        t.voice v = { s.voice v with
          status := .bound n (.releasing ((s.patch p).releaseMs * 8000)) } ∧
        look t.cvo.gaps v = none)))

/-- R5, R61: PERFORMANCE SET stores the control clamped to its range; a new BEND recomputes the voices
whose pitch part is the part, and nothing else changes.
R6, R44, R49: PART SETTINGS stores pool and scale select; every voice whose note pitch that changes
moves with it, target and position together, voices of the other part's glides do not. -/
def Obligations.PartControlsAreStoredAndFollowed : Prop :=
  (∀ (s : State) (p : Part) (value : BitVec 16), hears s = true →
    let v := value.toInt
    let c := fun (i : Byte) => Instr.performanceSet (partByte p) i value
    let bent := s.modPart p fun r => { r with bend := max (-8192) (min 8191 v) }
    exec (c 0) s = .next (taken (c 0) [0x00]
      (if (s.part p).bend = max (-8192) (min 8191 v) then bent else recomputePart p bent)) ∧
    exec (c 1) s = .next (taken (c 1) [0x00]
      (s.modPart p fun r => { r with mod := (max 0 (min 1023 v)).toNat })) ∧
    exec (c 2) s = .next (taken (c 2) [0x00]
      (s.modPart p fun r => { r with pressure := (max 0 (min 127 v)).toNat })) ∧
    exec (c 3) s = .next (taken (c 3) [0x00]
      (s.modPart p fun r => { r with expression := (max 0 (min 1023 v)).toNat }))) ∧
  (∀ (s : State) (p : Part) (pool : BitVec 16) (sc : Fin 2), hears s = true →
    let c : Instr := .partSettings (partByte p) pool (b1 sc.val)
    ∃ t, exec c s = .next (taken c [0x00] t) ∧ NotesMoved s t ∧ NoteFrame s t ∧ t.tne = s.tne ∧
      t.psc = s.psc ∧ t.cvo = s.cvo ∧
      (∀ q, t.part q = if q = p then { s.part p with pool, scale := sc } else s.part q) ∧
      ∀ v, (s.glide v).part ≠ p → pitchMove s t v = 0)

/-- R7: SEED loads L, 0 as 1; an advance of L is one step of the Galois register, never reaches 0 from
a register that is not 0, and a draw gives a slop offset within the depth, 0 for depth 0. -/
def Obligations.SlopSourceAdvancesAndLoads : Prop :=
  (∀ (s : State) (w : BitVec 16), hears s = true →
    exec (.seed w) s = .next (taken (.seed w) [0x00]
      { s with val := { s.val with seed := if w = 0 then 1 else w } })) ∧
  (∀ l : BitVec 16, advanceSeed l = (l >>> 1) ^^^ (if l.toNat % 2 = 1 then 0xB400 else 0)) ∧
  (∀ l : BitVec 16, l ≠ 0 → advanceSeed l ≠ 0) ∧
  (∀ (l : BitVec 16) (d : Nat), -(d : Int) ≤ slopOf l d ∧ slopOf l d ≤ d ∧
    slopOf l d = ((l.toNat % (2 * d + 1) : Nat) : Int) - d) ∧
  State.reset.val.seed = 0xACE1

/-- R21: ALL NOTES CLEAR sets the bound voices of the named parts FREE, part A's before part B's, each
part's in ascending voice number, empties the held-key lists, turns sustain off and drops the groups;
TUNING, PARKED and the other part's voices stay. -/
def Obligations.AllNotesClearFreesTheNamedParts : Prop :=
  ∀ (s : State) (target : Fin 3), hears s = true → VoiceLaw s →
    let c : Instr := .allNotesClear (b1 target.val)
    let named := fun (p : Part) => match p with
      | .A => decide (target.val = 0 ∨ target.val = 2)
      | .B => decide (target.val = 1 ∨ target.val = 2)
    let voices := fun (p : Part) => (List.finRange 16).filter fun v =>
      named p && (s.status v).onPart p
    ∃ t, exec c s = .next (taken c [0x00] (kick t)) ∧ NoteFrame s t ∧ t.tne = s.tne ∧
      t.psc = s.psc ∧ t.cvo.trial = s.cvo.trial ∧ t.ptu = s.ptu ∧ t.val.seed = s.val.seed ∧
      t.val.freeList = s.val.freeList ++ voices .A ++ voices .B ∧
      t.val.releaseOrder =
        s.val.releaseOrder.filter (fun v => v ∉ voices .A ++ voices .B) ∧
      (∀ p, t.val.startOrder.get p = if named p then [] else s.val.startOrder.get p) ∧
      (∀ p, named p = true →
        t.part p = { s.part p with heldKeys := [], sustain := false, solo := none }) ∧
      (∀ p, named p = false → { t.part p with solo := (s.part p).solo } = s.part p ∧
        (SoloLaw s → t.part p = s.part p)) ∧
      (∀ v, v ∉ voices .A ++ voices .B →
        t.voice v = s.voice v ∧ look t.cvo.gaps v = look s.cvo.gaps v) ∧
      (∀ v, v ∈ voices .A ++ voices .B →
        t.voice v = { s.voice v with status := .free } ∧ look t.cvo.gaps v = none)

/-- R22, R23, R65, R103: VOICE SERVICE off parks a voice from any state with reason HOST, off every list
and its solo group, its plan entries removed where it was TUNING and none where it was not; on returns
a PARKED voice to FREE at the free-list tail and leaves any other alone. Both end with the choice of
work that this makes possible, and every other voice's state and note stay. -/
def Obligations.VoiceServiceParksAndReturns : Prop :=
  ∀ (s : State) (v : VoiceNo), hears s = true → VoiceLaw s → PlanLaw s → BusLaw s →
    let off : Instr := .voiceServiceOff (b1 v.val) 0
    let back : Instr := .voiceServiceOn (b1 v.val)
    (∃ t, exec off s = .next (taken off [0x00] (kick t)) ∧
      t.status v = .parked .host ∧ v ∉ t.val.freeList ∧ v ∉ t.val.releaseOrder ∧
      (∀ p, v ∉ t.val.startOrder.get p ∧ (t.part p).heldKeys = (s.part p).heldKeys ∧
        ∀ g, (t.part p).solo = some g → inSet g v = false) ∧
      look t.cvo.gaps v = none ∧ inSet t.tne.failed v = false ∧
      (∀ w, w ≠ v → t.voice w = s.voice w) ∧
      t.tne.plan = (if (s.status v).isTuning then s.tne.plan.filter (fun e => e.voice ≠ v)
        else s.tne.plan) ∧
      (∀ c, s.tne.current = some c → c.voice = v →
        t.tne.current = none ∧ t.cvo.trial = none ∧ t.tne.activity = .idle ∧
        t.psc.holder ≠ some .engine) ∧
      ((∀ c, s.tne.current = some c → c.voice ≠ v) →
        t.tne.current = s.tne.current ∧ t.tne.activity = s.tne.activity ∧ t.psc = s.psc) ∧
      t.lnk.notices = (if (s.status v).isTuning = true ∧ (∀ e ∈ s.tne.plan, e.voice = v)
        then s.lnk.notices.set .tuneDone else s.lnk.notices) ∧
      (s.tne.mode ≠ .step → t.tne.mode = s.tne.mode) ∧
      t.cal = s.cal ∧ t.ebu = s.ebu ∧ t.smc = s.smc ∧
      ∀ n, sourceVoice n = v → look t.ptu.codes n = (toCode (look s.cal.records n).codes 60000).1) ∧
    ((∃ r, s.status v = .parked r) →
      ∃ t, exec back s = .next (taken back [0x00] (kick t)) ∧
        NoteFrame s t ∧ t.status v = .free ∧ t.val.freeList = s.val.freeList ++ [v] ∧
        t.val.startOrder = s.val.startOrder ∧ t.val.releaseOrder = s.val.releaseOrder ∧
        (∀ p, (t.part p).heldKeys = (s.part p).heldKeys) ∧
        (∀ w, w ≠ v → t.voice w = s.voice w) ∧ t.tne = s.tne ∧ t.psc = s.psc ∧
        ∀ n, sourceVoice n = v → look t.ptu.codes n = (chain t n).1) ∧
    ((∀ r, s.status v ≠ .parked r) → exec back s = .next (taken back [0x00] s))

/-- R17, R19, R39, R181: a damp expiry takes a MUTING voice to HELD; a tail expiry takes a RELEASING
voice to FREE, at the free-list tail and off the other lists; a gap expiry ends the gap, but for one that
a restart of the gap has overtaken, after which the gap runs on (log 2, DEDUCED). That an expiry which
finds another state changes nothing is the model's choice (log 3, DEDUCED). -/
def Obligations.ExpiriesMoveTheVoiceOn : Prop :=
  ∀ (s : State) (v : VoiceNo), s.run = .running →
    (∀ n d, s.status v = .bound n (.muting d) →
      exec (.dampExpiry v) s = .next (s.setVoice v { s.voice v with status := .bound n .held })) ∧
    ((s.status v).isMuting = false → exec (.dampExpiry v) s = .next s) ∧
    (∀ n d, s.status v = .bound n (.releasing d) → VoiceLaw s →
      ∃ t, exec (.tailExpiry v) s = .next (kick t) ∧ NoteFrame s t ∧ t.tne = s.tne ∧
        t.psc = s.psc ∧ t.cvo.trial = s.cvo.trial ∧ t.ptu = s.ptu ∧ t.val.seed = s.val.seed ∧
        t.voice v = { s.voice v with status := .free } ∧
        (∀ w, w ≠ v → t.voice w = s.voice w ∧ look t.cvo.gaps w = look s.cvo.gaps w) ∧
        t.val.freeList = s.val.freeList ++ [v] ∧
        t.val.releaseOrder = s.val.releaseOrder.filter (fun w => w ≠ v) ∧
        (∀ p, t.val.startOrder.get p = (s.val.startOrder.get p).filter (fun w => w ≠ v)) ∧
        (∀ p, (t.part p).heldKeys = (s.part p).heldKeys ∧
          ∀ g, (t.part p).solo = some g → inSet g v = false)) ∧
    ((s.status v).isReleasing = false → exec (.tailExpiry v) s = .next s) ∧
    ((∀ x, look s.cvo.gaps v = some x → x.late = false) → exec (.retriggerGapExpiry v) s =
      .next { s with cvo := { s.cvo with gaps := put s.cvo.gaps v none } }) ∧
    (∀ x, look s.cvo.gaps v = some x → x.late = true → exec (.retriggerGapExpiry v) s =
      .next { s with cvo := { s.cvo with gaps := put s.cvo.gaps v (some { x with late := false }) } }) ∧
    (∀ (old : Option Countdown) (ticks : Nat), (restart old ticks).left = ticks ∧
      ((restart old ticks).late = true ↔ ∃ x, old = some x ∧ (x.left = 0 ∨ x.late = true)))

/-! ## Pitch -/

/-- R42: the glide rate, from 1023 at parameter value 1 down to 1 at 1023, with the values of R42's table;
a value of 0 turns glide off, so that an update reaches the target at once (R43); an octave glide takes
the updates, one a millisecond, that make 12000 dc at the rate; the parameter is that of the voice's
glide part. -/
def Obligations.GlideRateFallsFrom1023To1 : Prop :=
  (∀ v : Nat, glideRate v = 1048576 / (v ^ 2 + 1024)) ∧
  (∀ v w : Nat, v ≤ w → glideRate w ≤ glideRate v) ∧
  (∀ v : Nat, 1 ≤ v → v ≤ 1023 → 1 ≤ glideRate v ∧ glideRate v ≤ 1023) ∧
  [1, 32, 64, 100, 256, 512, 1023].map glideRate = [1023, 512, 204, 95, 15, 3, 1] ∧
  (∀ g : Glide, glideStep 0 g = g.target) ∧
  (∀ (v k : Nat) (g : Glide), 1 ≤ v → v ≤ 1023 → g.target = g.pos + 12000 →
    ((fun x => glideStep v { g with pos := x })^[k] g.pos = g.target ↔
      12000 ≤ k * glideRate v)) ∧
  ∀ (s : State) (v : VoiceNo), s.run = .running → (s.glide v).pos ≠ (s.glide v).target →
    ∃ t, exec (.glideUpdate v) s = .next t ∧
      (t.glide v).pos = glideStep ((s.patch (s.glide v).part).param 69) (s.glide v)

/-- R43, R61: a GLIDE UPDATE of a voice whose position differs from its target moves the position by the
rate toward the target, or onto it within the rate or with the rate 0; it recomputes that voice and
starts the next millisecond unless the target is reached; nothing else changes. That an update of a voice
at rest changes nothing is the model's choice (log 3, DEDUCED). -/
def Obligations.GlideUpdateMovesTowardTheTarget : Prop :=
  ∀ (s : State) (v : VoiceNo), s.run = .running →
    let g := s.glide v
    let rate : Int := 1048576 / ((s.patch g.part).param 69 * (s.patch g.part).param 69 + 1024)
    let pos :=
      if (s.patch g.part).param 69 = 0 ∨ (g.target - g.pos ≤ rate ∧ g.pos - g.target ≤ rate) then
        g.target
      else if g.pos < g.target then g.pos + rate else g.pos - rate
    (g.pos = g.target → exec (.glideUpdate v) s = .next s) ∧
    (g.pos ≠ g.target → ∃ t, exec (.glideUpdate v) s = .next t ∧
      t.glide v = { g with pos := pos, timer := if pos = g.target then none else some 8000 } ∧
      (∀ w, w ≠ v → t.glide w = s.glide w ∧ t.voice w = s.voice w) ∧
      { t.voice v with clamp := (s.voice v).clamp } = s.voice v ∧
      (∀ n, sourceVoice n = v → look t.ptu.codes n = (chain t n).1) ∧
      (∀ n, sourceVoice n ≠ v → look t.ptu.codes n = look s.ptu.codes n) ∧
      { t with val := s.val, ptu := s.ptu } = s ∧
      { t.val with voices := s.val.voices } = s.val ∧
      { t.ptu with glide := s.ptu.glide, codes := s.ptu.codes } = s.ptu)

/-- R47, R48, R49, R53: MASTER PITCH stores the value clamped to −1000..1000 and recomputes all 16 voices,
and no other field changes but the codes and clamp flags; SCALE SET, OVERRIDE SET and OVERRIDE CLEAR
change the key pitches they name, clamped, and move every voice on a key whose note pitch changed; a
33rd override answers MAP FULL and changes nothing. -/
def Obligations.PitchCommandsMoveTheVoicesOnThem : Prop :=
  (∀ (s : State) (value : BitVec 16), hears s = true →
    ∃ t, exec (.masterPitch value) s = .next (taken (.masterPitch value) [0x00] t) ∧
      CodesLaw t ∧
      t.ptu = { s.ptu with
        master := max (-1000) (min 1000 value.toInt), codes := t.ptu.codes } ∧
      (∀ v, { t.voice v with clamp := (s.voice v).clamp } = s.voice v) ∧
      { t with ptu := s.ptu, val := s.val } = s ∧
      { t.val with voices := s.val.voices } = s.val) ∧
  (∀ (s : State), hears s = true →
    (∀ (tb : Fin 2) (offs : Vector (BitVec 16) 12),
      let c : Instr := .scaleSet (b1 tb.val) offs
      ∃ t, exec c s = .next (taken c [0x00] t) ∧ NotesMoved s t ∧ NoteFrame { s with ptu := t.ptu } t ∧
        t.val.parts = s.val.parts ∧ t.tne = s.tne ∧ t.psc = s.psc ∧ t.cvo = s.cvo ∧
        t.ptu.master = s.ptu.master ∧ t.ptu.overrides = s.ptu.overrides ∧
        ∀ u i, look (look t.ptu.scales u) i =
          if u = tb then max (-500) (min 500 (look offs i).toInt)
          else look (look s.ptu.scales u) i) ∧
    (∀ (p : Part) (k : Nat) (pitch : BitVec 24), k ≤ 127 →
      let c : Instr := .overrideSet (partByte p) (b1 k) pitch
      (overridePitch s p k = none → 32 ≤ s.ptu.overrides.length →
        exec c s = .next (taken c [0x0A] s)) ∧
      ((overridePitch s p k).isSome = true ∨ s.ptu.overrides.length < 32 →
        ∃ t, exec c s = .next (taken c [0x00] t) ∧ NotesMoved s t ∧
          NoteFrame { s with ptu := t.ptu } t ∧ t.val.parts = s.val.parts ∧ t.tne = s.tne ∧
          t.psc = s.psc ∧ t.cvo = s.cvo ∧ t.ptu.master = s.ptu.master ∧
          t.ptu.scales = s.ptu.scales ∧
          ∀ q j, overridePitch t q j =
            if q = p ∧ j = k then some (min 127000 pitch.toNat) else overridePitch s q j)) ∧
    (∀ (p : Part) (k : Nat), k ≤ 127 →
      let c : Instr := .overrideClear 0 (partByte p) (b1 k)
      ∃ t, exec c s = .next (taken c [0x00] t) ∧ NotesMoved s t ∧
        NoteFrame { s with ptu := t.ptu } t ∧ t.val.parts = s.val.parts ∧ t.tne = s.tne ∧
        t.psc = s.psc ∧ t.cvo = s.cvo ∧ t.ptu.master = s.ptu.master ∧
        t.ptu.scales = s.ptu.scales ∧
        t.ptu.overrides = s.ptu.overrides.filter fun o => !(o.part == p && o.key == k)) ∧
    (∀ (part key : Byte),
      let c : Instr := .overrideClear 1 part key
      ∃ t, exec c s = .next (taken c [0x00] t) ∧ NotesMoved s t ∧
        NoteFrame { s with ptu := t.ptu } t ∧ t.val.parts = s.val.parts ∧ t.tne = s.tne ∧
        t.psc = s.psc ∧ t.cvo = s.cvo ∧ t.ptu.master = s.ptu.master ∧
        t.ptu.scales = s.ptu.scales ∧ t.ptu.overrides = []))

/-- R57: the segment is the floor of the quotient clamped to 0..7; the fraction lies in 0..11999 within
the span, is negative below it and 12000 or more above it, and is 0 on a breakpoint 0..7 and 12000 on
breakpoint 8, where the code is the breakpoint's C_k. -/
def Obligations.SegmentAndFractionOfAPitch : Prop :=
  ∀ pitch : Int,
    let k : Int := (segment pitch).val
    let frac := pitch - (21000 + 12000 * k)
    k = max 0 (min 7 ((pitch - 21000) / 12000)) ∧
    (21000 ≤ pitch → pitch ≤ 116999 → 0 ≤ frac ∧ frac ≤ 11999) ∧
    (pitch < 21000 → k = 0 ∧ frac < 0) ∧
    (117000 ≤ pitch → k = 7 ∧ 12000 ≤ frac) ∧
    (∀ j : Fin 8, pitch = 21000 + 12000 * (j.val : Int) → k = j.val ∧ frac = 0) ∧
    (pitch = 117000 → k = 7 ∧ frac = 12000) ∧
    (∀ (codes : Vector Nat 9) (j : Fin 9), pitch = 21000 + 12000 * (j.val : Int) →
      rawCode codes pitch = ((look codes j : Nat) : Int))

/-- R57 to R60: through a record whose codes rise, the code of a breakpoint pitch is the breakpoint's code
with no clamp, a higher pitch never gives a lower code, every code lies in 0..65535, and the clamp flag
says that the code before clamping does not; through the nominal codes the conversion is one straight
line, clamped at 13319 dc and below and at 136200 dc and above. -/
def Obligations.ConversionFollowsTheBreakpoints : Prop :=
  (∀ codes : Vector Nat 9, Rising codes →
    (∀ k : Fin 9, toCode codes (21000 + 12000 * (k.val : Int)) = (look codes k, false)) ∧
    (∀ x y : Int, x ≤ y → (toCode codes x).1 ≤ (toCode codes y).1) ∧
    (∀ x : Int, (toCode codes x).1 ≤ 65535 ∧
      ((toCode codes x).2 = true ↔ rawCode codes x < 0 ∨ 65535 < rawCode codes x) ∧
      ((toCode codes x).2 = false → ((toCode codes x).1 : Int) = rawCode codes x))) ∧
  ((∀ k : Fin 9, look nominalCodes k = 4096 + 6400 * k.val) ∧
  ∀ x : Int,
    toCode nominalCodes x =
      ((max 0 (min 65535 (4096 + rhaz (8 * (x - 21000)) 15))).toNat,
        decide (x ≤ 13319 ∨ 136200 ≤ x)))

/-- R54: the unison offset, within −511..511 for every spread, 0 for one voice, symmetric over the
indices, with the values of R54's table. -/
def Obligations.UnisonOffsetsSpreadSymmetrically : Prop :=
  (∀ spread size j, size ≤ 1 → unisonOffset spread size j = 0) ∧
  (∀ spread size j, spread ≤ 1023 → j < size →
    -511 ≤ unisonOffset spread size j ∧ unisonOffset spread size j ≤ 511 ∧
    unisonOffset spread size (size - 1 - j) = -unisonOffset spread size j) ∧
  (List.range 2).map (unisonOffset 40 2) = [-20, 20] ∧
  (List.range 3).map (unisonOffset 301 3) = [-150, 0, 150] ∧
  (List.range 4).map (unisonOffset 300 4) = [-150, -50, 50, 150] ∧
  (List.range 8).map (unisonOffset 1023 8) = [-511, -365, -219, -73, 73, 219, 365, 511]

/-- R45, R50 to R52, R55, R56: what each source of a voice is converted from: 69000 dc in TUNING, 60000 dc
in PARKED, else the chain of arithmetic from the glide position; a TUNING voice's code is its C_4. -/
def Obligations.SourcePitchFollowsTheChain : Prop :=
  ∀ (s : State) (v : VoiceNo),
    let p := (s.glide v).part
    let x := s.patch p
    let common := (s.glide v).pos +
      Int.tdiv ((s.part p).bend * (25 * x.param 71 / 1024 : Nat) * 1000) 8192 +
      s.ptu.master + (s.voice v).slop + look s.ptu.unison v
    (∀ f r, s.status v = .tuning f r → ∀ i, sourcePitch s v i = 69000 ∧
      (Rising (s.record (sourceNo v i)).codes →
        chain s (sourceNo v i) = (look (s.record (sourceNo v i)).codes 4, false))) ∧
    (∀ r, s.status v = .parked r → ∀ i, sourcePitch s v i = 60000) ∧
    ((s.status v).isTuning = false → (∀ r, s.status v ≠ .parked r) →
      sourcePitch s v 0 = common ∧
      sourcePitch s v 1 = common + 1000 * ((49 * x.param 75 / 1024 : Nat) - 24 : Int) +
        ((x.param 74 : Int) - 512) ∧
      sourcePitch s v 2 = 21000 + 96 * (x.param 76 : Int) +
        Int.tdiv ((common - 60000) * (65 * x.param 77 / 1024 : Nat)) 64)

/-! ## Reads and settings -/

/-- R26, R74, R104, R122, R131, R167, R175, R190, R191: the seven reads answer the state they name, field
by field as their layouts give it, and change nothing. That VOICE READ rounds a time up to whole
milliseconds is the model's choice (log 13, DESIGN CHOICE). -/
def Obligations.ReadsAnswerWhatTheStateHolds : Prop :=
  ∀ s : State, hears s = true →
    (∀ v : VoiceNo, ∃ (head : List Byte) (ms : Nat) (reason flags : Byte),
      let x := s.voice v
      exec (.voiceRead (b1 v.val)) s = .next (taken (.voiceRead (b1 v.val))
        (0x00 :: head ++ [b1 x.unisonIndex, b1 x.unisonSize, BitVec.ofInt 8 x.slop] ++
          Frame.two (BitVec.ofNat 16 ms) ++ [reason, flags]) s) ∧
      (match x.status with
      | .free => head = [0, 0, 0, 0, 0, 0] ∧ ms = 0 ∧ reason = 0
      | .bound n ph => reason = 0 ∧ ∃ code presence : Byte,
        head = [code, presence, partByte n.part, b1 n.key, b1 n.velocity, b1 n.pressure] ∧
        (match ph with
        | .held => code = 1 ∧ presence = 1 ∧ ms = 0
        | .sustained => code = 2 ∧ presence = 1 ∧ ms = 0
        | .releasing t => code = 3 ∧ presence = 3 ∧ ms = (t + 7999) / 8000
        | .muting t => code = 4 ∧ presence = 5 ∧ ms = (t + 7999) / 8000)
      | .tuning _ r => head = [5, if r.isSome then 8 else 0, 0, 0, 0, 0] ∧ ms = 0 ∧
        reason = if r = some .host then 1 else 0
      | .parked r => head = [6, 8, 0, 0, 0, 0] ∧ ms = 0 ∧ reason = if r = .host then 1 else 0) ∧
      (∀ i : Fin 3, flags.getLsbD i.val = look x.clamp i) ∧
      (flags.getLsbD 3 = true ↔ ∃ f r, x.status = .tuning f (some r)) ∧
      (flags.getLsbD 4 = true ↔ ∃ r, x.status = .tuning true r) ∧ flags.toNat < 32) ∧
    (∀ n : SourceNo, ∃ status reason : Byte,
      exec (.calRead (b1 n.val)) s = .next (taken (.calRead (b1 n.val))
        (0x00 :: ((List.finRange 9).flatMap fun k =>
            Frame.two (BitVec.ofNat 16 (look (s.record n).codes k))) ++
          [status, reason, b1 (s.record n).age]) s) ∧
      (match (s.record n).status with
      | .nominal => status = 0 ∧ reason = 0
      | .tuned => status = 1 ∧ reason = 0
      | .failed r => status = 2 ∧ reason = match r with
        | .noSignal => 1
        | .notConverged => 2
        | .outOfRange => 3
        | .nonMonotonic => 4)) ∧
    (∃ (mode activity : Byte) (current last : List Byte),
      exec .tuneRead s = .next (taken .tuneRead
        ([0x00, mode, activity] ++ current ++ last ++ [b1 s.tne.plan.length]) s) ∧
      (mode = match s.tne.mode with
        | .run => 0
        | .halt => 1
        | .step => 2) ∧
      (activity = match s.tne.activity with
        | .idle => 0
        | .busWait => 1
        | .settling _ => 2
        | .gating _ _ _ => 3) ∧
      (s.tne.current = none → current = [0, 0, 0, 0, 0, 0, 0, 0]) ∧
      (∀ c e, s.tne.current = some c → PlanLaw s → e ∈ s.tne.plan → e.voice = c.voice →
        e.src = c.src → current =
          [1, b1 c.voice.val, b1 c.src.val, if e.mode = .fg then 0 else 1, b1 c.k.val, b1 c.iter] ++
            Frame.two (BitVec.ofNat 16 c.trial)) ∧
      (s.tne.lastM = none → last = [0, 0, 0, 0]) ∧
      (∀ m, s.tne.lastM = some m → last = 1 :: Frame.three (BitVec.ofNat 24 m))) ∧
    (∀ q : PotNo,
      exec (.potRead (b1 q.val)) s = .next (taken (.potRead (b1 q.val))
        (0x00 :: Frame.two (BitVec.ofNat 16 (s.pot q).acc) ++
          (match (s.pot q).stable with
          | some k => 1 :: Frame.two (BitVec.ofNat 16 k)
          | none => [0, 0, 0]) ++ [b1 (s.pot q).slot.val]) s)) ∧
    (∀ (p : Part) (n : ParamNo),
      exec (.paramRead (partByte p) (b1 n.val)) s = .next (taken (.paramRead (partByte p) (b1 n.val))
        (0x00 :: Frame.two (BitVec.ofNat 16 ((s.patch p).param n))) s)) ∧
    (∀ p : Part,
      exec (.paramRead (partByte p) 80) s = .next (taken (.paramRead (partByte p) 80)
        (0x00 :: (s.patch p).name.toList ++
          [b1 (s.patch p).category, if (s.buffer p).modified then 1 else 0]) s)) ∧
    (∃ inFlight : Bool,
      exec .guardRead s = .next (taken .guardRead
        [0x00, b1 s.smc.guard.extent, flag s.smc.guard.high, flag s.smc.guard.invert,
          flag s.smc.frozen, flag inFlight] s) ∧
      (inFlight = true ↔ ∃ w r, s.smc.write = some w ∧ w.job = .guardSet r)) ∧
    (∀ c : ChannelNo,
      exec (.routeRead (b1 c.val)) s = .next (taken (.routeRead (b1 c.val))
        (0x00 :: b1 (look s.cvo.route c).number ::
          Frame.two (BitVec.ofNat 16 (look s.cvo.presented c)) ++
          [flag (look s.cvo.trialMark c)]) s))

/-- R71: TUNE SETTINGS with its enumerated settings in range stores all six, the gains clamped to
256..8191, and answers them; nothing else changes. An edge or auto-park selection that names nothing is
refused with RANGE. -/
def Obligations.TuneSettingsAreClampedAndEchoed : Prop :=
  (∀ (s : State) (og fg : BitVec 16) (oe fe ap : Fin 2) (r : Byte), hears s = true →
    let c : Instr := .tuneSettings og fg (b1 oe.val) (b1 fe.val) r (b1 ap.val)
    let gain := fun (g : BitVec 16) => max 256 (min 8191 g.toNat)
    exec c s = .next (taken c
      (0x00 :: Frame.two (BitVec.ofNat 16 (gain og)) ++ Frame.two (BitVec.ofNat 16 (gain fg)) ++
        [b1 oe.val, b1 fe.val, r, b1 ap.val])
      { s with cal := { s.cal with settings :=
        { oscGain := gain og, fltGain := gain fg,
          oscEdge := if oe = 0 then .rising else .falling,
          fltEdge := if fe = 0 then .rising else .falling,
          retune := r.toNat, autoPark := decide (ap = 1) } } })) ∧
  ∀ (s : State) (og fg : BitVec 16) (oe fe r ap : Byte), hears s = true →
    1 < oe.toNat ∨ 1 < fe.toNat ∨ 1 < ap.toNat →
      exec (.tuneSettings og fg oe fe r ap) s =
        .next (taken (.tuneSettings og fg oe fe r ap) (0x07 :: List.replicate 8 0) s)

/-- R114, R117, R132, R138, R139, R166, R173, R174, R194: the commands that store a setting store it in
range, answer what they stored, and change nothing else; ROUTE SET of a source of the other class is
refused with ROUTE CLASS. -/
def Obligations.SettingCommandsStoreWhatTheyAnswer : Prop :=
  ∀ s : State, hears s = true →
    (∀ mask : Byte, exec (.noticeEnable mask) s =
      .next (taken (.noticeEnable mask) [0x00, mask] { s with lnk := { s.lnk with enable := mask } })) ∧
    (∀ f : Fin 3, exec (.focusSet (b1 f.val)) s =
      .next (taken (.focusSet (b1 f.val)) [0x00, b1 f.val]
        { s with ebu := { s.ebu with
          focus := if f = 0 then .a else if f = 1 then .b else .both } })) ∧
    exec .guardFreeze s =
      .next (taken .guardFreeze [0x00] { s with smc := { s.smc with frozen := true } }) ∧
    (∀ (i : Fin 4) (shift deadband : Byte),
      let x : Smoothing := { shift := min 7 shift.toNat, deadband := min 15 deadband.toNat }
      exec (.profileSet (b1 i.val) shift deadband) s =
        .next (taken (.profileSet (b1 i.val) shift deadband) [0x00, b1 x.shift, b1 x.deadband]
          { s with psc := { s.psc with profiles := put s.psc.profiles i x } })) ∧
    (∀ (prof : Fin 2) (interval : Byte) (mask : BitVec 16), ∃ iv ∈ [1, 2, 4, 8, 16, 32],
      (iv ≤ interval.toNat ∨ interval = 0 ∧ iv = 1) ∧
      (∀ j ∈ [1, 2, 4, 8, 16, 32], j ≤ interval.toNat → j ≤ iv) ∧
      let c : Instr := .scheduleSet (b1 prof.val) interval mask
      let x : Schedule := { interval := iv, mask := mask &&& 0x063F }
      exec c s = .next (taken c (0x00 :: b1 iv :: Frame.two (mask &&& 0x063F))
        { s with psc := if prof = 0 then { s.psc with normal := x }
          else { s.psc with tune := x } })) ∧
    (∀ (p : Part) (name : Name) (category : Byte), ∃ stored : Name,
      (∀ i, look stored i =
        if 0x20 ≤ (look name i).toNat ∧ (look name i).toNat ≤ 0x7E then look name i else 0x20) ∧
      let c : Instr := .nameSet (partByte p) name category
      let cat := min 15 category.toNat
      let x := s.patch p
      ∃ modified : Bool,
        (modified = true ↔ (s.buffer p).modified = true ∨ stored ≠ x.name ∨ cat ≠ x.category) ∧
        exec c s = .next (taken c (0x00 :: stored.toList ++ [b1 cat])
          (s.setBuffer p { patch := { x with name := stored, category := cat }, modified }))) ∧
    (∀ (n : SwitchNo) (t : Fin 4) (i : ParamNo) (field param count : Byte),
      let entered := fun (e : SwitchEntry) =>
        { s with ebu := { s.ebu with switchMap := put s.ebu.switchMap n e } }
      let hostOnly : Instr := .switchMapSet (b1 n.val) 0 field param count
      let step : Instr := .switchMapSet (b1 n.val) 1 (b1 (t.val + 1)) (b1 i.val) count
      let focus : Instr := .switchMapSet (b1 n.val) 2 (b1 t.val) param count
      let steps := max 2 (min 16 count.toNat)
      exec hostOnly s = .next (taken hostOnly [0x00, 0, 0, 0, 0] (entered .hostOnly)) ∧
      exec step s = .next (taken step [0x00, 1, b1 (t.val + 1), b1 i.val, b1 steps]
        (entered (.step
          (match t with
          | 0 => .a
          | 1 => .b
          | 2 => .focus
          | 3 => .both) i steps))) ∧
      (t.val < 3 → exec focus s = .next (taken focus [0x00, 2, b1 t.val, 0, 0]
        (entered (.focus (if t = 0 then .a else if t = 1 then .b else .both)))))) ∧
    (∀ (c : ChannelNo) (src : CvSource),
      let set : Instr := .routeSet (b1 c.val) (b1 src.number)
      let may := match src with
        | .pitch _ => c.val < 48
        | .zero => True
        | _ => 48 ≤ c.val
      (may → exec set s = .next (taken set [0x00, b1 c.val, b1 src.number]
        { s with cvo := { s.cvo with route := put s.cvo.route c src } })) ∧
      (¬ may → exec set s = .next (taken set [0x08, 0, 0] s)))

/-- R137, R141, R115: POT MAP SET stores the entry, hands its smoothing slot to the pot's record, re-arms
the pot's takeover record of both parts from the new entry, and answers the entry; nothing else
changes. -/
def Obligations.PotMapSetReArmsBothParts : Prop :=
  ∀ (s : State) (q : PotNo) (sl : Fin 4), hears s = true →
    let done := fun (e : PotEntry) (c : Instr) (ans : List Byte) =>
      ∃ t, exec c s = .next (taken c ans t) ∧
        t.ebu.potMap = put s.ebu.potMap q e ∧
        (∀ p, t.takeover q p = reArmed e (s.pot q).stable (s.patch p)) ∧
        (∀ p i, i ≠ q → t.takeover i p = s.takeover i p) ∧
        t.psc = { s.psc with pots := put s.psc.pots q { s.pot q with slot := sl } } ∧
        { t.ebu with potMap := s.ebu.potMap, takeover := s.ebu.takeover } = s.ebu ∧
        { t with ebu := s.ebu, psc := s.psc } = s
    (∀ param mode : Byte, done { link := none, slot := sl }
      (.potMapSet (b1 q.val) 0 param mode (b1 sl.val)) [0x00, 0, 0, 0, b1 sl.val]) ∧
    (∀ (tg : Fin 4) (n : ParamNo) (m : Fin 3), done
      { link := some
          { target := match tg with
              | 0 => .a
              | 1 => .b
              | 2 => .focus
              | 3 => .both
            param := n
            mode := match m with
              | 0 => .jump
              | 1 => .catching
              | 2 => .scale }
        slot := sl }
      (.potMapSet (b1 q.val) (b1 (tg.val + 1)) (b1 n.val) (b1 m.val) (b1 sl.val))
      [0x00, b1 (tg.val + 1), b1 n.val, b1 m.val, b1 sl.val])

/-! ## The slot memory -/

/-- R151, R153, R152: the image of a patch in range is 128 bytes: state 0x3F, version 0x01, the check, the
name, the category and 80 parameters of 10 bits; its readout is VALID with that patch. Stored, erased,
programmed and recalled, a patch is the same in the other buffer, and no other slot has changed. -/
def Obligations.StoreThenRecallRestoresThePatch : Prop :=
  (∀ x : Patch, x.InRange →
    let img := patchImage x
    img.length = 128 ∧ img.take 2 = [0x3F, 0x01] ∧
    (img.getD 2 0).toNat * 256 + (img.getD 3 0).toNat =
      ((x.name.toList.map BitVec.toNat).sum + x.category + x.params.toList.sum) % 65536 ∧
    (img.drop 4).take 23 = x.name.toList ∧ (img.getD 27 0).toNat = x.category ∧
    (∀ (n : ParamNo) (b : Nat), b < 10 → paramBit img n.val b = (x.param n).testBit b) ∧
    readout img = .valid x) ∧
  (∀ (s : State) (p q : Part) (n : SlotNo), hears s = true → slotGuarded s n = false →
    s.smc.write = none → BufferLaw s → MemoryLaw s →
    ∃ t₁ t₂ t₃ u,
      exec (.patchStore (partByte p) (BitVec.ofNat 16 n.val)) s = .next t₁ ∧
      exec .eraseExpiry t₁ = .next t₂ ∧ exec (.programExpiry []) t₂ = .next t₃ ∧
      exec (.patchRecall (BitVec.ofNat 16 n.val) (partByte q)) t₃ = .next u ∧
      u.lnk.answer = [0x00] ∧ u.patch q = s.patch p ∧ (u.buffer q).modified = false ∧
      (u.buffer p).modified = false ∧ u.smc.write = none ∧
      t₃.lnk.notices.nvResult = some { op := .store, slot := some n, ok := true } ∧
      readout (slotImage u.smc.slots n) = .valid (s.patch p) ∧
      ∀ (m : SlotNo) (a : Nat), m ≠ n → a < 128 →
        memRead u.smc.slots (slotBase m + a) = memRead s.smc.slots (slotBase m + a))

/-- R78, R155, R157 to R160, R165: a slot write to a protected bank is refused with GUARDED, any write
with one in flight with BUSY, a GUARD SET under the freeze with FROZEN, and nothing changes; else the
write is in flight in its erase phase of 3 ms and the target's state byte is 0x00, and no other byte,
and no other state but PATCH STORE's modified flag, has changed. -/
def Obligations.WritesAreAcceptedOrRefused : Prop :=
  ∀ s : State, hears s = true →
    let accepted := fun (j : Job) (t : State) =>
      t.smc.write = some { job := j, phase := .erase, remaining := 24000, resume := none } ∧
      targetState t j = 0x00 ∧ t.smc.guard = s.smc.guard ∧ t.smc.frozen = s.smc.frozen ∧
      (∀ n, j.slot? = some n → t.smc.sys = s.smc.sys ∧
        ∀ a, a ≠ slotBase n → memRead t.smc.slots a = memRead s.smc.slots a) ∧
      (j.slot? = none → t.smc.slots = s.smc.slots ∧ t.smc.sys.contents = s.smc.sys.contents) ∧
      { t with smc := s.smc, ebu := s.ebu } = s
    let request := fun (n : SlotNo) (c : Instr) (j : Job) (ebu : Ebu) =>
      (slotGuarded s n = true → exec c s = .next (taken c [0x04] s)) ∧
      (slotGuarded s n = false → s.smc.write ≠ none → exec c s = .next (taken c [0x03] s)) ∧
      (slotGuarded s n = false → s.smc.write = none →
        ∃ t, exec c s = .next (taken c [0x00] t) ∧ accepted j t ∧ t.ebu = ebu)
    (∀ n : SlotNo, s.smc.guard.extent ≤ 5 →
      let count := match s.smc.guard.extent with
        | 0 => 0
        | e + 1 => 2 ^ e
      let named := if s.smc.guard.high then 16 ≤ n.val / 16 + count else n.val / 16 < count
      (slotGuarded s n = true ↔ (named ↔ s.smc.guard.invert = false))) ∧
    (∀ (n : SlotNo) (p : Part),
      request n (.patchStore (partByte p) (BitVec.ofNat 16 n.val))
        (.store n (patchImage (s.patch p)))
        (s.setBuffer p { s.buffer p with modified := false }).ebu) ∧
    (∀ (n : SlotNo) (name : Name) (cat : Byte) (ps : Vector (BitVec 16) 80), ∃ x : Patch,
      (∀ i, look x.name i =
        if 0x20 ≤ (look name i).toNat ∧ (look name i).toNat ≤ 0x7E then look name i else 0x20) ∧
      x.category = min 15 cat.toNat ∧ (∀ i, x.param i = min 1023 (look ps i).toNat) ∧
      request n (.slotWrite (BitVec.ofNat 16 n.val) name cat ps) (.write n (patchImage x)) s.ebu) ∧
    (∀ n : SlotNo, request n (.slotClear (BitVec.ofNat 16 n.val)) (.clear n) s.ebu) ∧
    (∀ g : Guard, ∃ r : SysRecord, r.guard = g ∧
      (∀ n, look r.codes n = (s.record n).codes ∧
        calStatus? (look r.status n) = some (s.record n).status) ∧
      (RecordsLaw s → g.extent ≤ 5 → r.passes = true) ∧
      (g = s.smc.guard →
        (s.smc.write ≠ none → exec .calSave s = .next (taken .calSave [0x03] s)) ∧
        (s.smc.write = none → ∃ t, exec .calSave s = .next (taken .calSave [0x00] t) ∧
          accepted (.calSave r) t ∧ t.ebu = s.ebu)) ∧
      (g.extent ≤ 5 →
        let c : Instr := .guardSet (b1 g.extent) (flag g.high) (flag g.invert)
        (s.smc.frozen = true → exec c s = .next (taken c [0x0B] s)) ∧
        (s.smc.frozen = false → s.smc.write ≠ none → exec c s = .next (taken c [0x03] s)) ∧
        (s.smc.frozen = false → s.smc.write = none →
          ∃ t, exec c s = .next (taken c [0x00] t) ∧ accepted (.guardSet r) t ∧ t.ebu = s.ebu)))

/-- R155, R156, R77: the erase expiry leaves the target at 0xFF and completes a CLEAR, or begins the
program phase of 2 ms (a slot) or 4 ms (the system record) with state byte 0x7F; the program expiry
leaves the image with its stuck bits, VALID and with result OK where none made a difference, else with
state byte 0x7F and result DAMAGED (of the system record any stuck bit makes one, log 8); a guard comes
into force with an OK GUARD SET alone. No other slot changes. -/
def Obligations.WritePhasesRunToTheirEnd : Prop :=
  ∀ (s : State) (w : NvWrite), s.run = .running → WriteLaw s → MemoryLaw s →
    s.smc.write = some w → w.resume = none →
    let result := fun (good : Bool) =>
      s.lnk.notices.set (.nvResult { op := w.job.op, slot := w.job.slot?, ok := good })
    let elsewhere := fun (t : State) => ∀ m a, w.job.slot? ≠ some m → a < 128 →
      memRead t.smc.slots (slotBase m + a) = memRead s.smc.slots (slotBase m + a)
    let blocks := fun (t : State) =>
      { t with smc := s.smc, lnk := s.lnk, cal := s.cal } = s ∧
      { t.lnk with notices := s.lnk.notices } = s.lnk ∧
      { t.cal with damaged := s.cal.damaged } = s.cal ∧ t.smc.frozen = s.smc.frozen ∧ elsewhere t
    (w.phase = .erase → ∃ t, exec .eraseExpiry s = .next t ∧ blocks t ∧
      t.smc.guard = s.smc.guard ∧ t.cal = s.cal ∧
      (∀ n, w.job.slot? = some n → t.smc.sys = s.smc.sys ∧
        ∀ a, 0 < a → a < 128 → memRead t.smc.slots (slotBase n + a) = 0xFF) ∧
      (w.job.slot? = none → t.smc.sys.contents = none) ∧
      (w.job.op = .clear → t.smc.write = none ∧ targetState t w.job = 0xFF ∧
        t.lnk.notices = result true) ∧
      (w.job.op ≠ .clear → targetState t w.job = 0x7F ∧ t.lnk = s.lnk ∧
        t.smc.write = some { w with
          phase := .program
          remaining := if w.job.slot?.isSome then 16000 else 32000 })) ∧
    (w.phase = .program → ∀ stuck : StuckBits, StuckBits.ok stuck = true →
      (∀ n img, w.job = .store n img ∨ w.job = .write n img →
        ∃ t, exec (.programExpiry stuck) s = .next t ∧ blocks t ∧ t.smc.write = none ∧
          t.smc.sys = s.smc.sys ∧ t.smc.guard = s.smc.guard ∧ t.cal = s.cal ∧
          (∀ a b, 0 < a → a < 128 → ((memRead t.smc.slots (slotBase n + a)).getLsbD b = true ↔
            (img.getD a 0).getLsbD b = true ∨
              ∃ x ∈ stuck, x.1.val = a ∧ x.2.getLsbD b = true)) ∧
          ((∀ x ∈ stuck, x.2 ||| img.getD x.1.val 0 = img.getD x.1.val 0) →
            slotImage t.smc.slots n = img ∧ t.lnk.notices = result true) ∧
          ((∃ x ∈ stuck, x.2 ||| img.getD x.1.val 0 ≠ img.getD x.1.val 0) →
            targetState t w.job = 0x7F ∧ readout (slotImage t.smc.slots n) = .damaged ∧
            t.lnk.notices = result false)) ∧
      (∀ r, w.job = .calSave r ∨ w.job = .guardSet r →
        ∃ t, exec (.programExpiry stuck) s = .next t ∧ blocks t ∧ t.smc.write = none ∧
          t.smc.slots = s.smc.slots ∧
          ((∀ x ∈ stuck, x.2 = 0) → t.smc.sys = { state := 0x3F, contents := some r } ∧
            t.lnk.notices = result true ∧ t.cal.damaged = false ∧
            t.smc.guard = if w.job.op = .guardSet then r.guard else s.smc.guard) ∧
          ((∃ x ∈ stuck, x.2 ≠ 0) → t.smc.sys = s.smc.sys ∧ t.lnk.notices = result false ∧
            t.cal.damaged = s.cal.damaged ∧ t.smc.guard = s.smc.guard)))

/-- R163: the resume expiry ends the suspension, and the phase with it where no time of it is left. One
that a restart of the resume time has overtaken leaves the time running (log 2, DEDUCED): a read taken
while a resume expiry waits, the time having run out, restarts the time, and that expiry then changes
nothing but that it has come. That an expiry without its subject changes nothing is the model's choice
(log 3, DEDUCED): a phase expiry while the write is suspended or in the other phase, a resume expiry with
no suspension, any of the three with no write. -/
def Obligations.SuspensionHoldsTheWriteBack : Prop :=
  ∀ (s : State) (stuck : StuckBits), s.run = .running →
    (s.smc.write = none → exec .eraseExpiry s = .next s ∧ exec (.programExpiry stuck) s = .next s ∧
      exec (.resumeExpiry stuck) s = .next s) ∧
    ∀ w, s.smc.write = some w →
      let as' := fun (r : Option Countdown) =>
        { s with smc := { s.smc with write := some { w with resume := r } } }
      let go := as' none
      (w.resume = none → exec (.resumeExpiry stuck) s = .next s) ∧
      (w.phase = .erase → exec (.programExpiry stuck) s = .next s) ∧
      (w.phase = .program → exec .eraseExpiry s = .next s) ∧
      (∀ x, w.resume = some x →
        exec .eraseExpiry s = .next s ∧ exec (.programExpiry stuck) s = .next s ∧
        (x.late = true →
          exec (.resumeExpiry stuck) s = .next (as' (some { x with late := false }))) ∧
        (x.late = false → w.remaining ≠ 0 → exec (.resumeExpiry stuck) s = .next go) ∧
        (x.late = false → w.remaining = 0 → w.phase = .erase →
          exec (.resumeExpiry stuck) s = exec .eraseExpiry go) ∧
        (x.late = false → w.remaining = 0 → w.phase = .program →
          exec (.resumeExpiry stuck) s = exec (.programExpiry stuck) go)) ∧
      (∀ (n : SlotNo) (x : Countdown), hears s = true → w.job.slot? ≠ some n → w.resume = some x →
        x.left = 0 →
        ∃ t, exec (.slotRead (BitVec.ofNat 16 n.val)) s = .next t ∧
          t.smc = (as' (some { left := 1600, late := true })).smc ∧
          exec (.resumeExpiry stuck) t = .next { t with
            smc := (as' (some { left := 1600, late := false })).smc })

/-- R161 to R164, R136, R37, R62, R141: SLOT READ answers the slot's 128 bytes, as stored or, of the
write's own target, as the write will leave it, under the code of their readout; PATCH RECALL loads a
VALID one into the part's buffer, its flag cleared, its takeover records re-armed, its notes let go by a
change of key mode, and its voices recomputed. A read of another slot suspends the write for 0.2 ms. -/
def Obligations.SlotReadAndRecallReadTheSlot : Prop :=
  ∀ (s : State) (n : SlotNo), hears s = true →
    let own := ∃ w, s.smc.write = some w ∧ w.job.slot? = some n
    ∃ (bytes : List Byte) (t : State),
      (s.smc.write = none ∨ own → t = s) ∧
      (∀ w, s.smc.write = some w → ¬ own →
        t = { s with smc := { s.smc with
          write := some { w with resume := some (restart w.resume 1600) } } }) ∧
      (¬ own → bytes.length = 128 ∧
        ∀ a, a < 128 → bytes.getD a 0 = memRead s.smc.slots (128 * n.val + a)) ∧
      (∀ w img, s.smc.write = some w → w.job = .store n img ∨ w.job = .write n img → bytes = img) ∧
      (∀ w, s.smc.write = some w → w.job = .clear n → bytes = List.replicate 128 0xFF) ∧
      (readout bytes = .erased ↔ bytes.getD 0 0 = 0xFF) ∧
      ((∃ x, readout bytes = .valid x) ↔
        bytes.getD 0 0 = 0x3F ∧ bytes.getD 1 0 = 0x01 ∧ imageCheckOk bytes = true) ∧
      exec (.slotRead (BitVec.ofNat 16 n.val)) s =
        .next (taken (.slotRead (BitVec.ofNat 16 n.val))
          ((match readout bytes with
          | .valid _ => 0x00
          | .erased => 0x05
          | .damaged => 0x06) :: bytes) t) ∧
      ∀ p : Part,
        let c : Instr := .patchRecall (BitVec.ofNat 16 n.val) (partByte p)
        (readout bytes = .erased → exec c s = .next (taken c [0x05] t)) ∧
        (readout bytes = .damaged → exec c s = .next (taken c [0x06] t)) ∧
        (∀ x, readout bytes = .valid x → VoiceLaw s → SoloLaw s →
          ∃ u, exec c s = .next (taken c [0x00] (kick u)) ∧
            (∀ q, u.buffer q =
              if q = p then { patch := x, modified := false } else s.buffer q) ∧
            (∀ i, u.takeover i p = reArmed (s.potEntry i) (s.pot i).stable x) ∧
            (∀ i q, q ≠ p → u.takeover i q = s.takeover i q) ∧
            ((s.patch p).keyMode = x.keyMode → NotesStand s u ∧ u.cvo = s.cvo) ∧
            ((s.patch p).keyMode ≠ x.keyMode → PartReleased s u p (x.releaseMs * 8000)) ∧
            (∀ v, u.glide v = { s.glide v with
              target := (s.glide v).target + pitchMove s u v
              pos := (s.glide v).pos + pitchMove s u v }) ∧
            (∀ i, pitchPart s (sourceVoice i) = p → look u.ptu.codes i = (chain u i).1 ∧
              look (u.voice (sourceVoice i)).clamp (sourceIdx i) = (chain u i).2) ∧
            (∀ i, pitchPart s (sourceVoice i) ≠ p → look u.ptu.codes i = look s.ptu.codes i ∧
              look (u.voice (sourceVoice i)).clamp (sourceIdx i) =
                look (s.voice (sourceVoice i)).clamp (sourceIdx i)) ∧
            u.ebu.potMap = s.ebu.potMap ∧ u.ebu.switchMap = s.ebu.switchMap ∧
            u.ebu.focus = s.ebu.focus ∧ u.smc = t.smc ∧
            { u with val := s.val, ptu := s.ptu, ebu := s.ebu, smc := s.smc, cvo := s.cvo } = s ∧
            { u.cvo with gaps := s.cvo.gaps } = s.cvo ∧
            { u.ptu with glide := s.ptu.glide, codes := s.ptu.codes } = s.ptu)

/-! ## The Tune Engine -/

/-- R81, R82, R24, R65, R83: TUNE ADD takes its pairs in voice and source order, adds those not in the
plan at its tail, upgrades BG entries asked as FG in their places, answers how many and the plan's length,
and in mode FG claims their voices: TUNING and foreground, a park reason kept, cut from every list, and
with no failure counted against them since. -/
def Obligations.TuneAddJoinsAndClaims : Prop :=
  ∀ (s : State) (voices : BitVec 16) (sources : Fin 8) (mode : EntryMode), hears s = true →
    VoiceLaw s → SoloLaw s → GapLaw s → PlanLaw s →
    let c : Instr := .tuneAdd voices (b1 sources.val) (if mode = .fg then 0 else 1)
    let asked := fun (v : VoiceNo) (i : SourceIdx) =>
      voices.getLsbD v.val && (b1 sources.val).getLsbD i.val
    let pairs := (List.finRange 16).flatMap fun v =>
      ((List.finRange 3).filter (asked v)).map fun i => ({ voice := v, src := i, mode } : Entry)
    let new := pairs.filter fun e => !inPlan s e.voice e.src
    let raised := s.tne.plan.filter fun e => mode == .fg && e.mode == .bg && asked e.voice e.src
    let plan := (s.tne.plan.map fun e =>
      if mode = .fg ∧ asked e.voice e.src = true then { e with mode := .fg } else e) ++ new
    let claimed := (List.finRange 16).filter fun v => mode == .fg && !(s.status v).isFgTuning &&
      (new ++ raised).any fun e => e.voice == v
    ∃ u, exec c s =
        .next (taken c [0x00, b1 new.length, b1 raised.length, b1 plan.length] (kick u)) ∧
      { u.tne with failed := s.tne.failed } = { s.tne with plan := plan } ∧ plan.length ≤ 48 ∧
      (∀ v, inSet u.tne.failed v = (inSet s.tne.failed v && decide (v ∉ claimed))) ∧
      NoteFrame { s with tne := u.tne } u ∧ u.psc = s.psc ∧ u.cvo.trial = s.cvo.trial ∧
      (∀ v, v ∉ claimed → u.voice v = s.voice v ∧ look u.cvo.gaps v = look s.cvo.gaps v) ∧
      (∀ v, v ∈ claimed → look u.cvo.gaps v = none ∧
        u.voice v = { s.voice v with
          status := .tuning true (s.status v).reason?, clamp := (u.voice v).clamp }) ∧
      (∀ p v, (∃ h, (u.part p).solo = some h ∧ inSet h v = true) ↔
        v ∉ claimed ∧ ∃ g, (s.part p).solo = some g ∧ inSet g v = true) ∧
      (∀ p h, (u.part p).solo = some h → h ≠ 0) ∧
      u.val.seed = s.val.seed ∧ { u.ptu with codes := s.ptu.codes } = s.ptu ∧
      u.val.freeList = s.val.freeList.filter (fun v => v ∉ claimed) ∧
      u.val.releaseOrder = s.val.releaseOrder.filter (fun v => v ∉ claimed) ∧
      (∀ p, u.val.startOrder.get p = (s.val.startOrder.get p).filter (fun v => v ∉ claimed)) ∧
      (∀ p, { u.part p with solo := (s.part p).solo } = s.part p) ∧
      (∀ n, sourceVoice n ∈ claimed → look u.ptu.codes n = (chain u n).1 ∧
        look (u.voice (sourceVoice n)).clamp (sourceIdx n) = (chain u n).2) ∧
      (∀ n, sourceVoice n ∉ claimed → look u.ptu.codes n = look s.ptu.codes n)

/-- R84 to R90, R102, R110: RUN, HALT and STEP set the mode, STEP alone asking for HALT and an idle
engine; CANCEL empties the plan, stops the measurement with its bus or request given up, and returns
every TUNING voice, in ascending voice order, to PARKED where it was tuned-while-parked, else to FREE;
no mark is set. What a change of mode makes runnable is begun: the current entry, else the first entry
of a foreground-tuning voice, else of the background-tuning voice, else the first BG entry of a FREE
voice, which is claimed; it starts at breakpoint 4 with the committed C_4, on the bus or waiting. -/
def Obligations.TuneControlSetsTheModeAndWorkIsChosenInOrder : Prop :=
  (∀ s : State, hears s = true →
    exec (.tuneControlRun 0) s =
      .next (taken (.tuneControlRun 0) [0x00] (kick { s with tne := { s.tne with mode := .run } })) ∧
    exec .tuneControlHalt s =
      .next (taken .tuneControlHalt [0x00] { s with tne := { s.tne with mode := .halt } }) ∧
    (s.tne.mode = .halt → s.tne.activity = .idle → exec .tuneControlStep s =
      .next (taken .tuneControlStep [0x00] (kick { s with tne := { s.tne with mode := .step } }))) ∧
    (s.tne.mode ≠ .halt ∨ s.tne.activity ≠ .idle → exec .tuneControlStep s =
      .next (taken .tuneControlStep [0x0C] s)) ∧
    (VoiceLaw s → SoloLaw s → BusLaw s → ∃ t,
      exec .tuneControlCancel s = .next (taken .tuneControlCancel [0x00] t) ∧
      t.tne = { plan := [], mode := .halt, activity := .idle, current := none, lastM := none,
                failed := 0 } ∧
      t.cvo.trial = none ∧ t.psc.holder ≠ some .engine ∧ t.psc.engineWaits = false ∧
      (s.psc.holder ≠ some .engine → t.psc = { s.psc with engineWaits := false }) ∧
      (s.psc.holder = some .engine → s.psc.scannerWaits = true → t.psc = { s.psc with
        holder := some .scanner, lastHolder := some .scanner, scannerWaits := false, addr := 0,
        phase := .scanning 160 }) ∧
      (s.psc.holder = some .engine → s.psc.scannerWaits = false →
        t.psc = { s.psc with holder := none }) ∧
      (∀ v, t.status v = match s.status v with
        | .tuning _ none => .free
        | .tuning _ (some r) => .parked r
        | x => x) ∧
      (∀ v, (s.status v).isTuning = false → t.voice v = s.voice v) ∧
      t.val.freeList = s.val.freeList ++ (List.finRange 16).filter (fun v =>
        (s.status v).isTuning && (s.status v).reason?.isNone) ∧
      t.val.startOrder = s.val.startOrder ∧ t.val.releaseOrder = s.val.releaseOrder ∧
      t.val.parts = s.val.parts ∧ t.val.seed = s.val.seed ∧
      { t.ptu with codes := s.ptu.codes } = s.ptu ∧ t.cal = s.cal ∧ t.ebu = s.ebu ∧
      t.smc = s.smc ∧ t.lnk = s.lnk ∧
      { t.cvo with trial := s.cvo.trial, gaps := s.cvo.gaps } = s.cvo)) ∧
  (∀ s : State,
    (s.tne.mode = .halt ∨ s.tne.activity ≠ .idle → kick s = s) ∧
    (s.tne.mode ≠ .halt → s.tne.activity = .idle →
      let t := kick s
      let fg := fun (e : Entry) => (s.status e.voice).isFgTuning
      let bg := fun (e : Entry) => (s.status e.voice).isBgTuning
      let free := fun (e : Entry) => e.mode == .bg && (s.status e.voice).isFree
      let begun := fun (v : VoiceNo) =>
        (s.psc.holder = none → t.tne.activity = .settling 16000 ∧ t.psc = { s.psc with
          holder := some .engine, lastHolder := some .engine, engineWaits := false,
          addr := v }) ∧
        (s.psc.holder ≠ none → t.tne.activity = .busWait ∧
          t.psc = { s.psc with engineWaits := true })
      (∀ c, s.tne.current = some c → begun c.voice ∧
        { t with psc := s.psc, tne := { t.tne with activity := .idle } } = s) ∧
      (s.tne.current = none → (∀ e ∈ s.tne.plan, (fg e || bg e || free e) = false) → t = s) ∧
      (s.tne.current = none → (∃ e ∈ s.tne.plan, (fg e || bg e || free e) = true) →
        ∃ (e : Entry) (before after : List Entry), s.tne.plan = before ++ e :: after ∧
          (fg e = true ∧ (∀ x ∈ before, fg x = false) ∨
           bg e = true ∧ (∀ x ∈ s.tne.plan, fg x = false) ∧ (∀ x ∈ before, bg x = false) ∨
           free e = true ∧ (∀ x ∈ s.tne.plan, fg x = false ∧ bg x = false) ∧
            (∀ x ∈ before, free x = false)) ∧
          begun e.voice ∧ t.tne.current = some
            { voice := e.voice, src := e.src, k := 4, iter := 0,
              trial := look (s.record (sourceNo e.voice e.src)).codes 4,
              work := Vector.replicate 9 none } ∧
          TrialLaw t ∧
          { t.tne with activity := .idle, current := none } = s.tne ∧
          (∀ w, w ≠ e.voice → t.voice w = s.voice w) ∧
          (free e = false → t.val = s.val ∧ t.ptu = s.ptu) ∧
          (free e = true → t.status e.voice = .tuning false none ∧
            t.val.freeList = s.val.freeList.filter (fun v => v ≠ e.voice) ∧
            ∀ n, sourceVoice n = e.voice →
              look t.ptu.codes n = (toCode (s.record n).codes 69000).1) ∧
          t.cal = s.cal ∧ t.ebu = s.ebu ∧ t.smc = s.smc ∧ t.lnk = s.lnk)))

/-- R92 to R100: the N_k-th selected edge after the first ends the measurement with its count, at most 2T;
an edge past the window's end finds a slow gate, at 2T. Within 17 ticks of T the breakpoint converges and the search
goes on to the next of 4, 5, 6, 7, 8, 3, 2, 1, 0 from the code the committed record predicts, or the entry succeeds,
unless the code is out of order; a count further off corrects the trial code by RHAZ of the difference
times the gain over 65536, at least 1 either way, or fails the entry at an end of the range or at its
sixth measurement. Then the engine goes on by mode. That an edge is given by the ticks from now to it, and
the count so by the capture counter and those ticks, is the model's choice (log 4, DESIGN CHOICE). -/
def Obligations.GateCloseAppliesTheSearch : Prop :=
  ∀ (s : State) (e : Edge) (w n edges ticks : Nat) (c : Current), s.run = .running → VoiceLaw s →
    SoloLaw s → PlanLaw s → BusLaw s → RecordsLaw s →
    s.tne.activity = .gating e w (some { count := n, edges := edges }) →
    s.tne.current = some c → edges + 1 = 2 ^ c.k.val ∨ w < ticks →
    let m := if ticks ≤ w then min (n + ticks) 581818 else 581818
    let d : Int := (m : Int) - 290909
    let near := -17 ≤ d ∧ d ≤ 17
    let gain := if c.src = 2 then s.cal.settings.fltGain else s.cal.settings.oscGain
    let round := rhaz (d * gain) 65536
    let delta := if round ≠ 0 then round else if 0 < d then 1 else -1
    let spent := c.trial = 65535 ∧ 0 < delta ∨ c.trial = 0 ∧ delta < 0
    let ordered := ∀ j y, look c.work j = some y →
      (4 < c.k.val → j.val + 1 = c.k.val → y < c.trial) ∧
      (c.k.val < 4 → j.val = c.k.val + 1 → c.trial < y)
    let code := fun (j : Fin 9) => ((look (s.record c.source).codes j : Nat) : Int)
    let work := put c.work c.k (some c.trial)
    ∃ u, exec (.gateClose e ticks) s = .next (kick u) ∧ MeasurementOver s u (some m) ∧
      (near → ordered → c.k ≠ 0 → EntryGoesOn s u ∧ ∃ (k : Fin 9) (trial : Nat),
        rank k = rank c.k + 1 ∧
        (∀ j y, look work j = some y → (if 4 < k.val then j.val + 1 = k.val else j.val = k.val + 1) →
          (trial : Int) = max 0 (min 65535 (y + code k - code j))) ∧
        u.tne.current = some { c with k := k, iter := 0, trial := trial, work := work }) ∧
      (near → ordered → c.k = 0 →
        ∃ codes, (∀ j, look work j = some (look codes j)) ∧ EntrySucceeds s u c codes) ∧
      (near → ¬ ordered → EntryFails s u c .nonMonotonic) ∧
      (¬ near → spent → EntryFails s u c .outOfRange) ∧
      (¬ near → ¬ spent → c.iter = 5 → EntryFails s u c .notConverged) ∧
      (¬ near → ¬ spent → c.iter < 5 → EntryGoesOn s u ∧
        u.tne.current = some { c with
          iter := c.iter + 1
          trial := (max 0 (min 65535 ((c.trial : Int) + delta))).toNat })

/-- R91 to R93, R100, R101: SETTLING EXPIRY begins GATING with the edge of the source's class and a window
of 80 ms; a first edge of that kind starts the capture counter, another edge does nothing; a selected edge
within the window that is not yet the N_k-th after the first is counted; the window's expiry ends a
counting gate as an edge past it does, and without a first edge fails the entry with NO SIGNAL,
which with auto-park on parks the voice and removes its entries. That GATE CLOSE stands for each edge after
the first, with the ticks from now to it, so that an edge before the N_k-th is counted and leaves capture
counter and window alone, and one of more ticks than the window has left is too late, is the model's choice
(log 4, DESIGN CHOICE). That these events change nothing where they find another activity or capture is
the model's choice too (log 3, DEDUCED). -/
def Obligations.GateWindowJudgesTheSignal : Prop :=
  ∀ (s : State) (c : Current), s.run = .running → s.tne.current = some c →
    (∀ x, s.tne.activity = .settling x →
      let edge := if c.src = 2 then s.cal.settings.fltEdge else s.cal.settings.oscEdge
      exec .settlingExpiry s =
        .next { s with tne := { s.tne with activity := .gating edge 640000 none } }) ∧
    (∀ e w, s.tne.activity = .gating e w none →
      exec (.firstProbeEdge e) s =
        .next { s with tne := { s.tne with
          activity := .gating e w (some { count := 0, edges := 0 }) } } ∧
      (∀ x, x ≠ e → exec (.firstProbeEdge x) s = .next s) ∧
      (∀ x ticks, exec (.gateClose x ticks) s = .next s)) ∧
    (∀ e w n, s.tne.activity = .gating e w (some n) →
      (∀ x, exec (.firstProbeEdge x) s = .next s) ∧
      (∀ x ticks, x ≠ e → exec (.gateClose x ticks) s = .next s) ∧
      (∀ ticks, ticks ≤ w → n.edges + 1 < 2 ^ c.k.val → exec (.gateClose e ticks) s =
        .next { s with tne := { s.tne with
          activity := .gating e w (some { n with edges := n.edges + 1 }) } }) ∧
      (∀ ticks, w < ticks → exec .gateWindowExpiry s = exec (.gateClose e ticks) s)) ∧
    (∀ e w, s.tne.activity = .gating e w none → VoiceLaw s → SoloLaw s → PlanLaw s → BusLaw s →
      ∃ u, exec .gateWindowExpiry s = .next (kick u) ∧ MeasurementOver s u none ∧
        (s.cal.settings.autoPark = false → EntryFails s u c .noSignal) ∧
        (s.cal.settings.autoPark = true →
          EntryEnds s u c (s.tne.plan.filter fun x => x.voice ≠ c.voice) (.parked .noSignal)
            [.tuneFailed c.source, .voiceParked c.voice] ∧
          u.record c.source = { s.record c.source with status := .failed .noSignal } ∧
          u.tne.failed = setDrop s.tne.failed c.voice)) ∧
    (s.tne.activity = .idle ∨ s.tne.activity = .busWait → exec .settlingExpiry s = .next s ∧
      exec .gateWindowExpiry s = .next s ∧ (∀ x, exec (.firstProbeEdge x) s = .next s) ∧
      ∀ x ticks, exec (.gateClose x ticks) s = .next s)

/-- R72, R73: MINUTE EVENT starts the next 60 s and adds 1 to every age, up to 255; then, with a retune
interval, it adds a BG entry at the plan's tail, in ascending source order, for each source that has
reached it, is not in the plan and whose voice is in service. No other state changes. -/
def Obligations.MinuteEventAgesAndRetunes : Prop :=
  ∀ s : State, s.run = .running →
    let due := fun (n : SourceNo) => s.cal.settings.retune ≠ 0 ∧
      s.cal.settings.retune ≤ min 255 ((s.record n).age + 1) ∧
      (s.status (sourceVoice n)).reason? = none ∧
      ∀ e ∈ s.tne.plan, ¬(e.voice = sourceVoice n ∧ e.src = sourceIdx n)
    ∃ (added : List SourceNo) (records : Vector SourceRec 48),
      (∀ n, n ∈ added ↔ due n) ∧ added.Pairwise (· < ·) ∧
      (∀ n, look records n = { s.record n with age := min 255 ((s.record n).age + 1) }) ∧
      exec .minuteEvent s = .next (kick { s with
        cal := { s.cal with records := records, minute := 480000000 }
        tne := { s.tne with plan := s.tne.plan ++ added.map fun n =>
          { voice := sourceVoice n, src := sourceIdx n, mode := .bg } } })

/-! ## The panel, the edit buffers and the output -/

/-- R106 to R113, R118 to R120, R123: SWEEP TIMER EXPIRY starts a sweep of the selected profile's groups,
or leaves a start pending during one; SCAN SAMPLE reads the pot or switch that group and address name and
goes on to the next address, and after address 15 to the next group or the end of the sweep, the bus
given to the engine where it waits (log 18: what a sample makes runnable is chosen first). A pot's first
reading sets its stable value; a later one moves the accumulator by the floor of the difference over
2^shift, never past the sample, and reports a value beyond the deadband or at an end of the travel; a
switch changes at the third reading that differs. That a sample outside a group visit changes nothing is
the model's choice (log 3, DEDUCED). -/
def Obligations.ScanVisitsEachAddressOfEachGroup : Prop :=
  ∀ s : State, s.run = .running →
    let started := fun (s : State) =>
      let name : ProfileName := if s.tne.activity = .idle then .normal else .tune
      let sched := if s.tne.activity = .idle then s.psc.normal else s.psc.tune
      let groups :=
        ([0, 1, 2, 3, 4, 5, 9, 10] : List (Fin 11)).filter fun g => sched.mask.getLsbD g.val
      let x : Psc := { s.psc with
        inUse := name, sweepTimer := some (sched.interval * 8000), startPending := false,
        groups := groups, phase := .resting }
      { s with psc :=
          if groups = [] then x
          else if s.psc.holder = none then
            { x with
              holder := some .scanner, lastHolder := some .scanner, scannerWaits := false,
              addr := 0, phase := .scanning 160 }
          else { x with scannerWaits := true, phase := .busWait } }
    let ended := fun (u : State) (rest : List (Fin 11)) =>
      let freed : State :=
        if u.psc.engineWaits then
          { u with
            psc := { u.psc with
              holder := some .engine, lastHolder := some .engine, engineWaits := false,
              addr := match u.tne.current with
                | some c => c.voice
                | none => u.psc.addr }
            tne := { u.tne with activity := .settling 16000 } }
        else { u with psc := { u.psc with holder := none } }
      let x : State := { freed with psc := { freed.psc with groups := rest, phase := .resting } }
      if rest = [] then (if u.psc.startPending then started x else x)
      else if u.psc.engineWaits then
        { x with psc := { x.psc with scannerWaits := true, phase := .busWait } }
      else { x with psc := { x.psc with
        holder := some .scanner, lastHolder := some .scanner, scannerWaits := false, addr := 0,
        phase := .scanning 160 } }
    let onward := fun (u : State) (rest : List (Fin 11)) =>
      if h : u.psc.addr.val < 15 then
        { u with psc := { u.psc with addr := ⟨u.psc.addr.val + 1, by omega⟩, phase := .scanning 160 } }
      else ended u rest
    (s.psc.phase = .resting → exec .sweepTimerExpiry s = .next (started s)) ∧
    (s.psc.phase ≠ .resting → exec .sweepTimerExpiry s =
      .next { s with psc := { s.psc with sweepTimer := none, startPending := true } }) ∧
    (∀ x b, s.psc.phase = .resting ∨ s.psc.phase = .busWait →
      exec (.scanSample x b) s = .next s) ∧
    (∀ (x : BitVec 12) (low : Bool) (left : Nat) (g : Fin 11) (rest : List (Fin 11)), BusLaw s →
      s.psc.phase = .scanning left → s.psc.groups = g :: rest →
      let c : Instr := .scanSample x (!low)
      (∀ q : PotNo, q.val = 16 * g.val + s.psc.addr.val →
        ((s.pot q).stable = none →
          exec c s = .next (onward (kick (firstReading q (s.setPot q { s.pot q with
            acc := 16 * x.toNat
            stable := some (min 1023 ((16 * x.toNat + 32) / 64)) }))) rest)) ∧
        (∀ k₀, (s.pot q).stable = some k₀ →
          let prof := look s.psc.profiles (s.pot q).slot
          ∃ acc : Nat,
            (acc : Int) = (s.pot q).acc +
              (16 * (x.toNat : Int) - (s.pot q).acc) / ((2 ^ prof.shift : Nat) : Int) ∧
            ((s.pot q).acc ≤ acc ∧ acc ≤ 16 * x.toNat ∨
              16 * x.toNat ≤ acc ∧ acc ≤ (s.pot q).acc) ∧
            let k₁ := min 1023 ((acc + 32) / 64)
            (k₀ + prof.deadband < k₁ ∨ k₁ + prof.deadband < k₀ ∨
                ((k₁ = 0 ∨ k₁ = 1023) ∧ k₁ ≠ k₀) →
              exec c s = .next (onward (kick (stableChange q k₀ k₁
                (s.setPot q { s.pot q with acc := acc, stable := some k₁ }))) rest)) ∧
            (¬(k₀ + prof.deadband < k₁ ∨ k₁ + prof.deadband < k₀ ∨
                ((k₁ = 0 ∨ k₁ = 1023) ∧ k₁ ≠ k₀)) →
              exec c s =
                .next (onward (kick (s.setPot q { s.pot q with acc := acc })) rest)))) ∧
      (∀ n : SwitchNo, n.val + 144 = 16 * g.val + s.psc.addr.val →
        let r := look s.psc.switches n
        (low = r.closed → exec c s = .next (onward (kick (s.setSwitch n { r with run := 0 })) rest)) ∧
        (low ≠ r.closed → r.run < 2 →
          exec c s = .next (onward (kick (s.setSwitch n { r with run := r.run + 1 })) rest)) ∧
        (low ≠ r.closed → 2 ≤ r.run →
          exec c s = .next (onward (kick (switchChange n low
            (s.setSwitch n { closed := low, run := 0 }))) rest))))

/-- R129, R130, R134, R141: a parameter write stores the value, clamped to 1023, sets the modified flag on
a change, re-arms every record of the part whose pot names the parameter but the writer's own, sets
PARAM CHANGED on a panel's change, and gives an engine parameter its effect at once: 64 lets the notes go
on a change of key mode, 71 and 74 to 77 recompute the part's voices, 78 moves their notes too; nothing
else changes. PARAM WRITE is such a write by the host and answers the value stored. -/
def Obligations.ParameterWriteStoresAndTakesEffect : Prop :=
  (∀ (s : State) (w : Writer) (p : Part) (n : ParamNo) (value : Nat),
    let x := min 1023 value
    let old := (s.patch p).param n
    let t := writeParam w p n value s
    let recomputed :=
      (∀ i, pitchPart s (sourceVoice i) = p → look t.ptu.codes i = (chain t i).1) ∧
      (∀ i, pitchPart s (sourceVoice i) ≠ p → look t.ptu.codes i = look s.ptu.codes i) ∧
      NotesStand s t ∧ t.cvo = s.cvo
    (∀ q, t.buffer q =
      if q = p then
        { patch := { s.patch p with params := put (s.patch p).params n x }
          modified := (s.buffer p).modified || decide (x ≠ old) }
      else s.buffer q) ∧
    (∀ (i : PotNo) q,
      ((q = p ∧ w ≠ .pot i ∧ ∃ l, (s.potEntry i).link = some l ∧ l.param = n) →
        t.takeover i q = reArmed (s.potEntry i) (s.pot i).stable (t.patch p)) ∧
      (¬(q = p ∧ w ≠ .pot i ∧ ∃ l, (s.potEntry i).link = some l ∧ l.param = n) →
        t.takeover i q = s.takeover i q)) ∧
    { t.ebu with buffers := s.ebu.buffers, takeover := s.ebu.takeover } = s.ebu ∧
    t.lnk = (if x ≠ old ∧ w ≠ .host then
      { s.lnk with notices := s.lnk.notices.set (.paramChanged p n) } else s.lnk) ∧
    { t with val := s.val, ptu := s.ptu, ebu := s.ebu, cvo := s.cvo, lnk := s.lnk } = s ∧
    { t.cvo with gaps := s.cvo.gaps } = s.cvo ∧
    { t.ptu with glide := s.ptu.glide, codes := s.ptu.codes } = s.ptu ∧
    (x = old ∨ n.val ∉ [64, 71, 74, 75, 76, 77, 78] →
      t.val = s.val ∧ t.ptu = s.ptu ∧ t.cvo = s.cvo) ∧
    (n.val = 64 → t.ptu = s.ptu ∧
      ((t.patch p).keyMode = (s.patch p).keyMode → t.val = s.val ∧ t.cvo = s.cvo) ∧
      ((t.patch p).keyMode ≠ (s.patch p).keyMode → VoiceLaw s → SoloLaw s →
        PartReleased s t p ((s.patch p).releaseMs * 8000) ∧
        ∀ v, { t.voice v with status := (s.voice v).status } = s.voice v)) ∧
    (x ≠ old → n.val ∈ [71, 74, 75, 76, 77] → recomputed ∧ t.ptu.glide = s.ptu.glide) ∧
    (x ≠ old → n.val = 78 → recomputed ∧
      ∀ v, t.glide v = { s.glide v with
        target := (s.glide v).target + pitchMove s t v
        pos := (s.glide v).pos + pitchMove s t v })) ∧
  (∀ (s : State) (p : Part) (n : ParamNo) (value : BitVec 16), hears s = true →
    let c : Instr := .paramWrite (partByte p) (b1 n.val) value
    exec c s = .next (taken c (0x00 :: Frame.two (BitVec.ofNat 16 (min 1023 value.toNat)))
      (kick (writeParam .host p n value.toNat s))))

/-- R139, R141 to R147: a stable change writes the parameter of each part reached, A before B, by the
state of its takeover record, and re-arms the record of a part not reached; a SCALING record moves the
value in proportion to the travel left until it meets the pot; an unmapped pot 80..95 sets POT MOVED. A
first reading re-arms both records. A press of a STEP switch writes the middle of the next step, a press
of a FOCUS switch sets the focus, and a HOST ONLY switch sets SWITCH at press and release. -/
def Obligations.PanelMovesTheMappedParameter : Prop :=
  (∀ (s : State) (q : PotNo) (k₀ k₁ : Nat) (p : Part),
    let t := stableChangeAt q k₀ k₁ s p
    let reached := fun (x : Target) => x = .both ∨ (x = .a ∧ p = .A) ∨ (x = .b ∧ p = .B) ∨
      (x = .focus ∧ (s.ebu.focus = .both ∨ (s.ebu.focus = .a ∧ p = .A) ∨
        (s.ebu.focus = .b ∧ p = .B)))
    ((∀ l, (s.potEntry q).link = some l → ¬ reached l.target) →
      t.takeover q p = reArmed (s.potEntry q) (s.pot q).stable (s.patch p) ∧
      (∀ i r, i ≠ q ∨ r ≠ p → t.takeover i r = s.takeover i r) ∧
      { t with ebu := { t.ebu with takeover := s.ebu.takeover } } = s) ∧
    (∀ l, (s.potEntry q).link = some l → reached l.target →
      let p₀ := (s.patch p).param l.param
      let caught := (writeParam (.pot q) p l.param k₁ s).setTakeover q p .caught
      (s.takeover q p = .caught ∨ s.takeover q p = .jumpPending → t = caught) ∧
      (s.takeover q p = .waitAbove → t = if p₀ ≤ k₁ then caught else s) ∧
      (s.takeover q p = .waitBelow → t = if k₁ ≤ p₀ then caught else s) ∧
      (s.takeover q p = .scaling → k₀ ≤ 1023 → k₁ ≤ 1023 → k₀ ≠ k₁ →
        let p₁ := if k₀ < k₁ then p₀ + (1023 - p₀) * (k₁ - k₀) / (1023 - k₀)
          else p₀ - p₀ * (k₀ - k₁) / k₀
        (p₁ = k₁ ∨ (k₀ < p₀ ∧ p₁ < k₁) ∨ (p₀ < k₀ ∧ k₁ < p₁) → t = caught) ∧
        (¬(p₁ = k₁ ∨ (k₀ < p₀ ∧ p₁ < k₁) ∨ (p₀ < k₀ ∧ k₁ < p₁)) →
          t = if p₁ = p₀ then s else writeParam (.pot q) p l.param p₁ s)))) ∧
  (∀ (s : State) (q : PotNo) (k₀ k₁ : Nat),
    let both := stableChangeAt q k₀ k₁ (stableChangeAt q k₀ k₁ s .A) .B
    (∀ i : Fin 16, q.val = 80 + i.val → (s.potEntry q).link = none →
      stableChange q k₀ k₁ s = both.mark (.potMoved i)) ∧
    (q.val < 80 ∨ (s.potEntry q).link ≠ none → stableChange q k₀ k₁ s = both) ∧
    let t := firstReading q s
    (∀ p, t.takeover q p = reArmed (s.potEntry q) (s.pot q).stable (s.patch p)) ∧
    (∀ i p, i ≠ q → t.takeover i p = s.takeover i p) ∧
    { t with ebu := { t.ebu with takeover := s.ebu.takeover } } = s) ∧
  (∀ (s : State) (n : SwitchNo) (pressed : Bool),
    (look s.ebu.switchMap n = .hostOnly → switchChange n pressed s = s.mark (.switch n)) ∧
    (∀ f, look s.ebu.switchMap n = .focus f → switchChange n pressed s =
      if pressed then { s with ebu := { s.ebu with focus := f } } else s) ∧
    (∀ tg i count, look s.ebu.switchMap n = .step tg i count →
      switchChange n false s = s ∧
      switchChange n true s = stepAt tg i count (stepAt tg i count s .A) .B ∧
      ∀ p, 1 ≤ count →
        let v := (s.patch p).param i
        let next := (v * count / 1024 + 1) % count
        (tg.reaches s.ebu.focus p = false → stepAt tg i count s p = s) ∧
        (tg.reaches s.ebu.focus p = true → stepAt tg i count s p =
          writeParam .step p i ((2 * next + 1) * 1024 / (2 * count)) s)))

/-- R175 to R178: REFRESH WRITE presents the next channel's source as the state stands, a trial code in
place of a source under measurement, forms the 24 bits it shifts out, and goes on to the next of 128
channels 3.75 us later; nothing else changes. R1, R180, R181: the lines GATE, MUTE and TUNE of a voice
follow its state by R1's table, GATE closed during a retrigger gap. R106, R91: no strobe is asserted while
the bus is free; the scanner strobes the scan group it visits, never a probe group, and the engine probe
group 6 + s of its current entry. In reset every line and strobe is deasserted. -/
def Obligations.RefreshWritePresentsTheNextChannel : Prop :=
  (∀ (s : State) (v : VoiceNo),
    (gateOpen s v, muteAsserted s v, tuneAsserted s v) = (match s.status v with
      | .free => (false, false, false)
      | .bound _ .held => (decide (look s.cvo.gaps v = none), false, false)
      | .bound _ .sustained => (decide (look s.cvo.gaps v = none), false, false)
      | .bound _ (.releasing _) => (false, false, false)
      | .bound _ (.muting _) => (false, true, false)
      | .tuning _ _ => (false, true, true)
      | .parked _ => (false, true, false)) ∧
    (s.run ≠ .running → ResetLaw s →
      gateOpen s v = false ∧ muteAsserted s v = false ∧ tuneAsserted s v = false ∧
        strobe s = none ∧ attn s = false)) ∧
  (∀ s : State, BusLaw s → PlanLaw s → ScanLaw s →
    (s.psc.holder = none → strobe s = none) ∧
    (s.psc.holder = some .scanner → ∃ g rest, s.psc.groups = g :: rest ∧ strobe s = some g ∧
      g ∉ ([6, 7, 8] : List (Fin 11))) ∧
    (s.psc.holder = some .engine → ∃ c g, s.tne.current = some c ∧ strobe s = some g ∧
      g.val = 6 + c.src.val)) ∧
  ∀ s : State, s.run = .running → ∃ (code : Nat) (trial : Bool),
    exec .refreshWrite s = .next { s with cvo := { s.cvo with
      presented := put s.cvo.presented s.cvo.next code
      trialMark := put s.cvo.trialMark s.cvo.next trial
      shifted := BitVec.ofNat 24 (s.cvo.next.val * 65536 +
        if s.cvo.next.val < 48 then code else code * 16)
      next := ⟨(s.cvo.next.val + 1) % 128, Nat.mod_lt _ (by decide)⟩
      refresh := 30 } } ∧
    match look s.cvo.route s.cvo.next with
    | .pitch n =>
      (∀ x, s.cvo.trial = some { source := n, code := x } → code = x ∧ trial = true) ∧
      ((∀ x, s.cvo.trial ≠ some { source := n, code := x }) →
        code = look s.ptu.codes n ∧ trial = false)
    | .velocity v => trial = false ∧
      (∀ n ph, s.status v = .bound n ph → code = 32 * n.velocity + n.velocity / 4) ∧
      ((∀ n ph, s.status v ≠ .bound n ph) → code = 0)
    | .pressure v => trial = false ∧
      (∀ n ph, s.status v = .bound n ph → code = 32 * n.pressure + n.pressure / 4) ∧
      ((∀ n ph, s.status v ≠ .bound n ph) → code = 0)
    | .param p n => trial = false ∧
      ∀ m : ParamNo, m.val = n.val → code = 4 * (s.patch p).param m + (s.patch p).param m / 256
    | .control p .bend => trial = false ∧ code = (((s.part p).bend + 8192) / 4).toNat
    | .control p .mod => trial = false ∧ code = 4 * (s.part p).mod + (s.part p).mod / 256
    | .control p .pressure => trial = false ∧
      code = 32 * (s.part p).pressure + (s.part p).pressure / 4
    | .control p .expression => trial = false ∧
      code = 4 * (s.part p).expression + (s.part p).expression / 256
    | .zero => code = 0 ∧ trial = false

/-! ## What no step breaks -/

/-- R3, R31: every voice stays on exactly the lists of its state, and a solo group stays a group of
voices of one part, on one key, with distinct unison indices. -/
def Obligations.StepsKeepVoiceListsAndSoloGroups : Prop :=
  Kept fun s => VoiceLaw s ∧ SoloLaw s

/-- R28, R39, R2, R4, R7, R42, R128: no step leaves a held-key list with a key twice or over 16 keys, a
retrigger gap of a voice that is neither HELD nor SUSTAINED, or an allocator field outside its range. -/
def Obligations.StepsKeepHeldKeysGapsAndRanges : Prop :=
  Kept HeldKeysLaw ∧ Kept GapLaw ∧ Kept fun s => AllocatorRanges s ∧ BufferLaw s ∧ HeldKeysLaw s

/-- R45, R61, R64, R65: every source code and clamp flag stays what the chain of arithmetic gives. -/
def Obligations.StepsKeepEverySourceCodeCurrent : Prop := Kept CodesLaw

/-- R41, R43, R44, R46, R49, R53: a glide's target stays the note pitch of its key, with an update due
exactly while the position differs, the override map stays in order and small, and master pitch and
scale offsets stay in range. -/
def Obligations.StepsKeepGlidesAndPitchMaps : Prop :=
  (Kept fun s => GlideLaw s ∧ GlideTimerLaw s) ∧ Kept OverrideLaw ∧ Kept PitchRanges

/-- R67, R70, R72, R76, R83, R97: committed codes stay strictly rising in 0..65535, with the work copy on
its way to them and what a load or a program phase brings back; ages and tune settings stay in range. The
codes of a record change only by the commit of its source's last breakpoint, which leaves it TUNED with age
0, or by a load; and (the model's choice, log 10) a reset shows the nominal codes before its load. -/
def Obligations.StepsKeepRecordsRising : Prop :=
  Kept RecordsLaw ∧ Kept CalRanges ∧
  ∀ (s t : State) (n : SourceNo), step s = .next t → (t.record n).codes ≠ (s.record n).codes →
    ∃ (front : Instr) (rest : List Instr), s.pending = front :: rest ∧
      ((∃ e ticks c, front = .gateClose e ticks ∧ s.tne.current = some c ∧ c.source = n ∧
          c.k = 0 ∧ (t.record n).status = .tuned ∧ (t.record n).age = 0) ∨
        front = .resetExit ∨ front = .powerOnReset ∨ front = .pinReset)

/-- R1, R80, R82 to R86, R100, R102, R103, R177: the plan never holds a pair twice or over 48 entries, a
TUNING voice has an entry, at most one voice is background-tuning, the current entry is in the plan, the
trial code override follows it, and outside HALT the engine never idles with work it could do. R92, R93: a
gate's window and capture counter stay in range, and it ends before more than N_k edges have followed the
first. -/
def Obligations.StepsKeepThePlanAndItsVoices : Prop :=
  (Kept fun s => PlanLaw s ∧ BusLaw s) ∧ Kept TrialLaw ∧ Kept EagerLaw ∧ Kept GateLaw

/-- R92, R107 to R112: the select bus has one holder, which the engine's activity and the scanner's phase
name; a requester waits only while the other holds; a sweep timer runs while the scanner rests. R106: a
sweep visits scan groups alone. -/
def Obligations.StepsKeepTheSelectBus : Prop := Kept BusLaw ∧ Kept ScanLaw

/-- R115, R116, R120, R123, R128, R137, R140: pot, smoothing and switch records and both edit buffers stay
in range, a pot names its map entry's slot, and a CAUGHT record's parameter equals its pot's value. -/
def Obligations.StepsKeepPanelAndBuffers : Prop :=
  Kept PanelRanges ∧ Kept BufferLaw ∧ Kept SlotLaw ∧ Kept CaughtLaw

/-- R152, R155, R173, R175 to R177, R195: the slot memory keeps its canonical form (log 6), a write's
target keeps the state byte of its phase, a route keeps to its channel's class, every code presented stays
in its channel's range, and in reset every block keeps its reset values. Of these, the records, damaged
indicator and guard before the load (log 10), the time to the first refresh write (log 11), the DAC bits
(log 15) and the profile in use and the sweep timer before the first sweep (log 19) are the model's choice
(DESIGN CHOICE). -/
def Obligations.StepsKeepMemoryOutputAndReset : Prop :=
  Kept MemoryLaw ∧ Kept WriteLaw ∧ Kept RouteLaw ∧ Kept CodeRange ∧ Kept ResetLaw ∧
  Kept fun s => PresentedLaw s ∧ CodeRange s ∧ TrialLaw s ∧ RecordsLaw s ∧ AllocatorRanges s ∧
    BufferLaw s ∧ HeldKeysLaw s ∧ RouteLaw s

end
end

