-- ==== Sys2Proof/Laws/State.lean ====
section
/-! SUPPORT. One lemma for each field under each update of the state, true by unfolding, so that no proof
unfolds a record update. -/

namespace Sys2Proof.Machine

@[simp] theorem State.setVoice_pending (s : State) (v : VoiceNo) (x : Voice) :
    (s.setVoice v x).pending = s.pending := rfl
@[simp] theorem State.setVoice_run (s : State) (v : VoiceNo) (x : Voice) :
    (s.setVoice v x).run = s.run := rfl
@[simp] theorem State.setVoice_free (s : State) (v : VoiceNo) (x : Voice) :
    (s.setVoice v x).free = s.free := rfl
@[simp] theorem State.setVoice_val (s : State) (v : VoiceNo) (x : Voice) :
    (s.setVoice v x).val = { s.val with voices := put s.val.voices v x } := rfl
@[simp] theorem State.setVoice_ptu (s : State) (v : VoiceNo) (x : Voice) :
    (s.setVoice v x).ptu = s.ptu := rfl
@[simp] theorem State.setVoice_cal (s : State) (v : VoiceNo) (x : Voice) :
    (s.setVoice v x).cal = s.cal := rfl
@[simp] theorem State.setVoice_tne (s : State) (v : VoiceNo) (x : Voice) :
    (s.setVoice v x).tne = s.tne := rfl
@[simp] theorem State.setVoice_psc (s : State) (v : VoiceNo) (x : Voice) :
    (s.setVoice v x).psc = s.psc := rfl
@[simp] theorem State.setVoice_ebu (s : State) (v : VoiceNo) (x : Voice) :
    (s.setVoice v x).ebu = s.ebu := rfl
@[simp] theorem State.setVoice_smc (s : State) (v : VoiceNo) (x : Voice) :
    (s.setVoice v x).smc = s.smc := rfl
@[simp] theorem State.setVoice_cvo (s : State) (v : VoiceNo) (x : Voice) :
    (s.setVoice v x).cvo = s.cvo := rfl
@[simp] theorem State.setVoice_lnk (s : State) (v : VoiceNo) (x : Voice) :
    (s.setVoice v x).lnk = s.lnk := rfl

@[simp] theorem State.setStatus_pending (s : State) (v : VoiceNo) (x : VoiceStatus) :
    (s.setStatus v x).pending = s.pending := rfl
@[simp] theorem State.setStatus_run (s : State) (v : VoiceNo) (x : VoiceStatus) :
    (s.setStatus v x).run = s.run := rfl
@[simp] theorem State.setStatus_free (s : State) (v : VoiceNo) (x : VoiceStatus) :
    (s.setStatus v x).free = s.free := rfl
@[simp] theorem State.setStatus_val (s : State) (v : VoiceNo) (x : VoiceStatus) :
    (s.setStatus v x).val =
      { s.val with voices := put s.val.voices v { s.voice v with status := x } } := rfl
@[simp] theorem State.setStatus_ptu (s : State) (v : VoiceNo) (x : VoiceStatus) :
    (s.setStatus v x).ptu = s.ptu := rfl
@[simp] theorem State.setStatus_cal (s : State) (v : VoiceNo) (x : VoiceStatus) :
    (s.setStatus v x).cal = s.cal := rfl
@[simp] theorem State.setStatus_tne (s : State) (v : VoiceNo) (x : VoiceStatus) :
    (s.setStatus v x).tne = s.tne := rfl
@[simp] theorem State.setStatus_psc (s : State) (v : VoiceNo) (x : VoiceStatus) :
    (s.setStatus v x).psc = s.psc := rfl
@[simp] theorem State.setStatus_ebu (s : State) (v : VoiceNo) (x : VoiceStatus) :
    (s.setStatus v x).ebu = s.ebu := rfl
@[simp] theorem State.setStatus_smc (s : State) (v : VoiceNo) (x : VoiceStatus) :
    (s.setStatus v x).smc = s.smc := rfl
@[simp] theorem State.setStatus_cvo (s : State) (v : VoiceNo) (x : VoiceStatus) :
    (s.setStatus v x).cvo = s.cvo := rfl
@[simp] theorem State.setStatus_lnk (s : State) (v : VoiceNo) (x : VoiceStatus) :
    (s.setStatus v x).lnk = s.lnk := rfl

@[simp] theorem State.modPart_pending (s : State) (p : Part) (f : PartRec → PartRec) :
    (s.modPart p f).pending = s.pending := rfl
@[simp] theorem State.modPart_run (s : State) (p : Part) (f : PartRec → PartRec) :
    (s.modPart p f).run = s.run := rfl
@[simp] theorem State.modPart_free (s : State) (p : Part) (f : PartRec → PartRec) :
    (s.modPart p f).free = s.free := rfl
@[simp] theorem State.modPart_val (s : State) (p : Part) (f : PartRec → PartRec) :
    (s.modPart p f).val = { s.val with parts := s.val.parts.modify p f } := rfl
@[simp] theorem State.modPart_ptu (s : State) (p : Part) (f : PartRec → PartRec) :
    (s.modPart p f).ptu = s.ptu := rfl
@[simp] theorem State.modPart_cal (s : State) (p : Part) (f : PartRec → PartRec) :
    (s.modPart p f).cal = s.cal := rfl
@[simp] theorem State.modPart_tne (s : State) (p : Part) (f : PartRec → PartRec) :
    (s.modPart p f).tne = s.tne := rfl
@[simp] theorem State.modPart_psc (s : State) (p : Part) (f : PartRec → PartRec) :
    (s.modPart p f).psc = s.psc := rfl
@[simp] theorem State.modPart_ebu (s : State) (p : Part) (f : PartRec → PartRec) :
    (s.modPart p f).ebu = s.ebu := rfl
@[simp] theorem State.modPart_smc (s : State) (p : Part) (f : PartRec → PartRec) :
    (s.modPart p f).smc = s.smc := rfl
@[simp] theorem State.modPart_cvo (s : State) (p : Part) (f : PartRec → PartRec) :
    (s.modPart p f).cvo = s.cvo := rfl
@[simp] theorem State.modPart_lnk (s : State) (p : Part) (f : PartRec → PartRec) :
    (s.modPart p f).lnk = s.lnk := rfl

@[simp] theorem State.setFreeList_pending (s : State) (l : List VoiceNo) :
    (s.setFreeList l).pending = s.pending := rfl
@[simp] theorem State.setFreeList_run (s : State) (l : List VoiceNo) :
    (s.setFreeList l).run = s.run := rfl
@[simp] theorem State.setFreeList_free (s : State) (l : List VoiceNo) :
    (s.setFreeList l).free = s.free := rfl
@[simp] theorem State.setFreeList_val (s : State) (l : List VoiceNo) :
    (s.setFreeList l).val = { s.val with freeList := l } := rfl
@[simp] theorem State.setFreeList_ptu (s : State) (l : List VoiceNo) :
    (s.setFreeList l).ptu = s.ptu := rfl
@[simp] theorem State.setFreeList_cal (s : State) (l : List VoiceNo) :
    (s.setFreeList l).cal = s.cal := rfl
@[simp] theorem State.setFreeList_tne (s : State) (l : List VoiceNo) :
    (s.setFreeList l).tne = s.tne := rfl
@[simp] theorem State.setFreeList_psc (s : State) (l : List VoiceNo) :
    (s.setFreeList l).psc = s.psc := rfl
@[simp] theorem State.setFreeList_ebu (s : State) (l : List VoiceNo) :
    (s.setFreeList l).ebu = s.ebu := rfl
@[simp] theorem State.setFreeList_smc (s : State) (l : List VoiceNo) :
    (s.setFreeList l).smc = s.smc := rfl
@[simp] theorem State.setFreeList_cvo (s : State) (l : List VoiceNo) :
    (s.setFreeList l).cvo = s.cvo := rfl
@[simp] theorem State.setFreeList_lnk (s : State) (l : List VoiceNo) :
    (s.setFreeList l).lnk = s.lnk := rfl

@[simp] theorem State.setStartOrder_pending (s : State) (p : Part) (l : List VoiceNo) :
    (s.setStartOrder p l).pending = s.pending := rfl
@[simp] theorem State.setStartOrder_run (s : State) (p : Part) (l : List VoiceNo) :
    (s.setStartOrder p l).run = s.run := rfl
@[simp] theorem State.setStartOrder_free (s : State) (p : Part) (l : List VoiceNo) :
    (s.setStartOrder p l).free = s.free := rfl
@[simp] theorem State.setStartOrder_val (s : State) (p : Part) (l : List VoiceNo) :
    (s.setStartOrder p l).val = { s.val with startOrder := s.val.startOrder.set p l } := rfl
@[simp] theorem State.setStartOrder_ptu (s : State) (p : Part) (l : List VoiceNo) :
    (s.setStartOrder p l).ptu = s.ptu := rfl
@[simp] theorem State.setStartOrder_cal (s : State) (p : Part) (l : List VoiceNo) :
    (s.setStartOrder p l).cal = s.cal := rfl
@[simp] theorem State.setStartOrder_tne (s : State) (p : Part) (l : List VoiceNo) :
    (s.setStartOrder p l).tne = s.tne := rfl
@[simp] theorem State.setStartOrder_psc (s : State) (p : Part) (l : List VoiceNo) :
    (s.setStartOrder p l).psc = s.psc := rfl
@[simp] theorem State.setStartOrder_ebu (s : State) (p : Part) (l : List VoiceNo) :
    (s.setStartOrder p l).ebu = s.ebu := rfl
@[simp] theorem State.setStartOrder_smc (s : State) (p : Part) (l : List VoiceNo) :
    (s.setStartOrder p l).smc = s.smc := rfl
@[simp] theorem State.setStartOrder_cvo (s : State) (p : Part) (l : List VoiceNo) :
    (s.setStartOrder p l).cvo = s.cvo := rfl
@[simp] theorem State.setStartOrder_lnk (s : State) (p : Part) (l : List VoiceNo) :
    (s.setStartOrder p l).lnk = s.lnk := rfl

@[simp] theorem State.setReleaseOrder_pending (s : State) (l : List VoiceNo) :
    (s.setReleaseOrder l).pending = s.pending := rfl
@[simp] theorem State.setReleaseOrder_run (s : State) (l : List VoiceNo) :
    (s.setReleaseOrder l).run = s.run := rfl
@[simp] theorem State.setReleaseOrder_free (s : State) (l : List VoiceNo) :
    (s.setReleaseOrder l).free = s.free := rfl
@[simp] theorem State.setReleaseOrder_val (s : State) (l : List VoiceNo) :
    (s.setReleaseOrder l).val = { s.val with releaseOrder := l } := rfl
@[simp] theorem State.setReleaseOrder_ptu (s : State) (l : List VoiceNo) :
    (s.setReleaseOrder l).ptu = s.ptu := rfl
@[simp] theorem State.setReleaseOrder_cal (s : State) (l : List VoiceNo) :
    (s.setReleaseOrder l).cal = s.cal := rfl
@[simp] theorem State.setReleaseOrder_tne (s : State) (l : List VoiceNo) :
    (s.setReleaseOrder l).tne = s.tne := rfl
@[simp] theorem State.setReleaseOrder_psc (s : State) (l : List VoiceNo) :
    (s.setReleaseOrder l).psc = s.psc := rfl
@[simp] theorem State.setReleaseOrder_ebu (s : State) (l : List VoiceNo) :
    (s.setReleaseOrder l).ebu = s.ebu := rfl
@[simp] theorem State.setReleaseOrder_smc (s : State) (l : List VoiceNo) :
    (s.setReleaseOrder l).smc = s.smc := rfl
@[simp] theorem State.setReleaseOrder_cvo (s : State) (l : List VoiceNo) :
    (s.setReleaseOrder l).cvo = s.cvo := rfl
@[simp] theorem State.setReleaseOrder_lnk (s : State) (l : List VoiceNo) :
    (s.setReleaseOrder l).lnk = s.lnk := rfl

@[simp] theorem State.setGap_pending (s : State) (v : VoiceNo) (t : Option Countdown) :
    (s.setGap v t).pending = s.pending := rfl
@[simp] theorem State.setGap_run (s : State) (v : VoiceNo) (t : Option Countdown) :
    (s.setGap v t).run = s.run := rfl
@[simp] theorem State.setGap_free (s : State) (v : VoiceNo) (t : Option Countdown) :
    (s.setGap v t).free = s.free := rfl
@[simp] theorem State.setGap_val (s : State) (v : VoiceNo) (t : Option Countdown) :
    (s.setGap v t).val = s.val := rfl
@[simp] theorem State.setGap_ptu (s : State) (v : VoiceNo) (t : Option Countdown) :
    (s.setGap v t).ptu = s.ptu := rfl
@[simp] theorem State.setGap_cal (s : State) (v : VoiceNo) (t : Option Countdown) :
    (s.setGap v t).cal = s.cal := rfl
@[simp] theorem State.setGap_tne (s : State) (v : VoiceNo) (t : Option Countdown) :
    (s.setGap v t).tne = s.tne := rfl
@[simp] theorem State.setGap_psc (s : State) (v : VoiceNo) (t : Option Countdown) :
    (s.setGap v t).psc = s.psc := rfl
@[simp] theorem State.setGap_ebu (s : State) (v : VoiceNo) (t : Option Countdown) :
    (s.setGap v t).ebu = s.ebu := rfl
@[simp] theorem State.setGap_smc (s : State) (v : VoiceNo) (t : Option Countdown) :
    (s.setGap v t).smc = s.smc := rfl
@[simp] theorem State.setGap_cvo (s : State) (v : VoiceNo) (t : Option Countdown) :
    (s.setGap v t).cvo = { s.cvo with gaps := put s.cvo.gaps v t } := rfl
@[simp] theorem State.setGap_lnk (s : State) (v : VoiceNo) (t : Option Countdown) :
    (s.setGap v t).lnk = s.lnk := rfl

@[simp] theorem State.detach_pending (s : State) (v : VoiceNo) :
    (s.detach v).pending = s.pending := rfl
@[simp] theorem State.detach_run (s : State) (v : VoiceNo) : (s.detach v).run = s.run := rfl
@[simp] theorem State.detach_free (s : State) (v : VoiceNo) : (s.detach v).free = s.free := rfl
@[simp] theorem State.detach_ptu (s : State) (v : VoiceNo) : (s.detach v).ptu = s.ptu := rfl
@[simp] theorem State.detach_cal (s : State) (v : VoiceNo) : (s.detach v).cal = s.cal := rfl
@[simp] theorem State.detach_tne (s : State) (v : VoiceNo) : (s.detach v).tne = s.tne := rfl
@[simp] theorem State.detach_psc (s : State) (v : VoiceNo) : (s.detach v).psc = s.psc := rfl
@[simp] theorem State.detach_ebu (s : State) (v : VoiceNo) : (s.detach v).ebu = s.ebu := rfl
@[simp] theorem State.detach_smc (s : State) (v : VoiceNo) : (s.detach v).smc = s.smc := rfl
@[simp] theorem State.detach_cvo (s : State) (v : VoiceNo) :
    (s.detach v).cvo = { s.cvo with gaps := put s.cvo.gaps v none } := rfl
@[simp] theorem State.detach_lnk (s : State) (v : VoiceNo) : (s.detach v).lnk = s.lnk := rfl

@[simp] theorem State.setKeys_pending (s : State) (p : Part) (l : List Nat) :
    (s.setKeys p l).pending = s.pending := rfl
@[simp] theorem State.setKeys_run (s : State) (p : Part) (l : List Nat) :
    (s.setKeys p l).run = s.run := rfl
@[simp] theorem State.setKeys_free (s : State) (p : Part) (l : List Nat) :
    (s.setKeys p l).free = s.free := rfl
@[simp] theorem State.setKeys_val (s : State) (p : Part) (l : List Nat) :
    (s.setKeys p l).val =
      { s.val with parts := s.val.parts.modify p fun x => { x with heldKeys := l } } := rfl
@[simp] theorem State.setKeys_ptu (s : State) (p : Part) (l : List Nat) :
    (s.setKeys p l).ptu = s.ptu := rfl
@[simp] theorem State.setKeys_cal (s : State) (p : Part) (l : List Nat) :
    (s.setKeys p l).cal = s.cal := rfl
@[simp] theorem State.setKeys_tne (s : State) (p : Part) (l : List Nat) :
    (s.setKeys p l).tne = s.tne := rfl
@[simp] theorem State.setKeys_psc (s : State) (p : Part) (l : List Nat) :
    (s.setKeys p l).psc = s.psc := rfl
@[simp] theorem State.setKeys_ebu (s : State) (p : Part) (l : List Nat) :
    (s.setKeys p l).ebu = s.ebu := rfl
@[simp] theorem State.setKeys_smc (s : State) (p : Part) (l : List Nat) :
    (s.setKeys p l).smc = s.smc := rfl
@[simp] theorem State.setKeys_cvo (s : State) (p : Part) (l : List Nat) :
    (s.setKeys p l).cvo = s.cvo := rfl
@[simp] theorem State.setKeys_lnk (s : State) (p : Part) (l : List Nat) :
    (s.setKeys p l).lnk = s.lnk := rfl

@[simp] theorem State.setSolo_pending (s : State) (p : Part) (g : Option VoiceSet) :
    (s.setSolo p g).pending = s.pending := rfl
@[simp] theorem State.setSolo_run (s : State) (p : Part) (g : Option VoiceSet) :
    (s.setSolo p g).run = s.run := rfl
@[simp] theorem State.setSolo_free (s : State) (p : Part) (g : Option VoiceSet) :
    (s.setSolo p g).free = s.free := rfl
@[simp] theorem State.setSolo_val (s : State) (p : Part) (g : Option VoiceSet) :
    (s.setSolo p g).val =
      { s.val with parts := s.val.parts.modify p fun x => { x with solo := g } } := rfl
@[simp] theorem State.setSolo_ptu (s : State) (p : Part) (g : Option VoiceSet) :
    (s.setSolo p g).ptu = s.ptu := rfl
@[simp] theorem State.setSolo_cal (s : State) (p : Part) (g : Option VoiceSet) :
    (s.setSolo p g).cal = s.cal := rfl
@[simp] theorem State.setSolo_tne (s : State) (p : Part) (g : Option VoiceSet) :
    (s.setSolo p g).tne = s.tne := rfl
@[simp] theorem State.setSolo_psc (s : State) (p : Part) (g : Option VoiceSet) :
    (s.setSolo p g).psc = s.psc := rfl
@[simp] theorem State.setSolo_ebu (s : State) (p : Part) (g : Option VoiceSet) :
    (s.setSolo p g).ebu = s.ebu := rfl
@[simp] theorem State.setSolo_smc (s : State) (p : Part) (g : Option VoiceSet) :
    (s.setSolo p g).smc = s.smc := rfl
@[simp] theorem State.setSolo_cvo (s : State) (p : Part) (g : Option VoiceSet) :
    (s.setSolo p g).cvo = s.cvo := rfl
@[simp] theorem State.setSolo_lnk (s : State) (p : Part) (g : Option VoiceSet) :
    (s.setSolo p g).lnk = s.lnk := rfl

@[simp] theorem State.mark_pending (s : State) (m : Mark) : (s.mark m).pending = s.pending := rfl
@[simp] theorem State.mark_run (s : State) (m : Mark) : (s.mark m).run = s.run := rfl
@[simp] theorem State.mark_free (s : State) (m : Mark) : (s.mark m).free = s.free := rfl
@[simp] theorem State.mark_val (s : State) (m : Mark) : (s.mark m).val = s.val := rfl
@[simp] theorem State.mark_ptu (s : State) (m : Mark) : (s.mark m).ptu = s.ptu := rfl
@[simp] theorem State.mark_cal (s : State) (m : Mark) : (s.mark m).cal = s.cal := rfl
@[simp] theorem State.mark_tne (s : State) (m : Mark) : (s.mark m).tne = s.tne := rfl
@[simp] theorem State.mark_psc (s : State) (m : Mark) : (s.mark m).psc = s.psc := rfl
@[simp] theorem State.mark_ebu (s : State) (m : Mark) : (s.mark m).ebu = s.ebu := rfl
@[simp] theorem State.mark_smc (s : State) (m : Mark) : (s.mark m).smc = s.smc := rfl
@[simp] theorem State.mark_cvo (s : State) (m : Mark) : (s.mark m).cvo = s.cvo := rfl
@[simp] theorem State.mark_lnk (s : State) (m : Mark) :
    (s.mark m).lnk = { s.lnk with notices := s.lnk.notices.set m } := rfl

@[simp] theorem State.setGlide_pending (s : State) (v : VoiceNo) (g : Glide) :
    (s.setGlide v g).pending = s.pending := rfl
@[simp] theorem State.setGlide_run (s : State) (v : VoiceNo) (g : Glide) :
    (s.setGlide v g).run = s.run := rfl
@[simp] theorem State.setGlide_free (s : State) (v : VoiceNo) (g : Glide) :
    (s.setGlide v g).free = s.free := rfl
@[simp] theorem State.setGlide_val (s : State) (v : VoiceNo) (g : Glide) :
    (s.setGlide v g).val = s.val := rfl
@[simp] theorem State.setGlide_ptu (s : State) (v : VoiceNo) (g : Glide) :
    (s.setGlide v g).ptu = { s.ptu with glide := put s.ptu.glide v g } := rfl
@[simp] theorem State.setGlide_cal (s : State) (v : VoiceNo) (g : Glide) :
    (s.setGlide v g).cal = s.cal := rfl
@[simp] theorem State.setGlide_tne (s : State) (v : VoiceNo) (g : Glide) :
    (s.setGlide v g).tne = s.tne := rfl
@[simp] theorem State.setGlide_psc (s : State) (v : VoiceNo) (g : Glide) :
    (s.setGlide v g).psc = s.psc := rfl
@[simp] theorem State.setGlide_ebu (s : State) (v : VoiceNo) (g : Glide) :
    (s.setGlide v g).ebu = s.ebu := rfl
@[simp] theorem State.setGlide_smc (s : State) (v : VoiceNo) (g : Glide) :
    (s.setGlide v g).smc = s.smc := rfl
@[simp] theorem State.setGlide_cvo (s : State) (v : VoiceNo) (g : Glide) :
    (s.setGlide v g).cvo = s.cvo := rfl
@[simp] theorem State.setGlide_lnk (s : State) (v : VoiceNo) (g : Glide) :
    (s.setGlide v g).lnk = s.lnk := rfl

@[simp] theorem setUnison_pending (s : State) (v : VoiceNo) (p : Part) :
    (setUnison v p s).pending = s.pending := rfl
@[simp] theorem setUnison_run (s : State) (v : VoiceNo) (p : Part) :
    (setUnison v p s).run = s.run := rfl
@[simp] theorem setUnison_free (s : State) (v : VoiceNo) (p : Part) :
    (setUnison v p s).free = s.free := rfl
@[simp] theorem setUnison_val (s : State) (v : VoiceNo) (p : Part) :
    (setUnison v p s).val = s.val := rfl
@[simp] theorem setUnison_cal (s : State) (v : VoiceNo) (p : Part) :
    (setUnison v p s).cal = s.cal := rfl
@[simp] theorem setUnison_tne (s : State) (v : VoiceNo) (p : Part) :
    (setUnison v p s).tne = s.tne := rfl
@[simp] theorem setUnison_psc (s : State) (v : VoiceNo) (p : Part) :
    (setUnison v p s).psc = s.psc := rfl
@[simp] theorem setUnison_ebu (s : State) (v : VoiceNo) (p : Part) :
    (setUnison v p s).ebu = s.ebu := rfl
@[simp] theorem setUnison_smc (s : State) (v : VoiceNo) (p : Part) :
    (setUnison v p s).smc = s.smc := rfl
@[simp] theorem setUnison_cvo (s : State) (v : VoiceNo) (p : Part) :
    (setUnison v p s).cvo = s.cvo := rfl
@[simp] theorem setUnison_lnk (s : State) (v : VoiceNo) (p : Part) :
    (setUnison v p s).lnk = s.lnk := rfl

@[simp] theorem recompute_pending (s : State) (sel : SourceNo → Bool) :
    (recompute sel s).pending = s.pending := rfl
@[simp] theorem recompute_run (s : State) (sel : SourceNo → Bool) :
    (recompute sel s).run = s.run := rfl
@[simp] theorem recompute_free (s : State) (sel : SourceNo → Bool) :
    (recompute sel s).free = s.free := rfl
@[simp] theorem recompute_cal (s : State) (sel : SourceNo → Bool) :
    (recompute sel s).cal = s.cal := rfl
@[simp] theorem recompute_tne (s : State) (sel : SourceNo → Bool) :
    (recompute sel s).tne = s.tne := rfl
@[simp] theorem recompute_psc (s : State) (sel : SourceNo → Bool) :
    (recompute sel s).psc = s.psc := rfl
@[simp] theorem recompute_ebu (s : State) (sel : SourceNo → Bool) :
    (recompute sel s).ebu = s.ebu := rfl
@[simp] theorem recompute_smc (s : State) (sel : SourceNo → Bool) :
    (recompute sel s).smc = s.smc := rfl
@[simp] theorem recompute_cvo (s : State) (sel : SourceNo → Bool) :
    (recompute sel s).cvo = s.cvo := rfl
@[simp] theorem recompute_lnk (s : State) (sel : SourceNo → Bool) :
    (recompute sel s).lnk = s.lnk := rfl

@[simp] theorem recomputeVoice_pending (s : State) (v : VoiceNo) :
    (recomputeVoice v s).pending = s.pending := rfl
@[simp] theorem recomputeVoice_run (s : State) (v : VoiceNo) :
    (recomputeVoice v s).run = s.run := rfl
@[simp] theorem recomputeVoice_free (s : State) (v : VoiceNo) :
    (recomputeVoice v s).free = s.free := rfl
@[simp] theorem recomputeVoice_cal (s : State) (v : VoiceNo) :
    (recomputeVoice v s).cal = s.cal := rfl
@[simp] theorem recomputeVoice_tne (s : State) (v : VoiceNo) :
    (recomputeVoice v s).tne = s.tne := rfl
@[simp] theorem recomputeVoice_psc (s : State) (v : VoiceNo) :
    (recomputeVoice v s).psc = s.psc := rfl
@[simp] theorem recomputeVoice_ebu (s : State) (v : VoiceNo) :
    (recomputeVoice v s).ebu = s.ebu := rfl
@[simp] theorem recomputeVoice_smc (s : State) (v : VoiceNo) :
    (recomputeVoice v s).smc = s.smc := rfl
@[simp] theorem recomputeVoice_cvo (s : State) (v : VoiceNo) :
    (recomputeVoice v s).cvo = s.cvo := rfl
@[simp] theorem recomputeVoice_lnk (s : State) (v : VoiceNo) :
    (recomputeVoice v s).lnk = s.lnk := rfl

@[simp] theorem recomputePart_pending (s : State) (p : Part) :
    (recomputePart p s).pending = s.pending := rfl
@[simp] theorem recomputePart_run (s : State) (p : Part) : (recomputePart p s).run = s.run := rfl
@[simp] theorem recomputePart_free (s : State) (p : Part) : (recomputePart p s).free = s.free := rfl
@[simp] theorem recomputePart_cal (s : State) (p : Part) : (recomputePart p s).cal = s.cal := rfl
@[simp] theorem recomputePart_tne (s : State) (p : Part) : (recomputePart p s).tne = s.tne := rfl
@[simp] theorem recomputePart_psc (s : State) (p : Part) : (recomputePart p s).psc = s.psc := rfl
@[simp] theorem recomputePart_ebu (s : State) (p : Part) : (recomputePart p s).ebu = s.ebu := rfl
@[simp] theorem recomputePart_smc (s : State) (p : Part) : (recomputePart p s).smc = s.smc := rfl
@[simp] theorem recomputePart_cvo (s : State) (p : Part) : (recomputePart p s).cvo = s.cvo := rfl
@[simp] theorem recomputePart_lnk (s : State) (p : Part) : (recomputePart p s).lnk = s.lnk := rfl

@[simp] theorem recomputeAll_pending (s : State) : (recomputeAll s).pending = s.pending := rfl
@[simp] theorem recomputeAll_run (s : State) : (recomputeAll s).run = s.run := rfl
@[simp] theorem recomputeAll_free (s : State) : (recomputeAll s).free = s.free := rfl
@[simp] theorem recomputeAll_cal (s : State) : (recomputeAll s).cal = s.cal := rfl
@[simp] theorem recomputeAll_tne (s : State) : (recomputeAll s).tne = s.tne := rfl
@[simp] theorem recomputeAll_psc (s : State) : (recomputeAll s).psc = s.psc := rfl
@[simp] theorem recomputeAll_ebu (s : State) : (recomputeAll s).ebu = s.ebu := rfl
@[simp] theorem recomputeAll_smc (s : State) : (recomputeAll s).smc = s.smc := rfl
@[simp] theorem recomputeAll_cvo (s : State) : (recomputeAll s).cvo = s.cvo := rfl
@[simp] theorem recomputeAll_lnk (s : State) : (recomputeAll s).lnk = s.lnk := rfl

@[simp] theorem handOver_pending (s : State) (v : VoiceNo) (p : Part) (key : Nat) (another : Bool) :
    (handOver v p key another s).pending = s.pending := rfl
@[simp] theorem handOver_run (s : State) (v : VoiceNo) (p : Part) (key : Nat) (another : Bool) :
    (handOver v p key another s).run = s.run := rfl
@[simp] theorem handOver_free (s : State) (v : VoiceNo) (p : Part) (key : Nat) (another : Bool) :
    (handOver v p key another s).free = s.free := rfl
@[simp] theorem handOver_cal (s : State) (v : VoiceNo) (p : Part) (key : Nat) (another : Bool) :
    (handOver v p key another s).cal = s.cal := rfl
@[simp] theorem handOver_tne (s : State) (v : VoiceNo) (p : Part) (key : Nat) (another : Bool) :
    (handOver v p key another s).tne = s.tne := rfl
@[simp] theorem handOver_psc (s : State) (v : VoiceNo) (p : Part) (key : Nat) (another : Bool) :
    (handOver v p key another s).psc = s.psc := rfl
@[simp] theorem handOver_ebu (s : State) (v : VoiceNo) (p : Part) (key : Nat) (another : Bool) :
    (handOver v p key another s).ebu = s.ebu := rfl
@[simp] theorem handOver_smc (s : State) (v : VoiceNo) (p : Part) (key : Nat) (another : Bool) :
    (handOver v p key another s).smc = s.smc := rfl
@[simp] theorem handOver_cvo (s : State) (v : VoiceNo) (p : Part) (key : Nat) (another : Bool) :
    (handOver v p key another s).cvo = s.cvo := rfl
@[simp] theorem handOver_lnk (s : State) (v : VoiceNo) (p : Part) (key : Nat) (another : Bool) :
    (handOver v p key another s).lnk = s.lnk := rfl

@[simp] theorem State.setPsc_pending (s : State) (x : Psc) : (s.setPsc x).pending = s.pending := rfl
@[simp] theorem State.setPsc_run (s : State) (x : Psc) : (s.setPsc x).run = s.run := rfl
@[simp] theorem State.setPsc_free (s : State) (x : Psc) : (s.setPsc x).free = s.free := rfl
@[simp] theorem State.setPsc_val (s : State) (x : Psc) : (s.setPsc x).val = s.val := rfl
@[simp] theorem State.setPsc_ptu (s : State) (x : Psc) : (s.setPsc x).ptu = s.ptu := rfl
@[simp] theorem State.setPsc_cal (s : State) (x : Psc) : (s.setPsc x).cal = s.cal := rfl
@[simp] theorem State.setPsc_tne (s : State) (x : Psc) : (s.setPsc x).tne = s.tne := rfl
@[simp] theorem State.setPsc_psc (s : State) (x : Psc) : (s.setPsc x).psc = x := rfl
@[simp] theorem State.setPsc_ebu (s : State) (x : Psc) : (s.setPsc x).ebu = s.ebu := rfl
@[simp] theorem State.setPsc_smc (s : State) (x : Psc) : (s.setPsc x).smc = s.smc := rfl
@[simp] theorem State.setPsc_cvo (s : State) (x : Psc) : (s.setPsc x).cvo = s.cvo := rfl
@[simp] theorem State.setPsc_lnk (s : State) (x : Psc) : (s.setPsc x).lnk = s.lnk := rfl

@[simp] theorem State.setActivity_pending (s : State) (a : Activity) :
    (s.setActivity a).pending = s.pending := rfl
@[simp] theorem State.setActivity_run (s : State) (a : Activity) :
    (s.setActivity a).run = s.run := rfl
@[simp] theorem State.setActivity_free (s : State) (a : Activity) :
    (s.setActivity a).free = s.free := rfl
@[simp] theorem State.setActivity_val (s : State) (a : Activity) :
    (s.setActivity a).val = s.val := rfl
@[simp] theorem State.setActivity_ptu (s : State) (a : Activity) :
    (s.setActivity a).ptu = s.ptu := rfl
@[simp] theorem State.setActivity_cal (s : State) (a : Activity) :
    (s.setActivity a).cal = s.cal := rfl
@[simp] theorem State.setActivity_tne (s : State) (a : Activity) :
    (s.setActivity a).tne = { s.tne with activity := a } := rfl
@[simp] theorem State.setActivity_psc (s : State) (a : Activity) :
    (s.setActivity a).psc = s.psc := rfl
@[simp] theorem State.setActivity_ebu (s : State) (a : Activity) :
    (s.setActivity a).ebu = s.ebu := rfl
@[simp] theorem State.setActivity_smc (s : State) (a : Activity) :
    (s.setActivity a).smc = s.smc := rfl
@[simp] theorem State.setActivity_cvo (s : State) (a : Activity) :
    (s.setActivity a).cvo = s.cvo := rfl
@[simp] theorem State.setActivity_lnk (s : State) (a : Activity) :
    (s.setActivity a).lnk = s.lnk := rfl

@[simp] theorem State.setTne_pending (s : State) (x : Tne) : (s.setTne x).pending = s.pending := rfl
@[simp] theorem State.setTne_run (s : State) (x : Tne) : (s.setTne x).run = s.run := rfl
@[simp] theorem State.setTne_free (s : State) (x : Tne) : (s.setTne x).free = s.free := rfl
@[simp] theorem State.setTne_val (s : State) (x : Tne) : (s.setTne x).val = s.val := rfl
@[simp] theorem State.setTne_ptu (s : State) (x : Tne) : (s.setTne x).ptu = s.ptu := rfl
@[simp] theorem State.setTne_cal (s : State) (x : Tne) : (s.setTne x).cal = s.cal := rfl
@[simp] theorem State.setTne_tne (s : State) (x : Tne) : (s.setTne x).tne = x := rfl
@[simp] theorem State.setTne_psc (s : State) (x : Tne) : (s.setTne x).psc = s.psc := rfl
@[simp] theorem State.setTne_ebu (s : State) (x : Tne) : (s.setTne x).ebu = s.ebu := rfl
@[simp] theorem State.setTne_smc (s : State) (x : Tne) : (s.setTne x).smc = s.smc := rfl
@[simp] theorem State.setTne_cvo (s : State) (x : Tne) : (s.setTne x).cvo = s.cvo := rfl
@[simp] theorem State.setTne_lnk (s : State) (x : Tne) : (s.setTne x).lnk = s.lnk := rfl

@[simp] theorem State.setRecord_pending (s : State) (n : SourceNo) (r : SourceRec) :
    (s.setRecord n r).pending = s.pending := rfl
@[simp] theorem State.setRecord_run (s : State) (n : SourceNo) (r : SourceRec) :
    (s.setRecord n r).run = s.run := rfl
@[simp] theorem State.setRecord_free (s : State) (n : SourceNo) (r : SourceRec) :
    (s.setRecord n r).free = s.free := rfl
@[simp] theorem State.setRecord_val (s : State) (n : SourceNo) (r : SourceRec) :
    (s.setRecord n r).val = s.val := rfl
@[simp] theorem State.setRecord_ptu (s : State) (n : SourceNo) (r : SourceRec) :
    (s.setRecord n r).ptu = s.ptu := rfl
@[simp] theorem State.setRecord_cal (s : State) (n : SourceNo) (r : SourceRec) :
    (s.setRecord n r).cal = { s.cal with records := put s.cal.records n r } := rfl
@[simp] theorem State.setRecord_tne (s : State) (n : SourceNo) (r : SourceRec) :
    (s.setRecord n r).tne = s.tne := rfl
@[simp] theorem State.setRecord_psc (s : State) (n : SourceNo) (r : SourceRec) :
    (s.setRecord n r).psc = s.psc := rfl
@[simp] theorem State.setRecord_ebu (s : State) (n : SourceNo) (r : SourceRec) :
    (s.setRecord n r).ebu = s.ebu := rfl
@[simp] theorem State.setRecord_smc (s : State) (n : SourceNo) (r : SourceRec) :
    (s.setRecord n r).smc = s.smc := rfl
@[simp] theorem State.setRecord_cvo (s : State) (n : SourceNo) (r : SourceRec) :
    (s.setRecord n r).cvo = s.cvo := rfl
@[simp] theorem State.setRecord_lnk (s : State) (n : SourceNo) (r : SourceRec) :
    (s.setRecord n r).lnk = s.lnk := rfl

@[simp] theorem State.setCurrent_pending (s : State) (c : Option Current) :
    (s.setCurrent c).pending = s.pending := rfl
@[simp] theorem State.setCurrent_run (s : State) (c : Option Current) :
    (s.setCurrent c).run = s.run := rfl
@[simp] theorem State.setCurrent_free (s : State) (c : Option Current) :
    (s.setCurrent c).free = s.free := rfl
@[simp] theorem State.setCurrent_val (s : State) (c : Option Current) :
    (s.setCurrent c).val = s.val := rfl
@[simp] theorem State.setCurrent_ptu (s : State) (c : Option Current) :
    (s.setCurrent c).ptu = s.ptu := rfl
@[simp] theorem State.setCurrent_cal (s : State) (c : Option Current) :
    (s.setCurrent c).cal = s.cal := rfl
@[simp] theorem State.setCurrent_tne (s : State) (c : Option Current) :
    (s.setCurrent c).tne = { s.tne with current := c } := rfl
@[simp] theorem State.setCurrent_psc (s : State) (c : Option Current) :
    (s.setCurrent c).psc = s.psc := rfl
@[simp] theorem State.setCurrent_ebu (s : State) (c : Option Current) :
    (s.setCurrent c).ebu = s.ebu := rfl
@[simp] theorem State.setCurrent_smc (s : State) (c : Option Current) :
    (s.setCurrent c).smc = s.smc := rfl
@[simp] theorem State.setCurrent_cvo (s : State) (c : Option Current) :
    (s.setCurrent c).cvo =
      { s.cvo with trial := c.map fun x => { source := x.source, code := x.trial } } := rfl
@[simp] theorem State.setCurrent_lnk (s : State) (c : Option Current) :
    (s.setCurrent c).lnk = s.lnk := rfl

@[simp] theorem State.setPlan_pending (s : State) (l : List Entry) :
    (s.setPlan l).pending = s.pending := rfl
@[simp] theorem State.setPlan_run (s : State) (l : List Entry) : (s.setPlan l).run = s.run := rfl
@[simp] theorem State.setPlan_free (s : State) (l : List Entry) : (s.setPlan l).free = s.free := rfl
@[simp] theorem State.setPlan_val (s : State) (l : List Entry) : (s.setPlan l).val = s.val := rfl
@[simp] theorem State.setPlan_ptu (s : State) (l : List Entry) : (s.setPlan l).ptu = s.ptu := rfl
@[simp] theorem State.setPlan_cal (s : State) (l : List Entry) : (s.setPlan l).cal = s.cal := rfl
@[simp] theorem State.setPlan_tne (s : State) (l : List Entry) :
    (s.setPlan l).tne = { s.tne with plan := l } := rfl
@[simp] theorem State.setPlan_psc (s : State) (l : List Entry) : (s.setPlan l).psc = s.psc := rfl
@[simp] theorem State.setPlan_ebu (s : State) (l : List Entry) : (s.setPlan l).ebu = s.ebu := rfl
@[simp] theorem State.setPlan_smc (s : State) (l : List Entry) : (s.setPlan l).smc = s.smc := rfl
@[simp] theorem State.setPlan_cvo (s : State) (l : List Entry) : (s.setPlan l).cvo = s.cvo := rfl
@[simp] theorem State.setPlan_lnk (s : State) (l : List Entry) : (s.setPlan l).lnk = s.lnk := rfl

@[simp] theorem State.setMode_pending (s : State) (m : TuneMode) :
    (s.setMode m).pending = s.pending := rfl
@[simp] theorem State.setMode_run (s : State) (m : TuneMode) : (s.setMode m).run = s.run := rfl
@[simp] theorem State.setMode_free (s : State) (m : TuneMode) : (s.setMode m).free = s.free := rfl
@[simp] theorem State.setMode_val (s : State) (m : TuneMode) : (s.setMode m).val = s.val := rfl
@[simp] theorem State.setMode_ptu (s : State) (m : TuneMode) : (s.setMode m).ptu = s.ptu := rfl
@[simp] theorem State.setMode_cal (s : State) (m : TuneMode) : (s.setMode m).cal = s.cal := rfl
@[simp] theorem State.setMode_tne (s : State) (m : TuneMode) :
    (s.setMode m).tne = { s.tne with mode := m } := rfl
@[simp] theorem State.setMode_psc (s : State) (m : TuneMode) : (s.setMode m).psc = s.psc := rfl
@[simp] theorem State.setMode_ebu (s : State) (m : TuneMode) : (s.setMode m).ebu = s.ebu := rfl
@[simp] theorem State.setMode_smc (s : State) (m : TuneMode) : (s.setMode m).smc = s.smc := rfl
@[simp] theorem State.setMode_cvo (s : State) (m : TuneMode) : (s.setMode m).cvo = s.cvo := rfl
@[simp] theorem State.setMode_lnk (s : State) (m : TuneMode) : (s.setMode m).lnk = s.lnk := rfl

@[simp] theorem State.setLastM_pending (s : State) (m : Option Nat) :
    (s.setLastM m).pending = s.pending := rfl
@[simp] theorem State.setLastM_run (s : State) (m : Option Nat) : (s.setLastM m).run = s.run := rfl
@[simp] theorem State.setLastM_free (s : State) (m : Option Nat) :
    (s.setLastM m).free = s.free := rfl
@[simp] theorem State.setLastM_val (s : State) (m : Option Nat) : (s.setLastM m).val = s.val := rfl
@[simp] theorem State.setLastM_ptu (s : State) (m : Option Nat) : (s.setLastM m).ptu = s.ptu := rfl
@[simp] theorem State.setLastM_cal (s : State) (m : Option Nat) : (s.setLastM m).cal = s.cal := rfl
@[simp] theorem State.setLastM_tne (s : State) (m : Option Nat) :
    (s.setLastM m).tne = { s.tne with lastM := m } := rfl
@[simp] theorem State.setLastM_psc (s : State) (m : Option Nat) : (s.setLastM m).psc = s.psc := rfl
@[simp] theorem State.setLastM_ebu (s : State) (m : Option Nat) : (s.setLastM m).ebu = s.ebu := rfl
@[simp] theorem State.setLastM_smc (s : State) (m : Option Nat) : (s.setLastM m).smc = s.smc := rfl
@[simp] theorem State.setLastM_cvo (s : State) (m : Option Nat) : (s.setLastM m).cvo = s.cvo := rfl
@[simp] theorem State.setLastM_lnk (s : State) (m : Option Nat) : (s.setLastM m).lnk = s.lnk := rfl

@[simp] theorem State.setFailed_pending (s : State) (m : VoiceSet) :
    (s.setFailed m).pending = s.pending := rfl
@[simp] theorem State.setFailed_run (s : State) (m : VoiceSet) : (s.setFailed m).run = s.run := rfl
@[simp] theorem State.setFailed_free (s : State) (m : VoiceSet) :
    (s.setFailed m).free = s.free := rfl
@[simp] theorem State.setFailed_val (s : State) (m : VoiceSet) : (s.setFailed m).val = s.val := rfl
@[simp] theorem State.setFailed_ptu (s : State) (m : VoiceSet) : (s.setFailed m).ptu = s.ptu := rfl
@[simp] theorem State.setFailed_cal (s : State) (m : VoiceSet) : (s.setFailed m).cal = s.cal := rfl
@[simp] theorem State.setFailed_tne (s : State) (m : VoiceSet) :
    (s.setFailed m).tne = { s.tne with failed := m } := rfl
@[simp] theorem State.setFailed_psc (s : State) (m : VoiceSet) : (s.setFailed m).psc = s.psc := rfl
@[simp] theorem State.setFailed_ebu (s : State) (m : VoiceSet) : (s.setFailed m).ebu = s.ebu := rfl
@[simp] theorem State.setFailed_smc (s : State) (m : VoiceSet) : (s.setFailed m).smc = s.smc := rfl
@[simp] theorem State.setFailed_cvo (s : State) (m : VoiceSet) : (s.setFailed m).cvo = s.cvo := rfl
@[simp] theorem State.setFailed_lnk (s : State) (m : VoiceSet) : (s.setFailed m).lnk = s.lnk := rfl

@[simp] theorem withdrawEngine_pending (s : State) : (withdrawEngine s).pending = s.pending := rfl
@[simp] theorem withdrawEngine_run (s : State) : (withdrawEngine s).run = s.run := rfl
@[simp] theorem withdrawEngine_free (s : State) : (withdrawEngine s).free = s.free := rfl
@[simp] theorem withdrawEngine_val (s : State) : (withdrawEngine s).val = s.val := rfl
@[simp] theorem withdrawEngine_ptu (s : State) : (withdrawEngine s).ptu = s.ptu := rfl
@[simp] theorem withdrawEngine_cal (s : State) : (withdrawEngine s).cal = s.cal := rfl
@[simp] theorem withdrawEngine_tne (s : State) : (withdrawEngine s).tne = s.tne := rfl
@[simp] theorem withdrawEngine_psc (s : State) :
    (withdrawEngine s).psc = { s.psc with engineWaits := false } := rfl
@[simp] theorem withdrawEngine_ebu (s : State) : (withdrawEngine s).ebu = s.ebu := rfl
@[simp] theorem withdrawEngine_smc (s : State) : (withdrawEngine s).smc = s.smc := rfl
@[simp] theorem withdrawEngine_cvo (s : State) : (withdrawEngine s).cvo = s.cvo := rfl
@[simp] theorem withdrawEngine_lnk (s : State) : (withdrawEngine s).lnk = s.lnk := rfl

@[simp] theorem State.setBuffer_pending (s : State) (p : Part) (b : EditBuffer) :
    (s.setBuffer p b).pending = s.pending := rfl
@[simp] theorem State.setBuffer_run (s : State) (p : Part) (b : EditBuffer) :
    (s.setBuffer p b).run = s.run := rfl
@[simp] theorem State.setBuffer_free (s : State) (p : Part) (b : EditBuffer) :
    (s.setBuffer p b).free = s.free := rfl
@[simp] theorem State.setBuffer_val (s : State) (p : Part) (b : EditBuffer) :
    (s.setBuffer p b).val = s.val := rfl
@[simp] theorem State.setBuffer_ptu (s : State) (p : Part) (b : EditBuffer) :
    (s.setBuffer p b).ptu = s.ptu := rfl
@[simp] theorem State.setBuffer_cal (s : State) (p : Part) (b : EditBuffer) :
    (s.setBuffer p b).cal = s.cal := rfl
@[simp] theorem State.setBuffer_tne (s : State) (p : Part) (b : EditBuffer) :
    (s.setBuffer p b).tne = s.tne := rfl
@[simp] theorem State.setBuffer_psc (s : State) (p : Part) (b : EditBuffer) :
    (s.setBuffer p b).psc = s.psc := rfl
@[simp] theorem State.setBuffer_ebu (s : State) (p : Part) (b : EditBuffer) :
    (s.setBuffer p b).ebu = { s.ebu with buffers := s.ebu.buffers.set p b } := rfl
@[simp] theorem State.setBuffer_smc (s : State) (p : Part) (b : EditBuffer) :
    (s.setBuffer p b).smc = s.smc := rfl
@[simp] theorem State.setBuffer_cvo (s : State) (p : Part) (b : EditBuffer) :
    (s.setBuffer p b).cvo = s.cvo := rfl
@[simp] theorem State.setBuffer_lnk (s : State) (p : Part) (b : EditBuffer) :
    (s.setBuffer p b).lnk = s.lnk := rfl

@[simp] theorem State.setTakeover_pending (s : State) (n : PotNo) (p : Part) (x : Takeover) :
    (s.setTakeover n p x).pending = s.pending := rfl
@[simp] theorem State.setTakeover_run (s : State) (n : PotNo) (p : Part) (x : Takeover) :
    (s.setTakeover n p x).run = s.run := rfl
@[simp] theorem State.setTakeover_free (s : State) (n : PotNo) (p : Part) (x : Takeover) :
    (s.setTakeover n p x).free = s.free := rfl
@[simp] theorem State.setTakeover_val (s : State) (n : PotNo) (p : Part) (x : Takeover) :
    (s.setTakeover n p x).val = s.val := rfl
@[simp] theorem State.setTakeover_ptu (s : State) (n : PotNo) (p : Part) (x : Takeover) :
    (s.setTakeover n p x).ptu = s.ptu := rfl
@[simp] theorem State.setTakeover_cal (s : State) (n : PotNo) (p : Part) (x : Takeover) :
    (s.setTakeover n p x).cal = s.cal := rfl
@[simp] theorem State.setTakeover_tne (s : State) (n : PotNo) (p : Part) (x : Takeover) :
    (s.setTakeover n p x).tne = s.tne := rfl
@[simp] theorem State.setTakeover_psc (s : State) (n : PotNo) (p : Part) (x : Takeover) :
    (s.setTakeover n p x).psc = s.psc := rfl
@[simp] theorem State.setTakeover_ebu (s : State) (n : PotNo) (p : Part) (x : Takeover) :
    (s.setTakeover n p x).ebu =
      { s.ebu with takeover := s.ebu.takeover.modify p fun t => put t n x } := rfl
@[simp] theorem State.setTakeover_smc (s : State) (n : PotNo) (p : Part) (x : Takeover) :
    (s.setTakeover n p x).smc = s.smc := rfl
@[simp] theorem State.setTakeover_cvo (s : State) (n : PotNo) (p : Part) (x : Takeover) :
    (s.setTakeover n p x).cvo = s.cvo := rfl
@[simp] theorem State.setTakeover_lnk (s : State) (n : PotNo) (p : Part) (x : Takeover) :
    (s.setTakeover n p x).lnk = s.lnk := rfl

@[simp] theorem State.setFocus_pending (s : State) (f : Focus) :
    (s.setFocus f).pending = s.pending := rfl
@[simp] theorem State.setFocus_run (s : State) (f : Focus) : (s.setFocus f).run = s.run := rfl
@[simp] theorem State.setFocus_free (s : State) (f : Focus) : (s.setFocus f).free = s.free := rfl
@[simp] theorem State.setFocus_val (s : State) (f : Focus) : (s.setFocus f).val = s.val := rfl
@[simp] theorem State.setFocus_ptu (s : State) (f : Focus) : (s.setFocus f).ptu = s.ptu := rfl
@[simp] theorem State.setFocus_cal (s : State) (f : Focus) : (s.setFocus f).cal = s.cal := rfl
@[simp] theorem State.setFocus_tne (s : State) (f : Focus) : (s.setFocus f).tne = s.tne := rfl
@[simp] theorem State.setFocus_psc (s : State) (f : Focus) : (s.setFocus f).psc = s.psc := rfl
@[simp] theorem State.setFocus_ebu (s : State) (f : Focus) :
    (s.setFocus f).ebu = { s.ebu with focus := f } := rfl
@[simp] theorem State.setFocus_smc (s : State) (f : Focus) : (s.setFocus f).smc = s.smc := rfl
@[simp] theorem State.setFocus_cvo (s : State) (f : Focus) : (s.setFocus f).cvo = s.cvo := rfl
@[simp] theorem State.setFocus_lnk (s : State) (f : Focus) : (s.setFocus f).lnk = s.lnk := rfl

@[simp] theorem reArm_pending (s : State) (sel : PotNo → Bool) (p : Part) :
    (reArm sel p s).pending = s.pending := rfl
@[simp] theorem reArm_run (s : State) (sel : PotNo → Bool) (p : Part) :
    (reArm sel p s).run = s.run := rfl
@[simp] theorem reArm_free (s : State) (sel : PotNo → Bool) (p : Part) :
    (reArm sel p s).free = s.free := rfl
@[simp] theorem reArm_val (s : State) (sel : PotNo → Bool) (p : Part) :
    (reArm sel p s).val = s.val := rfl
@[simp] theorem reArm_ptu (s : State) (sel : PotNo → Bool) (p : Part) :
    (reArm sel p s).ptu = s.ptu := rfl
@[simp] theorem reArm_cal (s : State) (sel : PotNo → Bool) (p : Part) :
    (reArm sel p s).cal = s.cal := rfl
@[simp] theorem reArm_tne (s : State) (sel : PotNo → Bool) (p : Part) :
    (reArm sel p s).tne = s.tne := rfl
@[simp] theorem reArm_psc (s : State) (sel : PotNo → Bool) (p : Part) :
    (reArm sel p s).psc = s.psc := rfl
@[simp] theorem reArm_smc (s : State) (sel : PotNo → Bool) (p : Part) :
    (reArm sel p s).smc = s.smc := rfl
@[simp] theorem reArm_cvo (s : State) (sel : PotNo → Bool) (p : Part) :
    (reArm sel p s).cvo = s.cvo := rfl
@[simp] theorem reArm_lnk (s : State) (sel : PotNo → Bool) (p : Part) :
    (reArm sel p s).lnk = s.lnk := rfl

@[simp] theorem State.setPot_pending (s : State) (n : PotNo) (x : Pot) :
    (s.setPot n x).pending = s.pending := rfl
@[simp] theorem State.setPot_run (s : State) (n : PotNo) (x : Pot) :
    (s.setPot n x).run = s.run := rfl
@[simp] theorem State.setPot_free (s : State) (n : PotNo) (x : Pot) :
    (s.setPot n x).free = s.free := rfl
@[simp] theorem State.setPot_val (s : State) (n : PotNo) (x : Pot) :
    (s.setPot n x).val = s.val := rfl
@[simp] theorem State.setPot_ptu (s : State) (n : PotNo) (x : Pot) :
    (s.setPot n x).ptu = s.ptu := rfl
@[simp] theorem State.setPot_cal (s : State) (n : PotNo) (x : Pot) :
    (s.setPot n x).cal = s.cal := rfl
@[simp] theorem State.setPot_tne (s : State) (n : PotNo) (x : Pot) :
    (s.setPot n x).tne = s.tne := rfl
@[simp] theorem State.setPot_psc (s : State) (n : PotNo) (x : Pot) :
    (s.setPot n x).psc = { s.psc with pots := put s.psc.pots n x } := rfl
@[simp] theorem State.setPot_ebu (s : State) (n : PotNo) (x : Pot) :
    (s.setPot n x).ebu = s.ebu := rfl
@[simp] theorem State.setPot_smc (s : State) (n : PotNo) (x : Pot) :
    (s.setPot n x).smc = s.smc := rfl
@[simp] theorem State.setPot_cvo (s : State) (n : PotNo) (x : Pot) :
    (s.setPot n x).cvo = s.cvo := rfl
@[simp] theorem State.setPot_lnk (s : State) (n : PotNo) (x : Pot) :
    (s.setPot n x).lnk = s.lnk := rfl

@[simp] theorem State.setSwitch_pending (s : State) (n : SwitchNo) (x : Switch) :
    (s.setSwitch n x).pending = s.pending := rfl
@[simp] theorem State.setSwitch_run (s : State) (n : SwitchNo) (x : Switch) :
    (s.setSwitch n x).run = s.run := rfl
@[simp] theorem State.setSwitch_free (s : State) (n : SwitchNo) (x : Switch) :
    (s.setSwitch n x).free = s.free := rfl
@[simp] theorem State.setSwitch_val (s : State) (n : SwitchNo) (x : Switch) :
    (s.setSwitch n x).val = s.val := rfl
@[simp] theorem State.setSwitch_ptu (s : State) (n : SwitchNo) (x : Switch) :
    (s.setSwitch n x).ptu = s.ptu := rfl
@[simp] theorem State.setSwitch_cal (s : State) (n : SwitchNo) (x : Switch) :
    (s.setSwitch n x).cal = s.cal := rfl
@[simp] theorem State.setSwitch_tne (s : State) (n : SwitchNo) (x : Switch) :
    (s.setSwitch n x).tne = s.tne := rfl
@[simp] theorem State.setSwitch_psc (s : State) (n : SwitchNo) (x : Switch) :
    (s.setSwitch n x).psc = { s.psc with switches := put s.psc.switches n x } := rfl
@[simp] theorem State.setSwitch_ebu (s : State) (n : SwitchNo) (x : Switch) :
    (s.setSwitch n x).ebu = s.ebu := rfl
@[simp] theorem State.setSwitch_smc (s : State) (n : SwitchNo) (x : Switch) :
    (s.setSwitch n x).smc = s.smc := rfl
@[simp] theorem State.setSwitch_cvo (s : State) (n : SwitchNo) (x : Switch) :
    (s.setSwitch n x).cvo = s.cvo := rfl
@[simp] theorem State.setSwitch_lnk (s : State) (n : SwitchNo) (x : Switch) :
    (s.setSwitch n x).lnk = s.lnk := rfl

@[simp] theorem State.setSmc_pending (s : State) (x : Smc) : (s.setSmc x).pending = s.pending := rfl
@[simp] theorem State.setSmc_run (s : State) (x : Smc) : (s.setSmc x).run = s.run := rfl
@[simp] theorem State.setSmc_free (s : State) (x : Smc) : (s.setSmc x).free = s.free := rfl
@[simp] theorem State.setSmc_val (s : State) (x : Smc) : (s.setSmc x).val = s.val := rfl
@[simp] theorem State.setSmc_ptu (s : State) (x : Smc) : (s.setSmc x).ptu = s.ptu := rfl
@[simp] theorem State.setSmc_cal (s : State) (x : Smc) : (s.setSmc x).cal = s.cal := rfl
@[simp] theorem State.setSmc_tne (s : State) (x : Smc) : (s.setSmc x).tne = s.tne := rfl
@[simp] theorem State.setSmc_psc (s : State) (x : Smc) : (s.setSmc x).psc = s.psc := rfl
@[simp] theorem State.setSmc_ebu (s : State) (x : Smc) : (s.setSmc x).ebu = s.ebu := rfl
@[simp] theorem State.setSmc_smc (s : State) (x : Smc) : (s.setSmc x).smc = x := rfl
@[simp] theorem State.setSmc_cvo (s : State) (x : Smc) : (s.setSmc x).cvo = s.cvo := rfl
@[simp] theorem State.setSmc_lnk (s : State) (x : Smc) : (s.setSmc x).lnk = s.lnk := rfl

@[simp] theorem State.setLnk_pending (s : State) (x : Lnk) : (s.setLnk x).pending = s.pending := rfl
@[simp] theorem State.setLnk_run (s : State) (x : Lnk) : (s.setLnk x).run = s.run := rfl
@[simp] theorem State.setLnk_free (s : State) (x : Lnk) : (s.setLnk x).free = s.free := rfl
@[simp] theorem State.setLnk_val (s : State) (x : Lnk) : (s.setLnk x).val = s.val := rfl
@[simp] theorem State.setLnk_ptu (s : State) (x : Lnk) : (s.setLnk x).ptu = s.ptu := rfl
@[simp] theorem State.setLnk_cal (s : State) (x : Lnk) : (s.setLnk x).cal = s.cal := rfl
@[simp] theorem State.setLnk_tne (s : State) (x : Lnk) : (s.setLnk x).tne = s.tne := rfl
@[simp] theorem State.setLnk_psc (s : State) (x : Lnk) : (s.setLnk x).psc = s.psc := rfl
@[simp] theorem State.setLnk_ebu (s : State) (x : Lnk) : (s.setLnk x).ebu = s.ebu := rfl
@[simp] theorem State.setLnk_smc (s : State) (x : Lnk) : (s.setLnk x).smc = s.smc := rfl
@[simp] theorem State.setLnk_cvo (s : State) (x : Lnk) : (s.setLnk x).cvo = s.cvo := rfl
@[simp] theorem State.setLnk_lnk (s : State) (x : Lnk) : (s.setLnk x).lnk = x := rfl

end Sys2Proof.Machine
end

