-- ==== Sys2Proof/Laws/Ops.lean ====
section
/-! SUPPORT. What the shared operations of Ops.lean and Operands.lean do: how a command and an event
are taken, the voice table, the ordered lists, voice sets, arithmetic and marks. -/

namespace Sys2Proof.Machine

/-! ## Taking a command, taking an event -/

/-- A command that the part hears: its effect, its answer and the turnaround byte. -/
theorem hostCommand_heard {c : Instr} {s : State} {f : State → Answered} (h : hears s = true) :
    hostCommand c s f = .next { (f s).1 with lnk := { (f s).1.lnk with
      frame := .taken, bytes := (Frame.bytes c).getD [], answer := (f s).2,
      turnaround := statusByte (f s).1 } } := by
  simp [hostCommand, h]

/-- A command that the part does not hear changes nothing. -/
theorem hostCommand_unheard {c : Instr} {s : State} {f : State → Answered} (h : hears s = false) :
    hostCommand c s f = .next s := by
  simp [hostCommand, h]

theorem event_running {s : State} {f : State → State} (h : s.run = .running) :
    event s f = .next (f s) := by
  simp [event, h]

theorem event_in_reset {s : State} {f : State → State} (h : s.run ≠ .running) :
    event s f = .next s := by
  simp [event, h]

theorem hears_iff (s : State) : hears s = true ↔ s.run = .running ∧ s.lnk.deaf = false := by
  simp [hears]

@[simp] theorem ok_fst (s : State) (l : List Byte) : (ok s l).1 = s := rfl
@[simp] theorem ok_snd (s : State) (l : List Byte) : (ok s l).2 = 0x00 :: l := rfl
@[simp] theorem refuse_fst (s : State) (c : Code) (n : Nat) : (refuse s c n).1 = s := rfl
@[simp] theorem refuse_snd (s : State) (c : Code) (n : Nat) :
    (refuse s c n).2 = c.byte :: List.replicate n 0 := rfl
@[simp] theorem answer_fst (s : State) (c : Code) (l : List Byte) : (answer s c l).1 = s := rfl
@[simp] theorem answer_snd (s : State) (c : Code) (l : List Byte) :
    (answer s c l).2 = c.byte :: l := rfl

/-! ## Arguments -/

theorem fin?_of_lt {n x : Nat} (h : x < n) : fin? n x = some ⟨x, h⟩ := by simp [fin?, h]

theorem fin?_of_le {n x : Nat} (h : n ≤ x) : fin? n x = none := by simp [fin?, Nat.not_lt.mpr h]

theorem b1_toNat {n : Nat} (h : n < 256) : (b1 n).toNat = n := by
  simp [b1, Nat.mod_eq_of_lt h]

@[simp] theorem part?_partByte (p : Part) : part? (partByte p) = some p := by cases p <;> rfl

@[simp] theorem voice?_b1 (v : VoiceNo) : voice? (b1 v.val) = some v := by
  have h : v.val < 256 := by omega
  simp [voice?, b1_toNat h, fin?_of_lt v.isLt]

theorem key?_b1 {k : Nat} (h : k ≤ 127) : key? (b1 k) = some k := by
  have h' : k < 256 := by omega
  simp [key?, b1_toNat h', h]

@[simp] theorem fin?_b1 {n : Nat} (i : Fin n) (h : n ≤ 256) : fin? n (b1 i.val).toNat = some i := by
  have h' : i.val < 256 := by omega
  simp [b1_toNat h', fin?_of_lt i.isLt]

@[simp] theorem slot?_val (n : SlotNo) : slot? (BitVec.ofNat 16 n.val) = some n := by
  have h : n.val < 65536 := by omega
  simp [slot?, Nat.mod_eq_of_lt h, fin?_of_lt n.isLt]

@[simp] theorem target?_byte (t : Target) : target? t.byte = some t := by cases t <;> rfl
@[simp] theorem focus?_byte (f : Focus) : focus? f.byte = some f := by cases f <;> rfl
@[simp] theorem takeoverMode?_byte (m : TakeoverMode) : takeoverMode? m.byte = some m := by
  cases m <;> rfl
@[simp] theorem onOff?_flag (b : Bool) : onOff? (flag b) = some b := by cases b <;> rfl
@[simp] theorem edge?_edgeByte (e : Edge) : edge? (edgeByte e) = some e := by cases e <;> rfl

/-- A name byte is left in the range that is stored (R132). -/
theorem nameByte_range (b : Byte) : 0x20 ≤ (nameByte b).toNat ∧ (nameByte b).toNat ≤ 0x7E := by
  unfold nameByte
  split
  · assumption
  · decide

/-! ## Arithmetic -/

theorem clampInt_mem {lo hi : Int} (h : lo ≤ hi) (x : Int) :
    lo ≤ clampInt lo hi x ∧ clampInt lo hi x ≤ hi := by
  unfold clampInt; omega

theorem clampNat_mem {lo hi : Nat} (h : lo ≤ hi) (x : Nat) :
    lo ≤ clampNat lo hi x ∧ clampNat lo hi x ≤ hi := by
  unfold clampNat; omega

/-- The rounding is odd: half goes away from zero on either side. -/
theorem rhaz_neg (n : Int) (d : Nat) : rhaz (-n) d = -rhaz n d := by
  unfold rhaz
  rcases lt_trichotomy n 0 with h | h | h
  · rw [if_pos (show (0 : Int) ≤ -n by omega), if_neg (show ¬ (0 : Int) ≤ n by omega), neg_neg]
  · subst h
    rcases Nat.eq_zero_or_pos d with rfl | hd
    · simp
    · have : ((d : Int)) / (2 * d) = 0 := Int.ediv_eq_zero_of_lt (by omega) (by omega)
      simp [this]
  · rw [if_neg (show ¬ (0 : Int) ≤ -n by omega), if_pos (show (0 : Int) ≤ n by omega), neg_neg]

/-- For a numerator not below 0 the rounding is the floor of the quotient and a half. -/
theorem rhaz_nonneg {n : Int} (d : Nat) (h : 0 ≤ n) : rhaz n d = (2 * n + d) / (2 * d) := by
  simp [rhaz, h]

/-! ## Voice sets -/

@[simp] theorem inSet_zero (v : VoiceNo) : inSet 0 v = false := by simp [inSet]

theorem inSet_setAdd (m : VoiceSet) (v w : VoiceNo) :
    inSet (setAdd m v) w = (inSet m w || w == v) := by
  have : (1#16 <<< v.val).getLsbD w.val = (w == v) := by revert v w; decide
  simp only [inSet, setAdd, BitVec.getLsbD_or, this]

theorem inSet_setDrop (m : VoiceSet) (v w : VoiceNo) :
    inSet (setDrop m v) w = (inSet m w && w != v) := by
  have : (1#16 <<< v.val).getLsbD w.val = (w == v) := by revert v w; decide
  simp only [inSet, setDrop, BitVec.getLsbD_and, BitVec.getLsbD_not, this]
  simp [w.isLt, bne]

theorem inSet_setOf (l : List VoiceNo) (w : VoiceNo) : inSet (setOf l) w = decide (w ∈ l) := by
  have go : ∀ (l : List VoiceNo) (m : VoiceSet),
      inSet (l.foldl setAdd m) w = (inSet m w || decide (w ∈ l)) := by
    intro l
    induction l with
    | nil => simp
    | cons x l ih =>
      intro m
      simp only [List.foldl_cons, ih, inSet_setAdd, List.mem_cons, Bool.decide_or, Bool.or_assoc]
      rfl
  rw [setOf, go, show (0 : VoiceSet) = 0#16 from rfl]
  simp [inSet]

@[simp] theorem mem_setList (m : VoiceSet) (v : VoiceNo) : v ∈ setList m ↔ inSet m v = true := by
  simp [setList]

theorem setList_nodup (m : VoiceSet) : (setList m).Nodup :=
  (List.nodup_finRange 16).filter _

/-! ## Sources -/

@[simp] theorem sourceVoice_sourceNo (v : VoiceNo) (i : SourceIdx) : sourceVoice (sourceNo v i) = v := by
  ext; simp [sourceVoice, sourceNo]; omega

@[simp] theorem sourceIdx_sourceNo (v : VoiceNo) (i : SourceIdx) : sourceIdx (sourceNo v i) = i := by
  ext; simp [sourceIdx, sourceNo]

@[simp] theorem sourceNo_voice_idx (n : SourceNo) : sourceNo (sourceVoice n) (sourceIdx n) = n := by
  ext; simp [sourceVoice, sourceIdx, sourceNo, Nat.div_add_mod]

/-! ## The voice table -/

theorem setVoice_voice (s : State) (v w : VoiceNo) (x : Voice) :
    (s.setVoice v x).voice w = if w = v then x else s.voice w := look_put ..

theorem setStatus_voice (s : State) (v w : VoiceNo) (x : VoiceStatus) :
    (s.setStatus v x).voice w = if w = v then { s.voice v with status := x } else s.voice w :=
  look_put ..

theorem setStatus_status (s : State) (v w : VoiceNo) (x : VoiceStatus) :
    (s.setStatus v x).status w = if w = v then x else s.status w := by
  unfold State.status
  rw [setStatus_voice]
  split <;> simp

@[simp] theorem setVoice_part (s : State) (v : VoiceNo) (x : Voice) (p : Part) :
    (s.setVoice v x).part p = s.part p := rfl

@[simp] theorem setStatus_part (s : State) (v : VoiceNo) (x : VoiceStatus) (p : Part) :
    (s.setStatus v x).part p = s.part p := rfl

theorem modPart_part (s : State) (p q : Part) (f : PartRec → PartRec) :
    (s.modPart p f).part q = if q = p then f (s.part p) else s.part q := ByPart.get_modify ..

@[simp] theorem modPart_voice (s : State) (p : Part) (f : PartRec → PartRec) (v : VoiceNo) :
    (s.modPart p f).voice v = s.voice v := rfl

@[simp] theorem modPart_status (s : State) (p : Part) (f : PartRec → PartRec) (v : VoiceNo) :
    (s.modPart p f).status v = s.status v := rfl

@[simp] theorem setGap_voice (s : State) (v w : VoiceNo) (t : Option Countdown) :
    (s.setGap v t).voice w = s.voice w := rfl

@[simp] theorem setGap_status (s : State) (v w : VoiceNo) (t : Option Countdown) :
    (s.setGap v t).status w = s.status w := rfl

@[simp] theorem restart_left (old : Option Countdown) (ticks : Nat) :
    (restart old ticks).left = ticks := rfl

/-- All that an expiry does to a time: it ends it, or has been overtaken and leaves it running. -/
theorem Countdown.expire_eq (x : Countdown) :
    (x.late = false ∧ x.expire = none) ∨ (x.late = true ∧ x.expire = some { x with late := false }) := by
  unfold Countdown.expire
  cases h : x.late <;> simp

theorem setGap_gap (s : State) (v w : VoiceNo) (t : Option Countdown) :
    look (s.setGap v t).cvo.gaps w = if w = v then t else look s.cvo.gaps w := look_put ..

@[simp] theorem setFreeList_status (s : State) (l : List VoiceNo) (v : VoiceNo) :
    (s.setFreeList l).status v = s.status v := rfl

@[simp] theorem setReleaseOrder_status (s : State) (l : List VoiceNo) (v : VoiceNo) :
    (s.setReleaseOrder l).status v = s.status v := rfl

@[simp] theorem setStartOrder_status (s : State) (p : Part) (l : List VoiceNo) (v : VoiceNo) :
    (s.setStartOrder p l).status v = s.status v := rfl

theorem setStartOrder_startOrder (s : State) (p q : Part) (l : List VoiceNo) :
    (s.setStartOrder p l).val.startOrder.get q = if q = p then l else s.val.startOrder.get q :=
  ByPart.get_set ..

/-! ## Leaving the lists -/

theorem mem_without (v w : VoiceNo) (l : List VoiceNo) : w ∈ without v l ↔ w ∈ l ∧ w ≠ v := by
  simp [without]

theorem nodup_without {v : VoiceNo} {l : List VoiceNo} (h : l.Nodup) : (without v l).Nodup :=
  h.filter _

theorem without_eq_self {v : VoiceNo} {l : List VoiceNo} (h : v ∉ l) : without v l = l := by
  rw [without, List.filter_eq_self]
  intro w hw
  simp only [bne_iff_ne]
  rintro rfl
  exact h hw

/-- A voice put at the tail of a list is on it once, and no other voice comes or goes. -/
theorem without_append_nodup {v : VoiceNo} {l : List VoiceNo} (h : l.Nodup) :
    (without v l ++ [v]).Nodup := by
  refine List.Nodup.append (nodup_without h) (by simp) ?_
  intro w hw hv
  simp only [List.mem_singleton] at hv
  exact ((mem_without v w l).1 hw).2 hv

theorem soloDrop_eq_some {v : VoiceNo} {g : Option VoiceSet} {m : VoiceSet} (h : soloDrop v g = some m) :
    ∃ m₀, g = some m₀ ∧ m = setDrop m₀ v ∧ m ≠ 0 := by
  cases g with
  | none => simp [soloDrop] at h
  | some m₀ =>
    simp only [soloDrop] at h
    split at h
    · cases h
    · cases h; exact ⟨m₀, rfl, rfl, ‹_›⟩

@[simp] theorem detach_voice (s : State) (v w : VoiceNo) : (s.detach v).voice w = s.voice w := rfl

@[simp] theorem detach_status (s : State) (v w : VoiceNo) : (s.detach v).status w = s.status w := rfl

@[simp] theorem detach_freeList (s : State) (v : VoiceNo) :
    (s.detach v).val.freeList = without v s.val.freeList := rfl

@[simp] theorem detach_releaseOrder (s : State) (v : VoiceNo) :
    (s.detach v).val.releaseOrder = without v s.val.releaseOrder := rfl

@[simp] theorem detach_startOrder (s : State) (v : VoiceNo) (p : Part) :
    (s.detach v).val.startOrder.get p = without v (s.val.startOrder.get p) := by
  cases p <;> rfl

@[simp] theorem detach_part (s : State) (v : VoiceNo) (p : Part) :
    (s.detach v).part p = { s.part p with solo := soloDrop v (s.part p).solo } := by
  cases p <;> rfl

@[simp] theorem detach_seed (s : State) (v : VoiceNo) : (s.detach v).val.seed = s.val.seed := rfl

theorem detach_gap (s : State) (v w : VoiceNo) :
    look (s.detach v).cvo.gaps w = if w = v then none else look s.cvo.gaps w := look_put ..

/-! ## Transitions -/

/-- All that entering FREE does. -/
theorem enterFree_eq (s : State) (v : VoiceNo) :
    s.enterFree v = { s with
      val := { s.val with
        voices := put s.val.voices v { s.voice v with status := .free }
        freeList := without v s.val.freeList ++ [v]
        startOrder := ⟨without v s.val.startOrder.a, without v s.val.startOrder.b⟩
        releaseOrder := without v s.val.releaseOrder
        parts := ⟨{ s.val.parts.a with solo := soloDrop v s.val.parts.a.solo },
                  { s.val.parts.b with solo := soloDrop v s.val.parts.b.solo }⟩ }
      cvo := { s.cvo with gaps := put s.cvo.gaps v none } } := rfl

theorem enterFree_voice (s : State) (v w : VoiceNo) :
    (s.enterFree v).voice w = if w = v then { s.voice v with status := .free } else s.voice w :=
  look_put ..

/-- All that entering RELEASING does to a bound voice; any other voice is left. -/
theorem enterReleasing_bound {s : State} {v : VoiceNo} {n : Note} {ph : BoundPhase} (tail : Nat)
    (h : s.status v = .bound n ph) :
    s.enterReleasing v tail = { s with
      val := { s.val with
        voices := put s.val.voices v { s.voice v with status := .bound n (.releasing tail) }
        releaseOrder := without v s.val.releaseOrder ++ [v] }
      cvo := { s.cvo with gaps := put s.cvo.gaps v none } } := by
  unfold State.enterReleasing
  rw [h]
  rfl

theorem enterReleasing_unbound {s : State} {v : VoiceNo} (tail : Nat)
    (h : ∀ n ph, s.status v ≠ .bound n ph) : s.enterReleasing v tail = s := by
  unfold State.enterReleasing
  split
  · exact absurd ‹_› (h _ _)
  · rfl

theorem setPhase_bound {s : State} {v : VoiceNo} {n : Note} {ph : BoundPhase} (x : BoundPhase)
    (h : s.status v = .bound n ph) : s.setPhase v x = s.setStatus v (.bound n x) := by
  unfold State.setPhase
  rw [h]

theorem setPhase_unbound {s : State} {v : VoiceNo} (x : BoundPhase)
    (h : ∀ n ph, s.status v ≠ .bound n ph) : s.setPhase v x = s := by
  unfold State.setPhase
  split
  · exact absurd ‹_› (h _ _)
  · rfl

theorem modNote_bound {s : State} {v : VoiceNo} {n : Note} {ph : BoundPhase} (f : Note → Note)
    (h : s.status v = .bound n ph) : s.modNote v f = s.setStatus v (.bound (f n) ph) := by
  unfold State.modNote
  rw [h]

theorem modNote_unbound {s : State} {v : VoiceNo} (f : Note → Note)
    (h : ∀ n ph, s.status v ≠ .bound n ph) : s.modNote v f = s := by
  unfold State.modNote
  split
  · exact absurd ‹_› (h _ _)
  · rfl

/-! ## Order by unison index -/

theorem byUnison_perm (s : State) (l : List VoiceNo) : (s.byUnison l).Perm l :=
  List.perm_insertionSort _ l

@[simp] theorem mem_byUnison (s : State) (l : List VoiceNo) (v : VoiceNo) :
    v ∈ s.byUnison l ↔ v ∈ l := (byUnison_perm s l).mem_iff

theorem byUnison_nodup {s : State} {l : List VoiceNo} (h : l.Nodup) : (s.byUnison l).Nodup :=
  (byUnison_perm s l).nodup_iff.2 h

theorem byUnison_sorted (s : State) (l : List VoiceNo) :
    (s.byUnison l).Pairwise fun v w => (s.voice v).unisonIndex ≤ (s.voice w).unisonIndex := by
  have tot : Std.Total fun v w : VoiceNo => (s.voice v).unisonIndex ≤ (s.voice w).unisonIndex :=
    ⟨fun v w => Nat.le_total _ _⟩
  have tr : IsTrans VoiceNo fun v w => (s.voice v).unisonIndex ≤ (s.voice w).unisonIndex :=
    ⟨fun _ _ _ => Nat.le_trans⟩
  exact List.pairwise_insertionSort _ l

/-! ## Folds that leave a field alone -/

/-- What every step of a fold leaves alone, the fold leaves alone. -/
theorem foldl_keeps {α β : Type} (get : State → β) (f : State → α → State)
    (h : ∀ s x, get (f s x) = get s) (l : List α) (s : State) :
    get (l.foldl f s) = get s := by
  induction l generalizing s with
  | nil => rfl
  | cons x l ih => rw [List.foldl_cons, ih, h]

/-- What every step of a fold keeps true, the fold keeps true. -/
theorem foldl_holds {α : Type} {P : State → Prop} {f : State → α → State}
    (h : ∀ s x, P s → P (f s x)) {l : List α} {s : State} (hs : P s) : P (l.foldl f s) := by
  induction l generalizing s with
  | nil => exact hs
  | cons x l ih => exact ih (h s x hs)

/-! ## Marks -/

/-- Setting a mark that is present leaves one mark (R192). -/
theorem set_set (n : Notices) (m : Mark) : (n.set m).set m = n.set m := by
  cases m with
  | voiceParked v => simp [Notices.set, put]
  | tuneFailed v => simp [Notices.set, put]
  | switch v => simp [Notices.set, put]
  | potMoved v => simp [Notices.set, put]
  | paramChanged p i => cases p <;> simp [Notices.set, put, ByPart.modify, ByPart.set, ByPart.get]
  | _ => rfl

end Sys2Proof.Machine
end

