-- ==== Sys2Proof/Laws/Bus.lean ====
section
/-! SUPPORT. What a request, a release and a grant of the select bus do, and what a start of a sweep
does. -/

namespace Sys2Proof.Machine

/-! ## Grants, requests and releases (R107 to R110) -/

theorem requestBus_free {r : Requester} {s : State} (h : s.psc.holder = none) :
    requestBus r s = grantBus r s := by
  simp [requestBus, h]

theorem requestBus_held_scanner {s : State} {x : Requester} (h : s.psc.holder = some x) :
    requestBus .scanner s = s.setPsc { s.psc with scannerWaits := true, phase := .busWait } := by
  simp [requestBus, h]

theorem requestBus_held_engine {s : State} {x : Requester} (h : s.psc.holder = some x) :
    requestBus .engine s = (s.setPsc { s.psc with engineWaits := true }).setActivity .busWait := by
  simp [requestBus, h]

theorem releaseBus_other {r : Requester} {s : State} (h : s.psc.holder ≠ some r) :
    releaseBus r s = s := by
  simp [releaseBus, h]

/-- A release by the holder with nobody waiting leaves the bus free. -/
theorem releaseBus_engine_unwaited {s : State} (h : s.psc.holder = some .engine)
    (w : s.psc.scannerWaits = false) :
    releaseBus .engine s = s.setPsc { s.psc with holder := none } := by
  simp [releaseBus, h, w]

theorem releaseBus_scanner_unwaited {s : State} (h : s.psc.holder = some .scanner)
    (w : s.psc.engineWaits = false) :
    releaseBus .scanner s = s.setPsc { s.psc with holder := none } := by
  simp [releaseBus, h, w]

/-- A release by the holder gives the bus to the other requester where it waits (R109). -/
theorem releaseBus_engine_waited {s : State} (h : s.psc.holder = some .engine)
    (w : s.psc.scannerWaits = true) :
    releaseBus .engine s = s.setPsc { s.psc with
      holder := some .scanner, lastHolder := some .scanner, scannerWaits := false, addr := 0,
      phase := .scanning Config.scanTicks } := by
  simp [releaseBus, h, w, grantBus, State.setPsc]

theorem releaseBus_scanner_waited {s : State} (h : s.psc.holder = some .scanner)
    (w : s.psc.engineWaits = true) :
    releaseBus .scanner s = grantBus .engine (s.setPsc { s.psc with holder := none }) := by
  simp [releaseBus, h, w]

/-! ## What the bus leaves alone -/

/-- A bus operation reaches the scanner's block and the engine's activity, and nothing else. -/
def BusOnly (s t : State) : Prop :=
  { t with psc := s.psc, tne := { t.tne with activity := s.tne.activity } } = s

theorem BusOnly.refl (s : State) : BusOnly s s := rfl

theorem BusOnly.trans {s t u : State} (a : BusOnly s t) (b : BusOnly t u) : BusOnly s u := by
  unfold BusOnly at *
  rw [← b] at a
  exact a

theorem setPsc_only (s : State) (x : Psc) : BusOnly s (s.setPsc x) := rfl

theorem grantBus_only (r : Requester) (s : State) : BusOnly s (grantBus r s) := by
  cases r <;> rfl

theorem requestBus_only (r : Requester) (s : State) : BusOnly s (requestBus r s) := by
  unfold requestBus
  split
  · exact grantBus_only r s
  · cases r <;> rfl

theorem releaseBus_only (r : Requester) (s : State) : BusOnly s (releaseBus r s) := by
  unfold releaseBus
  split
  · cases r <;> simp only <;> split
    · exact (setPsc_only s _).trans (grantBus_only .engine _)
    · rfl
    · exact (setPsc_only s _).trans (grantBus_only .scanner _)
    · rfl
  · rfl

theorem startSweep_only (s : State) : BusOnly s (startSweep s) := by
  unfold startSweep
  simp only
  split
  · rfl
  · exact (setPsc_only s _).trans (requestBus_only .scanner _)

/-- What only the bus reached keeps every other block. -/
theorem BusOnly.blocks {s t : State} (h : BusOnly s t) :
    t.pending = s.pending ∧ t.run = s.run ∧ t.free = s.free ∧ t.val = s.val ∧ t.ptu = s.ptu ∧
      t.cal = s.cal ∧ t.ebu = s.ebu ∧ t.smc = s.smc ∧ t.cvo = s.cvo ∧ t.lnk = s.lnk := by
  unfold BusOnly at h
  rw [← h]
  exact ⟨rfl, rfl, rfl, rfl, rfl, rfl, rfl, rfl, rfl, rfl⟩

/-- What only the bus reached keeps the engine's plan, mode and current entry. -/
theorem BusOnly.engine {s t : State} (h : BusOnly s t) :
    t.tne.plan = s.tne.plan ∧ t.tne.mode = s.tne.mode ∧ t.tne.current = s.tne.current ∧
      t.tne.lastM = s.tne.lastM ∧ t.tne.failed = s.tne.failed := by
  unfold BusOnly at h
  rw [← h]
  exact ⟨rfl, rfl, rfl, rfl, rfl⟩

/-! ## Groups of a sweep (R111) -/

/-- A sweep visits the enabled scan groups, in ascending order. -/
theorem mem_sweepGroups (mask : BitVec 16) (g : Fin 11) :
    g ∈ sweepGroups mask ↔ (g.val < 6 ∨ 9 ≤ g.val) ∧ mask.getLsbD g.val = true := by
  simp only [sweepGroups, List.mem_filter]
  have h : ∀ g : Fin 11, g ∈ ([0, 1, 2, 3, 4, 5, 9, 10] : List (Fin 11)) ↔ (g.val < 6 ∨ 9 ≤ g.val) := by
    decide
  rw [h]

theorem sweepGroups_sorted (mask : BitVec 16) : (sweepGroups mask).Pairwise (· < ·) :=
  List.Pairwise.filter _ (by decide)

end Sys2Proof.Machine
end

