-- ==== Sys2Proof/Laws/Pitch.lean ====
section
/-! SUPPORT. What recomputation, hand-over and the moves of note pitches do, and what the chain of
arithmetic reads. -/

namespace Sys2Proof.Machine

/-! ## Recomputation (R61) -/

theorem recompute_code (s : State) (sel : SourceNo → Bool) (n : SourceNo) :
    look (recompute sel s).ptu.codes n = if sel n then (chain s n).1 else look s.ptu.codes n :=
  look_tabulate ..

/-- A recomputed voice keeps every field but its clamp flags. -/
theorem recompute_voice (s : State) (sel : SourceNo → Bool) (v : VoiceNo) :
    (recompute sel s).voice v = { s.voice v with
      clamp := tabulate fun i =>
        if sel (sourceNo v i) then (chain s (sourceNo v i)).2 else look (s.voice v).clamp i } :=
  look_tabulate ..

theorem recompute_clamp (s : State) (sel : SourceNo → Bool) (n : SourceNo) :
    look ((recompute sel s).voice (sourceVoice n)).clamp (sourceIdx n) =
      if sel n then (chain s n).2 else look (s.voice (sourceVoice n)).clamp (sourceIdx n) := by
  rw [recompute_voice]
  simp

@[simp] theorem recompute_status (s : State) (sel : SourceNo → Bool) (v : VoiceNo) :
    (recompute sel s).status v = s.status v := by
  unfold State.status
  rw [recompute_voice]

@[simp] theorem recompute_slop (s : State) (sel : SourceNo → Bool) (v : VoiceNo) :
    ((recompute sel s).voice v).slop = (s.voice v).slop := by rw [recompute_voice]

@[simp] theorem recompute_unisonIndex (s : State) (sel : SourceNo → Bool) (v : VoiceNo) :
    ((recompute sel s).voice v).unisonIndex = (s.voice v).unisonIndex := by rw [recompute_voice]

@[simp] theorem recompute_part (s : State) (sel : SourceNo → Bool) (p : Part) :
    (recompute sel s).part p = s.part p := rfl

@[simp] theorem recompute_glide (s : State) (sel : SourceNo → Bool) (v : VoiceNo) :
    (recompute sel s).glide v = s.glide v := rfl

@[simp] theorem recompute_freeList (s : State) (sel : SourceNo → Bool) :
    (recompute sel s).val.freeList = s.val.freeList := rfl

@[simp] theorem recompute_startOrder (s : State) (sel : SourceNo → Bool) :
    (recompute sel s).val.startOrder = s.val.startOrder := rfl

@[simp] theorem recompute_releaseOrder (s : State) (sel : SourceNo → Bool) :
    (recompute sel s).val.releaseOrder = s.val.releaseOrder := rfl

/-! ## What the chain reads -/

/-- Two states that agree on what the chain of arithmetic reads of a source give it one code. -/
theorem chain_congr {s t : State} (n : SourceNo)
    (status : t.status (sourceVoice n) = s.status (sourceVoice n))
    (slop : (t.voice (sourceVoice n)).slop = (s.voice (sourceVoice n)).slop)
    (part : (t.glide (sourceVoice n)).part = (s.glide (sourceVoice n)).part)
    (pos : (t.glide (sourceVoice n)).pos = (s.glide (sourceVoice n)).pos)
    (unison : look t.ptu.unison (sourceVoice n) = look s.ptu.unison (sourceVoice n))
    (master : t.ptu.master = s.ptu.master)
    (bend : (t.part (s.glide (sourceVoice n)).part).bend = (s.part (s.glide (sourceVoice n)).part).bend)
    (patch : t.patch (s.glide (sourceVoice n)).part = s.patch (s.glide (sourceVoice n)).part)
    (codes : (t.record n).codes = (s.record n).codes) : chain t n = chain s n := by
  have h : sourcePitch t (sourceVoice n) (sourceIdx n) = sourcePitch s (sourceVoice n) (sourceIdx n) := by
    simp only [sourcePitch, stage4, commonPitch, pitchPart, status, slop, part, pos, unison, master,
      bend, patch]
  have hc : (look t.cal.records n).codes = (look s.cal.records n).codes := codes
  simp only [chain, h, hc]

@[simp] theorem recompute_chain (s : State) (sel : SourceNo → Bool) (n : SourceNo) :
    chain (recompute sel s) n = chain s n :=
  chain_congr n (by simp) (by simp) rfl rfl rfl rfl rfl rfl rfl

/-- After a recomputation the chosen codes are what the chain gives as the state stands. -/
theorem recompute_current (s : State) (sel : SourceNo → Bool) {n : SourceNo} (h : sel n = true) :
    look (recompute sel s).ptu.codes n = (chain (recompute sel s) n).1 ∧
      look ((recompute sel s).voice (sourceVoice n)).clamp (sourceIdx n) =
        (chain (recompute sel s) n).2 := by
  rw [recompute_code, recompute_clamp, recompute_chain, if_pos h, if_pos h]
  exact ⟨rfl, rfl⟩

theorem recomputeAll_current (s : State) (n : SourceNo) :
    look (recomputeAll s).ptu.codes n = (chain (recomputeAll s) n).1 ∧
      look ((recomputeAll s).voice (sourceVoice n)).clamp (sourceIdx n) =
        (chain (recomputeAll s) n).2 := recompute_current s _ rfl

@[simp] theorem sourcePitch_tuning {s : State} {v : VoiceNo} {f : Bool} {r : Option ParkReason}
    (h : s.status v = .tuning f r) (i : SourceIdx) : sourcePitch s v i = 69000 := by
  simp [sourcePitch, h]

@[simp] theorem sourcePitch_parked {s : State} {v : VoiceNo} {r : ParkReason}
    (h : s.status v = .parked r) (i : SourceIdx) : sourcePitch s v i = 60000 := by
  simp [sourcePitch, h]

theorem toCode_le (codes : Vector Nat 9) (x : Int) : (toCode codes x).1 ≤ 65535 := by
  simp only [toCode]
  have := clampInt_mem (show (0 : Int) ≤ 65535 by decide) (rawCode codes x)
  omega

/-! ## Note pitches -/

/-- A note pitch reads the overrides, the scales, a scale select and a transposition, and no more. -/
theorem notePitch_congr {s t : State} (p : Part) (key : Nat) (ov : t.ptu.overrides = s.ptu.overrides)
    (sc : t.ptu.scales = s.ptu.scales) (sel : (t.part p).scale = (s.part p).scale)
    (patch : (t.patch p).transpose = (s.patch p).transpose) :
    notePitch t p key = notePitch s p key := by
  simp only [notePitch, keyPitch, overridePitch, scaleOffset, ov, sc, sel, patch]

/-! ## Glide -/

@[simp] theorem settleTimer_part (g : Glide) : g.settleTimer.part = g.part := rfl
@[simp] theorem settleTimer_key (g : Glide) : g.settleTimer.key = g.key := rfl
@[simp] theorem settleTimer_target (g : Glide) : g.settleTimer.target = g.target := rfl
@[simp] theorem settleTimer_pos (g : Glide) : g.settleTimer.pos = g.pos := rfl

/-- After its timer is settled, a glide has an update due exactly while it is not at its target. -/
theorem settleTimer_due (g : Glide) : g.settleTimer.timer.isSome = true ↔ g.pos ≠ g.target := by
  unfold Glide.settleTimer
  by_cases h : g.pos = g.target
  · simp [h]
  · cases ht : g.timer <;> simp [h]

theorem setGlide_glide (s : State) (v w : VoiceNo) (g : Glide) :
    (s.setGlide v g).glide w = if w = v then g else s.glide w := look_put ..

/-- All that a hand-over does to the glide records (R41). -/
theorem handOver_glide (s : State) (v w : VoiceNo) (p : Part) (key : Nat) (another : Bool) :
    (handOver v p key another s).glide w =
      if w = v then
        ({ part := p, key, target := notePitch s p key
           pos := if (s.patch p).param 69 = 0 then notePitch s p key
             else if (s.patch p).legatoOnly && !another then notePitch s p key else (s.glide v).pos
           timer := (s.glide v).timer } : Glide).settleTimer
      else s.glide w := by
  unfold handOver recomputeVoice
  rw [recompute_glide, setGlide_glide]

@[simp] theorem handOver_status (s : State) (v w : VoiceNo) (p : Part) (key : Nat) (another : Bool) :
    (handOver v p key another s).status w = s.status w := by
  unfold handOver recomputeVoice
  rw [recompute_status]
  rfl

@[simp] theorem handOver_unison (s : State) (v : VoiceNo) (p : Part) (key : Nat) (another : Bool) :
    (handOver v p key another s).ptu.unison = s.ptu.unison := rfl

@[simp] theorem handOver_freeList (s : State) (v : VoiceNo) (p : Part) (key : Nat) (another : Bool) :
    (handOver v p key another s).val.freeList = s.val.freeList := rfl

@[simp] theorem handOver_releaseOrder (s : State) (v : VoiceNo) (p : Part) (key : Nat)
    (another : Bool) : (handOver v p key another s).val.releaseOrder = s.val.releaseOrder := rfl

@[simp] theorem handOver_startOrder (s : State) (v : VoiceNo) (p : Part) (key : Nat)
    (another : Bool) : (handOver v p key another s).val.startOrder = s.val.startOrder := rfl

@[simp] theorem handOver_parts (s : State) (v : VoiceNo) (p : Part) (key : Nat) (another : Bool) :
    (handOver v p key another s).val.parts = s.val.parts := rfl

/-- All that the move of note pitches does to the glide records (R44). -/
theorem moveNotes_glide (old new : State) (v : VoiceNo) :
    (moveNotes old new).glide v = { new.glide v with
      target := (new.glide v).target + noteMove old new v
      pos := (new.glide v).pos + noteMove old new v } := look_tabulate ..

@[simp] theorem moveNotes_status (old new : State) (v : VoiceNo) :
    (moveNotes old new).status v = new.status v := by
  unfold moveNotes
  rw [recompute_status]
  rfl

end Sys2Proof.Machine
end

