-- ==== Sys2Proof/Laws/Tune.lean ====
section
/-! SUPPORT. What the Tune Engine's shared operations do: lending and returning voices, choosing work,
beginning and stopping a measurement, and the search's arithmetic. -/

namespace Sys2Proof.Machine

/-! ## Voices lent and returned (R24, R25) -/

@[simp] theorem setFailed_status (s : State) (m : VoiceSet) (v : VoiceNo) :
    (s.setFailed m).status v = s.status v := rfl

/-- A claimed voice is TUNING, a park reason it had is kept, and no other voice's state changes. -/
theorem claimVoice_status (v w : VoiceNo) (fg : Bool) (s : State) :
    (claimVoice v fg s).status w =
      if w = v then .tuning fg (s.status v).reason? else s.status w := by
  unfold claimVoice
  cases h : s.status v <;>
    simp [recomputeVoice, setStatus_status, VoiceStatus.reason?]

theorem parkVoice_status (v w : VoiceNo) (r : ParkReason) (s : State) :
    (parkVoice v r s).status w = if w = v then .parked r else s.status w := by
  have h : (parkVoice v r s).status w = (recomputeVoice v ((s.detach v).setStatus v (.parked r))).status w :=
    rfl
  rw [h]
  simp [recomputeVoice, setStatus_status]

theorem enterFree_status (v w : VoiceNo) (s : State) :
    (s.enterFree v).status w = if w = v then .free else s.status w := by
  unfold State.enterFree
  simp [setStatus_status]

theorem freeVoice_status (v w : VoiceNo) (s : State) :
    (freeVoice v s).status w = if w = v then .free else s.status w := by
  have h : (freeVoice v s).status w = (recomputeVoice v (s.enterFree v)).status w := rfl
  rw [h]
  simp [recomputeVoice, enterFree_status]

/-- A returned voice that was TUNING is PARKED or FREE; any other voice is left. -/
theorem returnVoice_status (v w : VoiceNo) (s : State) :
    (returnVoice v s).status w =
      if w = v then
        match s.status v with
        | .tuning _ (some r) => if inSet s.tne.failed v then .parked r else .free
        | .tuning _ none => .free
        | x => x
      else s.status w := by
  unfold returnVoice
  by_cases hw : w = v
  · subst hw
    split
    · split <;> simp [parkVoice_status, freeVoice_status, *]
    · simp [freeVoice_status, *]
    · simp
  · split
    · split <;> simp [parkVoice_status, freeVoice_status, hw]
    · simp [freeVoice_status, hw]
    · simp [hw]

/-! ## Choosing work (R84, R85, R90) -/

/-- The entry chosen is in the plan, and its voice can be measured. -/
theorem choose_spec {s : State} {e : Entry} (h : choose s = some e) :
    e ∈ s.tne.plan ∧ ((s.status e.voice).isFgTuning = true ∨ (s.status e.voice).isBgTuning = true ∨
      (e.mode = .bg ∧ (s.status e.voice).isFree = true)) := by
  unfold choose at h
  split at h
  · cases h
    exact ⟨List.mem_of_find?_eq_some ‹_›,
      .inl (by simpa using List.find?_some (p := fun e : Entry => (s.status e.voice).isFgTuning) ‹_›)⟩
  · split at h
    · cases h
      exact ⟨List.mem_of_find?_eq_some ‹_›,
        .inr (.inl (by
          simpa using List.find?_some (p := fun e : Entry => (s.status e.voice).isBgTuning) ‹_›))⟩
    · exact ⟨List.mem_of_find?_eq_some h, .inr (.inr (by simpa using List.find?_some h))⟩

/-- Nothing is chosen where no entry of the plan can be measured. -/
theorem choose_none_iff (s : State) : choose s = none ↔ ∀ e ∈ s.tne.plan,
    (s.status e.voice).isFgTuning = false ∧ (s.status e.voice).isBgTuning = false ∧
      (e.mode = .bg → (s.status e.voice).isFree = false) := by
  unfold choose
  constructor
  · intro h
    split at h
    · cases h
    · split at h
      · cases h
      · intro e he
        simp only [List.find?_eq_none] at *
        refine ⟨?_, ?_, ?_⟩
        · have := ‹∀ x ∈ s.tne.plan, ¬(s.status x.voice).isFgTuning = true› e he
          simpa using this
        · have := ‹∀ x ∈ s.tne.plan, ¬(s.status x.voice).isBgTuning = true› e he
          simpa using this
        · intro hm
          have := h e he
          simpa [hm] using this
  · intro h
    have h1 : (s.tne.plan.find? fun e => (s.status e.voice).isFgTuning) = none := by
      rw [List.find?_eq_none]; intro e he; simp [(h e he).1]
    have h2 : (s.tne.plan.find? fun e => (s.status e.voice).isBgTuning) = none := by
      rw [List.find?_eq_none]; intro e he; simp [(h e he).2.1]
    rw [h1]
    simp only
    rw [h2]
    simp only
    rw [List.find?_eq_none]
    intro e he
    cases hm : e.mode
    · simp
    · simp [(h e he).2.2 hm]

/-- A measurement begins on the bus where it is free, else waiting for it. -/
theorem beginMeasurement_only (s : State) : BusOnly s (beginMeasurement s) :=
  BusOnly.trans (t := s.setActivity .busWait) rfl (requestBus_only .engine _)

@[simp] theorem claimVoice_blocks (v : VoiceNo) (fg : Bool) (s : State) :
    (claimVoice v fg s).pending = s.pending ∧ (claimVoice v fg s).run = s.run ∧
      (claimVoice v fg s).free = s.free ∧ (claimVoice v fg s).cal = s.cal ∧
      { (claimVoice v fg s).tne with failed := s.tne.failed } = s.tne ∧
      (claimVoice v fg s).psc = s.psc ∧
      (claimVoice v fg s).ebu = s.ebu ∧ (claimVoice v fg s).smc = s.smc ∧
      (claimVoice v fg s).lnk = s.lnk := by
  unfold claimVoice
  split <;> exact ⟨rfl, rfl, rfl, rfl, rfl, rfl, rfl, rfl, rfl⟩

/-- A voice that was TUNING leaves the failed-in-lending set with its claim; no other membership
changes (R83). -/
theorem claimVoice_failed (v : VoiceNo) (fg : Bool) (s : State) : (claimVoice v fg s).tne.failed =
    if (s.status v).isTuning then setDrop s.tne.failed v else s.tne.failed := by
  unfold claimVoice
  cases h : s.status v <;> rfl

/-- The claim of a voice that was not TUNING does not reach the engine. -/
theorem claimVoice_tne {v : VoiceNo} {s : State} (h : (s.status v).isTuning = false) (fg : Bool) :
    (claimVoice v fg s).tne = s.tne := by
  have b := (claimVoice_blocks v fg s).2.2.2.2.1
  have f := claimVoice_failed v fg s
  rw [if_neg (by simp [h])] at f
  rwa [← f] at b

/-- What the choice of work leaves alone. -/
theorem startNext_blocks (s : State) :
    (startNext s).pending = s.pending ∧ (startNext s).run = s.run ∧ (startNext s).free = s.free ∧
      (startNext s).cal = s.cal ∧ (startNext s).ebu = s.ebu ∧ (startNext s).smc = s.smc ∧
      (startNext s).lnk = s.lnk ∧ (startNext s).tne.plan = s.tne.plan ∧
      (startNext s).tne.mode = s.tne.mode ∧ (startNext s).tne.failed = s.tne.failed := by
  unfold startNext
  split
  · have b := (beginMeasurement_only s).blocks
    have e := (beginMeasurement_only s).engine
    exact ⟨b.1, b.2.1, b.2.2.1, b.2.2.2.2.2.1, b.2.2.2.2.2.2.1, b.2.2.2.2.2.2.2.1,
      b.2.2.2.2.2.2.2.2.2, e.1, e.2.1, e.2.2.2.2⟩
  · split
    · rename_i e _
      simp only
      generalize ht : (if (s.status e.voice).isFree = true then claimVoice e.voice false s else s) = t
      have hc : t.pending = s.pending ∧ t.run = s.run ∧ t.free = s.free ∧ t.cal = s.cal ∧
          t.tne = s.tne ∧ t.psc = s.psc ∧ t.ebu = s.ebu ∧ t.smc = s.smc ∧ t.lnk = s.lnk := by
        subst ht
        split
        · rename_i hf
          have b := claimVoice_blocks e.voice false s
          have ht : (s.status e.voice).isTuning = false := by
            cases h : s.status e.voice <;> simp_all [VoiceStatus.isFree, VoiceStatus.isTuning]
          exact ⟨b.1, b.2.1, b.2.2.1, b.2.2.2.1, claimVoice_tne ht false, b.2.2.2.2.2⟩
        · exact ⟨rfl, rfl, rfl, rfl, rfl, rfl, rfl, rfl, rfl⟩
      obtain ⟨h1, h2, h3, h4, h5, -, h7, h8, h9⟩ := hc
      have b := (beginMeasurement_only (makeCurrent e t)).blocks
      have en := (beginMeasurement_only (makeCurrent e t)).engine
      refine ⟨b.1.trans h1, b.2.1.trans h2, b.2.2.1.trans h3, b.2.2.2.2.2.1.trans h4,
        b.2.2.2.2.2.2.1.trans h7, b.2.2.2.2.2.2.2.1.trans h8, b.2.2.2.2.2.2.2.2.2.trans h9, ?_, ?_, ?_⟩
      · rw [en.1, ← h5]; rfl
      · rw [en.2.1, ← h5]; rfl
      · rw [en.2.2.2.2, ← h5]; rfl
    · exact ⟨rfl, rfl, rfl, rfl, rfl, rfl, rfl, rfl, rfl, rfl⟩

/-- What a chance to begin a measurement leaves alone. -/
theorem kick_blocks (s : State) :
    (kick s).pending = s.pending ∧ (kick s).run = s.run ∧ (kick s).free = s.free ∧
      (kick s).cal = s.cal ∧ (kick s).ebu = s.ebu ∧ (kick s).smc = s.smc ∧ (kick s).lnk = s.lnk ∧
      (kick s).tne.plan = s.tne.plan ∧ (kick s).tne.mode = s.tne.mode ∧
      (kick s).tne.failed = s.tne.failed := by
  unfold kick
  split
  · exact startNext_blocks s
  · exact ⟨rfl, rfl, rfl, rfl, rfl, rfl, rfl, rfl, rfl, rfl⟩

/-! ## Stopping (R102, R110) -/

@[simp] theorem stopMeasurement_activity (s : State) : (stopMeasurement s).tne.activity = .idle := by
  unfold stopMeasurement
  split
  · assumption
  · unfold stopMeasurement.stepUsed; split <;> rfl
  · unfold stopMeasurement.stepUsed; split <;> rfl

@[simp] theorem abandonCurrent_current (s : State) : (abandonCurrent s).tne.current = none := rfl

@[simp] theorem abandonCurrent_trial (s : State) : (abandonCurrent s).cvo.trial = none := rfl

@[simp] theorem abandonCurrent_activity (s : State) : (abandonCurrent s).tne.activity = .idle :=
  stopMeasurement_activity s

/-! ## The search (R95, R96) -/

/-- The order of the breakpoints: 4 to 8, then 3 to 0. -/
theorem nextBreakpoint_order (k : Fin 9) : nextBreakpoint k =
    if k = 0 then none else if k.val = 8 then some 3
    else if 4 ≤ k.val then some ⟨(k.val + 1) % 9, by omega⟩ else some ⟨k.val - 1, by omega⟩ := by
  revert k; decide

theorem startingTrial_le (committed : Vector Nat 9) (work : Vector (Option Nat) 9) (k : Fin 9) :
    startingTrial committed work k ≤ 65535 := by
  unfold startingTrial
  simp only
  split
  · have := clampInt_mem (show (0 : Int) ≤ 65535 by decide) (look committed 4 : Nat); omega
  · split
    · exact Int.toNat_le.2 (clampInt_mem (by decide) _).2
    · exact Int.toNat_le.2 (clampInt_mem (by decide) _).2

/-- A correction is never 0 (R96). -/
theorem correction_ne_zero (m gain : Nat) : correction m gain ≠ 0 := by
  unfold correction
  simp only
  split
  · split <;> decide
  · assumption

end Sys2Proof.Machine
end

