-- ==== Sys2Proof/Laws/Notes.lean ====
section
/-! SUPPORT. What the note path's shared operations do: the held-key list, the candidate search and its
steps, the slop source, placement of one voice, retrigger and note end of one voice. -/

namespace Sys2Proof.Machine

/-! ## The held-key list (R28 to R30) -/

theorem mem_enterKey_self (k : Nat) (l : List Nat) : k ∈ enterKey k l := by simp [enterKey]

theorem mem_leaveKey (k q : Nat) (l : List Nat) : q ∈ leaveKey k l ↔ q ∈ l ∧ q ≠ k := by
  simp [leaveKey]

/-- An entered key leaves the list with no key twice, and within 16 keys. -/
theorem enterKey_lawful {k : Nat} {l : List Nat} (nd : l.Nodup) (len : l.length ≤ 16) :
    (enterKey k l).Nodup ∧ (enterKey k l).length ≤ 16 := by
  have nf : (l.filter (· != k)).Nodup := nd.filter _
  have lf : (l.filter (· != k)).length ≤ 16 := (List.length_filter_le _ _).trans len
  have nk : k ∉ l.filter (· != k) := by simp
  unfold enterKey
  simp only
  split
  · refine ⟨List.Nodup.append (nf.sublist (List.drop_sublist 1 _)) (by simp) ?_, ?_⟩
    · intro q hq hk
      rw [List.mem_singleton] at hk
      subst hk
      exact nk (List.mem_of_mem_drop hq)
    · simp only [List.length_append, List.length_drop, List.length_singleton]
      omega
  · refine ⟨List.Nodup.append nf (by simp) ?_, ?_⟩
    · intro q hq hk
      rw [List.mem_singleton] at hk
      subst hk
      exact nk hq
    · simp only [List.length_append, List.length_singleton]
      omega

theorem holdsOther_iff (k : Nat) (l : List Nat) : holdsOther k l = true ↔ ∃ q ∈ l, q ≠ k := by
  simp [holdsOther]

/-! ## The candidate search (R10 to R14) -/

/-- All that one step of the search does: a stretch is added at the end, of voices that the step may take
and no earlier step took. -/
theorem addFound_spec (wanted : Nat) (b : FoundBy) (l : List VoiceNo) (found : Found) :
    ∃ new : List VoiceNo, addFound wanted b l found = found ++ new.map (fun v => (v, b)) ∧
      new <+: (l.filter fun v => !(found.any fun x => x.1 == v)) ∧
      new.length = min (wanted - found.length)
        (l.filter fun v => !(found.any fun x => x.1 == v)).length :=
  ⟨_, rfl, List.take_prefix _ _, List.length_take⟩

theorem addFound_length {wanted : Nat} {b : FoundBy} {l : List VoiceNo} {found : Found}
    (h : found.length ≤ wanted) : (addFound wanted b l found).length ≤ wanted := by
  obtain ⟨new, e, -, n⟩ := addFound_spec wanted b l found
  rw [e, List.length_append, List.length_map, n]
  omega

theorem addFound_nodup {wanted : Nat} {b : FoundBy} {l : List VoiceNo} {found : Found}
    (hl : l.Nodup) (hf : (found.map Prod.fst).Nodup) :
    ((addFound wanted b l found).map Prod.fst).Nodup := by
  obtain ⟨new, e, p, -⟩ := addFound_spec wanted b l found
  rw [e, List.map_append, List.map_map]
  have hid : (Prod.fst ∘ fun v : VoiceNo => (v, b)) = id := rfl
  rw [hid, List.map_id]
  refine List.Nodup.append hf ((hl.filter _).sublist p.sublist) ?_
  intro v hv hn
  have := p.subset hn
  simp only [List.mem_filter, Bool.not_eq_true', List.any_eq_false, beq_iff_eq] at this
  obtain ⟨x, hx, rfl⟩ := List.mem_map.1 hv
  exact this.2 x hx rfl

theorem addFound_mem {wanted : Nat} {b : FoundBy} {l : List VoiceNo} {found : Found}
    {x : VoiceNo × FoundBy} (h : x ∈ addFound wanted b l found) : x ∈ found ∨ (x.2 = b ∧ x.1 ∈ l) := by
  obtain ⟨new, e, p, -⟩ := addFound_spec wanted b l found
  rw [e, List.mem_append] at h
  rcases h with h | h
  · exact .inl h
  · obtain ⟨v, hv, rfl⟩ := List.mem_map.1 h
    exact .inr ⟨rfl, (List.mem_filter.1 (p.subset hv)).1⟩

/-- The voices counted from a cursor are all sixteen, each once. -/
theorem countFrom_nodup (cursor : VoiceNo) : (countFrom cursor).Nodup := by
  revert cursor; decide

theorem mem_countFrom (cursor v : VoiceNo) : v ∈ countFrom cursor := by
  revert cursor v; decide

theorem searchReclaim_mem (s : State) (p : Part) (k : Nat) (v : VoiceNo) :
    v ∈ searchReclaim s p k ↔
      v ∈ s.val.releaseOrder ∧ (s.status v).isReleasing = true ∧ (s.status v).onKey p k = true := by
  simp [searchReclaim]

theorem searchReleasing_mem (s : State) (p : Part) (v : VoiceNo) :
    v ∈ searchReleasing s p ↔
      v ∈ s.val.releaseOrder ∧ (s.status v).isReleasing = true ∧ inSet (s.part p).pool v = true := by
  simp [searchReleasing]

theorem searchBackground_mem (s : State) (p : Part) (v : VoiceNo) :
    v ∈ searchBackground s p ↔ (s.status v).isBgTuning = true ∧ inSet (s.part p).pool v = true := by
  simp [searchBackground]

/-! ## The slop source (R7) -/

theorem slopOf_range (l : BitVec 16) (d : Nat) : -(d : Int) ≤ slopOf l d ∧ slopOf l d ≤ d := by
  unfold slopOf
  have := Nat.mod_lt l.toNat (show 0 < 2 * d + 1 by omega)
  omega

/-! ## Placement (R15, R16) -/

/-- A placed voice is bound to the note; no other voice's record changes by the placing itself. -/
theorem placeOne_phase (p : Part) (key velocity size : Nat) (s : State) (v : VoiceNo) (b : FoundBy)
    (j : Nat) (h : b ≠ .background) :
    (placeOne p key velocity size s ((v, b), j)).status v = .bound
      { part := p, key, velocity, pressure := 0 }
      (if b.stolen ∧ 0 < (s.patch p).dampMs then
        .muting ((s.patch p).dampMs * Config.ticksPerMs) else .held) := by
  unfold placeOne
  simp only [if_neg h]
  show Voice.status (look (put _ _ _) v) = _
  rw [look_put_same]

theorem placeOne_voice_ne (p : Part) (key velocity size : Nat) (s : State) (v w : VoiceNo)
    (b : FoundBy) (j : Nat) (h : b ≠ .background) (hw : w ≠ v) :
    (placeOne p key velocity size s ((v, b), j)).voice w = s.voice w := by
  unfold placeOne
  simp only [if_neg h]
  show look (put _ _ _) w = _
  rw [look_put_ne _ _ hw]
  rfl

/-! ## One voice's retrigger and end -/

/-- All that a gate retrigger does, by the state of the voice (R9, R39). -/
theorem retriggerGate_eq (v : VoiceNo) (s : State) :
    retriggerGate v s = match s.status v with
      | .bound n .held => startGap v (s.setStatus v (.bound n .held))
      | .bound n .sustained => startGap v (s.setStatus v (.bound n .held))
      | _ => s := by
  unfold retriggerGate
  rcases h : s.status v with _ | ⟨n, _ | _ | _ | _⟩ | _ | _ <;>
    simp [VoiceStatus.isHeld, VoiceStatus.isSustained, State.setPhase, h]

/-- All that a note end does to one voice, by its state (R18). -/
theorem endVoice_eq (p : Part) (s : State) (v : VoiceNo) :
    endVoice p s v = match s.status v with
      | .bound _ (.muting _) => s.enterFree v
      | .bound n .held =>
        if (s.part p).sustain then s.setStatus v (.bound n .sustained)
        else s.enterReleasing v (s.patch p).releaseTicks
      | _ => s := by
  unfold endVoice
  rcases h : s.status v with _ | ⟨n, _ | _ | _ | _⟩ | _ | _ <;>
    simp [VoiceStatus.isMuting, VoiceStatus.isHeld, State.setPhase, h]

/-- All that a change of key mode does to one voice, by its state (R37). -/
theorem modeChangeVoice_eq (p : Part) (s : State) (v : VoiceNo) :
    modeChangeVoice p s v = match s.status v with
      | .bound _ (.muting _) => s.enterFree v
      | .bound _ .held => s.enterReleasing v (s.patch p).releaseTicks
      | .bound _ .sustained => s.enterReleasing v (s.patch p).releaseTicks
      | _ => s := by
  unfold modeChangeVoice
  rcases h : s.status v with _ | ⟨n, _ | _ | _ | _⟩ | _ | _ <;>
    simp [VoiceStatus.isMuting, VoiceStatus.isHeld, VoiceStatus.isSustained]

end Sys2Proof.Machine
end

