-- ==== Sys2Proof/Laws/Edit.lean ====
section
/-! SUPPORT. What a stored parameter, a re-arming and the takeover arithmetic do. -/

namespace Sys2Proof.Machine

theorem setBuffer_buffer (s : State) (p q : Part) (b : EditBuffer) :
    (s.setBuffer p b).buffer q = if q = p then b else s.buffer q := ByPart.get_set ..

theorem setBuffer_patch (s : State) (p q : Part) (b : EditBuffer) :
    (s.setBuffer p b).patch q = if q = p then b.patch else s.patch q := by
  have h : ∀ t : State, t.patch q = (t.buffer q).patch := fun _ => rfl
  rw [h, setBuffer_buffer]
  split <;> rfl

/-- All that the store of a parameter does (R129, steps 1 and 2). -/
theorem storeParam_buffer (p q : Part) (n : ParamNo) (x : Nat) (s : State) :
    (storeParam p n x s).buffer q =
      if q = p then
        { patch := { (s.buffer p).patch with params := put (s.buffer p).patch.params n x }
          modified := (s.buffer p).modified || x != (s.buffer p).patch.param n }
      else s.buffer q := setBuffer_buffer ..

theorem storeParam_param (p q : Part) (n m : ParamNo) (x : Nat) (s : State) :
    ((storeParam p n x s).patch q).param m =
      if q = p ∧ m = n then x else (s.patch q).param m := by
  unfold storeParam
  rw [setBuffer_patch]
  by_cases hq : q = p
  · subst hq
    simp only [if_true, true_and]
    unfold Patch.param
    rw [look_put]
    rfl
  · simp [hq]

theorem setTakeover_takeover (s : State) (q i : PotNo) (p r : Part) (x : Takeover) :
    (s.setTakeover q p x).takeover i r = if i = q ∧ r = p then x else s.takeover i r := by
  unfold State.takeover State.setTakeover
  simp only
  rw [ByPart.get_modify]
  by_cases hr : r = p
  · subst hr
    rw [if_pos rfl, look_put]
    simp
  · simp [hr]

/-- All that a re-arming does to the takeover records (R141). -/
theorem reArm_takeover (sel : PotNo → Bool) (p r : Part) (q : PotNo) (s : State) :
    (reArm sel p s).takeover q r =
      if r = p ∧ sel q = true then armed (s.potEntry q) (s.pot q).stable (s.patch p)
      else s.takeover q r := by
  unfold reArm State.takeover
  simp only
  rw [ByPart.get_set]
  by_cases hr : r = p
  · subst hr
    rw [if_pos rfl, look_tabulate]
    simp
  · simp [hr]

@[simp] theorem reArm_buffer (sel : PotNo → Bool) (p q : Part) (s : State) :
    (reArm sel p s).buffer q = s.buffer q := rfl

@[simp] theorem reArm_patch (sel : PotNo → Bool) (p q : Part) (s : State) :
    (reArm sel p s).patch q = s.patch q := rfl

@[simp] theorem reArm_potEntry (sel : PotNo → Bool) (p : Part) (q : PotNo) (s : State) :
    (reArm sel p s).potEntry q = s.potEntry q := rfl

/-- A record is re-armed to CAUGHT only where the mapped parameter equals the pot's stable value. -/
theorem armed_caught {e : PotEntry} {stable : Option Nat} {x : Patch}
    (h : armed e stable x = .caught) : ∃ l, e.link = some l ∧ stable = some (x.param l.param) := by
  unfold armed at h
  split at h
  · rename_i l k hl
    refine ⟨l, hl, ?_⟩
    dsimp only at h
    split at h
    · cases h
    · split at h
      · rw [‹x.param l.param = k›]
      · split at h <;> cases h
    · split at h
      · rw [‹x.param l.param = k›]
      · cases h
  · cases h

/-- A catching record waits on the side of the parameter that its pot is on (R141). -/
theorem armed_catching {e : PotEntry} {l : PotLink} {k : Nat} (x : Patch) (he : e.link = some l)
    (hm : l.mode = .catching) : armed e (some k) x =
      if x.param l.param = k then .caught
      else if k < x.param l.param then .waitAbove else .waitBelow := by
  simp [armed, he, hm]

/-- The proportional value keeps within the travel (R144). -/
theorem scaled_le {p0 k0 k1 : Nat} (hp : p0 ≤ 1023) (h0 : k0 ≤ 1023) (h1 : k1 ≤ 1023) :
    scaled p0 k0 k1 ≤ 1023 := by
  unfold scaled
  split
  · have : (1023 - p0) * (k1 - k0) / (1023 - k0) ≤ 1023 - p0 := by
      apply Nat.div_le_of_le_mul
      rw [Nat.mul_comm]
      exact Nat.mul_le_mul_right _ (by omega)
    omega
  · exact (Nat.sub_le _ _).trans hp

end Sys2Proof.Machine
end

