-- ==== Sys2Proof/Laws/Link.lean ====
section
/-! SUPPORT. What the notice set holds, and which mark is next. -/

namespace Sys2Proof.Machine

/-- A mark is in the set (R192). -/
def Notices.holds (n : Notices) : Mark → Prop
  | .linkError k => n.linkError = some k
  | .nvResult r => n.nvResult = some r
  | .voiceParked v => look n.voiceParked v = true
  | .tuneFailed i => look n.tuneFailed i = true
  | .tuneDone => n.tuneDone = true
  | .switch i => look n.switch i = true
  | .potMoved i => look n.potMoved i = true
  | .paramChanged p i => look (n.paramChanged.get p) i = true

/-- The list of marks present lists exactly the marks in the set. -/
theorem mem_present (n : Notices) (m : Mark) : m ∈ n.present ↔ n.holds m := by
  cases m with
  | paramChanged p i => cases p <;> simp [Notices.present, Notices.holds, ByPart.get]
  | _ => simp [Notices.present, Notices.holds]

/-- A mark that has been set is present. -/
theorem holds_set (n : Notices) (m : Mark) : (n.set m).holds m := by
  cases m with
  | paramChanged p i => simp [Notices.set, Notices.holds, ByPart.modify]
  | _ => simp [Notices.set, Notices.holds]

/-- The next mark is present and its class is enabled (R193). -/
theorem nextMark_spec {x : Lnk} {m : Mark} (h : nextMark x = some m) :
    m ∈ x.notices.present ∧ m.enabled x.enable = true :=
  ⟨List.mem_of_find?_eq_some h,
    List.find?_some (p := fun m : Mark => m.enabled x.enable) h⟩

theorem nextMark_none {x : Lnk} :
    nextMark x = none ↔ ∀ m ∈ x.notices.present, m.enabled x.enable = false := by
  simp [nextMark, List.find?_eq_none]

/-- A mark sets its bit in the link block and reaches nothing else. -/
theorem mark_only (s : State) (m : Mark) : { s.mark m with lnk := s.lnk } = s := rfl

end Sys2Proof.Machine
end

