-- ==== Sys2Proof/Laws/Memory.lean ====
section
/-! SUPPORT. The slot memory: reading what was written, and the canonical form that every memory
operation keeps (log 6). -/

namespace Sys2Proof.Machine

/-! ## Canonical form -/

theorem memWfFrom_mono {lo lo' : Nat} {m : List Host.Cell} (h : lo' ≤ lo)
    (w : memWfFrom lo m = true) : memWfFrom lo' m = true := by
  cases m with
  | nil => rfl
  | cons c m =>
    simp only [memWfFrom, Bool.and_eq_true, decide_eq_true_eq] at *
    exact ⟨⟨by omega, w.1.2⟩, w.2⟩

theorem memWfFrom_memWrite {lo a : Nat} (x : Byte) (ha : lo ≤ a) (m : List Host.Cell)
    (h : memWfFrom lo m = true) : memWfFrom lo (memWrite m a x) = true := by
  induction m generalizing lo with
  | nil =>
    unfold memWrite
    split
    · rfl
    · simp [memWfFrom, *]
  | cons c m ih =>
    obtain ⟨b, y⟩ := c
    simp only [memWfFrom, Bool.and_eq_true, decide_eq_true_eq] at h
    obtain ⟨⟨h1, h2⟩, h3⟩ := h
    unfold memWrite
    split
    · simp only [memWfFrom, Bool.and_eq_true, decide_eq_true_eq]
      exact ⟨⟨h1, h2⟩, ih (by omega) h3⟩
    · by_cases hb : b = a
      · subst hb
        simp only [↓reduceIte]
        split
        · exact memWfFrom_mono (by omega) h3
        · simp [memWfFrom, *]
      · simp only [if_neg hb]
        split
        · simp [memWfFrom, h1, h2, h3]
        · have : a + 1 ≤ b := by omega
          simp [memWfFrom, *]

/-- A write keeps the canonical form. -/
theorem wf_memWrite {m : List Host.Cell} (a : Nat) (x : Byte) (h : Memory.wf m = true) :
    Memory.wf (memWrite m a x) = true :=
  memWfFrom_memWrite x (Nat.zero_le a) m h

/-- Writing bytes one after another keeps the canonical form. -/
theorem wf_memWriteAll {m : List Host.Cell} (a : Nat) (l : List Byte) (h : Memory.wf m = true) :
    Memory.wf (memWriteAll m a l) = true := by
  induction l generalizing m a with
  | nil => exact h
  | cons x l ih => exact ih _ (wf_memWrite a x h)

/-- The memory that State.reset has is in canonical form. -/
theorem wf_nothing_listed : Memory.wf [] = true := rfl

/-! ## Reading what was written -/

/-- In a memory whose addresses start beyond an address, that address reads as erased. -/
theorem memRead_below {lo a : Nat} {m : List Host.Cell} (h : memWfFrom lo m = true) (ha : a < lo) :
    memRead m a = erasedByte := by
  induction m generalizing lo with
  | nil => rfl
  | cons c m ih =>
    obtain ⟨b, y⟩ := c
    simp only [memWfFrom, Bool.and_eq_true, decide_eq_true_eq] at h
    have : b ≠ a := by omega
    simp only [memRead, if_neg this]
    exact ih h.2 (by omega)

/-- Another address reads as before a write. -/
theorem memRead_memWrite_ne {a b : Nat} (x : Byte) (m : List Host.Cell) (h : b ≠ a) :
    memRead (memWrite m a x) b = memRead m b := by
  induction m with
  | nil =>
    unfold memWrite
    split
    · rfl
    · simp [memRead, h.symm]
  | cons c m ih =>
    obtain ⟨d, y⟩ := c
    unfold memWrite
    split
    · simp only [memRead, ih]
    · by_cases hd : d = a
      · subst hd
        simp only [↓reduceIte]
        split <;> simp [memRead, h.symm]
      · simp only [if_neg hd]
        split <;> simp [memRead, h.symm]

/-- An address reads as it was written. -/
theorem memRead_memWrite_same {lo a : Nat} (x : Byte) {m : List Host.Cell}
    (w : memWfFrom lo m = true) : memRead (memWrite m a x) a = x := by
  induction m generalizing lo with
  | nil =>
    unfold memWrite
    split
    · simp [memRead, *]
    · simp [memRead]
  | cons c m ih =>
    obtain ⟨d, y⟩ := c
    simp only [memWfFrom, Bool.and_eq_true, decide_eq_true_eq] at w
    obtain ⟨⟨w1, w2⟩, w3⟩ := w
    unfold memWrite
    split
    · have : d ≠ a := by omega
      simp only [memRead, if_neg this]
      exact ih w3
    · by_cases hd : d = a
      · subst hd
        simp only [↓reduceIte]
        split
        · rename_i hx
          rw [memRead_below w3 (by omega), hx]
        · simp [memRead]
      · simp only [if_neg hd]
        split
        · rename_i hx
          simp only [memRead, if_neg hd]
          rw [memRead_below w3 (by omega), hx]
        · simp [memRead]

/-- All that a write does to what is read. -/
theorem memRead_memWrite {m : List Host.Cell} (a b : Nat) (x : Byte) (w : Memory.wf m = true) :
    memRead (memWrite m a x) b = if b = a then x else memRead m b := by
  split
  · subst b; exact memRead_memWrite_same x w
  · exact memRead_memWrite_ne x m ‹_›

/-- An address outside the bytes written one after another reads as before. -/
theorem memRead_memWriteAll_ne {a b : Nat} (l : List Byte) (m : List Host.Cell)
    (h : b < a ∨ a + l.length ≤ b) : memRead (memWriteAll m a l) b = memRead m b := by
  induction l generalizing m a with
  | nil => rfl
  | cons x l ih =>
    simp only [List.length_cons] at h
    unfold memWriteAll
    rw [ih _ (by omega), memRead_memWrite_ne _ _ (by omega)]

/-- The i-th of the bytes written one after another reads as it was written. -/
theorem memRead_memWriteAll_same {a i : Nat} {l : List Byte} {m : List Host.Cell}
    (w : Memory.wf m = true) (h : i < l.length) :
    memRead (memWriteAll m a l) (a + i) = l.getD i 0 := by
  induction l generalizing m a i with
  | nil => simp at h
  | cons x l ih =>
    unfold memWriteAll
    cases i with
    | zero =>
      rw [memRead_memWriteAll_ne _ _ (by omega)]
      simpa using memRead_memWrite_same x w
    | succ i =>
      simp only [List.length_cons] at h
      have := ih (a := a + 1) (i := i) (wf_memWrite a x w) (by omega)
      rw [show a + (i + 1) = a + 1 + i by omega, this]
      simp

@[simp] theorem slotImage_length (m : List Host.Cell) (n : SlotNo) : (slotImage m n).length = 128 := by
  simp [slotImage]

theorem slotImage_getD {m : List Host.Cell} {n : SlotNo} {i : Nat} (h : i < 128) :
    (slotImage m n).getD i 0 = memRead m (slotBase n + i) := by
  simp [slotImage, h, List.getD_eq_getElem?_getD]

/-! ## The write in flight -/

/-- The target's state byte is programmed and nothing else of the memory changes. -/
theorem setStateByte_smc (j : Job) (x : Byte) (s : State) :
    (setStateByte j x s).smc = match j.slot? with
      | some n => { s.smc with slots := memWrite s.smc.slots (slotBase n) x }
      | none => { s.smc with sys := { s.smc.sys with state := x } } := by
  cases j <;> rfl

/-- An accepted write reaches the slot memory controller and nothing else. -/
theorem accept_blocks (j : Job) (s : State) : { accept j s with smc := s.smc } = s := by
  obtain ⟨x, h⟩ : ∃ x, accept j s = s.setSmc x := by
    unfold accept setStateByte
    cases j <;> exact ⟨_, rfl⟩
  rw [h]
  rfl

@[simp] theorem accept_write (j : Job) (s : State) : (accept j s).smc.write = some
    { job := j, phase := .erase, remaining := Config.eraseTicks, resume := none } := rfl

theorem accept_guard (j : Job) (s : State) :
    (accept j s).smc.guard = s.smc.guard ∧ (accept j s).smc.frozen = s.smc.frozen := by
  unfold accept setStateByte
  cases j <;> exact ⟨rfl, rfl⟩

theorem wf_setStateByte (j : Job) (x : Byte) {s : State} (h : Memory.wf s.smc.slots = true) :
    Memory.wf (setStateByte j x s).smc.slots = true := by
  rw [setStateByte_smc]
  split
  · exact wf_memWrite _ _ h
  · exact h

theorem wf_accept (j : Job) {s : State} (h : Memory.wf s.smc.slots = true) :
    Memory.wf (accept j s).smc.slots = true := wf_setStateByte j 0x00 h

theorem wf_eraseTarget (j : Job) {s : State} (h : Memory.wf s.smc.slots = true) :
    Memory.wf (eraseTarget j s).smc.slots = true := by
  unfold eraseTarget
  generalize List.replicate 128 erasedByte = l
  split
  · rw [State.setSmc_smc]
    exact wf_memWriteAll _ l h
  · exact h

@[simp] theorem complete_slots (j : Job) (good : Bool) (s : State) :
    (complete j good s).smc.slots = s.smc.slots := by
  unfold complete
  simp only
  split <;> rfl

@[simp] theorem complete_sys (j : Job) (good : Bool) (s : State) :
    (complete j good s).smc.sys = s.smc.sys := by
  unfold complete
  simp only
  split <;> rfl

@[simp] theorem complete_write (j : Job) (good : Bool) (s : State) :
    (complete j good s).smc.write = none := by
  unfold complete
  simp only
  split <;> rfl

@[simp] theorem complete_lnk (j : Job) (good : Bool) (s : State) :
    (complete j good s).lnk = { s.lnk with
      notices := s.lnk.notices.set (.nvResult { op := j.op, slot := j.slot?, ok := good }) } := by
  unfold complete
  simp only
  split <;> rfl

theorem suspendFor_only (n : SlotNo) (s : State) :
    { suspendFor n s with smc := { (suspendFor n s).smc with write := s.smc.write } } = s := by
  unfold suspendFor
  split
  · split <;> rfl
  · rfl

/-! ## Images -/

theorem packParams_length (l : List Nat) : (packParams l).length = 5 * (l.length / 4) := by
  induction l using packParams.induct with
  | case1 a b c d rest ih => simp only [packParams, List.length_cons, ih]; omega
  | case2 l h =>
    unfold packParams
    split
    · exact absurd rfl (h _ _ _ _ _)
    · match l, h with
      | [], _ => rfl
      | [_], _ => simp
      | [_, _], _ => simp
      | [_, _, _], _ => simp
      | a :: b :: c :: d :: r, h => exact absurd rfl (h a b c d r)

end Sys2Proof.Machine
end

