-- ==== Sys2Proof/Laws/PerInstr.lean ====
section
/-! SUPPORT. For each command, as syntax: what its frame begins with. -/

namespace Sys2Proof.Laws.Frames

/-- The frame of a command, where it has one, is a command byte that R189 or R190 lists and as many
argument bytes as they give it. -/
def Statement (i : Instr) : Prop :=
  ∀ l, Frame.bytes i = some l → ∃ code args, 
    l = code :: args ∧ Frame.argumentBytes code = some args.length

theorem noteStart (part key velocity : Byte) : Statement (.noteStart part key velocity) := by
  rintro l ⟨⟩
  exact ⟨_, _, rfl, rfl⟩

theorem noteEnd (part key : Byte) : Statement (.noteEnd part key) := by
  rintro l ⟨⟩
  exact ⟨_, _, rfl, rfl⟩

theorem notePressure (part key value : Byte) : Statement (.notePressure part key value) := by
  rintro l ⟨⟩
  exact ⟨_, _, rfl, rfl⟩

theorem sustain (part setting : Byte) : Statement (.sustain part setting) := by
  rintro l ⟨⟩
  exact ⟨_, _, rfl, rfl⟩

theorem performanceSet (part control : Byte) (value : BitVec 16) :
    Statement (.performanceSet part control value) := by
  rintro l ⟨⟩
  exact ⟨_, _, rfl, rfl⟩

theorem allNotesClear (target : Byte) : Statement (.allNotesClear target) := by
  rintro l ⟨⟩
  exact ⟨_, _, rfl, rfl⟩

theorem voiceRead (voice : Byte) : Statement (.voiceRead voice) := by
  rintro l ⟨⟩
  exact ⟨_, _, rfl, rfl⟩

theorem partSettings (part : Byte) (pool : BitVec 16) (scale : Byte) :
    Statement (.partSettings part pool scale) := by
  rintro l ⟨⟩
  exact ⟨_, _, rfl, rfl⟩

theorem seed (value : BitVec 16) : Statement (.seed value) := by
  rintro l ⟨⟩
  exact ⟨_, _, rfl, rfl⟩

theorem voiceServiceOff (voice setting : Byte) : Statement (.voiceServiceOff voice setting) := by
  rintro l ⟨⟩
  exact ⟨_, _, rfl, rfl⟩

theorem voiceServiceOn (voice : Byte) : Statement (.voiceServiceOn voice) := by
  rintro l ⟨⟩
  exact ⟨_, _, rfl, rfl⟩

theorem dampExpiry (voice : VoiceNo) : Statement (.dampExpiry voice) := by
  intro l h
  cases h

theorem tailExpiry (voice : VoiceNo) : Statement (.tailExpiry voice) := by
  intro l h
  cases h

theorem retriggerGapExpiry (voice : VoiceNo) : Statement (.retriggerGapExpiry voice) := by
  intro l h
  cases h

theorem glideUpdate (voice : VoiceNo) : Statement (.glideUpdate voice) := by
  intro l h
  cases h

theorem masterPitch (value : BitVec 16) : Statement (.masterPitch value) := by
  rintro l ⟨⟩
  exact ⟨_, _, rfl, rfl⟩

theorem scaleSet (table : Byte) (offsets : Vector (BitVec 16) 12) :
    Statement (.scaleSet table offsets) := by
  rintro l ⟨⟩
  exact ⟨_, _, rfl, by simp [Frame.two, List.length_flatMap]; rfl⟩

theorem overrideSet (part key : Byte) (pitch : BitVec 24) :
    Statement (.overrideSet part key pitch) := by
  rintro l ⟨⟩
  exact ⟨_, _, rfl, rfl⟩

theorem overrideClear (selector part key : Byte) :
    Statement (.overrideClear selector part key) := by
  rintro l ⟨⟩
  exact ⟨_, _, rfl, rfl⟩

theorem minuteEvent : Statement .minuteEvent := by
  intro l h
  cases h

theorem calRead (source : Byte) : Statement (.calRead source) := by
  rintro l ⟨⟩
  exact ⟨_, _, rfl, rfl⟩

theorem calSave : Statement .calSave := by
  rintro l ⟨⟩
  exact ⟨_, _, rfl, rfl⟩

theorem tuneSettings (oscGain fltGain : BitVec 16) (oscEdge fltEdge retune autoPark : Byte) :
    Statement (.tuneSettings oscGain fltGain oscEdge fltEdge retune autoPark) := by
  rintro l ⟨⟩
  exact ⟨_, _, rfl, rfl⟩

theorem tuneAdd (voices : BitVec 16) (sources mode : Byte) :
    Statement (.tuneAdd voices sources mode) := by
  rintro l ⟨⟩
  exact ⟨_, _, rfl, rfl⟩

theorem tuneControlRun (action : Byte) : Statement (.tuneControlRun action) := by
  rintro l ⟨⟩
  exact ⟨_, _, rfl, rfl⟩

theorem tuneControlHalt : Statement .tuneControlHalt := by
  rintro l ⟨⟩
  exact ⟨_, _, rfl, rfl⟩

theorem tuneControlStep : Statement .tuneControlStep := by
  rintro l ⟨⟩
  exact ⟨_, _, rfl, rfl⟩

theorem tuneControlCancel : Statement .tuneControlCancel := by
  rintro l ⟨⟩
  exact ⟨_, _, rfl, rfl⟩

theorem tuneRead : Statement .tuneRead := by
  rintro l ⟨⟩
  exact ⟨_, _, rfl, rfl⟩

theorem settlingExpiry : Statement .settlingExpiry := by
  intro l h
  cases h

theorem firstProbeEdge (edge : Edge) : Statement (.firstProbeEdge edge) := by
  intro l h
  cases h

theorem gateClose (edge : Edge) (ticks : Nat) : Statement (.gateClose edge ticks) := by
  intro l h
  cases h

theorem gateWindowExpiry : Statement .gateWindowExpiry := by
  intro l h
  cases h

theorem sweepTimerExpiry : Statement .sweepTimerExpiry := by
  intro l h
  cases h

theorem scanSample (padc : BitVec 12) (swin : Bool) : Statement (.scanSample padc swin) := by
  intro l h
  cases h

theorem scheduleSet (profile interval : Byte) (mask : BitVec 16) :
    Statement (.scheduleSet profile interval mask) := by
  rintro l ⟨⟩
  exact ⟨_, _, rfl, rfl⟩

theorem profileSet (slot shift deadband : Byte) :
    Statement (.profileSet slot shift deadband) := by
  rintro l ⟨⟩
  exact ⟨_, _, rfl, rfl⟩

theorem potRead (pot : Byte) : Statement (.potRead pot) := by
  rintro l ⟨⟩
  exact ⟨_, _, rfl, rfl⟩

theorem paramWrite (part param : Byte) (value : BitVec 16) :
    Statement (.paramWrite part param value) := by
  rintro l ⟨⟩
  exact ⟨_, _, rfl, rfl⟩

theorem paramRead (part item : Byte) : Statement (.paramRead part item) := by
  rintro l ⟨⟩
  exact ⟨_, _, rfl, rfl⟩

theorem nameSet (part : Byte) (name : Name) (category : Byte) :
    Statement (.nameSet part name category) := by
  rintro l ⟨⟩
  exact ⟨_, _, rfl, by simp; rfl⟩

theorem potMapSet (pot target param mode slot : Byte) :
    Statement (.potMapSet pot target param mode slot) := by
  rintro l ⟨⟩
  exact ⟨_, _, rfl, rfl⟩

theorem switchMapSet (switch action field param count : Byte) :
    Statement (.switchMapSet switch action field param count) := by
  rintro l ⟨⟩
  exact ⟨_, _, rfl, rfl⟩

theorem focusSet (focus : Byte) : Statement (.focusSet focus) := by
  rintro l ⟨⟩
  exact ⟨_, _, rfl, rfl⟩

theorem patchStore (part : Byte) (slot : BitVec 16) : Statement (.patchStore part slot) := by
  rintro l ⟨⟩
  exact ⟨_, _, rfl, rfl⟩

theorem slotWrite (slot : BitVec 16) (name : Name) (category : Byte) (params : Vector (BitVec 16) 80) :
    Statement (.slotWrite slot name category params) := by
  rintro l ⟨⟩
  exact ⟨_, _, rfl, by simp [Frame.two, List.length_flatMap]; rfl⟩

theorem slotClear (slot : BitVec 16) : Statement (.slotClear slot) := by
  rintro l ⟨⟩
  exact ⟨_, _, rfl, rfl⟩

theorem patchRecall (slot : BitVec 16) (part : Byte) : Statement (.patchRecall slot part) := by
  rintro l ⟨⟩
  exact ⟨_, _, rfl, rfl⟩

theorem slotRead (slot : BitVec 16) : Statement (.slotRead slot) := by
  rintro l ⟨⟩
  exact ⟨_, _, rfl, rfl⟩

theorem guardSet (extent anchor invert : Byte) : Statement (.guardSet extent anchor invert) := by
  rintro l ⟨⟩
  exact ⟨_, _, rfl, rfl⟩

theorem guardFreeze : Statement .guardFreeze := by
  rintro l ⟨⟩
  exact ⟨_, _, rfl, rfl⟩

theorem guardRead : Statement .guardRead := by
  rintro l ⟨⟩
  exact ⟨_, _, rfl, rfl⟩

theorem eraseExpiry : Statement .eraseExpiry := by
  intro l h
  cases h

theorem programExpiry (stuck : StuckBits) : Statement (.programExpiry stuck) := by
  intro l h
  cases h

theorem resumeExpiry (stuck : StuckBits) : Statement (.resumeExpiry stuck) := by
  intro l h
  cases h

theorem routeSet (channel source : Byte) : Statement (.routeSet channel source) := by
  rintro l ⟨⟩
  exact ⟨_, _, rfl, rfl⟩

theorem routeRead (channel : Byte) : Statement (.routeRead channel) := by
  rintro l ⟨⟩
  exact ⟨_, _, rfl, rfl⟩

theorem refreshWrite : Statement .refreshWrite := by
  intro l h
  cases h

theorem nextNotice : Statement .nextNotice := by
  rintro l ⟨⟩
  exact ⟨_, _, rfl, rfl⟩

theorem noticeEnable (mask : Byte) : Statement (.noticeEnable mask) := by
  rintro l ⟨⟩
  exact ⟨_, _, rfl, rfl⟩

theorem voidFrame (code : Byte) : Statement (.voidFrame code) := by
  intro l h
  cases h

theorem frameCut (bits : Nat) : Statement (.frameCut bits) := by
  intro l h
  cases h

theorem powerOnReset : Statement .powerOnReset := by
  intro l h
  cases h

theorem pinReset : Statement .pinReset := by
  intro l h
  cases h

theorem resetExit : Statement .resetExit := by
  intro l h
  cases h

theorem frameStart (sckHigh : Bool) : Statement (.frameStart sckHigh) := by
  intro l h
  cases h

end Sys2Proof.Laws.Frames
end

