-- ==== Sys2Proof/Tests/Slice0.lean ====
section
/-! SUPPORT. Tests: what the well-formedness check refuses, single steps on small states with the results
the spec's rules give, and for each statement that has hypotheses a state and operands that meet them. -/

namespace Sys2Proof.Tests

-- One theorem at a time: each kernel evaluation otherwise waits on a thread of its own.
set_option Elab.async false

open Sys2Proof Sys2Proof.Machine

/-! ## What is not well formed -/

theorem test_service_on_has_its_own_row : (Instr.voiceServiceOff 3 1).wellFormed = false := by decide
theorem test_halt_has_its_own_row : (Instr.tuneControlRun 1).wellFormed = false := by decide
theorem test_step_has_its_own_row : (Instr.tuneControlRun 2).wellFormed = false := by decide
theorem test_cancel_has_its_own_row : (Instr.tuneControlRun 3).wellFormed = false := by decide
theorem test_listed_code_is_no_void_frame : (Instr.voidFrame 0x34).wellFormed = false := by decide
theorem test_state_byte_has_no_stuck_bits : (Instr.programExpiry [(0, 1)]).wellFormed = false := by
  decide
theorem test_nor_after_a_suspension : (Instr.resumeExpiry [(5, 1), (0, 8)]).wellFormed = false := by
  decide

/-! ## Helpers -/

/-- The state after a step that goes on. -/
def after (o : Outcome) : Option State :=
  match o with
  | .next t => some t
  | _ => none

/-- The answer bytes after a step that goes on. -/
def answered (o : Outcome) : Option (List Byte) := (after o).map fun t => t.lnk.answer

/-- What every part meets. -/
theorem forall_part {P : Part → Prop} (a : P .A) (b : P .B) : ∀ p, P p
  | .A => a
  | .B => b

/-- A state with the given voices, each on the lists of its state. -/
def placed (f : VoiceNo → Voice) (s : State) : State :=
  { s with val := { s.val with
    voices := tabulate f
    freeList := (List.finRange 16).filter fun v => (f v).status.isFree
    startOrder := ⟨(List.finRange 16).filter fun v => (f v).status.onPart .A,
      (List.finRange 16).filter fun v => (f v).status.onPart .B⟩
    releaseOrder := (List.finRange 16).filter fun v => (f v).status.isReleasing } }

theorem placed_voice (f : VoiceNo → Voice) (s : State) (v : VoiceNo) : (placed f s).voice v = f v :=
  look_tabulate ..

theorem placed_status (f : VoiceNo → Voice) (s : State) (v : VoiceNo) :
    (placed f s).status v = (f v).status := by
  unfold State.status
  rw [placed_voice]

theorem placed_voiceLaw (f : VoiceNo → Voice) (s : State) : VoiceLaw (placed f s) where
  freeNodup := (List.nodup_finRange 16).filter fun v => (f v).status.isFree
  free v := by rw [placed_status]; simp [placed]
  startNodup := forall_part
    ((List.nodup_finRange 16).filter fun v => (f v).status.onPart .A)
    ((List.nodup_finRange 16).filter fun v => (f v).status.onPart .B)
  start := forall_part (fun v => by rw [placed_status]; simp [placed, ByPart.get])
    (fun v => by rw [placed_status]; simp [placed, ByPart.get])
  releaseNodup := (List.nodup_finRange 16).filter fun v => (f v).status.isReleasing
  release v := by rw [placed_status]; simp [placed]

theorem voiceLaw_recompute {s : State} (sel : SourceNo → Bool) (h : VoiceLaw s) :
    VoiceLaw (recompute sel s) where
  freeNodup := h.freeNodup
  free v := by rw [recompute_status]; exact h.free v
  startNodup := h.startNodup
  start p v := by rw [recompute_status]; exact h.start p v
  releaseNodup := h.releaseNodup
  release v := by rw [recompute_status]; exact h.release v

/-! ## A busy part

Part A plays in POLY: key 60 HELD by V0, SUSTAINED by V1, MUTING on V2 and RELEASING on V3, key 64 HELD by
V4. Part B plays in SOLO: V9, V10 and V11 on key 50. V5 is foreground-tuning, V6 background-tuning with a
park reason kept, V7 PARKED, the rest FREE. -/

def note (part : Part) (key : Nat) : Note := { part, key, velocity := 100, pressure := 0 }

def sounding (part : Part) (key index size : Nat) (phase : BoundPhase) : Voice :=
  { Voice.reset with status := .bound (note part key) phase, unisonIndex := index, unisonSize := size }

def busyVoice (v : VoiceNo) : Voice :=
  match v.val with
  | 0 => sounding .A 60 1 4 .held
  | 1 => sounding .A 60 0 4 .sustained
  | 2 => sounding .A 60 2 4 (.muting 800)
  | 3 => sounding .A 60 3 4 (.releasing 800)
  | 4 => sounding .A 64 0 1 .held
  | 5 => { Voice.reset with status := .tuning true none }
  | 6 => { Voice.reset with status := .tuning false (some .host) }
  | 7 => { Voice.reset with status := .parked .noSignal }
  | 9 => sounding .B 50 2 3 .held
  | 10 => sounding .B 50 0 3 (.muting 800)
  | 11 => sounding .B 50 1 3 (.releasing 800)
  | _ => Voice.reset

def busyPlan : List Entry :=
  [{ voice := 5, src := 0, mode := .fg }, { voice := 5, src := 1, mode := .bg },
   { voice := 6, src := 2, mode := .bg }, { voice := 12, src := 0, mode := .bg }]

/-- A patch with one parameter replaced. -/
def patchWith (n : ParamNo) (x : Nat) : Patch := { Patch.init with params := put Patch.init.params n x }

def busy : State :=
  recomputeAll (placed busyVoice { State.reset with
    val := { State.reset.val with
      parts := ⟨{ PartRec.reset with heldKeys := [60, 64] },
        { PartRec.reset with heldKeys := [50], solo := some (setOf [9, 10, 11]) }⟩ }
    tne := { State.reset.tne with plan := busyPlan }
    ebu := { State.reset.ebu with
      buffers := ⟨EditBuffer.reset, { patch := patchWith 64 1023, modified := true }⟩ } })

theorem busy_voiceLaw : VoiceLaw busy := by
  unfold busy recomputeAll
  exact voiceLaw_recompute _ (placed_voiceLaw busyVoice _)

theorem busy_soloLaw : SoloLaw busy := by
  intro p g h
  cases p
  · cases h
  · obtain rfl : setOf [9, 10, 11] = g := Option.some.inj h
    refine ⟨by decide, ?_, ?_⟩ <;> decide +kernel

theorem busy_heldKeysLaw : HeldKeysLaw busy := forall_part (by decide +kernel) (by decide +kernel)

theorem busy_gapLaw : GapLaw busy := by
  unfold GapLaw
  decide +kernel

theorem busy_planLaw : PlanLaw busy where
  nodup := by decide +kernel
  length := by decide +kernel
  tuning := by decide +kernel
  oneBg := by decide +kernel
  fg := by decide +kernel
  current := by intro c h; cases h
  busy := by decide +kernel
  failed := by decide +kernel

theorem busy_busLaw : BusLaw busy where
  reset := by decide +kernel
  engine := by decide +kernel
  scanner := by decide +kernel
  engineWaits := by decide +kernel
  scannerWaits := by decide +kernel
  noWaitOnFree := by decide +kernel
  last := by decide +kernel
  groups := by decide +kernel
  pending := by decide +kernel
  timer := by decide +kernel

theorem busy_hears : hears busy = true := by decide +kernel

theorem busy_codesLaw : CodesLaw busy := fun n => recomputeAll_current _ n

/-! The laws that read the voices alone, or the voices and the solo groups, follow them. -/

theorem voiceLaw_of_val {s t : State} (h : t.val = s.val) (l : VoiceLaw s) : VoiceLaw t := by
  have hs : ∀ v, t.status v = s.status v := fun v => by unfold State.status State.voice; rw [h]
  refine ⟨?_, fun v => ?_, fun p => ?_, fun p v => ?_, ?_, fun v => ?_⟩ <;> rw [h]
  · exact l.freeNodup
  · rw [hs]; exact l.free v
  · exact l.startNodup p
  · rw [hs]; exact l.start p v
  · exact l.releaseNodup
  · rw [hs]; exact l.release v

theorem soloLaw_of_val {s t : State} (h : t.val = s.val) (l : SoloLaw s) : SoloLaw t := by
  have hs : ∀ v, t.status v = s.status v := fun v => by unfold State.status State.voice; rw [h]
  have hv : ∀ v, t.voice v = s.voice v := fun v => by unfold State.voice; rw [h]
  have hp : ∀ p, t.part p = s.part p := fun p => by unfold State.part; rw [h]
  intro p g hg
  rw [hp] at hg
  obtain ⟨h1, h2, h3⟩ := l p g hg
  exact ⟨h1, fun v => by rw [hs]; exact h2 v, fun v w => by rw [hs, hs, hv, hv]; exact h3 v w⟩

/-- Whether a note lies in its ranges. -/
def noteOk (n : Note) : Bool :=
  decide (n.key ≤ 127 ∧ 1 ≤ n.velocity ∧ n.velocity ≤ 127 ∧ n.pressure ≤ 127)

/-- Whether a voice record lies in its ranges. -/
def voiceOk (x : Voice) : Bool :=
  (match x.status with
    | .bound n (.releasing t) => noteOk n && decide (t ≤ 4092 * Config.ticksPerMs)
    | .bound n (.muting t) => noteOk n && decide (t ≤ 15 * Config.ticksPerMs)
    | .bound n _ => noteOk n
    | _ => true) &&
    decide (x.unisonIndex < x.unisonSize ∧ x.unisonSize ≤ 8 ∧ -127 ≤ x.slop ∧ x.slop ≤ 127)

theorem voiceOk_inRange {x : Voice} (h : voiceOk x = true) : x.InRange := by
  obtain ⟨st, i, n, sl, cl⟩ := x
  unfold voiceOk noteOk at h
  rcases st with _ | ⟨n, _ | _ | _ | _⟩ | _ | _ <;>
    simp only [Bool.and_eq_true, decide_eq_true_eq, Bool.true_and] at h
  all_goals
    refine ⟨?_, by tauto⟩
    simp only [VoiceStatus.InRange, BoundPhase.InRange, Note.InRange]
    try tauto

theorem nominal_rising : Rising nominalCodes := by
  unfold Rising
  decide +kernel

theorem init_inRange : Patch.init.InRange := by
  unfold Patch.InRange
  decide +kernel

theorem busy_allocatorRanges : AllocatorRanges busy := by
  refine ⟨fun v => voiceOk_inRange ?_, forall_part ?_ ?_, by decide +kernel⟩
  · revert v; decide +kernel
  · unfold PartRec.InRange; decide +kernel
  · unfold PartRec.InRange; decide +kernel

theorem busy_bufferLaw : BufferLaw busy :=
  forall_part init_inRange (by unfold Patch.InRange; decide +kernel)

theorem busy_recordsLaw : RecordsLaw busy where
  committed n := by
    have h : busy.record n = SourceRec.nominal := look_replicate ..
    rw [h]
    exact nominal_rising
  current c h := by cases h
  stored r h := by cases h
  staged w r h := by cases h

/-! ## The part measuring

The engine holds the bus for a source of V5 or V6; the scanner waits. -/

/-- Nothing of the work copy is measured yet. -/
def freshWork : Vector (Option Nat) 9 := Vector.replicate 9 none

/-- The current entry OSC A of V5 at a breakpoint, with its trial code, count of measurements and
work copy. -/
def current5 (k : Fin 9) (iter trial : Nat) (work : Vector (Option Nat) 9) : Current :=
  { voice := 5, src := 0, k, iter, trial, work }

def measuring (mode : TuneMode) (a : Activity) (c : Current) (s : State) : State :=
  { s with
    tne := { s.tne with mode := mode, activity := a, current := some c }
    psc := { s.psc with
      holder := some .engine, lastHolder := some .engine, scannerWaits := true, phase := .busWait,
      addr := c.voice }
    cvo := { s.cvo with trial := some { source := c.source, code := c.trial } } }

/-- A capture of which the next selected edge closes the gate of an entry. -/
def nearlyClosed (c : Current) : Capture := { count := 290000, edges := 2 ^ c.k.val - 1 }

def gating (c : Current) : State :=
  measuring .run (.gating .rising 1000 (some (nearlyClosed c))) c busy

theorem measuring_voiceLaw {mode : TuneMode} {a : Activity} {c : Current} :
    VoiceLaw (measuring mode a c busy) := voiceLaw_of_val (s := busy) rfl busy_voiceLaw

theorem measuring_soloLaw {mode : TuneMode} {a : Activity} {c : Current} :
    SoloLaw (measuring mode a c busy) := soloLaw_of_val (s := busy) rfl busy_soloLaw

theorem measuring_planLaw {mode : TuneMode} {a : Activity} {c : Current}
    (v : c.voice = 5 ∧ c.src = 0 ∨ c.voice = 6 ∧ c.src = 2) : PlanLaw (measuring mode a c busy) where
  nodup := busy_planLaw.nodup
  length := busy_planLaw.length
  tuning := busy_planLaw.tuning
  oneBg := busy_planLaw.oneBg
  fg := busy_planLaw.fg
  current x h := by
    obtain rfl : c = x := Option.some.inj h
    have h5 : inPlan busy 5 0 = true ∧ (busy.status 5).isTuning = true := by decide +kernel
    have h6 : inPlan busy 6 2 = true ∧ (busy.status 6).isTuning = true := by decide +kernel
    rcases v with ⟨h1, h2⟩ | ⟨h1, h2⟩ <;> rw [h1, h2]
    · exact h5
    · exact h6
  busy _ := rfl
  failed := busy_planLaw.failed

theorem measuring_busLaw {mode : TuneMode} {a : Activity} {c : Current} (h : a.holdsBus = true) :
    BusLaw (measuring mode a c busy) where
  reset x := absurd rfl x
  engine := ⟨fun _ => rfl, fun _ => h⟩
  scanner := by constructor <;> intro x <;> cases x
  engineWaits := by cases a <;> first | exact absurd h (by decide) | (constructor <;> intro x <;> cases x)
  scannerWaits := ⟨fun _ => rfl, fun _ => rfl⟩
  noWaitOnFree x := by cases x
  last _ := rfl
  groups := by constructor <;> intro x <;> cases x
  pending x := by cases x
  timer _ := .inl rfl

theorem measuring_recordsLaw {mode : TuneMode} {a : Activity} {c : Current} (h : c.Lawful) :
    RecordsLaw (measuring mode a c busy) where
  committed := busy_recordsLaw.committed
  current x hx := by cases hx; exact h
  stored := busy_recordsLaw.stored
  staged := busy_recordsLaw.staged

/-- The first measurement of an entry. -/
def first : Current := current5 4 0 29696 freshWork

/-- The work copy with 4 to 8 measured. -/
def upperWork : Vector (Option Nat) 9 :=
  tabulate fun j => if 4 ≤ j.val then some (4096 + 6400 * j.val) else none

/-- The work copy with all but breakpoint 0 measured. -/
def nearlyDone : Vector (Option Nat) 9 :=
  tabulate fun j => if 1 ≤ j.val then some (4096 + 6400 * j.val) else none

theorem first_lawful : first.Lawful := by
  unfold Current.Lawful
  refine ⟨by decide +kernel, ?_, ?_, by decide, by decide⟩
  · intro i j x y h; simp [first, current5, freshWork] at h
  · intro j x h; simp [first, current5, freshWork] at h

/-- Whether a work copy rises, within 0..65535. -/
def workOk (w : Vector (Option Nat) 9) : Bool :=
  (List.finRange 9).all fun i =>
    match look w i with
    | none => true
    | some x => decide (x ≤ 65535) && (List.finRange 9).all fun j =>
      match look w j with
      | none => true
      | some y => decide (i < j → x < y)

theorem lawful_of_ok {c : Current} (w : workOk c.work = true)
    (m : ∀ j, (look c.work j).isSome = true ↔ rank j < rank c.k) (t : c.trial ≤ 65535)
    (i : c.iter < 6) : c.Lawful := by
  simp only [workOk, List.all_eq_true, List.mem_finRange, forall_const] at w
  refine ⟨m, fun a b x y ha hb hab => ?_, fun a x ha => ?_, t, i⟩
  · have := w a
    rw [ha] at this
    simp only [Bool.and_eq_true, List.all_eq_true, List.mem_finRange, forall_const] at this
    have := this.2 b
    rw [hb] at this
    simpa using of_decide_eq_true this hab
  · have := w a
    rw [ha] at this
    simp only [Bool.and_eq_true, decide_eq_true_eq] at this
    exact this.1

/-- Breakpoint 0 is the last. -/
def last : Current := current5 0 5 4095 nearlyDone

theorem last_lawful : last.Lawful :=
  lawful_of_ok (by decide +kernel) (by decide +kernel) (by decide) (by decide)

/-- Breakpoint 5 with a trial code at the end of the range, below or above what breakpoint 4 took. -/
def atEnd (trial : Nat) : Current :=
  current5 5 5 trial (put freshWork 4 (some 29696))

theorem atEnd_lawful {trial : Nat} (h : trial ≤ 65535) : (atEnd trial).Lawful :=
  lawful_of_ok (show workOk (put freshWork 4 (some 29696)) = true by decide +kernel)
    (show ∀ j, (look (put freshWork 4 (some 29696)) j).isSome = true ↔ rank j < rank 5 by
      decide +kernel) h (show 5 < 6 by decide)

/-! ## Variants of the busy part -/

/-- Part p's live patch has one parameter replaced. -/
def patched (p : Part) (n : ParamNo) (x : Nat) (s : State) : State :=
  s.setBuffer p { s.buffer p with patch := { s.patch p with params := put (s.patch p).params n x } }

/-- Held in a pin reset, over a system area. -/
def held (a : SysArea) : State :=
  { State.reset with run := .inPinReset, psc := Psc.reset, smc := { Smc.reset with sys := a } }

/-- A frame that began in reset is still on the link. -/
def deaf : State := { busy with lnk := { busy.lnk with deaf := true } }

/-- What is left of a frame that a reset found is still on the link, with this frame begun since. -/
def leftover (f : FrameState) : State :=
  { busy with lnk := { busy.lnk with frame := f, tail := true } }

/-- A write of the init patch to slot 3 in flight. -/
def writing (phase : NvPhase) (resume : Option Countdown) (remaining : Nat) : State :=
  { busy with smc := { busy.smc with
    slots := [(384, if phase = .erase then 0x00 else 0x7F), (600, 0x12)]
    write := some { job := .store 3 (patchImage Patch.init), phase, remaining, resume } } }

/-- Another job in flight; a slot's state byte is that of the phase. -/
def doing (job : Job) (phase : NvPhase) : State :=
  { busy with smc := { busy.smc with
    slots := [(384, if phase = .erase then 0x00 else 0x7F)]
    sys := { state := if phase = .erase then 0x00 else 0x7F, contents := none }
    write := some { job, phase, remaining := 0, resume := none } } }

/-- No bank is protected. -/
def unguarded (s : State) : State :=
  { s with smc := { s.smc with guard := { extent := 0, high := false, invert := false } } }

/-! ## The queue, the clock, resets and the link -/

theorem witness_IdleStepLetsOneTickPass :
    busy.pending = [] ∧ busy.run = .running ∧
    (held State.reset.smc.sys).pending = [] ∧ (held State.reset.smc.sys).run ≠ .running ∧
    (∃ n, busy.status 3 = .bound n (.releasing 800)) ∧ (∃ n, busy.status 2 = .bound n (.muting 800)) ∧
    (measuring .run (.gating .falling 1 (some { count := 639998, edges := 3 })) first busy).tne.activity =
      .gating .falling 1 (some { count := 639998, edges := 3 }) ∧
    (writing .erase (some ⟨1, false⟩) 0).smc.write ≠ none ∧ (writing .program none 1).smc.write ≠ none :=
  ⟨by decide +kernel, rfl, rfl, by decide, ⟨note .A 60, by decide +kernel⟩,
    ⟨note .A 60, by decide +kernel⟩, rfl,
    by decide +kernel, by decide +kernel⟩

theorem witness_NothingIsHeardInReset :
    (held State.reset.smc.sys).run ≠ .running ∧ deaf.run = .running ∧ deaf.lnk.deaf = true ∧
    isHostCommand (.noteStart 0 60 100) = true ∧ isHostCommand .minuteEvent = false ∧
    hears (leftover .idle) = true ∧ (leftover .idle).lnk.frame = .idle ∧
    (leftover .idle).lnk.tail = true ∧
    ∀ f ∈ [FrameState.idle, .receiving, .taken, .void], (leftover f).lnk.frame = f := by
  decide +kernel

theorem witness_ResetsGiveEveryBlockItsResetValues :
    busy.smc.write = none ∧ (writing .erase none 9).smc.write ≠ none := by decide +kernel

theorem init_image : (patchImage Patch.init).length = 128 ∧ (patchImage Patch.init).head? = some 0x3F := by
  decide +kernel

theorem writing_writeLaw (phase : NvPhase) (resume : Option Countdown) (remaining : Nat) :
    WriteLaw (writing phase resume remaining) := by
  intro w h
  cases h
  refine ⟨?_, ?_, fun n img hj => ?_⟩
  · cases phase <;> rfl
  · intro h
    cases h
  · rcases hj with hj | hj <;> cases hj
    exact init_image

theorem witness_AbortedWriteLeavesTargetDamaged : ∀ phase : NvPhase,
    WriteLaw (writing phase none 9) ∧ ∃ w, (writing phase none 9).smc.write = some w ∧
      w.phase = phase ∧ w.job.slot? = some 3 :=
  fun phase => ⟨writing_writeLaw phase none 9, _, rfl, rfl, rfl⟩

theorem doing_writeLaw (job : Job) (phase : NvPhase)
    (h : job.slot? = some 3 ∨ job.slot? = none) (c : job.op = .clear → phase = .erase)
    (i : ∀ n img, job = .store n img ∨ job = .write n img → img = patchImage Patch.init) :
    WriteLaw (doing job phase) := by
  intro w hw
  cases hw
  refine ⟨?_, c, fun n img hj => i n img hj ▸ init_image⟩
  unfold targetState
  rcases h with h | h <;> rw [h] <;> cases phase <;> rfl

/-- A system record on its way. -/
theorem witness_AbortedSystemWrite : ∀ phase : NvPhase,
    WriteLaw (doing (.calSave (sysImage busy Guard.all)) phase) ∧
      ∃ w, (doing (.calSave (sysImage busy Guard.all)) phase).smc.write = some w ∧ w.phase = phase ∧
        w.job.slot? = none :=
  fun phase => ⟨doing_writeLaw _ _ (.inr rfl) (fun x => by cases x) (by rintro _ _ (h | h) <;> cases h),
    _, rfl, rfl, rfl⟩

theorem held_resetLaw (a : SysArea) : ResetLaw (held a) :=
  fun _ => ⟨rfl, rfl, rfl, rfl, rfl, rfl, rfl, rfl, rfl, rfl, rfl⟩

theorem witness_ResetExitLoadsAndStarts :
    (∃ r : SysRecord, r.passes = true ∧
      (held { state := 0x3F, contents := some r }).run ≠ .running ∧
      ResetLaw (held { state := 0x3F, contents := some r })) ∧
    (held { state := 0xFF, contents := none }).run ≠ .running ∧
    ResetLaw (held { state := 0xFF, contents := none }) ∧
    (∃ r : SysRecord, r.passes = false ∧
      ResetLaw (held { state := 0x3F, contents := some r })) :=
  ⟨⟨sysImage busy Guard.all, by decide +kernel, by decide, held_resetLaw _⟩, by decide,
    held_resetLaw _, ⟨{ sysImage busy Guard.all with check := 1 }, by decide +kernel, held_resetLaw _⟩⟩

/-- Each argument just beyond what it may name, and just within. -/
theorem witness_ArgumentThatNamesNothingIsRefused : hears busy = true ∧
    (∀ c ∈ ([.noteStart 2 0 0, .noteStart 1 128 0, .noteEnd 0 128, .notePressure 255 1 1, .sustain 0 2,
      .performanceSet 0 4 0, .allNotesClear 3, .voiceRead 16, .partSettings 0 0 2, .voiceServiceOff 16 0,
      .voiceServiceOff 0 2, .voiceServiceOn 255, .scaleSet 2 (Vector.replicate 12 0), .overrideSet 1 128 0,
      .overrideClear 2 0 0, .overrideClear 0 2 0, .calRead 48, .tuneSettings 0 0 0 2 0 0, .tuneAdd 1 8 0,
      .tuneAdd 1 7 2, .tuneControlRun 4, .scheduleSet 2 4 0, .profileSet 4 0 0, .potRead 96,
      .paramWrite 0 80 0, .paramRead 0 81, .nameSet 2 (Vector.replicate 23 0x41) 0, .potMapSet 96 0 0 0 0,
      .potMapSet 0 5 0 0 0, .potMapSet 0 4 80 0 0, .potMapSet 0 1 79 3 0, .switchMapSet 32 0 0 0 0,
      .switchMapSet 0 3 0 0 0, .switchMapSet 0 1 0 0 2, .switchMapSet 0 2 3 0 0, .focusSet 3,
      .patchStore 0 256, .slotWrite 256 (Vector.replicate 23 0x41) 0 (Vector.replicate 80 0),
      .slotClear 65535, .patchRecall 0 2, .slotRead 256, .guardSet 6 0 0, .guardSet 5 2 0,
      .routeSet 128 255, .routeSet 0 216, .routeSet 0 254, .routeRead 128] : List Instr),
      namesNothing c = true) ∧
    (∀ c ∈ ([.noteStart 1 127 0, .allNotesClear 2, .voiceRead 15, .tuneAdd 0 7 1, .paramRead 1 80,
      .potMapSet 95 0 255 255 3, .potMapSet 95 4 79 2 3, .switchMapSet 31 1 4 79 255,
      .switchMapSet 31 2 2 255 255, .guardSet 5 1 1, .routeSet 127 215, .routeSet 127 255] :
      List Instr), namesNothing c = false) := by decide +kernel

theorem witness_FramesStartWithTheStatusAndFailWithAMark :
    busy.run = .running ∧ hears busy = true ∧ Frame.listed 0x22 = false ∧
    (Frame.bytes .calSave).isSome = true ∧ deaf.lnk.deaf = true ∧
    (held State.reset.smc.sys).run ≠ .running ∧
    ∀ f ∈ [FrameState.idle, .receiving, .taken, .void],
      hears (leftover f) = true ∧ (leftover f).lnk.frame = f := by decide +kernel

/-- TUNE DONE, of a class that is off, stands before POT MOVED of one that is on. -/
def marked : State :=
  { busy with lnk := { busy.lnk with
    notices := (busy.lnk.notices.set .tuneDone).set (.potMoved 3), enable := 0x40 } }

theorem witness_NextNoticeTakesTheHighestEnabledMark :
    hears busy = true ∧ (∀ m ∈ busy.lnk.notices.present, m.enabled busy.lnk.enable = false) ∧
    hears marked = true ∧ (∃ m ∈ marked.lnk.notices.present, m.enabled marked.lnk.enable = true) ∧
    marked.lnk.notices.present = [.tuneDone, .potMoved 3] := by decide +kernel

theorem witness_FrameDecodeReadsBackEveryHostCommand :
    ∀ c ∈ ([.voiceServiceOff 255 255, .voiceServiceOn 255, .tuneControlRun 255, .tuneControlHalt,
      .overrideSet 255 255 0xFFFFFF, .scaleSet 1 (Vector.replicate 12 0xFE0C), .calSave,
      .slotWrite 0xFFFF (Vector.replicate 23 0x20) 15 (Vector.replicate 80 1023)] : List Instr),
      c.wellFormed = true ∧ (Frame.bytes c).isSome = true := by decide +kernel

/-! ## Notes -/

theorem witness_HeldKeyListTakesAndDropsKeys :
    ([60, 64] : List Nat).Nodup ∧ 60 ∈ ([60, 64] : List Nat) ∧ 61 ∉ ([60, 64] : List Nat) ∧
    (List.range 16).Nodup ∧ (List.range 16).length = 16 ∧ 127 ∉ List.range 16 := by decide +kernel

/-- Each policy that the search follows, a search that fills, and one that ends short. -/
theorem witness_CandidateSearchFollowsItsFiveSteps : VoiceLaw busy ∧
    (busy.patch .A).allocPolicy = .rotate ∧ (busy.patch .A).stealPolicy = .oldest ∧
    ((patched .A 67 512 busy).patch .A).allocPolicy = .oldestFree ∧
    ((patched .A 67 1023 busy).patch .A).allocPolicy = .lowest ∧
    ((patched .A 68 512 busy).patch .A).stealPolicy = .quietest ∧
    ((patched .A 68 1023 busy).patch .A).stealPolicy = .none ∧
    search busy .A 60 = [(3, .reclaim)] ∧
    search (patched .A 65 1023 (busy.modPart .A fun r => { r with pool := 0x40 })) .A 60 =
      [(3, .reclaim), (6, .background), (1, .steal), (0, .steal)] := by
  refine ⟨busy_voiceLaw, ?_⟩
  decide +kernel

theorem witness_PolyStartOfASoundingKeyRetriggers :
    hears busy = true ∧ VoiceLaw busy ∧ (busy.patch .A).keyMode = .poly ∧
    ∃ v, (busy.status v).onKey .A 60 = true ∧ (busy.status v).isSounding = true :=
  ⟨busy_hears, busy_voiceLaw, by decide +kernel, 0, by decide +kernel⟩

/-- The first measurement of an entry of V6. -/
def current6 : Current :=
  { voice := 6, src := 2, k := 4, iter := 0, trial := 29696, work := freshWork }

/-- Part A may use V6 alone, which is under measurement, with eight voices wanted. -/
def wanting : State :=
  patched .A 65 1023
    ((measuring .run (.settling 9) current6 busy).modPart .A fun r => { r with pool := 0x40 })

/-- Part B plays in SOLO and has no group. -/
def groupless : State := busy.modPart .B fun r => { r with solo := none }

/-- No voice may be taken for part B: its group is gone, its pool is empty and it steals nothing. -/
def poolless : State :=
  patched .B 68 1023 (busy.modPart .B fun r => { r with pool := 0, solo := none })

theorem witness_SearchedNoteStartPlacesTheFoundVoices :
    (hears busy = true ∧ VoiceLaw busy ∧ (busy.patch .A).keyMode = .poly ∧
      (∀ v, (busy.status v).onKey .A 127 = true → (busy.status v).isSounding = false) ∧
      search (busy.setKeys .A (enterKey 127 (busy.part .A).heldKeys)) .A 127 = [(8, .free)]) ∧
    (hears groupless = true ∧ (groupless.patch .B).keyMode = .solo ∧ (groupless.part .B).solo = none ∧
      search (groupless.setKeys .B (enterKey 0 (groupless.part .B).heldKeys)) .B 0 = [(8, .free)]) ∧
    (hears wanting = true ∧ (wanting.patch .A).keyMode = .poly ∧
      (6, .background) ∈ search (wanting.setKeys .A (enterKey 72 (wanting.part .A).heldKeys)) .A 72 ∧
      (wanting.tne.current.map Current.voice) = some 6) ∧
    (hears poolless = true ∧ (poolless.patch .B).keyMode = .solo ∧ (poolless.part .B).solo = none ∧
      search (poolless.setKeys .B (enterKey 127 (poolless.part .B).heldKeys)) .B 127 = []) := by
  refine ⟨⟨busy_hears, busy_voiceLaw, ?_⟩, ?_⟩ <;> decide +kernel

theorem witness_SearchedNoteStart_laws :
    VoiceLaw wanting ∧ BusLaw wanting ∧ VoiceLaw groupless := by
  have h : BusLaw (measuring .run (.settling 9) current6 busy) := measuring_busLaw rfl
  have l := busy_voiceLaw
  refine ⟨?_, ⟨h.reset, h.engine, h.scanner, h.engineWaits, h.scannerWaits, h.noWaitOnFree, h.last,
    h.groups, h.pending, h.timer⟩, ?_⟩ <;>
  exact ⟨l.freeNodup, l.free, l.startNodup, l.start, l.releaseNodup, l.release⟩

theorem witness_SoloStartWithAnotherKeyHeldIsALegatoMove :
    hears busy = true ∧ SoloLaw busy ∧ (busy.patch .B).keyMode = .solo ∧
    (busy.part .B).solo = some (setOf [9, 10, 11]) ∧
    ∃ q ∈ enterKey 55 (busy.part .B).heldKeys, q ≠ 55 := by
  refine ⟨busy_hears, busy_soloLaw, ?_⟩
  decide +kernel

theorem witness_SoloStartWithNoOtherKeyRetriggersTheGroup :
    hears busy = true ∧ VoiceLaw busy ∧ SoloLaw busy ∧ (busy.patch .B).keyMode = .solo ∧
    (busy.part .B).solo = some (setOf [9, 10, 11]) ∧
    ∀ q ∈ enterKey 50 (busy.part .B).heldKeys, q = 50 := by
  refine ⟨busy_hears, busy_voiceLaw, busy_soloLaw, ?_⟩
  decide +kernel

theorem witness_PolyEndSendsTheKeysVoicesOn :
    hears busy = true ∧ VoiceLaw busy ∧ (busy.patch .A).keyMode = .poly ∧
    (∃ v, (busy.status v).onKey .A 60 = true ∧
      ((busy.status v).isHeld = true ∨ (busy.status v).isMuting = true)) ∧
    SoloLaw busy ∧ ∀ v, ¬((busy.status v).onKey .A 127 = true ∧
      ((busy.status v).isHeld = true ∨ (busy.status v).isMuting = true)) := by
  refine ⟨busy_hears, busy_voiceLaw, by decide +kernel, ⟨0, by decide +kernel⟩, busy_soloLaw,
    by decide +kernel⟩

/-- Part B with these keys held. -/
def holding (l : List Nat) : State := busy.setKeys .B l

theorem holding_soloLaw (l : List Nat) : SoloLaw (holding l) := by
  intro p g h
  cases p
  · cases h
  · exact busy_soloLaw .B g h

theorem holding_voiceLaw (l : List Nat) : VoiceLaw (holding l) :=
  have h := busy_voiceLaw
  ⟨h.freeNodup, h.free, h.startNodup, h.start, h.releaseNodup, h.release⟩

theorem holding_hears (l : List Nat) : hears (holding l) = true := busy_hears

/-- A key not held; a held key that the group is not on; the sounding key with a key left, and as the last
one. -/
theorem witness_SoloEndReturnsToTheNewestKeyOrLetsGo :
    (∀ l, hears (holding l) = true ∧ SoloLaw (holding l) ∧ VoiceLaw (holding l)) ∧
    (busy.patch .B).keyMode = .solo ∧ 51 ∉ ((holding [50]).part .B).heldKeys ∧
    ((holding [52, 50]).part .B).solo = some (setOf [9, 10, 11]) ∧
    52 ∈ ((holding [52, 50]).part .B).heldKeys ∧
    (∀ v, inSet (setOf [9, 10, 11]) v = true → (busy.status v).onKey .B 52 = false) ∧
    (∀ v, inSet (setOf [9, 10, 11]) v = true → ((holding [52, 50]).status v).onKey .B 50 = true) ∧
    ((((holding [52, 50]).part .B).heldKeys.filter fun q => q ≠ 50).getLast? = some 52) ∧
    ∀ q ∈ ((holding [50]).part .B).heldKeys, q = 50 := by
  refine ⟨fun l => ⟨holding_hears l, holding_soloLaw l, holding_voiceLaw l⟩, ?_⟩
  decide +kernel

theorem witness_PressureAndSustainReachTheirVoices :
    hears busy = true ∧ VoiceLaw busy ∧
    (∀ v, ((busy.status v).onKey .A 127 && (busy.status v).isSounding) = false) ∧
    (∃ v, ((busy.status v).onKey .A 60 && (busy.status v).isSounding) = true) ∧
    (busy.part .A).sustain = false ∧
    ((busy.modPart .A fun r => { r with sustain := true }).part .A).sustain = true := by
  refine ⟨busy_hears, busy_voiceLaw, by decide +kernel, ⟨1, by decide +kernel⟩, by decide +kernel⟩

/-- A bend that stays and one that changes; a glide of the other part. -/
theorem witness_PartControlsAreStoredAndFollowed : hears busy = true ∧
    (busy.part .A).bend = max (-8192) (min 8191 (0 : BitVec 16).toInt) ∧
    (busy.part .A).bend ≠ max (-8192) (min 8191 (0x7FFF : BitVec 16).toInt) ∧
    (busy.glide 0).part ≠ .B := by decide +kernel

theorem witness_SlopSourceAdvancesAndLoads :
    hears busy = true ∧ (1 : BitVec 16) ≠ 0 ∧ (0xFFFF : BitVec 16) ≠ 0 := by decide +kernel

theorem witness_AllNotesClearFreesTheNamedParts : hears busy = true ∧ VoiceLaw busy ∧ SoloLaw busy ∧
    (busy.status 0).onPart .A = true ∧ (busy.status 9).onPart .B = true :=
  ⟨busy_hears, busy_voiceLaw, busy_soloLaw, by decide +kernel⟩

/-- A TUNING voice under measurement, one that is not, and a PARKED one. -/
theorem witness_VoiceServiceParksAndReturns :
    hears (gating first) = true ∧ VoiceLaw (gating first) ∧ PlanLaw (gating first) ∧
    BusLaw (gating first) ∧ first.voice = 5 ∧ ((gating first).status 6).isTuning = true ∧
    ∃ r, (gating first).status 7 = .parked r :=
  ⟨by decide +kernel, measuring_voiceLaw, measuring_planLaw (.inl ⟨rfl, rfl⟩), measuring_busLaw rfl, rfl,
    by decide +kernel, .noSignal, by decide +kernel⟩

theorem witness_ExpiriesMoveTheVoiceOn : busy.run = .running ∧ VoiceLaw busy ∧
    (∃ n d, busy.status 2 = .bound n (.muting d)) ∧ (busy.status 3).isMuting = false ∧
    (∃ n d, busy.status 3 = .bound n (.releasing d)) ∧ (busy.status 2).isReleasing = false ∧
    ∀ late, ∃ x, look (busy.setGap 0 (some ⟨0, late⟩)).cvo.gaps 0 = some x ∧ x.late = late :=
  ⟨rfl, busy_voiceLaw, ⟨note .A 60, 800, by decide +kernel⟩, by decide +kernel,
    ⟨note .A 60, 800, by decide +kernel⟩,
    by decide +kernel, fun late => ⟨⟨0, late⟩, by simp, rfl⟩⟩

/-! ## Pitch -/

/-- V0 glides up by an octave and a half, V4 down by one dc. -/
def gliding : State :=
  (busy.setGlide 0 { part := .A, key := 60, target := 60000, pos := 42000, timer := some 1 }).setGlide 4
    { part := .A, key := 60, target := 60000, pos := 60001, timer := some 1 }

theorem witness_GlideRateFallsFrom1023To1 : (1 ≤ 1 ∧ 1023 ≤ 1023) ∧
    ({ part := .A, key := 60, target := 54000, pos := 42000, timer := none } : Glide).target =
      42000 + 12000 ∧
    gliding.run = .running ∧ (gliding.glide 0).pos ≠ (gliding.glide 0).target := by decide +kernel

theorem witness_GlideUpdateMovesTowardTheTarget : gliding.run = .running ∧
    (gliding.glide 0).pos ≠ (gliding.glide 0).target ∧
    (gliding.glide 4).pos ≠ (gliding.glide 4).target ∧
    (gliding.glide 9).pos = (gliding.glide 9).target := by decide +kernel

/-- The override map holds this many entries, of part A from key 0 on. -/
def mapped (n : Nat) : State :=
  { busy with ptu := { busy.ptu with
    overrides := (List.range n).map fun k => { part := .A, key := k, pitch := 60500 } } }

theorem witness_PitchCommandsMoveTheVoicesOnThem : hears (mapped 32) = true ∧
    overridePitch (mapped 32) .B 127 = none ∧ 32 ≤ (mapped 32).ptu.overrides.length ∧
    (overridePitch (mapped 32) .A 31).isSome = true ∧ hears (mapped 31) = true ∧
    (mapped 31).ptu.overrides.length < 32 := by decide +kernel

/-- A pitch in every case: below, at the first breakpoint, at the top of the last segment, at and above
the last breakpoint. -/
theorem witness_SegmentAndFractionOfAPitch :
    ((20999 : Int) < 21000) ∧ ((21000 : Int) ≤ 116999) ∧ ((117000 : Int) ≤ 117000) ∧
    (116999 : Int) ≤ 116999 ∧ (21000 : Int) = 21000 + 12000 * ((0 : Fin 8).val : Int) ∧
    (117000 : Int) = 21000 + 12000 * ((8 : Fin 9).val : Int) := by decide

theorem witness_ConversionFollowsTheBreakpoints : Rising nominalCodes ∧ (13319 : Int) ≤ 13320 :=
  ⟨nominal_rising, by decide⟩

theorem witness_UnisonOffsetsSpreadSymmetrically : (1 ≤ 1) ∧ (1023 ≤ 1023) ∧ 7 < 8 := by decide

theorem witness_SourcePitchFollowsTheChain :
    (∃ f r, busy.status 6 = .tuning f r) ∧ Rising (busy.record (sourceNo 6 0)).codes ∧
    (∃ r, busy.status 7 = .parked r) ∧ (busy.status 0).isTuning = false ∧
    ∀ r, busy.status 0 ≠ .parked r :=
  ⟨⟨false, some .host, by decide +kernel⟩, busy_recordsLaw.committed _, ⟨.noSignal, by decide +kernel⟩,
    by decide +kernel, fun r => by cases r <;> decide +kernel⟩

/-! ## Reads and settings -/

theorem witness_ReadsAnswerWhatTheStateHolds : hears (gating first) = true ∧
    PlanLaw (gating first) ∧ (gating first).tne.current = some first ∧
    { voice := 5, src := 0, mode := .fg } ∈ (gating first).tne.plan ∧
    (gating first).tne.lastM = none ∧ busy.tne.current = none ∧
    hears ((gating first).setLastM (some 581818)) = true :=
  ⟨by decide +kernel, measuring_planLaw (.inl ⟨rfl, rfl⟩), rfl, by decide +kernel, rfl, rfl,
    by decide +kernel⟩

theorem witness_TuneSettingsAreClampedAndEchoed :
    hears busy = true ∧ 1 < (2 : Byte).toNat ∧ 1 < (255 : Byte).toNat := by decide +kernel

theorem witness_SettingCommandsStoreWhatTheyAnswer : hears busy = true ∧
    (47 < 48 ∧ routable 47 (.pitch 47) = true) ∧ routable 48 (.pitch 0) = false ∧
    routable 48 (.velocity 0) = true ∧ routable 47 (.velocity 0) = false ∧
    routable 0 .zero = true ∧ routable 127 .zero = true := by decide +kernel

theorem witness_PotMapSetReArmsBothParts : hears busy = true := busy_hears

/-! ## The slot memory -/

theorem witness_StoreThenRecallRestoresThePatch : Patch.init.InRange ∧
    hears (unguarded busy) = true ∧ slotGuarded (unguarded busy) 255 = false ∧
    (unguarded busy).smc.write = none ∧ BufferLaw (unguarded busy) ∧ MemoryLaw (unguarded busy) :=
  ⟨init_inRange, by decide +kernel, by decide +kernel, rfl, busy_bufferLaw, by unfold MemoryLaw; decide +kernel⟩

theorem witness_WritesAreAcceptedOrRefused : hears busy = true ∧ slotGuarded busy 0 = true ∧
    slotGuarded (unguarded busy) 0 = false ∧ busy.smc.write = none ∧
    hears (writing .erase none 9) = true ∧ (writing .erase none 9).smc.write ≠ none ∧
    slotGuarded (unguarded (writing .erase none 9)) 3 = false ∧ busy.smc.guard.extent ≤ 5 ∧
    RecordsLaw busy ∧ busy.smc.frozen = false ∧
    hears { busy with smc := { busy.smc with frozen := true } } = true := by
  refine ⟨busy_hears, ?_, ?_, rfl, ?_, ?_, ?_, ?_, busy_recordsLaw, rfl, busy_hears⟩ <;> decide +kernel

theorem doing_memoryLaw (job : Job) (phase : NvPhase) : MemoryLaw (doing job phase) := by
  cases phase
  · exact (by decide : Memory.wf [(384, 0x00)] = true)
  · exact (by decide : Memory.wf [(384, 0x7F)] = true)

/-- The jobs that a write can have, in each phase they have; stuck bits that make no difference, that make
one in a slot's image, and in the system record; no bits at all. -/
theorem witness_WritePhasesRunToTheirEnd :
    (∀ j ∈ [Job.store 3 (patchImage Patch.init), .write 3 (patchImage Patch.init), .clear 3,
      .calSave (sysImage busy Guard.all), .guardSet (sysImage busy Guard.all)],
      (doing j .erase).run = .running ∧ WriteLaw (doing j .erase) ∧
        (j.op ≠ .clear → WriteLaw (doing j .program)) ∧
        ∀ phase, MemoryLaw (doing j phase)) ∧
    StuckBits.ok [(1, 1)] = true ∧
    (∀ x ∈ ([(1, 1)] : StuckBits), x.2 ||| (patchImage Patch.init).getD x.1.val 0 =
      (patchImage Patch.init).getD x.1.val 0) ∧
    StuckBits.ok [(127, 0x80)] = true ∧
    (∃ x ∈ ([(127, 0x80)] : StuckBits), x.2 ||| (patchImage Patch.init).getD x.1.val 0 ≠
      (patchImage Patch.init).getD x.1.val 0) ∧
    (∀ x ∈ ([(1, 0)] : StuckBits), x.2 = 0) ∧ StuckBits.ok [(1, 0)] = true := by
  have h1 : (patchImage Patch.init).getD 1 0 = 0x01 := by decide +kernel
  have h127 : (patchImage Patch.init).getD 127 0 = 0x00 := by decide +kernel
  refine ⟨fun j hj => ?_, by decide, ?_, by decide,
    ⟨(127, 0x80), List.mem_singleton.2 rfl, ?_⟩, fun x hx => by cases List.mem_singleton.1 hx; rfl, by decide⟩
  rotate_left
  · intro x hx
    cases List.mem_singleton.1 hx
    show 1#8 ||| (patchImage Patch.init).getD 1 0 = (patchImage Patch.init).getD 1 0
    rw [h1]
    decide
  · show 0x80#8 ||| (patchImage Patch.init).getD 127 0 ≠ (patchImage Patch.init).getD 127 0
    rw [h127]
    decide
  simp only [List.mem_cons, List.not_mem_nil, or_false] at hj
  have hi : ∀ n img, j = .store n img ∨ j = .write n img → img = patchImage Patch.init := by
    rcases hj with rfl | rfl | rfl | rfl | rfl <;> rintro _ _ (h | h) <;> cases h <;> rfl
  have ht : j.slot? = some 3 ∨ j.slot? = none := by
    rcases hj with rfl | rfl | rfl | rfl | rfl <;> simp [Job.slot?]
  exact ⟨rfl, doing_writeLaw j .erase ht (fun _ => rfl) hi,
    fun hc => doing_writeLaw j .program ht (fun x => absurd x hc) hi, doing_memoryLaw j⟩

theorem witness_SuspensionHoldsTheWriteBack : busy.run = .running ∧ busy.smc.write = none ∧
    (hears (writing .erase (some ⟨0, false⟩) 0) = true ∧ (Job.store 3 []).slot? ≠ some 4) ∧
    ∀ phase ∈ [NvPhase.erase, .program],
    ∀ resume ∈ [none, some ⟨1600, false⟩, some ⟨1600, true⟩, some ⟨0, false⟩], ∀ left ∈ [0, 1],
      (writing phase resume left).run = .running ∧
      ∃ w, (writing phase resume left).smc.write = some w ∧ w.phase = phase ∧ w.resume = resume ∧
        w.remaining = left :=
  ⟨rfl, rfl, ⟨rfl, by decide⟩, fun _ _ _ _ _ _ => ⟨rfl, _, rfl, rfl, rfl, rfl⟩⟩

/-- Slot 5 holds a patch in SOLO key mode. -/
def stored : State :=
  { writing .program none 9 with smc := { (writing .program none 9).smc with
    slots := memWriteAll [] (slotBase 5) (patchImage (patchWith 64 1023)) } }

/-- An erased, a damaged and two valid slots, read with a write in flight on its own target and off it. -/
theorem witness_SlotReadAndRecallReadTheSlot : hears stored = true ∧ hears busy = true ∧
    busy.smc.write = none ∧ (∃ w, stored.smc.write = some w ∧ w.job.slot? = some 3) ∧
    readout (slotBytes stored 3) = .valid Patch.init ∧
    readout (slotBytes stored 5) = .valid (patchWith 64 1023) ∧
    readout (slotBytes stored 255) = .erased ∧
    readout (slotBytes (doing (.clear 4) .erase) 3) = .damaged ∧
    readout (slotBytes (doing (.clear 4) .erase) 4) = .erased ∧
    (stored.patch .A).keyMode ≠ (patchWith 64 1023).keyMode ∧
    (stored.patch .B).keyMode = (patchWith 64 1023).keyMode := by
  refine ⟨by decide +kernel, busy_hears, rfl, ⟨_, rfl, rfl⟩, ?_⟩
  decide +kernel

theorem witness_SlotRead_laws : VoiceLaw stored ∧ SoloLaw stored :=
  ⟨voiceLaw_of_val (s := busy) rfl busy_voiceLaw, soloLaw_of_val (s := busy) rfl busy_soloLaw⟩

/-! ## The Tune Engine -/

/-- V0, FREE V8, PARKED V7 and the two TUNING voices asked in mode FG: some entries are new, some are
raised. -/
theorem witness_TuneAddJoinsAndClaims : hears busy = true ∧ VoiceLaw busy ∧ SoloLaw busy ∧
    GapLaw busy ∧ PlanLaw busy ∧ answered (exec (.tuneAdd 0x01E1 7 0) busy) = some [0, 12, 2, 16] := by
  refine ⟨busy_hears, busy_voiceLaw, busy_soloLaw, busy_gapLaw, busy_planLaw, ?_⟩
  decide +kernel

/-- The engine waits for the bus that the scanner holds. -/
def awaiting : State :=
  { busy with
    tne := { busy.tne with mode := .run, activity := .busWait, current := some first }
    psc := { busy.psc with engineWaits := true }
    cvo := { busy.cvo with trial := some { source := first.source, code := first.trial } } }

theorem awaiting_busLaw : BusLaw awaiting where
  reset := by decide +kernel
  engine := by decide +kernel
  scanner := by decide +kernel
  engineWaits := by decide +kernel
  scannerWaits := by decide +kernel
  noWaitOnFree := by decide +kernel
  last := by decide +kernel
  groups := by decide +kernel
  pending := by decide +kernel
  timer := by decide +kernel

/-- The engine may run, on a free bus or on a held one. -/
def ready (holder : Option Requester) (plan : List Entry) : State :=
  { busy with
    tne := { busy.tne with mode := .run, plan := plan }
    psc := { busy.psc with holder := holder } }

theorem witness_TuneControlSetsTheModeAndWorkIsChosenInOrder :
    hears busy = true ∧ busy.tne.mode = .halt ∧ busy.tne.activity = .idle ∧
    hears (gating first) = true ∧ (gating first).tne.mode ≠ .halt ∧
    (gating first).psc.holder = some .engine ∧ (gating first).psc.scannerWaits = true ∧
    awaiting.psc.holder ≠ some .engine ∧ awaiting.tne.activity ≠ .idle ∧
    (ready none busyPlan).tne.mode ≠ .halt ∧ (ready none busyPlan).tne.activity = .idle ∧
    (ready none busyPlan).psc.holder = none ∧ (ready (some .scanner) busyPlan).psc.holder ≠ none ∧
    ((choose (ready none busyPlan)).map Entry.voice = some 5) ∧
    ((choose (ready none (busyPlan.drop 2))).map Entry.voice = some 6) ∧
    ((choose (ready none (busyPlan.drop 3))).map Entry.voice = some 12) ∧
    choose (ready none []) = none := by decide +kernel

theorem witness_Cancel_laws : VoiceLaw (gating first) ∧ SoloLaw (gating first) ∧
    BusLaw (gating first) ∧ VoiceLaw awaiting ∧ SoloLaw awaiting ∧ BusLaw awaiting :=
  ⟨measuring_voiceLaw, measuring_soloLaw, measuring_busLaw rfl,
    voiceLaw_of_val (s := busy) rfl busy_voiceLaw, soloLaw_of_val (s := busy) rfl busy_soloLaw,
    awaiting_busLaw⟩

/-- A lawful current entry of V5, OSC A, meets what the statement asks of a state that gates. -/
theorem gating_meets {c : Current} (v : c.voice = 5 ∧ c.src = 0) (l : c.Lawful) :
    (gating c).run = .running ∧ VoiceLaw (gating c) ∧ SoloLaw (gating c) ∧ PlanLaw (gating c) ∧
    BusLaw (gating c) ∧ RecordsLaw (gating c) ∧
    (gating c).tne.activity = .gating .rising 1000 (some (nearlyClosed c)) ∧
    (gating c).tne.current = some c ∧ (nearlyClosed c).edges + 1 = 2 ^ c.k.val :=
  ⟨rfl, measuring_voiceLaw, measuring_soloLaw, measuring_planLaw (.inl v), measuring_busLaw rfl,
    measuring_recordsLaw l, rfl, rfl, Nat.sub_add_cancel (Nat.one_le_two_pow)⟩

/-- The first measurement, the last breakpoint, and breakpoint 5 with a trial code at either end of the
range or out of order, in each way that a count can end it. -/
theorem witness_GateCloseAppliesTheSearch :
    (∀ c ∈ [first, last, atEnd 65535, atEnd 0, atEnd 29696, atEnd 40000],
      (gating c).run = .running ∧ VoiceLaw (gating c) ∧ SoloLaw (gating c) ∧ PlanLaw (gating c) ∧
      BusLaw (gating c) ∧ RecordsLaw (gating c) ∧
      (gating c).tne.activity = .gating .rising 1000 (some (nearlyClosed c)) ∧
      (gating c).tne.current = some c ∧ (nearlyClosed c).edges + 1 = 2 ^ c.k.val) ∧
    1000 < 1001 ∧
    (converges (290000 + 926) = true ∧ converges (290000 + 927) = false ∧
      converges (290000 + 892) = true ∧ converges (290000 + 891) = false) ∧
    (inOrder first.work first.k first.trial = true ∧ first.k ≠ 0) ∧
    (inOrder last.work last.k last.trial = true ∧ last.k = 0) ∧
    inOrder (atEnd 29696).work (atEnd 29696).k (atEnd 29696).trial = false ∧
    (0 < correction 581818 2080 ∧ correction 290000 2080 < 0 ∧ (atEnd 40000).iter = 5 ∧
      first.iter < 5) := by
  refine ⟨fun c hc => ?_, by decide +kernel⟩
  simp only [List.mem_cons, List.not_mem_nil, or_false] at hc
  rcases hc with rfl | rfl | rfl | rfl | rfl | rfl
  · exact gating_meets ⟨rfl, rfl⟩ first_lawful
  · exact gating_meets ⟨rfl, rfl⟩ last_lawful
  · exact gating_meets ⟨rfl, rfl⟩ (atEnd_lawful (by decide))
  · exact gating_meets ⟨rfl, rfl⟩ (atEnd_lawful (by decide))
  · exact gating_meets ⟨rfl, rfl⟩ (atEnd_lawful (by decide))
  · exact gating_meets ⟨rfl, rfl⟩ (atEnd_lawful (by decide))

/-- The same state with auto-park off. -/
def noAutoPark (s : State) : State :=
  { s with cal := { s.cal with settings := { s.cal.settings with autoPark := false } } }

theorem witness_GateWindowJudgesTheSignal :
    (∀ a ∈ [Activity.settling 1, .gating .rising 1 none, .gating .rising 1 (some { count := 7, edges := 14 })],
      let s := measuring .run a first busy
      s.run = .running ∧ s.tne.current = some first ∧ s.tne.activity = a ∧ VoiceLaw s ∧ SoloLaw s ∧
        PlanLaw s ∧ (a.holdsBus = true → BusLaw s) ∧ a.holdsBus = true) ∧
    (noAutoPark (gating first)).cal.settings.autoPark = false ∧
    (gating first).cal.settings.autoPark = true ∧ Edge.falling ≠ .rising ∧
    busy.tne.activity = .idle ∧ awaiting.tne.activity = .busWait ∧
    awaiting.tne.current = some first ∧ awaiting.run = .running := by
  refine ⟨fun a ha => ⟨rfl, rfl, rfl, measuring_voiceLaw, measuring_soloLaw,
    measuring_planLaw (.inl ⟨rfl, rfl⟩), fun h => measuring_busLaw h, ?_⟩, by decide +kernel⟩
  simp only [List.mem_cons, List.not_mem_nil, or_false] at ha
  rcases ha with rfl | rfl | rfl <;> rfl

theorem witness_MinuteEventAgesAndRetunes : busy.run = .running := rfl

/-! ## The panel, the edit buffers and the output -/

/-- The scanner drives this address of this group. -/
def scanning (groups : List (Fin 11)) (addr : Fin 16) : State :=
  { busy with psc := { busy.psc with groups := groups, addr := addr } }

theorem scanning_busLaw {g : Fin 11} {l : List (Fin 11)} (addr : Fin 16) :
    BusLaw (scanning (g :: l) addr) where
  reset x := absurd rfl x
  engine := busy_busLaw.engine
  scanner := busy_busLaw.scanner
  engineWaits := busy_busLaw.engineWaits
  scannerWaits := busy_busLaw.scannerWaits
  noWaitOnFree := busy_busLaw.noWaitOnFree
  last := busy_busLaw.last
  groups := by constructor <;> intro x <;> cases x
  pending := busy_busLaw.pending
  timer := busy_busLaw.timer

/-- A pot without and with a stable value, and a switch at each of its readings. -/
theorem witness_ScanVisitsEachAddressOfEachGroup :
    (∀ g ∈ [(0 : Fin 11), 5, 9, 10], ∀ addr ∈ [(0 : Fin 16), 15],
      (scanning [g] addr).run = .running ∧ BusLaw (scanning [g] addr) ∧
      (scanning [g] addr).psc.phase = .scanning 160 ∧ (scanning [g] addr).psc.groups = [g]) ∧
    ((95 : PotNo).val = 16 * (5 : Fin 11).val + (15 : Fin 16).val) ∧
    ((31 : SwitchNo).val + 144 = 16 * (10 : Fin 11).val + (15 : Fin 16).val) ∧
    ((0 : SwitchNo).val + 144 = 16 * (9 : Fin 11).val + (0 : Fin 16).val) ∧
    (busy.pot 95).stable = none ∧
    ((busy.setPot 95 { acc := 0, stable := some 0, slot := 0 }).pot 95).stable = some 0 ∧
    (look busy.psc.switches 31).closed = false ∧ (look busy.psc.switches 31).run < 2 ∧
    2 ≤ (look (busy.setSwitch 31 { closed := false, run := 2 }).psc.switches 31).run ∧
    (gating first).psc.phase = .busWait ∧ Psc.reset.phase = .resting := by
  refine ⟨fun g _ addr _ => ⟨rfl, scanning_busLaw addr, rfl, rfl⟩, ?_⟩
  decide +kernel

/-- A change of key mode, of an engine parameter, of another one, and no change. -/
theorem witness_ParameterWriteStoresAndTakesEffect : hears busy = true ∧ VoiceLaw busy ∧ SoloLaw busy ∧
    ((writeParam .host .A 64 512 busy).patch .A).keyMode ≠ (busy.patch .A).keyMode ∧
    ((writeParam .host .A 64 511 busy).patch .A).keyMode = (busy.patch .A).keyMode ∧
    min 1023 1024 ≠ (busy.patch .A).param 78 ∧ min 1023 512 = (busy.patch .A).param 78 ∧
    (63 ∉ ([64, 71, 74, 75, 76, 77, 78] : List Nat)) ∧ Writer.step ≠ .host := by
  refine ⟨busy_hears, busy_voiceLaw, busy_soloLaw, ?_⟩
  decide +kernel

/-- Pot 0 moves, mapped to the part in focus, with its record in each state; pot 80 has no link. -/
theorem witness_PanelMovesTheMappedParameter :
    (∃ l, (busy.potEntry 0).link = some l ∧ l.target = .focus) ∧ busy.ebu.focus = .a ∧
    (busy.potEntry 80).link = none ∧ (busy.potEntry 79).link ≠ none ∧
    (∀ x ∈ [Takeover.caught, .jumpPending, .waitAbove, .waitBelow, .scaling],
      (busy.setTakeover 0 .A x).takeover 0 .A = x) ∧
    (0 ≤ 1023 ∧ 1023 ≤ 1023 ∧ (0 : Nat) ≠ 1023) ∧
    look busy.ebu.switchMap 31 = .hostOnly ∧ (1 ≤ 1) ∧
    Target.focus.reaches busy.ebu.focus .A = true ∧ Target.focus.reaches busy.ebu.focus .B = false := by
  refine ⟨⟨{ target := .focus, param := 0, mode := .catching }, ?_⟩, ?_⟩ <;> decide +kernel

/-- A source under measurement and one that is not; a bound voice and one that is not. -/
theorem witness_RefreshWritePresentsTheNextChannel : (gating first).run = .running ∧
    (gating first).cvo.trial = some { source := 15, code := 29696 } ∧
    (gating first).cvo.trial ≠ some { source := 14, code := 29696 } ∧
    (∃ n ph, busy.status 0 = .bound n ph) ∧ ∀ n ph, busy.status 8 ≠ .bound n ph :=
  ⟨rfl, by decide +kernel, by decide +kernel, ⟨note .A 60, .held, by decide +kernel⟩, fun n ph h => by
    have : busy.status 8 = .free := by decide +kernel
    rw [this] at h
    cases h⟩

/-- The bus held by the engine, by the scanner, and free. -/
theorem witness_Strobes :
    (BusLaw (gating first) ∧ PlanLaw (gating first) ∧ (gating first).psc.holder = some .engine) ∧
    (BusLaw busy ∧ PlanLaw busy ∧ ScanLaw busy ∧ busy.psc.holder = some .scanner) ∧
    (held State.reset.smc.sys).run ≠ .running ∧ ResetLaw (held State.reset.smc.sys) ∧
    (held State.reset.smc.sys).psc.holder = none :=
  ⟨⟨measuring_busLaw rfl, measuring_planLaw (.inl ⟨rfl, rfl⟩), rfl⟩,
    ⟨busy_busLaw, busy_planLaw, by unfold ScanLaw; decide +kernel, by decide +kernel⟩, by decide,
    held_resetLaw _, rfl⟩

/-! ## What no step breaks: a state under the law whose next step goes on -/

/-- The state with one command waiting. -/
def facing (c : Instr) (s : State) : State := { s with pending := [c] }

/-- The next step answers a next state. -/
def goesOn (s : State) : Prop := (after (step s)).isSome = true

theorem witness_StepsKeepVoiceListsAndSoloGroups :
    let s := facing (.noteStart 1 55 90) busy
    (VoiceLaw s ∧ SoloLaw s) ∧ goesOn s :=
  ⟨⟨voiceLaw_of_val (s := busy) rfl busy_voiceLaw, soloLaw_of_val (s := busy) rfl busy_soloLaw⟩, by
    unfold goesOn
    decide +kernel⟩

/-- V0's gate is closed for a retrigger gap. -/
def gapped : State := busy.setGap 0 (some ⟨8000, false⟩)

theorem witness_StepsKeepHeldKeysGapsAndRanges :
    let s := facing (.noteEnd 0 60) gapped
    HeldKeysLaw s ∧ GapLaw s ∧ (AllocatorRanges s ∧ BufferLaw s) ∧ goesOn s := by
  refine ⟨busy_heldKeysLaw, ?_, ⟨busy_allocatorRanges, busy_bufferLaw⟩, ?_⟩
  · unfold GapLaw; decide +kernel
  · unfold goesOn; decide +kernel

theorem witness_StepsKeepEverySourceCodeCurrent :
    let s := facing (.masterPitch 100) busy
    CodesLaw s ∧ goesOn s := by
  refine ⟨fun n => busy_codesLaw n, ?_⟩
  unfold goesOn
  decide +kernel

/-- Two entries in the override map, on keys that no glide has. -/
def overridden : State :=
  { gliding with ptu := { gliding.ptu with
    overrides := [{ part := .A, key := 127, pitch := 127000 }, { part := .B, key := 0, pitch := 0 }]
    master := -1000 } }

theorem witness_StepsKeepGlidesAndPitchMaps :
    let s := facing (.glideUpdate 0) overridden
    (GlideLaw s ∧ GlideTimerLaw s) ∧ OverrideLaw s ∧ PitchRanges s ∧ goesOn s := by
  refine ⟨⟨?_, ?_⟩, ⟨by decide, ?_, by decide +kernel⟩, ?_, ?_⟩
  · unfold GlideLaw; decide +kernel
  · unfold GlideTimerLaw; decide +kernel
  · exact List.pairwise_pair.2 trivial
  · unfold PitchRanges; decide +kernel
  · unfold goesOn; decide +kernel

theorem witness_StepsKeepRecordsRising :
    let s := facing (.gateClose .rising 909) (gating last)
    RecordsLaw s ∧ CalRanges s ∧ goesOn s ∧
      ∃ t, after (step s) = some t ∧ (t.record 15).codes ≠ (s.record 15).codes := by
  have h := measuring_recordsLaw (mode := .run)
    (a := .gating .rising 1000 (some (nearlyClosed last))) last_lawful
  refine ⟨⟨h.committed, h.current, h.stored, h.staged⟩, ?_, ?_, ?_⟩
  · unfold CalRanges; decide +kernel
  · unfold goesOn; decide +kernel
  · have c : ((after (step (facing (.gateClose .rising 909) (gating last)))).map fun t =>
        look (t.record 15).codes 0) = some 4095 := by decide +kernel
    have d : look ((facing (.gateClose .rising 909) (gating last)).record 15).codes 0 = 4096 := by
      decide +kernel
    obtain ⟨t, ht, hc⟩ := Option.map_eq_some_iff.1 c
    refine ⟨t, ht, fun e => ?_⟩
    rw [e, d] at hc
    cases hc

theorem witness_StepsKeepThePlanAndItsVoices :
    let s := facing (.gateClose .rising 909) (gating last)
    (PlanLaw s ∧ BusLaw s) ∧ TrialLaw s ∧ EagerLaw s ∧ GateLaw s ∧ goesOn s := by
  have p : PlanLaw (gating last) := measuring_planLaw (.inl ⟨rfl, rfl⟩)
  have b : BusLaw (gating last) := measuring_busLaw rfl
  refine ⟨⟨⟨p.nodup, p.length, p.tuning, p.oneBg, p.fg, p.current, p.busy, p.failed⟩, b.reset, b.engine,
    b.scanner, b.engineWaits, b.scannerWaits, b.noWaitOnFree, b.last, b.groups, b.pending, b.timer⟩,
    rfl, fun _ h => (by cases h), fun e w x h => ?_, ?_⟩
  · cases h
    refine ⟨by decide, fun y hy => ?_⟩
    cases hy
    exact ⟨by decide, fun c hc => by cases hc; decide⟩
  unfold goesOn
  decide +kernel

theorem witness_StepsKeepTheSelectBus :
    let s := facing .sweepTimerExpiry busy
    BusLaw s ∧ ScanLaw s ∧ goesOn s := by
  have b := busy_busLaw
  refine ⟨⟨b.reset, b.engine, b.scanner, b.engineWaits, b.scannerWaits, b.noWaitOnFree, b.last, b.groups,
    b.pending, b.timer⟩, by unfold ScanLaw; decide +kernel, ?_⟩
  unfold goesOn
  decide +kernel

/-- Pot 0 stands where part A's parameter 0 is, and has caught it. -/
def caught : State :=
  (busy.setPot 0 { acc := 0, stable := some 0, slot := 0 }).setTakeover 0 .A .caught

theorem caught_caughtLaw : CaughtLaw caught := by
  have a : ∀ q, caught.takeover q .A = .caught → q = 0 := by decide +kernel
  have b : ∀ q, caught.takeover q .B ≠ .caught := by decide +kernel
  intro q p h
  cases p
  · obtain rfl := a q h
    exact ⟨{ target := .focus, param := 0, mode := .catching }, by decide +kernel, by decide +kernel⟩
  · exact absurd h (b q)

theorem witness_StepsKeepPanelAndBuffers :
    let s := facing (.scanSample 0x800 true) caught
    PanelRanges s ∧ BufferLaw s ∧ SlotLaw s ∧ CaughtLaw s ∧ goesOn s := by
  refine ⟨⟨?_, by decide +kernel, by decide +kernel⟩, busy_bufferLaw, ?_, caught_caughtLaw, ?_⟩
  · intro q
    have h : (caught.pot q).acc ≤ 65520 ∧
        ((caught.pot q).stable = none ∨ (caught.pot q).stable = some 0) := by
      revert q; decide +kernel
    refine ⟨h.1, fun k hk => ?_⟩
    change (caught.pot q).stable = some k at hk
    rcases h.2 with h | h <;> rw [h] at hk <;> cases hk
    decide
  · unfold SlotLaw; decide +kernel
  · unfold goesOn; decide +kernel

/-- Channel 48 presents the velocity of V0; nothing has a trial code. -/
def presenting : State :=
  { busy with cvo := { busy.cvo with presented := put busy.cvo.presented 48 3225, next := 48 } }

theorem witness_StepsKeepMemoryOutputAndReset :
    let s := facing .eraseExpiry (writing .erase none 0)
    let r := facing .resetExit (held State.reset.smc.sys)
    let u := facing .refreshWrite presenting
    MemoryLaw s ∧ WriteLaw s ∧ goesOn s ∧ ResetLaw r ∧ goesOn r ∧ RouteLaw u ∧ CodeRange u ∧
      PresentedLaw u ∧ TrialLaw u ∧ RecordsLaw u ∧ AllocatorRanges u ∧ BufferLaw u ∧ HeldKeysLaw u ∧
      goesOn u := by
  have h := busy_recordsLaw
  refine ⟨by unfold MemoryLaw; decide +kernel, writing_writeLaw .erase none 0,
    by unfold goesOn; decide +kernel, held_resetLaw _, by unfold goesOn; decide +kernel,
    by unfold RouteLaw; decide +kernel, by unfold CodeRange; decide +kernel,
    by unfold PresentedLaw; decide +kernel, rfl, ⟨h.committed, h.current, h.stored, h.staged⟩,
    busy_allocatorRanges, busy_bufferLaw, busy_heldKeysLaw, by unfold goesOn; decide +kernel⟩

/-! ## Single steps, with the results that the spec's rules and tables give -/

/-- R11, R15, R189: from reset the rotate policy takes V0. -/
theorem test_first_note_takes_v0 :
    answered (exec (.noteStart 0 60 100) State.reset) = some [0x00, 0x00, 0x01, 0x00, 0x00, 0x00] := by
  decide +kernel

/-- R19, R133: the release tail of parameter value 256 is 4 + 256 ms. -/
theorem test_note_end_starts_the_tail :
    (after (exec (.noteEnd 0 64) busy)).map (fun t => t.status 4) =
      some (.bound (note .A 64) (.releasing 2080000)) := by decide +kernel

/-- R18: no voice, UNKNOWN NOTE. -/
theorem test_note_end_of_silence : answered (exec (.noteEnd 0 61) State.reset) = some [0x02] := by
  decide +kernel

/-- R35: with key 52 left, the group returns to it. -/
theorem test_solo_returns_to_the_key_left :
    (after (exec (.noteEnd 1 50) (holding [52, 50]))).map (fun t => (t.status 9).onKey .B 52) =
      some true := by decide +kernel

/-- R5: MOD is clamped to 1023. -/
theorem test_mod_is_clamped :
    (after (exec (.performanceSet 1 1 0x7FFF) busy)).map (fun t => (t.part .B).mod) = some 1023 := by
  decide +kernel

/-- R7: 0 loads as 1. -/
theorem test_seed_zero_is_one : (after (exec (.seed 0) busy)).map (fun t => t.val.seed) = some 1 := by
  decide +kernel

/-- R26, R191: V2 MUTING with 0.1 ms of its damp left, read as a begun millisecond. -/
theorem test_voice_read_of_a_muting_voice : answered (exec (.voiceRead 2) busy) =
    some [0x00, 4, 5, 0, 60, 100, 0, 2, 4, 0, 0, 1, 0, 0] := by decide +kernel

/-- R191: V6 background-tuning, tuned-while-parked by the host. -/
theorem test_voice_read_of_a_tuning_voice : answered (exec (.voiceRead 6) busy) =
    some [0x00, 5, 8, 0, 0, 0, 0, 0, 1, 0, 0, 0, 1, 8] := by decide +kernel

/-- R53, R60: 4096 + 8 (39100) / 15, rounded. -/
theorem test_master_pitch_moves_the_code :
    (after (exec (.masterPitch 100) busy)).map (fun t => look t.ptu.codes 24) = some 24949 := by
  decide +kernel

/-- R47: a 33rd override. -/
theorem test_override_map_is_full :
    answered (exec (.overrideSet 1 127 60000) (mapped 32)) = some [0x0A] := by decide +kernel

/-- R96: 1000 ticks too many at gain 2080 are 31.7 codes. -/
theorem test_correction : correction 291909 2080 = 32 ∧ correction 289909 2080 = -32 := by
  decide +kernel

/-- R95, R100: converged at breakpoint 4, the search goes on to 5 from its committed code. -/
theorem test_search_goes_on : (after (exec (.gateClose .rising 909) (gating first))).map
    (fun t => t.tne.current.map fun c => (c.k, c.trial)) = some (some (5, 36096)) := by decide +kernel

/-- R92: a gate at 440 Hz spans 16 periods; its 15th edge after the first is only counted. -/
theorem test_edges_are_counted :
    (after (exec (.gateClose .rising 5)
      (measuring .run (.gating .rising 1000 (some { count := 9, edges := 14 })) first busy))).map
      (fun t => t.tne.activity) = some (.gating .rising 1000 (some { count := 9, edges := 15 })) := by
  decide +kernel

/-- R93: an edge past the window comes too late; m is 2T. -/
theorem test_slow_gate :
    (after (exec (.gateClose .rising 1001) (gating first))).map (fun t => t.tne.lastM) =
      some (some 581818) := by decide +kernel

/-- R99: the last breakpoint commits the record. -/
theorem test_search_commits : (after (exec (.gateClose .rising 909) (gating last))).map
    (fun t => ((t.record 15).status, t.tne.plan.length)) = some (.tuned, 3) := by decide +kernel

/-- R71: gains below 256 are stored as 256. -/
theorem test_gain_is_clamped : answered (exec (.tuneSettings 0 0xFFFF 1 0 7 1) busy) =
    some [0x00, 0x01, 0x00, 0x1F, 0xFF, 1, 0, 7, 1] := by decide +kernel

/-- R130: a value above 1023. -/
theorem test_param_is_clamped :
    answered (exec (.paramWrite 0 3 1024) busy) = some [0x00, 0x03, 0xFF] := by decide +kernel

/-- R118: a first reading of full travel. -/
theorem test_first_reading_of_a_pot :
    (after (exec (.scanSample 0xFFF true) State.reset)).map (fun t => t.pot 0) =
      some { acc := 65520, stable := some 1023, slot := 0 } := by decide +kernel

/-- R174: a pitch source on a general channel. -/
theorem test_route_class : answered (exec (.routeSet 48 0) busy) = some [0x08, 0x00, 0x00] := by
  decide +kernel

/-- R178: channel 48 with code 3225 of velocity 100, shifted up by four bits. -/
theorem test_refresh_of_a_general_channel :
    (after (exec .refreshWrite presenting)).map (fun t => t.cvo.shifted) =
      some (BitVec.ofNat 24 (48 * 65536 + 3225 * 16)) := by decide +kernel

/-- R157, R158: all banks are protected. -/
theorem test_store_to_a_guarded_bank : answered (exec (.patchStore 0 0) busy) = some [0x04] := by
  decide +kernel

/-- R162: an erased slot reads EMPTY and 128 bytes of 0xFF. -/
theorem test_slot_read_of_an_erased_slot :
    answered (exec (.slotRead 9) busy) = some (0x05 :: List.replicate 128 0xFF) := by decide +kernel

/-- R163: a read taken before a resume expiry that is due restarts the resume time, and the expiry leaves
it running; the next one ends it. -/
theorem test_read_before_a_resume_expiry :
    let read := after (exec (.slotRead 9) (writing .erase (some ⟨0, false⟩) 5))
    let once := read.bind fun t => after (exec (.resumeExpiry []) t)
    let twice := once.bind fun t => after (exec (.resumeExpiry []) t)
    [read, once, twice].map (fun t => (t.bind fun t => t.smc.write).map fun w => w.resume) =
      [some (some ⟨1600, true⟩), some (some ⟨1600, false⟩), some none] := by decide +kernel

/-- R39: the same of a retrigger gap, restarted by a second request. -/
theorem test_retrigger_before_a_gap_expiry :
    let start := after (exec (.noteStart 0 60 90) (busy.setGap 0 (some ⟨0, false⟩)))
    let expired := start.bind fun t => after (exec (.retriggerGapExpiry 0) t)
    [start, expired].map (fun t => t.map fun t => look t.cvo.gaps 0) =
      [some (some ⟨8000, true⟩), some (some ⟨8000, false⟩)] := by decide +kernel

/-- R165, R166: under the freeze. -/
theorem test_guard_set_is_frozen :
    answered (exec (.guardSet 0 0 0) { busy with smc := { busy.smc with frozen := true } }) =
      some [0x0B] := by decide +kernel

/-- R186, R193: an unknown command byte, told by the next notice. -/
theorem test_void_frame_is_told :
    ((after (exec (.voidFrame 0x22) busy)).bind fun t => answered (exec .nextNotice t)) =
      some [0x00, 0x01, 0x00, 0x03, 0x00, 0x00, 0x00, 0x00] := by decide +kernel

/-- R183, R185, R189: SDO through the frame of a GUARD READ: status, turnaround, code, data, then 0x00. -/
theorem test_sdo_of_a_guard_read :
    ((after (exec .guardRead busy)).map fun t => (List.range 9).map (sdo t)) =
      some (some busy.lnk.status ::
        [statusByte busy, 0, 5, 0, 0, 0, 0, 0].map some) := by decide +kernel

/-- R186: SDO through a void frame. -/
theorem test_sdo_of_a_void_frame :
    ((after (exec (.voidFrame 0x22) busy)).map fun t => (List.range 3).map (sdo t)) =
      some [some busy.lnk.status, some 0, some 0] := by decide +kernel

/-- R195: what is left, after the reset, of a frame whose command was taken before it sets no mark. -/
theorem test_cut_after_reset :
    (((after (exec .pinReset (leftover .taken))).bind fun t => after (exec .resetExit t)).bind fun t =>
      after (exec (.frameCut 21) t)).map (fun t => t.lnk.notices.linkError) = some none := by
  decide +kernel

/-- R189, R190: the code column picks the command; an unlisted code spells the void frame, and a word of
no byte spells nothing. -/
theorem test_words_spell_commands :
    decodeTableWord 32 0x643C0010 = some (.noteStart 0 60 100) ∧
    decodeTableWord 16 0x0141 = some .tuneControlHalt ∧
    decodeTableWord 32 0x0F100031 = some (.patchStore 0 0x100F) ∧
    decodeTableWord 8 0x28 = some .nextNotice ∧ decodeTableWord 8 0x22 = some (.voidFrame 0x22) ∧
    decodeTableWord 0 0x10 = none := by decide +kernel

/-- R184: HALT and system record damaged. -/
theorem test_status_after_reset :
    (after (exec (.frameStart false) State.reset)).map (fun t => t.lnk.status) = some 0x09 := by
  decide +kernel

end Sys2Proof.Tests
end

