-- ==== Sys2Proof/Proofs/Moves.lean ====
section
/-! What the laws of voices, parts and engine read of a state, and the moves of the Voice Allocator out of
which every command's effect is made. -/

namespace Sys2Proof.Machine

/-! ## States that agree on what the laws read -/

/-- The fields of the scanner's block that the law of the bus reads are the same. -/
structure BusSame (s t : State) : Prop where
  holder : t.psc.holder = s.psc.holder
  scannerWaits : t.psc.scannerWaits = s.psc.scannerWaits
  engineWaits : t.psc.engineWaits = s.psc.engineWaits
  lastHolder : t.psc.lastHolder = s.psc.lastHolder
  sweepTimer : t.psc.sweepTimer = s.psc.sweepTimer
  startPending : t.psc.startPending = s.psc.startPending
  phase : t.psc.phase = s.psc.phase
  groups : t.psc.groups = s.psc.groups

theorem BusSame.of_eq {s t : State} (h : t.psc = s.psc) : BusSame s t := by
  constructor <;> rw [h]

theorem BusSame.trans {s t u : State} (a : BusSame s t) (b : BusSame t u) : BusSame s u where
  holder := b.holder.trans a.holder
  scannerWaits := b.scannerWaits.trans a.scannerWaits
  engineWaits := b.engineWaits.trans a.engineWaits
  lastHolder := b.lastHolder.trans a.lastHolder
  sweepTimer := b.sweepTimer.trans a.sweepTimer
  startPending := b.startPending.trans a.startPending
  phase := b.phase.trans a.phase
  groups := b.groups.trans a.groups

/-- The engine, the bus and the trial code override are the same, and so is the run. -/
structure EngineSame (s t : State) : Prop where
  run : t.run = s.run
  tne : t.tne = s.tne
  trial : t.cvo.trial = s.cvo.trial
  bus : BusSame s t

theorem EngineSame.refl (s : State) : EngineSame s s := ⟨rfl, rfl, rfl, .of_eq rfl⟩

theorem EngineSame.trans {s t u : State} (a : EngineSame s t) (b : EngineSame t u) : EngineSame s u where
  run := b.run.trans a.run
  tne := b.tne.trans a.tne
  trial := b.trial.trans a.trial
  bus := a.bus.trans b.bus

/-- A voice record's fields are the same, but for its clamp flags. -/
def SameVoice (x y : Voice) : Prop :=
  y.status = x.status ∧ y.unisonIndex = x.unisonIndex ∧ y.unisonSize = x.unisonSize ∧ y.slop = x.slop

theorem SameVoice.refl (x : Voice) : SameVoice x x := ⟨rfl, rfl, rfl, rfl⟩

theorem SameVoice.trans {x y z : Voice} (a : SameVoice x y) (b : SameVoice y z) : SameVoice x z :=
  ⟨b.1.trans a.1, b.2.1.trans a.2.1, b.2.2.1.trans a.2.2.1, b.2.2.2.trans a.2.2.2⟩

/-- Voices, lists, part records, L and gaps are the same, but for clamp flags, and so are the patches. -/
structure NotesSame (s t : State) : Prop where
  voice : ∀ v, SameVoice (s.voice v) (t.voice v)
  freeList : t.val.freeList = s.val.freeList
  startOrder : t.val.startOrder = s.val.startOrder
  releaseOrder : t.val.releaseOrder = s.val.releaseOrder
  parts : t.val.parts = s.val.parts
  seed : t.val.seed = s.val.seed
  gaps : t.cvo.gaps = s.cvo.gaps
  patch : ∀ p, t.patch p = s.patch p

theorem NotesSame.status {s t : State} (h : NotesSame s t) (v : VoiceNo) : t.status v = s.status v :=
  (h.voice v).1

theorem NotesSame.part {s t : State} (h : NotesSame s t) (p : Part) : t.part p = s.part p := by
  unfold State.part; rw [h.parts]

theorem NotesSame.trans {s t u : State} (a : NotesSame s t) (b : NotesSame t u) : NotesSame s u where
  voice v := (a.voice v).trans (b.voice v)
  freeList := b.freeList.trans a.freeList
  startOrder := b.startOrder.trans a.startOrder
  releaseOrder := b.releaseOrder.trans a.releaseOrder
  parts := b.parts.trans a.parts
  seed := b.seed.trans a.seed
  gaps := b.gaps.trans a.gaps
  patch p := (b.patch p).trans (a.patch p)

theorem NotesSame.of_val {s t : State} (val : t.val = s.val) (gaps : t.cvo.gaps = s.cvo.gaps)
    (patch : ∀ p, t.patch p = s.patch p) : NotesSame s t where
  voice v := by unfold State.voice; rw [val]; exact .refl _
  freeList := by rw [val]
  startOrder := by rw [val]
  releaseOrder := by rw [val]
  parts := by rw [val]
  seed := by rw [val]
  gaps := gaps
  patch := patch

theorem NotesSame.refl (s : State) : NotesSame s s := .of_val rfl rfl fun _ => rfl

/-! ## The law of solo groups, in two -/

/-- A solo group's members are bound to the part, with one unison size and no unison index twice. -/
def GroupShape (s : State) (p : Part) (g : VoiceSet) : Prop :=
  g ≠ 0 ∧ (∀ v, inSet g v = true → (s.status v).onPart p = true) ∧
    ∀ v w, inSet g v = true → inSet g w = true → (s.voice v).unisonSize = (s.voice w).unisonSize ∧
      ((s.voice v).unisonIndex = (s.voice w).unisonIndex → v = w)

/-- A solo group's members are on one key. -/
def GroupKey (s : State) (g : VoiceSet) : Prop :=
  ∀ v w, inSet g v = true → inSet g w = true →
    (s.status v).note?.map Note.key = (s.status w).note?.map Note.key

/-- The law of the lists, and that of the solo groups but for their keys. -/
structure Lawful (s : State) : Prop where
  lists : VoiceLaw s
  shape : ∀ p g, (s.part p).solo = some g → GroupShape s p g

/-- The solo group of a part, where it has one, is on one key. -/
def SoloKeys (s : State) (p : Part) : Prop := ∀ g, (s.part p).solo = some g → GroupKey s g

theorem voiceLaw_and_soloLaw_iff (s : State) :
    (VoiceLaw s ∧ SoloLaw s) ↔ (Lawful s ∧ ∀ p, SoloKeys s p) := by
  constructor
  · rintro ⟨hv, hs⟩
    refine ⟨⟨hv, fun p g hg => ?_⟩, fun p g hg v w hv hw => ((hs p g hg).2.2 v w hv hw).1⟩
    obtain ⟨h0, h1, h2⟩ := hs p g hg
    exact ⟨h0, h1, fun v w hv hw => (h2 v w hv hw).2⟩
  · rintro ⟨⟨hv, hs⟩, hk⟩
    refine ⟨hv, fun p g hg => ?_⟩
    obtain ⟨h0, h1, h2⟩ := hs p g hg
    exact ⟨h0, h1, fun v w hv hw => ⟨hk p g hg v w hv hw, h2 v w hv hw⟩⟩

/-! ## The moves -/

/-- How far the moves of a command reach: to sounding voices, to voices that go to FREE too, or to the
voices that the Tune Engine borrows and to the engine. -/
inductive Reach where
  | sounding
  | freeing
  | lending

/-- Nothing but the engine, the bus and the trial code override differs. -/
def EngineOnly (s t : State) : Prop :=
  t.val = s.val ∧ t.cvo.gaps = s.cvo.gaps ∧ ∀ p, t.patch p = s.patch p

/-- Neither FREE nor bound: TUNING or PARKED. -/
def VoiceStatus.isAway : VoiceStatus → Bool
  | .tuning _ _ => true
  | .parked _ => true
  | _ => false

/-- One move of the Voice Allocator, within a reach; a key changes only where `flux` names its part and the
key it changes to. The premises of a move are what the functions of the model have checked, or what the
laws give where they check nothing. -/
inductive Move (r : Reach) (flux : Option (Part × Nat)) : State → State → Prop
  | same {s t : State} (notes : NotesSame s t) (engine : EngineSame s t) : Move r flux s t
  | engine {s t : State} (hr : r = .lending) (h : EngineOnly s t) : Move r flux s t
  | free {s : State} (v : VoiceNo) (hr : r ≠ .sounding)
      (ht : r = .lending ∨ (s.status v).isTuning = false) : Move r flux s (s.enterFree v)
  | releasing {s : State} (v : VoiceNo) (p : Part) :
      Move r flux s (s.enterReleasing v (s.patch p).releaseTicks)
  | hold {s : State} (v : VoiceNo) (h : (s.status v).isReleasing = false) :
      Move r flux s (s.setPhase v .held)
  | sustained {s : State} (v : VoiceNo) (h : (s.status v).isHeld = true) :
      Move r flux s (s.setPhase v .sustained)
  | unrelease {s : State} (v : VoiceNo) :
      Move r flux s ((s.setPhase v .held).setReleaseOrder (without v s.val.releaseOrder))
  | gap {s : State} (v : VoiceNo) (x : Countdown)
      (h : (s.status v).isHeld = true ∨ (s.status v).isSustained = true) :
      Move r flux s (s.setGap v (some x))
  | gapExpiry {s : State} (v : VoiceNo) : Move r flux s (gapExpiry v s)
  | note {s : State} (v : VoiceNo) (f : Note → Note) (hp : ∀ n, (f n).part = n.part)
      (hk : ∀ n, (f n).key = n.key) (hf : ∀ n, n.InRange → (f n).InRange) :
      Move r flux s (s.modNote v f)
  | rekey {s : State} (v : VoiceNo) (f : Note → Note) (p : Part) (k : Nat) (hx : flux = some (p, k))
      (hv : Lawful s → (s.status v).onPart p = true) (hp : ∀ n, (f n).part = n.part)
      (hf : ∀ n, n.InRange → k ≤ 127 → (f n).InRange) : Move r flux s (s.modNote v f)
  | tail {s : State} (p : Part) (v : VoiceNo) (hv : Lawful s → (s.status v).onPart p = true) :
      Move r flux s (s.toStartTail p v)
  | bind {s : State} (p : Part) (k vel size : Nat) (v : VoiceNo) (b : FoundBy) (j : Nat)
      (hr : r = .lending) (hb : b ≠ .background) (hk : k ≤ 127) (hv : 1 ≤ vel ∧ vel ≤ 127)
      (hs : BufferLaw s → j < size ∧ size ≤ 8) :
      Move r flux s (placeOne p k vel size s ((v, b), j))
  | dissolve {s : State} (p : Part) : Move r flux s (s.setSolo p none)
  | keys {s : State} (p : Part) (l : List Nat)
      (h : HeldKeysLaw s → l.Nodup ∧ l.length ≤ 16 ∧ ∀ k ∈ l, k ≤ 127) : Move r flux s (s.setKeys p l)
  | part {s : State} (p : Part) (f : PartRec → PartRec) (hk : ∀ x, (f x).heldKeys = x.heldKeys)
      (hs : ∀ x, (f x).solo = x.solo) (hf : ∀ x, x.InRange → (f x).InRange) : Move r flux s (s.modPart p f)
  | patch {s t : State} (val : t.val = s.val) (gaps : t.cvo.gaps = s.cvo.gaps) (engine : EngineSame s t)
      (hb : BufferLaw s → BufferLaw t) : Move r flux s t
  | seed {s : State} (w : BitVec 16) (hw : w ≠ 0) :
      Move r flux s { s with val := { s.val with seed := w } }
  | lend {s : State} (v : VoiceNo) (x : VoiceStatus) (hr : r = .lending) (hx : x.isAway = true) :
      Move r flux s ((s.detach v).setStatus v x)
  | relend {s : State} (v : VoiceNo) (x : VoiceStatus) (hr : r = .lending) (hx : x.isAway = true)
      (h : (s.status v).isAway = true) : Move r flux s (s.setStatus v x)

/-- Moves one after another, with no change of key or with the changes of key that `flux` allows. -/
abbrev Chain (r : Reach) (flux : Option (Part × Nat)) : State → State → Prop :=
  Relation.ReflTransGen (Move r flux)

/-- Moves one after another, where a solo group's members take a new key all together, and where a solo
group is formed by moves that give it its shape and key. -/
inductive Moves (r : Reach) : State → State → Prop
  | refl (s : State) : Moves r s s
  | move {s t u : State} (a : Moves r s t) (b : Move r none t u) : Moves r s u
  | rekeyed {s t u : State} (a : Moves r s t) (p : Part) (k : Nat) (b : Chain r (some (p, k)) t u)
      (hk : HeldKeysLaw t → k ≤ 127)
      (h : Lawful t → ∀ g, (u.part p).solo = some g → ∀ v, inSet g v = true →
        (u.status v).note?.map Note.key = some k) : Moves r s u
  | grouped {s t u : State} (a : Moves r s t) (b : Chain r none t u) (p : Part) (g : VoiceSet)
      (h : Lawful t → GroupShape u p g ∧ GroupKey u g) : Moves r s (u.setSolo p (some g))

theorem Moves.of_move {r : Reach} {s t : State} (h : Move r none s t) : Moves r s t := .move (.refl s) h

theorem Moves.trans {r : Reach} {s t u : State} (a : Moves r s t) (b : Moves r t u) : Moves r s u := by
  induction b with
  | refl => exact a
  | move _ m ih => exact ih.move m
  | rekeyed _ p k c hk h ih => exact ih.rekeyed p k c hk h
  | grouped _ c p g h ih => exact ih.grouped c p g h

theorem Moves.of_chain {r : Reach} {s t : State} (h : Chain r none s t) : Moves r s t := by
  induction h with
  | refl => exact .refl s
  | tail _ m ih => exact ih.move m

/-- Moves for each element of a list, from any state, make moves for the list. -/
theorem Moves.foldl {r : Reach} {α : Type} {f : State → α → State} (h : ∀ s x, Moves r s (f s x))
    (l : List α) (s : State) : Moves r s (l.foldl f s) := by
  induction l generalizing s with
  | nil => exact .refl s
  | cons x l ih => exact (h s x).trans (ih _)

/-! ## Operations that the laws of voices and engine do not see -/

/-- Nothing that the laws of voices and engine read differs. -/
structure Quiet (s t : State) : Prop where
  notes : NotesSame s t
  engine : EngineSame s t

theorem Quiet.refl (s : State) : Quiet s s := ⟨.refl s, .refl s⟩

theorem Quiet.trans {s t u : State} (a : Quiet s t) (b : Quiet t u) : Quiet s u :=
  ⟨a.notes.trans b.notes, a.engine.trans b.engine⟩

theorem Quiet.move {r : Reach} {flux : Option (Part × Nat)} {s t : State} (h : Quiet s t) :
    Move r flux s t := .same h.notes h.engine

theorem Quiet.chain {r : Reach} {flux : Option (Part × Nat)} {s t : State} (h : Quiet s t) :
    Chain r flux s t := .single h.move

theorem Quiet.moves {r : Reach} {s t : State} (h : Quiet s t) : Moves r s t := .of_move h.move

/-- A change of blocks that the laws of voices and engine do not read. -/
theorem Quiet.of_blocks {s t : State} (run : t.run = s.run) (val : t.val = s.val) (ebu : t.ebu = s.ebu)
    (tne : t.tne = s.tne) (psc : t.psc = s.psc) (cvo : t.cvo = s.cvo) : Quiet s t :=
  ⟨.of_val val (by rw [cvo]) fun p => by unfold State.patch; rw [ebu], run, tne, by rw [cvo], .of_eq psc⟩

/-- Steps for each element of a list keep what one step keeps, and what they keep makes them moves. -/
theorem Chain.foldl {r : Reach} {flux : Option (Part × Nat)} {α : Type} {f : State → α → State}
    {I : State → Prop} {l : List α}
    (h : ∀ s x, x ∈ l → I s → Chain r flux s (f s x) ∧ I (f s x)) {s : State} (hs : I s) :
    Chain r flux s (l.foldl f s) ∧ I (l.foldl f s) := by
  induction l generalizing s with
  | nil => exact ⟨.refl, hs⟩
  | cons x l ih =>
    obtain ⟨c, hx⟩ := h s x List.mem_cons_self hs
    obtain ⟨c', hl⟩ := ih (fun s y hy => h s y (List.mem_cons_of_mem x hy)) hx
    exact ⟨c.trans c', hl⟩

end Sys2Proof.Machine
end

