-- ==== Sys2Proof/Proofs/ListsOfMoves.lean ====
section
/-! The law of the lists and the solo groups under each move. -/

namespace Sys2Proof.Machine

/-! ## One voice changes its lists -/

/-- A list is kept, but for one voice, which is on it afterwards just where `on` says so. -/
def ListMoves (v : VoiceNo) (on : Bool) (l l' : List VoiceNo) : Prop :=
  l.Nodup → l'.Nodup ∧ ∀ w, w ∈ l' ↔ if w = v then on = true else w ∈ l

theorem ListMoves.off (v : VoiceNo) (l : List VoiceNo) : ListMoves v false l (without v l) := by
  refine fun h => ⟨nodup_without h, fun w => ?_⟩
  rw [mem_without]
  split <;> simp [*]

theorem ListMoves.tail (v : VoiceNo) (l : List VoiceNo) : ListMoves v true l (without v l ++ [v]) := by
  refine fun h => ⟨without_append_nodup h, fun w => ?_⟩
  rw [List.mem_append, mem_without, List.mem_singleton]
  split <;> simp [*]

theorem ListMoves.stay {v : VoiceNo} {on : Bool} {l : List VoiceNo} (h : v ∈ l ↔ on = true) :
    ListMoves v on l l := by
  refine fun nd => ⟨nd, fun w => ?_⟩
  split
  · subst w; exact h
  · rfl

/-- The lists stay lawful where one voice changes its state and its lists follow. -/
theorem VoiceLaw.of_listMoves {s t : State} (h : VoiceLaw s) (v : VoiceNo)
    (others : ∀ w, w ≠ v → t.status w = s.status w)
    (free : ListMoves v (t.status v).isFree s.val.freeList t.val.freeList)
    (start : ∀ p, ListMoves v ((t.status v).onPart p) (s.val.startOrder.get p) (t.val.startOrder.get p))
    (release : ListMoves v (t.status v).isReleasing s.val.releaseOrder t.val.releaseOrder) :
    VoiceLaw t where
  freeNodup := (free h.freeNodup).1
  free w := by
    rw [(free h.freeNodup).2 w]
    split
    · subst w; rfl
    · rw [h.free, others w ‹_›]
  startNodup p := (start p (h.startNodup p)).1
  start p w := by
    rw [(start p (h.startNodup p)).2 w]
    split
    · subst w; rfl
    · rw [h.start, others w ‹_›]
  releaseNodup := (release h.releaseNodup).1
  release w := by
    rw [(release h.releaseNodup).2 w]
    split
    · subst w; rfl
    · rw [h.release, others w ‹_›]

theorem VoiceLaw.congr {s t : State} (h : VoiceLaw s) (status : ∀ v, t.status v = s.status v)
    (free : t.val.freeList = s.val.freeList) (start : t.val.startOrder = s.val.startOrder)
    (release : t.val.releaseOrder = s.val.releaseOrder) : VoiceLaw t where
  freeNodup := free ▸ h.freeNodup
  free v := by rw [free, status]; exact h.free v
  startNodup p := start ▸ h.startNodup p
  start p v := by rw [start, status]; exact h.start p v
  releaseNodup := release ▸ h.releaseNodup
  release v := by rw [release, status]; exact h.release v

/-- A voice on its lists by the law stays on them where its state stays of the same kind. -/
theorem VoiceLaw.of_sameKind {s t : State} (h : VoiceLaw s) (v : VoiceNo)
    (others : ∀ w, w ≠ v → t.status w = s.status w)
    (free : t.val.freeList = s.val.freeList) (start : t.val.startOrder = s.val.startOrder)
    (release : t.val.releaseOrder = s.val.releaseOrder)
    (isFree : (t.status v).isFree = (s.status v).isFree)
    (onPart : ∀ p, (t.status v).onPart p = (s.status v).onPart p)
    (isReleasing : (t.status v).isReleasing = (s.status v).isReleasing) : VoiceLaw t := by
  refine h.of_listMoves v others ?_ (fun p => ?_) ?_
  · rw [free, isFree]; exact .stay (h.free v)
  · rw [start, onPart]; exact .stay (h.start p v)
  · rw [release, isReleasing]; exact .stay (h.release v)

/-! ## Solo groups that keep or lose members -/

/-- Every member of a part's solo group was a member before, and the group has members; `seat` holds of
each member that stays. -/
def GroupStays (s t : State) (p : Part) (seat : VoiceNo → Prop) : Prop :=
  ∀ g', (t.part p).solo = some g' → ∃ g, (s.part p).solo = some g ∧ (g ≠ 0 → g' ≠ 0) ∧
    ∀ w, inSet g' w = true → inSet g w = true ∧ seat w

/-- A voice keeps its place in a group of a part: bound to it, with its unison size and index. -/
def SameSeat (s t : State) (p : Part) (w : VoiceNo) : Prop :=
  ((s.status w).onPart p = true → (t.status w).onPart p = true) ∧
    (t.voice w).unisonSize = (s.voice w).unisonSize ∧ (t.voice w).unisonIndex = (s.voice w).unisonIndex

theorem GroupStays.shape {s t : State} {p : Part} (h : GroupStays s t p (SameSeat s t p))
    (hs : ∀ g, (s.part p).solo = some g → GroupShape s p g) :
    ∀ g, (t.part p).solo = some g → GroupShape t p g := by
  intro g' hg'
  obtain ⟨g, hg, hne, hm⟩ := h g' hg'
  obtain ⟨h0, h1, h2⟩ := hs g hg
  refine ⟨hne h0, fun v hv => (hm v hv).2.1 (h1 v (hm v hv).1), fun v w hv hw => ?_⟩
  obtain ⟨hv, -, vs, vi⟩ := hm v hv
  obtain ⟨hw, -, ws, wi⟩ := hm w hw
  rw [vs, vi, ws, wi]
  exact h2 v w hv hw

theorem GroupStays.keys {s t : State} {p : Part}
    (h : GroupStays s t p fun w => (t.status w).note?.map Note.key = (s.status w).note?.map Note.key)
    (hs : SoloKeys s p) : SoloKeys t p := by
  intro g' hg' v w hv hw
  obtain ⟨g, hg, -, hm⟩ := h g' hg'
  rw [(hm v hv).2, (hm w hw).2]
  exact hs g hg v w (hm v hv).1 (hm w hw).1

theorem GroupStays.of_eq {s t : State} {p : Part} {seat : VoiceNo → Prop}
    (h : (t.part p).solo = (s.part p).solo)
    (hs : ∀ g, (s.part p).solo = some g → ∀ w, inSet g w = true → seat w) : GroupStays s t p seat := by
  intro g hg
  rw [h] at hg
  exact ⟨g, hg, id, fun w hw => ⟨hw, hs g hg w hw⟩⟩

theorem GroupStays.of_drop {s t : State} {p : Part} {seat : VoiceNo → Prop} (v : VoiceNo)
    (h : (t.part p).solo = soloDrop v (s.part p).solo) (hs : ∀ w, w ≠ v → seat w) :
    GroupStays s t p seat := by
  intro g' hg'
  rw [h] at hg'
  obtain ⟨g, hg, rfl, hne⟩ := soloDrop_eq_some hg'
  refine ⟨g, hg, fun _ => hne, fun w hw => ?_⟩
  rw [inSet_setDrop, Bool.and_eq_true, bne_iff_ne] at hw
  exact ⟨hw.1, hs w hw.2⟩

/-! ## What single operations leave alone -/

theorem modNote_voice_ne (s : State) (v w : VoiceNo) (f : Note → Note) (h : w ≠ v) :
    (s.modNote v f).voice w = s.voice w := by
  unfold State.modNote
  split
  · rw [setStatus_voice, if_neg h]
  · rfl

/-- A voice's status is rewritten, by a change of phase, to this. -/
def VoiceStatus.inPhase (x : VoiceStatus) (ph : BoundPhase) : VoiceStatus :=
  match x with
  | .bound n _ => .bound n ph
  | y => y

/-- A voice's status with its note rewritten. -/
def VoiceStatus.withNote (x : VoiceStatus) (f : Note → Note) : VoiceStatus :=
  match x with
  | .bound n ph => .bound (f n) ph
  | y => y

theorem setStatus_self (s : State) (v : VoiceNo) : s.setStatus v (s.status v) = s := by
  have h : put s.val.voices v (s.voice v) = s.val.voices := by
    apply table_ext
    intro w
    rw [look_put]
    split
    · subst w; rfl
    · rfl
  show { s with val := { s.val with voices := put s.val.voices v (s.voice v) } } = s
  rw [h]

theorem setPhase_eq (s : State) (v : VoiceNo) (ph : BoundPhase) :
    s.setPhase v ph = s.setStatus v ((s.status v).inPhase ph) := by
  cases h : s.status v with
  | bound n x => rw [setPhase_bound ph h]; rfl
  | _ =>
    rw [setPhase_unbound ph (by simp [h])]
    simp only [VoiceStatus.inPhase]
    rw [← h, setStatus_self]

theorem modNote_eq (s : State) (v : VoiceNo) (f : Note → Note) :
    s.modNote v f = s.setStatus v ((s.status v).withNote f) := by
  cases h : s.status v with
  | bound n x => rw [modNote_bound f h]; rfl
  | _ =>
    rw [modNote_unbound f (by simp [h])]
    simp only [VoiceStatus.withNote]
    rw [← h, setStatus_self]

/-- A new status of a voice that leaves its kind, as the lists see it, keeps the lists lawful. -/
theorem setStatus_voiceLaw {s : State} {v : VoiceNo} {x : VoiceStatus} (h : VoiceLaw s)
    (free : x.isFree = (s.status v).isFree) (part : ∀ p, x.onPart p = (s.status v).onPart p)
    (rel : x.isReleasing = (s.status v).isReleasing) : VoiceLaw (s.setStatus v x) := by
  refine h.of_sameKind v (fun w hw => ?_) rfl rfl rfl ?_ (fun p => ?_) ?_
  · rw [setStatus_status, if_neg hw]
  · rw [setStatus_status, if_pos rfl, free]
  · rw [setStatus_status, if_pos rfl, part]
  · rw [setStatus_status, if_pos rfl, rel]

theorem setStatus_seat {s : State} {v : VoiceNo} {x : VoiceStatus} {p : Part}
    (part : (s.status v).onPart p = true → x.onPart p = true) (w : VoiceNo) :
    SameSeat s (s.setStatus v x) p w := by
  unfold SameSeat
  rw [setStatus_status, setStatus_voice]
  split
  · subst w; exact ⟨part, rfl, rfl⟩
  · exact ⟨id, rfl, rfl⟩

/-- A new status of a voice that keeps its part and kind keeps lists and groups lawful. -/
theorem setStatus_lawful {s : State} {v : VoiceNo} {x : VoiceStatus} (h : Lawful s)
    (free : x.isFree = (s.status v).isFree) (part : ∀ p, x.onPart p = (s.status v).onPart p)
    (rel : x.isReleasing = (s.status v).isReleasing) : Lawful (s.setStatus v x) :=
  ⟨setStatus_voiceLaw h.lists free part rel, fun p =>
    (GroupStays.of_eq rfl fun _ _ w _ =>
      setStatus_seat (fun ho => (part p).trans ho) w).shape (h.shape p)⟩

/-! ## Each move keeps lists and groups lawful -/

theorem inPhase_isFree (x : VoiceStatus) (ph : BoundPhase) : (x.inPhase ph).isFree = x.isFree := by
  cases x <;> rfl

theorem inPhase_onPart (x : VoiceStatus) (ph : BoundPhase) (p : Part) :
    (x.inPhase ph).onPart p = x.onPart p := by cases x <;> rfl

theorem inPhase_note (x : VoiceStatus) (ph : BoundPhase) : (x.inPhase ph).note? = x.note? := by
  cases x <;> rfl

theorem withNote_isFree (x : VoiceStatus) (f : Note → Note) : (x.withNote f).isFree = x.isFree := by
  cases x <;> rfl

theorem withNote_onPart (x : VoiceStatus) {f : Note → Note} (hf : ∀ n, (f n).part = n.part) (p : Part) :
    (x.withNote f).onPart p = x.onPart p := by
  cases x <;> simp [VoiceStatus.withNote, VoiceStatus.onPart, hf]

theorem withNote_isReleasing (x : VoiceStatus) (f : Note → Note) :
    (x.withNote f).isReleasing = x.isReleasing := by
  rcases x with _ | ⟨n, _ | _ | _ | _⟩ | _ | _ <;> rfl

/-- Lists and groups stay lawful where one voice changes, its lists follow it, and each part's group keeps
or loses it. -/
theorem Lawful.of_oneVoice {s t : State} (h : Lawful s) (v : VoiceNo)
    (others : ∀ w, w ≠ v → SameVoice (s.voice w) (t.voice w))
    (free : ListMoves v (t.status v).isFree s.val.freeList t.val.freeList)
    (start : ∀ p, ListMoves v ((t.status v).onPart p) (s.val.startOrder.get p) (t.val.startOrder.get p))
    (release : ListMoves v (t.status v).isReleasing s.val.releaseOrder t.val.releaseOrder)
    (group : ∀ p, (t.part p).solo = soloDrop v (s.part p).solo ∨
      (t.part p).solo = (s.part p).solo ∧ SameSeat s t p v) : Lawful t := by
  have seat : ∀ p w, w ≠ v → SameSeat s t p w := by
    intro p w hw
    obtain ⟨hs, hi, hz, -⟩ := others w hw
    have hs' : t.status w = s.status w := hs
    exact ⟨fun ho => by rw [hs']; exact ho, hz, hi⟩
  refine ⟨h.lists.of_listMoves v (fun w hw => (others w hw).1) free start release, fun p => ?_⟩
  rcases group p with hd | ⟨he, hv⟩
  · exact (GroupStays.of_drop v hd fun w hw => seat p w hw).shape (h.shape p)
  · refine (GroupStays.of_eq he fun g _ w _ => ?_).shape (h.shape p)
    by_cases hw : w = v
    · subst w; exact hv
    · exact seat p w hw

theorem enterFree_lawful {s : State} (v : VoiceNo) (h : Lawful s) : Lawful (s.enterFree v) := by
  have hv : (s.enterFree v).status v = .free := by rw [enterFree_status, if_pos rfl]
  refine h.of_oneVoice v (fun w hw => ?_) ?_ (fun p => ?_) ?_ fun p => .inl (by cases p <;> rfl)
  · rw [enterFree_voice, if_neg hw]; exact .refl _
  · rw [hv]; exact .tail v _
  · rw [hv]
    have := ListMoves.off v (s.val.startOrder.get p)
    cases p <;> exact this
  · rw [hv]; exact .off v _

/-- A bound voice enters RELEASING by a change of phase, the end of its gap and a move to the tail of the
release-order list. -/
theorem enterReleasing_eq {s : State} {v : VoiceNo} {n : Note} {ph : BoundPhase} (tail : Nat)
    (h : s.status v = .bound n ph) : s.enterReleasing v tail =
      ((s.setStatus v (.bound n (.releasing tail))).setGap v none).setReleaseOrder
        (without v s.val.releaseOrder ++ [v]) := by
  rw [enterReleasing_bound tail h]
  rfl

@[simp] theorem setReleaseOrder_voice (s : State) (l : List VoiceNo) (v : VoiceNo) :
    (s.setReleaseOrder l).voice v = s.voice v := rfl

@[simp] theorem setStartOrder_voice (s : State) (p : Part) (l : List VoiceNo) (v : VoiceNo) :
    (s.setStartOrder p l).voice v = s.voice v := rfl

@[simp] theorem setReleaseOrder_part (s : State) (l : List VoiceNo) (p : Part) :
    (s.setReleaseOrder l).part p = s.part p := rfl

@[simp] theorem setStartOrder_part (s : State) (q : Part) (l : List VoiceNo) (p : Part) :
    (s.setStartOrder q l).part p = s.part p := rfl

@[simp] theorem setGap_part (s : State) (v : VoiceNo) (x : Option Countdown) (p : Part) :
    (s.setGap v x).part p = s.part p := rfl

theorem setStatus_sameVoice {s : State} {v w : VoiceNo} (x : VoiceStatus) (h : w ≠ v) :
    SameVoice (s.voice w) ((s.setStatus v x).voice w) := by
  rw [setStatus_voice, if_neg h]
  exact .refl _

theorem enterReleasing_lawful {s : State} (v : VoiceNo) (tail : Nat) (h : Lawful s) :
    Lawful (s.enterReleasing v tail) := by
  cases hv : s.status v with
  | bound n ph =>
    rw [enterReleasing_eq tail hv]
    refine h.of_oneVoice v (fun w hw => ?_) ?_ (fun p => ?_) ?_ fun p => .inr ⟨rfl, ?_⟩
    · simpa using setStatus_sameVoice _ hw
    · simp only [setReleaseOrder_status, setGap_status, setStatus_status, if_pos]
      exact .stay (by rw [h.lists.free, hv]; rfl)
    · simp only [setReleaseOrder_status, setGap_status, setStatus_status, if_pos]
      exact .stay (by rw [h.lists.start, hv]; rfl)
    · simp only [setReleaseOrder_status, setGap_status, setStatus_status, if_pos]
      exact .tail v _
    · exact setStatus_seat (x := .bound n (.releasing tail)) (fun ho => by rw [hv] at ho; exact ho) v
  | _ => rw [enterReleasing_unbound tail (by simp [hv])]; exact h

/-- A voice held again after RELEASING is off the release-order list. -/
theorem unrelease_lawful {s : State} (v : VoiceNo) (h : Lawful s) :
    Lawful ((s.setPhase v .held).setReleaseOrder (without v s.val.releaseOrder)) := by
  rw [setPhase_eq]
  refine h.of_oneVoice v (fun w hw => ?_) ?_ (fun p => ?_) ?_ fun p => .inr ⟨rfl, ?_⟩
  · simpa using setStatus_sameVoice _ hw
  · simp only [setReleaseOrder_status, setStatus_status, if_pos, inPhase_isFree]
    exact .stay (h.lists.free v)
  · simp only [setReleaseOrder_status, setStatus_status, if_pos, inPhase_onPart]
    exact .stay (h.lists.start p v)
  · have hn : ((s.status v).inPhase .held).isReleasing = false := by
      cases s.status v <;> rfl
    simp only [setReleaseOrder_status, setStatus_status, if_pos, hn]
    exact .off v _
  · exact setStatus_seat (x := (s.status v).inPhase .held)
      (fun ho => (inPhase_onPart _ _ p).trans ho) v

theorem setPhase_lawful {s : State} {v : VoiceNo} {ph : BoundPhase}
    (hv : (s.status v).isReleasing = false) (hp : ∀ n, (VoiceStatus.bound n ph).isReleasing = false)
    (h : Lawful s) : Lawful (s.setPhase v ph) := by
  rw [setPhase_eq]
  refine setStatus_lawful h (inPhase_isFree ..) (inPhase_onPart _ _) ?_
  rw [hv]
  cases s.status v with
  | bound n x => exact hp n
  | _ => rfl

theorem modNote_lawful {s : State} {v : VoiceNo} {f : Note → Note} (hf : ∀ n, (f n).part = n.part)
    (h : Lawful s) : Lawful (s.modNote v f) := by
  rw [modNote_eq]
  exact setStatus_lawful h (withNote_isFree ..) (withNote_onPart _ hf) (withNote_isReleasing ..)

theorem toStartTail_startOrder (s : State) (p q : Part) (v : VoiceNo) :
    (s.toStartTail p v).val.startOrder.get q =
      if q = p then without v (s.val.startOrder.get p) ++ [v] else s.val.startOrder.get q :=
  setStartOrder_startOrder ..

theorem toStartTail_lawful {s : State} {p : Part} {v : VoiceNo} (hv : (s.status v).onPart p = true)
    (h : Lawful s) : Lawful (s.toStartTail p v) := by
  refine h.of_oneVoice v (fun w _ => .refl _) (.stay (h.lists.free v)) (fun q => ?_)
    (.stay (h.lists.release v)) fun p => .inr ⟨rfl, id, rfl, rfl⟩
  rw [toStartTail_startOrder]
  split
  · subst q
    have : ((s.toStartTail p v).status v).onPart p = true := hv
    rw [this]
    exact .tail v _
  · exact .stay (h.lists.start q v)

theorem detach_setStatus_away_lawful {s : State} (v : VoiceNo) {x : VoiceStatus} (hx : x.isAway = true)
    (h : Lawful s) : Lawful ((s.detach v).setStatus v x) := by
  have hv : ((s.detach v).setStatus v x).status v = x := by rw [setStatus_status, if_pos rfl]
  have hf : x.isFree = false ∧ (∀ p, x.onPart p = false) ∧ x.isReleasing = false := by
    cases x <;> simp_all [VoiceStatus.isAway, VoiceStatus.isFree, VoiceStatus.onPart,
      VoiceStatus.isReleasing]
  refine h.of_oneVoice v (fun w hw => setStatus_sameVoice (s := s.detach v) x hw) ?_ (fun p => ?_) ?_ fun p => .inl ?_
  · rw [hv, hf.1]; exact .off v _
  · rw [hv, hf.2.1, State.setStatus_val]
    have := detach_startOrder s v p
    simp only at this ⊢
    rw [this]
    exact .off v _
  · rw [hv, hf.2.2]; exact .off v _
  · rw [setStatus_part, detach_part]

theorem setStatus_away_lawful {s : State} {v : VoiceNo} {x : VoiceStatus} (hx : x.isAway = true)
    (hv : (s.status v).isAway = true) (h : Lawful s) : Lawful (s.setStatus v x) := by
  have away : ∀ y : VoiceStatus, y.isAway = true → y.isFree = false ∧ (∀ p, y.onPart p = false) ∧
      y.isReleasing = false := by
    intro y hy
    cases y <;> simp_all [VoiceStatus.isAway, VoiceStatus.isFree, VoiceStatus.onPart,
      VoiceStatus.isReleasing]
  obtain ⟨f1, p1, r1⟩ := away x hx
  obtain ⟨f2, p2, r2⟩ := away _ hv
  exact setStatus_lawful h (f1.trans f2.symm) (fun p => (p1 p).trans (p2 p).symm) (r1.trans r2.symm)

/-! ## Placement of one voice -/

/-- The note that a placement binds a voice to (R15). -/
def placedNote (p : Part) (k vel : Nat) : Note := { part := p, key := k, velocity := vel, pressure := 0 }

/-- The phase that a placement binds a voice in (R16). -/
def placedPhase (x : Patch) (b : FoundBy) : BoundPhase :=
  if b.stolen ∧ 0 < x.dampMs then .muting (x.dampMs * Config.ticksPerMs) else .held

section
variable (p : Part) (k vel size : Nat) (s : State) (v : VoiceNo) {b : FoundBy} (j : Nat)

/-- All that the placement of a voice not found by step 4 does (R15, R16). -/
theorem placeOne_eq (hb : b ≠ .background) : placeOne p k vel size s ((v, b), j) =
    State.toStartTail
      (let t := (s.detach v).setVoice v { s.voice v with
        status := .bound (placedNote p k vel) (placedPhase (s.patch p) b)
        unisonIndex := j, unisonSize := size
        slop := slopOf (advanceSeed s.val.seed) (s.patch p).slopDepth }
       { t with val := { t.val with seed := advanceSeed s.val.seed } }) p v := by
  unfold placeOne
  simp only [if_neg hb]
  rfl

theorem placeOne_voice (hb : b ≠ .background) (w : VoiceNo) :
    (placeOne p k vel size s ((v, b), j)).voice w = if w = v then
      { s.voice v with
        status := .bound (placedNote p k vel) (placedPhase (s.patch p) b)
        unisonIndex := j, unisonSize := size
        slop := slopOf (advanceSeed s.val.seed) (s.patch p).slopDepth }
      else s.voice w := by
  rw [placeOne_eq p k vel size s v j hb]
  exact look_put ..

theorem placeOne_status (hb : b ≠ .background) (w : VoiceNo) :
    (placeOne p k vel size s ((v, b), j)).status w =
      if w = v then .bound (placedNote p k vel) (placedPhase (s.patch p) b) else s.status w := by
  unfold State.status
  rw [placeOne_voice p k vel size s v j hb]
  split <;> rfl

theorem placeOne_freeList (hb : b ≠ .background) :
    (placeOne p k vel size s ((v, b), j)).val.freeList = without v s.val.freeList := by
  rw [placeOne_eq p k vel size s v j hb]; rfl

theorem placeOne_releaseOrder (hb : b ≠ .background) :
    (placeOne p k vel size s ((v, b), j)).val.releaseOrder = without v s.val.releaseOrder := by
  rw [placeOne_eq p k vel size s v j hb]; rfl

theorem without_idem (l : List VoiceNo) : without v (without v l) = without v l :=
  without_eq_self fun h => ((mem_without v v l).1 h).2 rfl

theorem placeOne_startOrder (hb : b ≠ .background) (q : Part) :
    (placeOne p k vel size s ((v, b), j)).val.startOrder.get q =
      without v (s.val.startOrder.get q) ++ if q = p then [v] else [] := by
  have hd : ∀ q, (s.detach v).val.startOrder.get q = without v (s.val.startOrder.get q) :=
    detach_startOrder s v
  rw [placeOne_eq p k vel size s v j hb, toStartTail_startOrder]
  simp only [State.setVoice_val, hd, without_idem]
  split <;> simp [*]

theorem placeOne_part (hb : b ≠ .background) (q : Part) :
    (placeOne p k vel size s ((v, b), j)).part q =
      { s.part q with solo := soloDrop v (s.part q).solo } := by
  rw [placeOne_eq p k vel size s v j hb]
  exact detach_part s v q

theorem placeOne_seed (hb : b ≠ .background) :
    (placeOne p k vel size s ((v, b), j)).val.seed = advanceSeed s.val.seed := by
  rw [placeOne_eq p k vel size s v j hb]; rfl

theorem placeOne_gaps (hb : b ≠ .background) :
    (placeOne p k vel size s ((v, b), j)).cvo.gaps = put s.cvo.gaps v none := by
  rw [placeOne_eq p k vel size s v j hb]; rfl

theorem placeOne_ebu (hb : b ≠ .background) : (placeOne p k vel size s ((v, b), j)).ebu = s.ebu := by
  rw [placeOne_eq p k vel size s v j hb]; rfl

end

theorem placedPhase_isReleasing (x : Patch) (b : FoundBy) (n : Note) :
    (VoiceStatus.bound n (placedPhase x b)).isReleasing = false := by
  unfold placedPhase; split <;> rfl

theorem placeOne_lawful (p : Part) (k vel size : Nat) {s : State} (v : VoiceNo) {b : FoundBy} (j : Nat)
    (hb : b ≠ .background) (h : Lawful s) : Lawful (placeOne p k vel size s ((v, b), j)) := by
  refine h.of_oneVoice v (fun w hw => ?_) ?_ (fun q => ?_) ?_ fun q => .inl ?_
  · rw [placeOne_voice p k vel size s v j hb, if_neg hw]; exact .refl _
  · rw [placeOne_status p k vel size s v j hb, if_pos rfl, placeOne_freeList p k vel size s v j hb]
    exact .off v _
  · rw [placeOne_status p k vel size s v j hb, if_pos rfl, placeOne_startOrder p k vel size s v j hb]
    by_cases hq : q = p
    · subst q
      simpa [VoiceStatus.onPart, placedNote] using ListMoves.tail v (s.val.startOrder.get p)
    · have : (p == q) = false := by simpa using fun h => hq h.symm
      simpa [VoiceStatus.onPart, placedNote, hq, this] using ListMoves.off v (s.val.startOrder.get q)
  · rw [placeOne_status p k vel size s v j hb, if_pos rfl, placeOne_releaseOrder p k vel size s v j hb,
      placedPhase_isReleasing]
    exact .off v _
  · rw [placeOne_part p k vel size s v j hb]

/-! ## Every move -/

theorem Lawful.congr {s t : State} (h : Lawful s) (voice : ∀ v, SameVoice (s.voice v) (t.voice v))
    (free : t.val.freeList = s.val.freeList) (start : t.val.startOrder = s.val.startOrder)
    (release : t.val.releaseOrder = s.val.releaseOrder)
    (solo : ∀ p, (t.part p).solo = (s.part p).solo) : Lawful t :=
  ⟨h.lists.congr (fun v => (voice v).1) free start release, fun p =>
    (GroupStays.of_eq (solo p) fun _ _ w _ =>
      ⟨fun ho => by rw [show t.status w = s.status w from (voice w).1]; exact ho, (voice w).2.2.1,
        (voice w).2.1⟩).shape (h.shape p)⟩

theorem EngineOnly.notes {s t : State} (h : EngineOnly s t) : NotesSame s t := .of_val h.1 h.2.1 h.2.2

theorem modPart_solo {s : State} {p : Part} {f : PartRec → PartRec} (hs : ∀ x, (f x).solo = x.solo)
    (q : Part) : ((s.modPart p f).part q).solo = (s.part q).solo := by
  rw [modPart_part]
  split
  · subst q; rw [hs]
  · rfl

theorem setSolo_part (s : State) (p q : Part) (g : Option VoiceSet) :
    (s.setSolo p g).part q = if q = p then { s.part p with solo := g } else s.part q :=
  modPart_part ..

theorem setKeys_part (s : State) (p q : Part) (l : List Nat) :
    (s.setKeys p l).part q = if q = p then { s.part p with heldKeys := l } else s.part q :=
  modPart_part ..

theorem setKeys_solo (s : State) (p q : Part) (l : List Nat) :
    ((s.setKeys p l).part q).solo = (s.part q).solo :=
  modPart_solo (f := fun x => { x with heldKeys := l }) (fun _ => rfl) q

/-- Every move keeps the lists lawful and the groups in shape (R3, R31). -/
theorem Move.lawful {r : Reach} {flux : Option (Part × Nat)} {s t : State} (m : Move r flux s t)
    (h : Lawful s) : Lawful t := by
  cases m with
  | same n _ => exact h.congr n.voice n.freeList n.startOrder n.releaseOrder fun p => by rw [n.part]
  | engine _ e =>
    have n := e.notes
    exact h.congr n.voice n.freeList n.startOrder n.releaseOrder fun p => by rw [n.part]
  | free v => exact enterFree_lawful v h
  | releasing v => exact enterReleasing_lawful v _ h
  | hold v hv => exact setPhase_lawful hv (fun _ => rfl) h
  | sustained v hv =>
    refine setPhase_lawful ?_ (fun _ => rfl) h
    revert hv
    rcases s.status v with _ | ⟨n, _ | _ | _ | _⟩ | _ | _ <;> simp [VoiceStatus.isHeld, VoiceStatus.isReleasing]
  | unrelease v => exact unrelease_lawful v h
  | gap v => exact h.congr (fun _ => .refl _) rfl rfl rfl fun _ => rfl
  | gapExpiry v => exact h.congr (fun _ => .refl _) rfl rfl rfl fun _ => rfl
  | note v f hp => exact modNote_lawful hp h
  | rekey v f p k _ _ hp => exact modNote_lawful hp h
  | tail p v hv => exact toStartTail_lawful (hv h) h
  | bind p k vel size v b j _ hb => exact placeOne_lawful p k vel size v j hb h
  | dissolve p =>
    refine ⟨h.lists.congr (fun _ => rfl) rfl rfl rfl, fun q x hx => ?_⟩
    rw [setSolo_part] at hx
    split at hx
    · cases hx
    · exact h.shape q x hx
  | keys p l => exact h.congr (fun _ => .refl _) rfl rfl rfl fun q => setKeys_solo s p q l
  | part p f _ hs => exact h.congr (fun _ => .refl _) rfl rfl rfl (modPart_solo hs)
  | patch val =>
    exact h.congr (fun v => by unfold State.voice; rw [val]; exact .refl _) (by rw [val]) (by rw [val])
      (by rw [val]) fun p => by unfold State.part; rw [val]
  | seed => exact h.congr (fun _ => .refl _) rfl rfl rfl fun _ => rfl
  | lend v x _ hx => exact detach_setStatus_away_lawful v hx h
  | relend v x _ hx hv => exact setStatus_away_lawful hx hv h

/-- A voice's key, where it has a note. -/
def keyOf (s : State) (v : VoiceNo) : Option Nat := (s.status v).note?.map Note.key

theorem SoloKeys.of_stays {s t : State} {p : Part}
    (h : GroupStays s t p fun w => keyOf t w = keyOf s w) (hs : SoloKeys s p) : SoloKeys t p :=
  GroupStays.keys h hs

theorem keyOf_setStatus {s : State} {v : VoiceNo} {x : VoiceStatus}
    (h : x.note?.map Note.key = keyOf s v) (w : VoiceNo) : keyOf (s.setStatus v x) w = keyOf s w := by
  unfold keyOf
  rw [setStatus_status]
  split
  · subst w; exact h
  · rfl

theorem keyOf_setPhase (s : State) (v w : VoiceNo) (ph : BoundPhase) :
    keyOf (s.setPhase v ph) w = keyOf s w := by
  rw [setPhase_eq]
  exact keyOf_setStatus (by rw [inPhase_note]; rfl) w

theorem keyOf_modNote_ne {s : State} {v w : VoiceNo} (f : Note → Note) (h : w ≠ v) :
    keyOf (s.modNote v f) w = keyOf s w := by
  unfold keyOf State.status
  rw [modNote_voice_ne s v w f h]

theorem keyOf_modNote {s : State} {v : VoiceNo} {f : Note → Note} (hk : ∀ n, (f n).key = n.key)
    (w : VoiceNo) : keyOf (s.modNote v f) w = keyOf s w := by
  rw [modNote_eq]
  refine keyOf_setStatus ?_ w
  unfold keyOf
  cases s.status v <;> simp [VoiceStatus.withNote, VoiceStatus.note?, hk]

theorem keyOf_enterReleasing (s : State) (v w : VoiceNo) (tail : Nat) :
    keyOf (s.enterReleasing v tail) w = keyOf s w := by
  cases hv : s.status v with
  | bound n ph =>
    rw [enterReleasing_eq tail hv]
    exact keyOf_setStatus (by unfold keyOf; rw [hv]; rfl) w
  | _ => rw [enterReleasing_unbound tail (by simp [hv])]

theorem keyOf_congr {s t : State} (h : ∀ v, SameVoice (s.voice v) (t.voice v)) (w : VoiceNo) :
    keyOf t w = keyOf s w := by
  unfold keyOf; rw [show t.status w = s.status w from (h w).1]

theorem onPart_unique {x : VoiceStatus} {p q : Part} (hp : x.onPart p = true) (hq : x.onPart q = true) :
    p = q := by
  cases x with
  | bound n ph =>
    simp only [VoiceStatus.onPart, beq_iff_eq] at hp hq
    exact hp.symm.trans hq
  | _ => simp [VoiceStatus.onPart] at hp

/-- Every move keeps each part's solo group on one key, but for the part whose key is in flux (R31). -/
theorem Move.soloKeys {r : Reach} {flux : Option (Part × Nat)} {s t : State} (m : Move r flux s t)
    (h : Lawful s) {q : Part} (hq : ∀ k, flux ≠ some (q, k)) (hs : SoloKeys s q) : SoloKeys t q := by
  have stay : ∀ {t : State}, (t.part q).solo = (s.part q).solo → (∀ w, keyOf t w = keyOf s w) →
      SoloKeys t q := fun he hk => .of_stays (.of_eq he fun _ _ w _ => hk w) hs
  cases m with
  | same n _ => exact stay (by rw [n.part]) (keyOf_congr n.voice)
  | engine _ e => exact stay (by rw [e.notes.part]) (keyOf_congr e.notes.voice)
  | free v =>
    refine .of_stays (.of_drop v (by cases q <;> rfl) fun w hw => ?_) hs
    unfold keyOf; rw [enterFree_status, if_neg hw]
  | releasing v p =>
    refine stay ?_ (fun w => keyOf_enterReleasing s v w _)
    unfold State.enterReleasing; split <;> rfl
  | hold v =>
    refine stay ?_ (fun w => keyOf_setPhase s v w _)
    rw [setPhase_eq]; rfl
  | sustained v =>
    refine stay ?_ (fun w => keyOf_setPhase s v w _)
    rw [setPhase_eq]; rfl
  | unrelease v =>
    refine stay ?_ (fun w => keyOf_setPhase s v w _)
    rw [setPhase_eq]; rfl
  | gap v => exact stay rfl fun _ => rfl
  | gapExpiry v => exact stay rfl fun _ => rfl
  | note v f _ hk => exact stay (by rw [modNote_eq]; rfl) (keyOf_modNote hk)
  | rekey v f p k hx hv =>
    refine .of_stays (.of_eq (by rw [modNote_eq]; rfl) fun g hg w hw => keyOf_modNote_ne f ?_) hs
    rintro rfl
    have := onPart_unique (hv h) ((h.shape q g hg).2.1 w hw)
    exact hq k (this ▸ hx)
  | tail p v => exact stay rfl fun _ => rfl
  | bind p k vel size v b j _ hb =>
    refine .of_stays (.of_drop v (by rw [placeOne_part p k vel size s v j hb]) fun w hw => ?_) hs
    unfold keyOf; rw [placeOne_status p k vel size s v j hb, if_neg hw]
  | dissolve p =>
    intro x hx
    rw [setSolo_part] at hx
    split at hx
    · cases hx
    · exact hs x hx
  | keys p l => exact stay (setKeys_solo s p q l) fun _ => rfl
  | part p f _ hf => exact stay (modPart_solo hf q) fun _ => rfl
  | patch val =>
    refine stay (by unfold State.part; rw [val]) fun w => ?_
    unfold keyOf State.status State.voice; rw [val]
  | seed => exact stay rfl fun _ => rfl
  | lend v x =>
    refine .of_stays (.of_drop v (by rw [setStatus_part, detach_part]) fun w hw => ?_) hs
    unfold keyOf; rw [setStatus_status, if_neg hw]; rfl
  | relend v x _ hx hv =>
    refine stay rfl (keyOf_setStatus ?_)
    unfold keyOf
    revert hx hv
    cases x <;> cases s.status v <;> simp [VoiceStatus.isAway, VoiceStatus.note?]

theorem Chain.lawful {r : Reach} {flux : Option (Part × Nat)} {s t : State} (c : Chain r flux s t)
    (h : Lawful s) : Lawful t := by
  induction c with
  | refl => exact h
  | tail _ m ih => exact m.lawful ih

theorem Chain.soloKeys {r : Reach} {flux : Option (Part × Nat)} {s t : State} (c : Chain r flux s t)
    (h : Lawful s) {q : Part} (hq : ∀ k, flux ≠ some (q, k)) (hs : SoloKeys s q) : SoloKeys t q := by
  induction c with
  | refl => exact hs
  | tail c m ih => exact m.soloKeys (Chain.lawful c h) hq ih

/-- Moves keep lists and solo groups lawful. -/
theorem Moves.lawful {r : Reach} {s t : State} (m : Moves r s t) (h : Lawful s ∧ ∀ p, SoloKeys s p) :
    Lawful t ∧ ∀ p, SoloKeys t p := by
  induction m with
  | refl => exact h
  | move _ m ih => exact ⟨m.lawful ih.1, fun p => m.soloKeys ih.1 (by simp) (ih.2 p)⟩
  | rekeyed _ p k c hk he ih =>
    obtain ⟨hl, hs⟩ := ih
    refine ⟨Chain.lawful c hl, fun q => ?_⟩
    by_cases hq : q = p
    · subst q
      intro g hg v w hv hw
      rw [he hl g hg v hv, he hl g hg w hw]
    · refine Chain.soloKeys c hl (fun j e => hq ?_) (hs q)
      simp only [Option.some.injEq, Prod.mk.injEq] at e
      exact e.1.symm
  | grouped _ c p g hg ih =>
    obtain ⟨hl, hs⟩ := ih
    obtain ⟨shape, key⟩ := hg hl
    have hu := Chain.lawful c hl
    refine ⟨⟨hu.lists.congr (fun _ => rfl) rfl rfl rfl, fun q x hx => ?_⟩, fun q x hx => ?_⟩
    · rw [setSolo_part] at hx
      split at hx
      · subst q; cases hx; exact shape
      · exact hu.shape q x hx
    · rw [setSolo_part] at hx
      split at hx
      · subst q; cases hx; exact key
      · exact Chain.soloKeys c hl (by simp) (hs q) x hx

end Sys2Proof.Machine
end

