-- ==== Sys2Proof/Proofs/RangesOfMoves.lean ====
section
/-! Retrigger gaps, held keys and ranges under each move, and what a move leaves of the engine. -/

namespace Sys2Proof.Machine

/-! ## Retrigger gaps (R39) -/

/-- HELD or SUSTAINED. -/
def VoiceStatus.gapMay (x : VoiceStatus) : Prop := x.isHeld = true ∨ x.isSustained = true

theorem GapLaw.of_oneVoice {s t : State} (h : GapLaw s) (v : VoiceNo)
    (others : ∀ w, w ≠ v → t.status w = s.status w ∧ look t.cvo.gaps w = look s.cvo.gaps w)
    (own : look t.cvo.gaps v = none ∨ (t.status v).gapMay ∨
      (look t.cvo.gaps v = look s.cvo.gaps v ∧ ((s.status v).gapMay → (t.status v).gapMay))) :
    GapLaw t := by
  intro w hg
  by_cases hw : w = v
  · subst w
    rcases own with hn | hm | ⟨he, hm⟩
    · rw [hn] at hg; cases hg
    · exact hm
    · rw [he] at hg; exact hm (h v hg)
  · obtain ⟨hs, he⟩ := others w hw
    rw [he] at hg
    rw [hs]
    exact h w hg

theorem GapLaw.congr {s t : State} (h : GapLaw s) (status : ∀ v, t.status v = s.status v)
    (gaps : t.cvo.gaps = s.cvo.gaps) : GapLaw t := by
  intro v hg
  rw [gaps] at hg
  rw [status]
  exact h v hg

theorem GapLaw.setStatus {s : State} (h : GapLaw s) (v : VoiceNo) (x : VoiceStatus)
    (hx : (s.status v).gapMay → x.gapMay) : GapLaw (s.setStatus v x) := by
  refine h.of_oneVoice v (fun w hw => ⟨by rw [setStatus_status, if_neg hw], rfl⟩) (.inr (.inr ⟨rfl, ?_⟩))
  rw [setStatus_status, if_pos rfl]
  exact hx

theorem GapLaw.modNote {s : State} (h : GapLaw s) (v : VoiceNo) (f : Note → Note) :
    GapLaw (s.modNote v f) := by
  rw [modNote_eq]
  refine h.setStatus v _ ?_
  unfold VoiceStatus.gapMay
  rcases s.status v with _ | ⟨n, _ | _ | _ | _⟩ | _ | _ <;> exact id

theorem inPhase_gapMay {x : VoiceStatus} {ph : BoundPhase} (hp : ∀ n, (VoiceStatus.bound n ph).gapMay)
    (hx : x.gapMay) : (x.inPhase ph).gapMay := by
  cases x with
  | bound n y => exact hp n
  | _ => exact hx

theorem GapLaw.setPhase {s : State} (h : GapLaw s) (v : VoiceNo) {ph : BoundPhase}
    (hp : ∀ n, (VoiceStatus.bound n ph).gapMay) : GapLaw (s.setPhase v ph) := by
  rw [setPhase_eq]
  exact h.setStatus v _ (inPhase_gapMay hp)

/-- Every move keeps gaps to HELD and SUSTAINED voices. -/
theorem Move.gapLaw {r : Reach} {flux : Option (Part × Nat)} {s t : State} (m : Move r flux s t)
    (h : GapLaw s) : GapLaw t := by
  cases m with
  | same n _ => exact h.congr n.status n.gaps
  | engine _ e => exact h.congr e.notes.status e.notes.gaps
  | free v =>
    refine h.of_oneVoice v (fun w hw => ⟨by rw [enterFree_status, if_neg hw], look_put_ne _ _ hw⟩)
      (.inl (look_put_same ..))
  | releasing v p =>
    cases hv : s.status v with
    | bound n ph =>
      rw [enterReleasing_eq _ hv]
      refine h.of_oneVoice v (fun w hw => ⟨?_, look_put_ne _ _ hw⟩) (.inl (look_put_same ..))
      rw [setReleaseOrder_status, setGap_status, setStatus_status, if_neg hw]
    | _ => rw [enterReleasing_unbound _ (by simp [hv])]; exact h
  | hold v => exact h.setPhase v fun _ => .inl rfl
  | sustained v => exact h.setPhase v fun _ => .inr rfl
  | unrelease v => exact (h.setPhase v fun _ => .inl rfl).congr (fun _ => rfl) rfl
  | gap v x hv =>
    exact h.of_oneVoice v (fun w hw => ⟨rfl, look_put_ne _ _ hw⟩) (.inr (.inl hv))
  | gapExpiry v =>
    refine h.of_oneVoice v (fun w hw => ⟨rfl, look_put_ne _ _ hw⟩) ?_
    cases hg : look s.cvo.gaps v with
    | none => exact .inl (by simp [Machine.gapExpiry, hg])
    | some x => exact .inr (.inl (h v (by rw [hg]; rfl)))
  | note v f => exact h.modNote v f
  | rekey v f => exact h.modNote v f
  | tail p v => exact h.congr (fun _ => rfl) rfl
  | bind p k vel size v b j _ hb =>
    refine h.of_oneVoice v (fun w hw => ⟨?_, ?_⟩) (.inl ?_)
    · rw [placeOne_status p k vel size s v j hb, if_neg hw]
    · rw [placeOne_gaps p k vel size s v j hb, look_put_ne _ _ hw]
    · rw [placeOne_gaps p k vel size s v j hb, look_put_same]
  | dissolve p => exact h.congr (fun _ => rfl) rfl
  | keys p l => exact h.congr (fun _ => rfl) rfl
  | part p f => exact h.congr (fun _ => rfl) rfl
  | patch val gaps =>
    exact h.congr (fun v => by unfold State.status State.voice; rw [val]) gaps
  | seed => exact h.congr (fun _ => rfl) rfl
  | lend v x =>
    refine h.of_oneVoice v (fun w hw => ⟨?_, look_put_ne _ _ hw⟩) (.inl (look_put_same ..))
    rw [setStatus_status, if_neg hw]; rfl
  | relend v x _ _ hv =>
    refine h.setStatus v x fun hm => ?_
    revert hm hv
    unfold VoiceStatus.gapMay
    cases s.status v <;> simp [VoiceStatus.isAway, VoiceStatus.isHeld, VoiceStatus.isSustained]

/-! ## Held keys (R28) -/

theorem HeldKeysLaw.congr {s t : State} (h : HeldKeysLaw s)
    (keys : ∀ p, (t.part p).heldKeys = (s.part p).heldKeys) : HeldKeysLaw t := by
  intro p
  rw [keys]
  exact h p

/-- Every move keeps the held-key lists lawful. -/
theorem Move.heldKeysLaw {r : Reach} {flux : Option (Part × Nat)} {s t : State} (m : Move r flux s t)
    (h : HeldKeysLaw s) : HeldKeysLaw t := by
  cases m with
  | same n _ => exact h.congr fun p => by rw [n.part]
  | engine _ e => exact h.congr fun p => by rw [e.notes.part]
  | free v => exact h.congr fun p => by cases p <;> rfl
  | releasing v p =>
    refine h.congr fun q => ?_
    unfold State.enterReleasing; split <;> rfl
  | hold v => exact h.congr fun p => by rw [setPhase_eq]; rfl
  | sustained v => exact h.congr fun p => by rw [setPhase_eq]; rfl
  | unrelease v => exact h.congr fun p => by rw [setPhase_eq]; rfl
  | gap v => exact h
  | gapExpiry v => exact h
  | note v f => exact h.congr fun p => by rw [modNote_eq]; rfl
  | rekey v f => exact h.congr fun p => by rw [modNote_eq]; rfl
  | tail p v => exact h
  | bind p k vel size v b j _ hb => exact h.congr fun q => by rw [placeOne_part p k vel size s v j hb]
  | dissolve p =>
    refine h.congr fun q => ?_
    rw [setSolo_part]; split
    · subst q; rfl
    · rfl
  | keys p l hl =>
    intro q
    rw [setKeys_part]
    split
    · exact hl h
    · exact h q
  | part p f hk =>
    refine h.congr fun q => ?_
    rw [modPart_part]; split
    · subst q; exact hk _
    · rfl
  | patch val => exact h.congr fun p => by unfold State.part; rw [val]
  | seed => exact h
  | lend v x => exact h.congr fun p => by rw [setStatus_part, detach_part]
  | relend v x => exact h

/-! ## Ranges (R2, R4, R7) -/

/-- The premises of the ranges: the edit buffers' and the held keys' (R42, R128). -/
structure Ranged (s : State) : Prop where
  voice : ∀ v, (s.voice v).InRange
  part : ∀ p, (s.part p).InRange
  seed : s.val.seed ≠ 0
  buffers : BufferLaw s
  keys : HeldKeysLaw s

theorem ranged_iff (s : State) : Ranged s ↔ AllocatorRanges s ∧ BufferLaw s ∧ HeldKeysLaw s :=
  ⟨fun h => ⟨⟨h.voice, h.part, h.seed⟩, h.buffers, h.keys⟩,
    fun h => ⟨h.1.1, h.1.2.1, h.1.2.2, h.2.1, h.2.2⟩⟩

theorem Voice.InRange.congr {x y : Voice} (h : x.InRange) (e : SameVoice x y) : y.InRange := by
  obtain ⟨e1, e2, e3, e4⟩ := e
  unfold Voice.InRange at *
  rw [e1, e2, e3, e4]
  exact h

theorem BufferLaw.congr {s t : State} (h : BufferLaw s) (patch : ∀ p, t.patch p = s.patch p) :
    BufferLaw t := by
  intro p; rw [patch]; exact h p

theorem BufferLaw.of_ebu {s t : State} (h : BufferLaw s) (ebu : t.ebu = s.ebu) : BufferLaw t :=
  h.congr fun p => by unfold State.patch; rw [ebu]

/-- A voice's new status lies in its range. -/
theorem setStatus_inRange {s : State} {v : VoiceNo} {x : VoiceStatus} (h : ∀ w, (s.voice w).InRange)
    (hx : x.InRange) (w : VoiceNo) : ((s.setStatus v x).voice w).InRange := by
  rw [setStatus_voice]
  split
  · exact ⟨hx, (h v).2⟩
  · exact h w

theorem Patch.releaseMs_le {x : Patch} (h : x.InRange) : x.releaseMs ≤ 4092 := by
  have h72 := h.1 72
  unfold Patch.releaseMs
  have : x.param 72 * x.param 72 ≤ 1023 * 1023 := Nat.mul_le_mul h72 h72
  omega

theorem Patch.dampMs_le {x : Patch} (h : x.InRange) : x.dampMs ≤ 15 := by
  have h79 := h.1 79
  unfold Patch.dampMs
  omega

theorem Patch.unison_range {x : Patch} (h : x.InRange) : 1 ≤ x.unison ∧ x.unison ≤ 8 := by
  have h65 := h.1 65
  unfold Patch.unison
  omega

theorem Patch.slopDepth_le {x : Patch} (h : x.InRange) : x.slopDepth ≤ 127 := by
  have h73 := h.1 73
  unfold Patch.slopDepth
  omega

/-- One step of the Galois register: the feedback bits come in where the bit shifted out is 1 (R7). -/
theorem advanceSeed_eq (l : BitVec 16) :
    advanceSeed l = (l >>> 1) ^^^ (if l.toNat % 2 = 1 then 0xB400 else 0) := by
  have hb : l.getLsbD 0 = decide (l.toNat % 2 = 1) := by
    simp [BitVec.getLsbD, Nat.testBit_zero]
  unfold advanceSeed
  simp only [hb, decide_eq_true_eq]
  split
  · rfl
  · simp

/-- An advance never reaches 0 from a register that is not 0: the highest feedback bit is 1 where a bit is
shifted out, and nothing is lost where it is not (R7). -/
theorem advanceSeed_ne_zero {l : BitVec 16} (h : l ≠ 0) : advanceSeed l ≠ 0 := by
  rw [advanceSeed_eq]
  split
  · intro h0
    have : ((l >>> 1) ^^^ 0xB400#16).getLsbD 15 = (0#16).getLsbD 15 := by
      rw [show (0xB400#16) = 0xB400 from rfl, h0]; rfl
    simp at this
  · intro h0
    apply h
    have h1 : l >>> 1 = 0 := by simpa using h0
    have h2 : (l >>> 1).toNat = 0 := by rw [h1]; rfl
    rw [BitVec.toNat_ushiftRight, Nat.shiftRight_eq_div_pow] at h2
    apply BitVec.eq_of_toNat_eq
    show l.toNat = 0
    omega

theorem withNote_inRange {x : VoiceStatus} {f : Note → Note} (hf : ∀ n, n.InRange → (f n).InRange)
    (h : x.InRange) : (x.withNote f).InRange := by
  cases x with
  | bound n ph => exact ⟨hf n h.1, h.2⟩
  | _ => exact h

theorem inPhase_inRange {x : VoiceStatus} {ph : BoundPhase} (hp : ph.InRange) (h : x.InRange) :
    (x.inPhase ph).InRange := by
  cases x with
  | bound n y => exact ⟨h.1, hp⟩
  | _ => exact h

theorem Ranged.setPhase {s : State} (h : Ranged s) (v : VoiceNo) {ph : BoundPhase} (hp : ph.InRange) :
    ∀ w, ((s.setPhase v ph).voice w).InRange := by
  rw [setPhase_eq]
  exact setStatus_inRange h.voice (inPhase_inRange hp (h.voice v).1)

theorem Ranged.modNote {s : State} (h : Ranged s) (v : VoiceNo) {f : Note → Note}
    (hf : ∀ n, n.InRange → (f n).InRange) : ∀ w, ((s.modNote v f).voice w).InRange := by
  rw [modNote_eq]
  exact setStatus_inRange h.voice (withNote_inRange hf (h.voice v).1)

theorem placedPhase_inRange {x : Patch} (h : x.InRange) (b : FoundBy) : (placedPhase x b).InRange := by
  unfold placedPhase
  split
  · exact Nat.mul_le_mul_right _ (Patch.dampMs_le h)
  · trivial

theorem slopOf_inRange {x : Patch} (h : x.InRange) (l : BitVec 16) :
    -127 ≤ slopOf l x.slopDepth ∧ slopOf l x.slopDepth ≤ 127 := by
  have hd := Patch.slopDepth_le h
  have hs := slopOf_range l x.slopDepth
  omega

theorem setSolo_heldKeys (s : State) (p q : Part) (g : Option VoiceSet) :
    ((s.setSolo p g).part q).heldKeys = (s.part q).heldKeys := by
  rw [setSolo_part]
  split
  · subst q; rfl
  · rfl

theorem Ranged.setSolo {s : State} (h : Ranged s) (p : Part) (g : Option VoiceSet) :
    Ranged (s.setSolo p g) := by
  refine ⟨h.voice, fun q => ?_, h.seed, h.buffers, h.keys.congr fun q => setSolo_heldKeys s p q g⟩
  rw [setSolo_part]
  split
  · exact h.part p
  · exact h.part q

/-- Every move keeps the allocator's fields in their ranges, with the edit buffers and the held keys; a key
in flux must be in range too. -/
theorem Move.ranged {r : Reach} {flux : Option (Part × Nat)} {s t : State} (m : Move r flux s t)
    (hx : ∀ p k, flux = some (p, k) → k ≤ 127) (h : Ranged s) : Ranged t := by
  have keys := m.heldKeysLaw h.keys
  cases m with
  | same n _ =>
    exact ⟨fun v => (h.voice v).congr (n.voice v), fun p => n.part p ▸ h.part p, n.seed ▸ h.seed,
      h.buffers.congr n.patch, keys⟩
  | engine _ e =>
    have n := e.notes
    exact ⟨fun v => (h.voice v).congr (n.voice v), fun p => n.part p ▸ h.part p, n.seed ▸ h.seed,
      h.buffers.congr n.patch, keys⟩
  | free v =>
    refine ⟨fun w => ?_, fun p => ?_, h.seed, h.buffers, keys⟩
    · rw [enterFree_voice]
      split
      · exact ⟨trivial, (h.voice v).2⟩
      · exact h.voice w
    · have := h.part p
      cases p <;> exact this
  | releasing v p =>
    cases hv : s.status v with
    | bound n ph =>
      have hn : n.InRange := by have := (h.voice v).1; rw [show (s.voice v).status = _ from hv] at this; exact this.1
      rw [enterReleasing_eq _ hv] at keys ⊢
      refine ⟨setStatus_inRange h.voice ⟨hn, ?_⟩, h.part, h.seed, h.buffers, keys⟩
      exact Nat.mul_le_mul_right _ (Patch.releaseMs_le (h.buffers p))
    | _ => rw [enterReleasing_unbound _ (by simp [hv])]; exact h
  | hold v =>
    have hv := h.setPhase v (ph := .held) trivial
    rw [setPhase_eq] at hv keys ⊢
    exact ⟨hv, h.part, h.seed, h.buffers, keys⟩
  | sustained v =>
    have hv := h.setPhase v (ph := .sustained) trivial
    rw [setPhase_eq] at hv keys ⊢
    exact ⟨hv, h.part, h.seed, h.buffers, keys⟩
  | unrelease v =>
    have hv := h.setPhase v (ph := .held) trivial
    rw [setPhase_eq] at hv keys ⊢
    exact ⟨hv, h.part, h.seed, h.buffers, keys⟩
  | gap v => exact ⟨h.voice, h.part, h.seed, h.buffers, keys⟩
  | gapExpiry v => exact ⟨h.voice, h.part, h.seed, h.buffers, keys⟩
  | note v f _ _ hf =>
    have hv := h.modNote v hf
    rw [modNote_eq] at hv keys ⊢
    exact ⟨hv, h.part, h.seed, h.buffers, keys⟩
  | rekey v f p k he _ _ hf =>
    have hv := h.modNote v fun n hn => hf n hn (hx p k he)
    rw [modNote_eq] at hv keys ⊢
    exact ⟨hv, h.part, h.seed, h.buffers, keys⟩
  | tail p v => exact ⟨h.voice, h.part, h.seed, h.buffers, keys⟩
  | bind p k vel size v b j _ hb hk hvel hs =>
    refine ⟨fun w => ?_, fun q => ?_, ?_, ?_, keys⟩
    · rw [placeOne_voice p k vel size s v j hb]
      split
      · obtain ⟨hj, hz⟩ := hs h.buffers
        exact ⟨⟨⟨hk, hvel.1, hvel.2, Nat.zero_le _⟩, placedPhase_inRange (h.buffers p) b⟩, hj, hz,
          slopOf_inRange (h.buffers p) _⟩
      · exact h.voice w
    · rw [placeOne_part p k vel size s v j hb]; exact h.part q
    · rw [placeOne_seed p k vel size s v j hb]; exact advanceSeed_ne_zero h.seed
    · exact h.buffers.of_ebu (placeOne_ebu p k vel size s v j hb)
  | dissolve p => exact h.setSolo p none
  | keys p l =>
    refine ⟨h.voice, fun q => ?_, h.seed, h.buffers, keys⟩
    rw [setKeys_part]
    split
    · exact h.part p
    · exact h.part q
  | part p f _ _ hf =>
    refine ⟨h.voice, fun q => ?_, h.seed, h.buffers, keys⟩
    rw [modPart_part]
    split
    · exact hf _ (h.part p)
    · exact h.part q
  | patch val _ _ hb =>
    exact ⟨fun v => by unfold State.voice; rw [val]; exact h.voice v,
      fun p => by unfold State.part; rw [val]; exact h.part p, val ▸ h.seed, hb h.buffers, keys⟩
  | seed w hw => exact ⟨h.voice, h.part, hw, h.buffers, keys⟩
  | lend v x _ ha =>
    refine ⟨setStatus_inRange (s := s.detach v) h.voice ?_, fun p => ?_, h.seed, h.buffers, keys⟩
    · cases x <;> trivial
    · rw [setStatus_part, detach_part]; exact h.part p
  | relend v x _ ha =>
    refine ⟨setStatus_inRange h.voice ?_, h.part, h.seed, h.buffers, keys⟩
    cases x <;> trivial

/-! ## Moves -/

/-- What every move keeps, whatever is in flux, a chain keeps. -/
theorem Chain.holds {r : Reach} {P : State → Prop} {flux : Option (Part × Nat)}
    (h : ∀ {s t}, Move r flux s t → P s → P t) {s t : State} (c : Chain r flux s t) (hs : P s) : P t := by
  induction c with
  | refl => exact hs
  | tail _ m ih => exact h m ih

/-- What every move keeps, whatever is in flux, moves keep, where a new solo group breaks it neither. -/
theorem Moves.holds {r : Reach} {P : State → Prop} (h : ∀ {flux s t}, Move r flux s t → P s → P t)
    (hg : ∀ s p g, P s → P (s.setSolo p g)) {s t : State} (m : Moves r s t) (hs : P s) : P t := by
  induction m with
  | refl => exact hs
  | move _ m ih => exact h m ih
  | rekeyed _ p k c _ _ ih => exact Chain.holds h c ih
  | grouped _ c p g _ ih => exact hg _ p _ (Chain.holds h c ih)

theorem Moves.gapLaw {r : Reach} {s t : State} (m : Moves r s t) : GapLaw s → GapLaw t :=
  m.holds Move.gapLaw fun _ _ _ h => h.congr (fun _ => rfl) rfl

theorem Moves.heldKeysLaw {r : Reach} {s t : State} (m : Moves r s t) : HeldKeysLaw s → HeldKeysLaw t :=
  m.holds Move.heldKeysLaw fun s p g h => h.congr fun q => setSolo_heldKeys s p q g

theorem Moves.ranged {r : Reach} {s t : State} (m : Moves r s t) (h : Ranged s) : Ranged t := by
  induction m with
  | refl => exact h
  | move _ m ih => exact m.ranged (by simp) ih
  | rekeyed _ p k c hk _ ih =>
    refine Chain.holds (fun m h => m.ranged ?_ h) c ih
    rintro q j ⟨⟩
    exact hk ih.keys
  | grouped _ c p g _ ih => exact (Chain.holds (fun m h => m.ranged (by simp) h) c ih).setSolo p _

/-! ## What moves within a smaller reach leave alone -/

/-- The same kind of TUNING, or not TUNING alike. -/
def SameTuning (x y : VoiceStatus) : Prop :=
  y.isFgTuning = x.isFgTuning ∧ y.isBgTuning = x.isBgTuning ∧ y.isTuning = x.isTuning

/-- The engine, the bus and the voices lent to the engine are as they were, and no voice has become FREE
unless `freed`. -/
structure EngineStands (freed : Bool) (s t : State) : Prop where
  same : EngineSame s t
  tuning : ∀ v, SameTuning (s.status v) (t.status v)
  free : freed = false → ∀ v, (t.status v).isFree = true → (s.status v).isFree = true

theorem EngineStands.refl (b : Bool) (s : State) : EngineStands b s s :=
  ⟨.refl s, fun _ => ⟨rfl, rfl, rfl⟩, fun _ _ h => h⟩

theorem EngineStands.trans {b : Bool} {s t u : State} (x : EngineStands b s t) (y : EngineStands b t u) :
    EngineStands b s u where
  same := x.same.trans y.same
  tuning v := ⟨(y.tuning v).1.trans (x.tuning v).1, (y.tuning v).2.1.trans (x.tuning v).2.1,
    (y.tuning v).2.2.trans (x.tuning v).2.2⟩
  free hb v h := x.free hb v (y.free hb v h)

theorem EngineStands.of_status {b : Bool} {s t : State} (e : EngineSame s t)
    (h : ∀ v, t.status v = s.status v) : EngineStands b s t :=
  ⟨e, fun v => by rw [h]; exact ⟨rfl, rfl, rfl⟩, fun _ v hf => by rw [h] at hf; exact hf⟩

theorem EngineStands.of_setStatus {b : Bool} {s : State} {v : VoiceNo} {x : VoiceStatus}
    (ht : SameTuning (s.status v) x) (hf : b = false → x.isFree = true → (s.status v).isFree = true) :
    EngineStands b s (s.setStatus v x) where
  same := ⟨rfl, rfl, rfl, .of_eq rfl⟩
  tuning w := by
    rw [setStatus_status]
    split
    · subst w; exact ht
    · exact ⟨rfl, rfl, rfl⟩
  free hb w h := by
    rw [setStatus_status] at h
    split at h
    · subst w; exact hf hb h
    · exact h

/-- The reach sets voices FREE. -/
def Reach.frees : Reach → Bool
  | .sounding => false
  | _ => true

theorem inPhase_sameTuning (x : VoiceStatus) (ph : BoundPhase) : SameTuning x (x.inPhase ph) := by
  cases x <;> exact ⟨rfl, rfl, rfl⟩

theorem withNote_sameTuning (x : VoiceStatus) (f : Note → Note) : SameTuning x (x.withNote f) := by
  cases x <;> exact ⟨rfl, rfl, rfl⟩

theorem sameTuning_free {x : VoiceStatus} (h : x.isTuning = false) : SameTuning x .free := by
  cases x with
  | tuning => cases h
  | _ => exact ⟨rfl, rfl, rfl⟩

theorem setPhase_stands (b : Bool) (s : State) (v : VoiceNo) (ph : BoundPhase) :
    EngineStands b s (s.setPhase v ph) := by
  rw [setPhase_eq]
  exact .of_setStatus (inPhase_sameTuning _ ph) fun _ h => by rwa [inPhase_isFree] at h

theorem modNote_stands (b : Bool) (s : State) (v : VoiceNo) (f : Note → Note) :
    EngineStands b s (s.modNote v f) := by
  rw [modNote_eq]
  exact .of_setStatus (withNote_sameTuning _ f) fun _ h => by rwa [withNote_isFree] at h

/-- A move that does not lend leaves the engine and the voices lent to it alone. -/
theorem Move.stands {r : Reach} (hr : r ≠ .lending) {flux : Option (Part × Nat)} {s t : State}
    (m : Move r flux s t) : EngineStands r.frees s t := by
  have stay : ∀ {s t : State}, t.run = s.run → t.tne = s.tne → t.cvo.trial = s.cvo.trial →
      t.psc = s.psc → (∀ v, t.status v = s.status v) → EngineStands r.frees s t :=
    fun a b c d e => .of_status ⟨a, b, c, .of_eq d⟩ e
  cases m with
  | same n e => exact .of_status e n.status
  | engine h => exact absurd h hr
  | free v hs ht =>
    have ht := ht.resolve_left hr
    have hf : r.frees = true := by cases r <;> first | rfl | exact absurd rfl hs
    refine ⟨⟨rfl, rfl, rfl, .of_eq rfl⟩, fun w => ?_, fun h => by rw [hf] at h; cases h⟩
    rw [enterFree_status]
    split
    · subst w; exact sameTuning_free ht
    · exact ⟨rfl, rfl, rfl⟩
  | releasing v p =>
    cases hv : s.status v with
    | bound n ph =>
      rw [enterReleasing_eq _ hv]
      refine (EngineStands.of_setStatus (v := v) (x := .bound n (.releasing _)) ?_ ?_).trans
        (stay rfl rfl rfl rfl fun _ => rfl)
      · rw [hv]; exact ⟨rfl, rfl, rfl⟩
      · intro _ h; cases h
    | _ => rw [enterReleasing_unbound _ (by simp [hv])]; exact .refl _ s
  | hold v => exact setPhase_stands _ s v _
  | sustained v => exact setPhase_stands _ s v _
  | unrelease v => exact (setPhase_stands _ s v _).trans (stay rfl rfl rfl rfl fun _ => rfl)
  | gap v => exact stay rfl rfl rfl rfl fun _ => rfl
  | gapExpiry v => exact stay rfl rfl rfl rfl fun _ => rfl
  | note v f => exact modNote_stands _ s v f
  | rekey v f => exact modNote_stands _ s v f
  | tail p v => exact stay rfl rfl rfl rfl fun _ => rfl
  | bind p k vel size v b j h => exact absurd h hr
  | dissolve p => exact stay rfl rfl rfl rfl fun _ => rfl
  | keys p l => exact stay rfl rfl rfl rfl fun _ => rfl
  | part p f => exact stay rfl rfl rfl rfl fun _ => rfl
  | patch val _ e => exact .of_status e fun v => by unfold State.status State.voice; rw [val]
  | seed => exact stay rfl rfl rfl rfl fun _ => rfl
  | lend v x h => exact absurd h hr
  | relend v x h => exact absurd h hr

theorem Moves.stands {r : Reach} (hr : r ≠ .lending) {s t : State} (m : Moves r s t) :
    EngineStands r.frees s t :=
  m.holds (P := EngineStands r.frees s) (fun m h => h.trans (m.stands hr))
    (fun _ _ _ h => h.trans (.of_status ⟨rfl, rfl, rfl, .of_eq rfl⟩ fun _ => rfl)) (.refl _ s)

/-- A move within a smaller reach is one within a larger. -/
theorem Move.lift {r : Reach} {flux : Option (Part × Nat)} {s t : State} (m : Move r flux s t) :
    Move .lending flux s t := by
  cases m with
  | same n e => exact .same n e
  | engine _ h => exact .engine rfl h
  | free v => exact .free v (by simp) (.inl rfl)
  | releasing v p => exact .releasing v p
  | hold v h => exact .hold v h
  | sustained v h => exact .sustained v h
  | unrelease v => exact .unrelease v
  | gap v x h => exact .gap v x h
  | gapExpiry v => exact .gapExpiry v
  | note v f a b c => exact .note v f a b c
  | rekey v f p k a b c d => exact .rekey v f p k a b c d
  | tail p v h => exact .tail p v h
  | bind p k vel size v b j _ hb hk hv hs => exact .bind p k vel size v b j rfl hb hk hv hs
  | dissolve p => exact .dissolve p
  | keys p l h => exact .keys p l h
  | part p f a b c => exact .part p f a b c
  | patch a b c d => exact .patch a b c d
  | seed w h => exact .seed w h
  | lend v x _ h => exact .lend v x rfl h
  | relend v x _ a b => exact .relend v x rfl a b

theorem Chain.lift {r : Reach} {flux : Option (Part × Nat)} {s t : State} (c : Chain r flux s t) :
    Chain .lending flux s t := by
  induction c with
  | refl => exact .refl
  | tail _ m ih => exact .tail ih m.lift

theorem Moves.lift {r : Reach} {s t : State} (m : Moves r s t) : Moves .lending s t := by
  induction m with
  | refl => exact .refl _
  | move _ m ih => exact ih.move m.lift
  | rekeyed _ p k c hk h ih =>
    exact ih.rekeyed p k (Chain.lift c) hk h
  | grouped _ c p g h ih =>
    exact ih.grouped (Chain.lift c) p g h

end Sys2Proof.Machine
end

