-- ==== Sys2Proof/Proofs/NotePathMoves.lean ====
section
/-! Each function of the note path, the engine, the edit buffers and the panel as moves. -/

namespace Sys2Proof.Machine

/-! ## Functions that the laws of voices and engine do not see -/

theorem recompute_quiet (sel : SourceNo → Bool) (s : State) : Quiet s (recompute sel s) where
  notes :=
    { voice := fun v => by rw [recompute_voice]; exact ⟨rfl, rfl, rfl, rfl⟩
      freeList := rfl, startOrder := rfl, releaseOrder := rfl, parts := rfl, seed := rfl, gaps := rfl
      patch := fun _ => rfl }
  engine := ⟨rfl, rfl, rfl, .of_eq rfl⟩

theorem setPtu_quiet (s : State) (x : Ptu) : Quiet s { s with ptu := x } :=
  .of_blocks rfl rfl rfl rfl rfl rfl

theorem handOver_quiet (v : VoiceNo) (p : Part) (key : Nat) (another : Bool) (s : State) :
    Quiet s (handOver v p key another s) := by
  unfold handOver
  exact (setPtu_quiet s _).trans (recompute_quiet _ _)

theorem setUnison_quiet (v : VoiceNo) (p : Part) (s : State) : Quiet s (setUnison v p s) :=
  setPtu_quiet s _

theorem moveNotes_quiet (old : State) (s : State) : Quiet s (moveNotes old s) := by
  unfold moveNotes
  exact (setPtu_quiet s _).trans (recompute_quiet _ _)

theorem glideUpdate_quiet (v : VoiceNo) (s : State) : Quiet s (glideUpdate v s) := by
  unfold glideUpdate
  simp only
  split
  · exact .refl s
  · exact (setPtu_quiet s _).trans (recompute_quiet _ _)

theorem setLnk_quiet (s : State) (x : Lnk) : Quiet s { s with lnk := x } :=
  .of_blocks rfl rfl rfl rfl rfl rfl

theorem mark_quiet (s : State) (m : Mark) : Quiet s (s.mark m) := setLnk_quiet s _

theorem setRecord_quiet (s : State) (n : SourceNo) (r : SourceRec) : Quiet s (s.setRecord n r) :=
  .of_blocks rfl rfl rfl rfl rfl rfl

theorem commit_quiet (n : SourceNo) (codes : Vector Nat 9) (s : State) : Quiet s (commit n codes s) :=
  (setRecord_quiet s n _).trans (recompute_quiet _ _)

theorem doneIfEmpty_quiet (s : State) : Quiet s (doneIfEmpty s) := by
  unfold doneIfEmpty
  split
  · exact mark_quiet s _
  · exact .refl s

/-- A change of the edit unit that leaves the patches. -/
theorem setEbu_quiet {s : State} {x : Ebu} (h : ∀ p, (x.buffers.get p).patch = s.patch p) :
    Quiet s { s with ebu := x } :=
  ⟨.of_val rfl rfl h, rfl, rfl, rfl, .of_eq rfl⟩

theorem reArm_quiet (sel : PotNo → Bool) (p : Part) (s : State) : Quiet s (reArm sel p s) :=
  setEbu_quiet fun _ => rfl

theorem setTakeover_quiet (s : State) (q : PotNo) (p : Part) (x : Takeover) :
    Quiet s (s.setTakeover q p x) := setEbu_quiet fun _ => rfl

theorem firstReading_quiet (q : PotNo) (s : State) : Quiet s (firstReading q s) :=
  (reArm_quiet _ _ s).trans (reArm_quiet _ _ _)

/-- A change of the panel's block that leaves the bus. -/
theorem setPsc_quiet {s : State} {x : Psc} (h : BusSame s (s.setPsc x)) : Quiet s (s.setPsc x) :=
  ⟨.of_val rfl rfl fun _ => rfl, rfl, rfl, rfl, h⟩

theorem setPot_quiet (s : State) (q : PotNo) (x : Pot) : Quiet s (s.setPot q x) :=
  setPsc_quiet ⟨rfl, rfl, rfl, rfl, rfl, rfl, rfl, rfl⟩

theorem setSwitch_quiet (s : State) (n : SwitchNo) (x : Switch) : Quiet s (s.setSwitch n x) :=
  setPsc_quiet ⟨rfl, rfl, rfl, rfl, rfl, rfl, rfl, rfl⟩

/-! ### The slot memory -/

theorem setSmc_quiet (s : State) (x : Smc) : Quiet s (s.setSmc x) := .of_blocks rfl rfl rfl rfl rfl rfl

theorem setCal_quiet (s : State) (x : Cal) : Quiet s { s with cal := x } :=
  .of_blocks rfl rfl rfl rfl rfl rfl

theorem setStateByte_quiet (j : Job) (x : Byte) (s : State) : Quiet s (setStateByte j x s) := by
  unfold setStateByte
  split <;> exact setSmc_quiet s _

theorem accept_quiet (j : Job) (s : State) : Quiet s (accept j s) :=
  (setStateByte_quiet j _ s).trans (setSmc_quiet _ _)

theorem complete_quiet (j : Job) (good : Bool) (s : State) : Quiet s (complete j good s) := by
  unfold complete
  simp only
  split <;> exact .of_blocks rfl rfl rfl rfl rfl rfl

theorem eraseTarget_quiet (j : Job) (s : State) : Quiet s (eraseTarget j s) := by
  unfold eraseTarget
  generalize List.replicate 128 erasedByte = l
  split <;> exact setSmc_quiet s _

theorem endErase_quiet (w : NvWrite) (s : State) : Quiet s (endErase w s) := by
  unfold endErase
  simp only
  split
  · exact (eraseTarget_quiet _ s).trans (complete_quiet _ _ _)
  · exact (eraseTarget_quiet _ s).trans ((setStateByte_quiet _ _ _).trans (setSmc_quiet _ _))

theorem programSlot_quiet (j : Job) (n : SlotNo) (img : List Byte) (stuck : StuckBits) (s : State) :
    Quiet s (programSlot j n img stuck s) := by
  unfold programSlot
  simp only
  split
  · exact (setSmc_quiet s _).trans ((setStateByte_quiet _ _ _).trans (complete_quiet _ _ _))
  · exact (setSmc_quiet s _).trans (complete_quiet _ _ _)

theorem programSys_quiet (j : Job) (r : SysRecord) (stuck : StuckBits) (s : State) :
    Quiet s (programSys j r stuck s) := by
  unfold programSys
  split
  · exact (setSmc_quiet s _).trans (complete_quiet _ _ _)
  · exact complete_quiet _ _ _

theorem endProgram_quiet (w : NvWrite) (stuck : StuckBits) (s : State) :
    Quiet s (endProgram w stuck s) := by
  unfold endProgram
  split
  · exact programSlot_quiet ..
  · exact programSlot_quiet ..
  · exact .refl s
  · exact programSys_quiet ..
  · exact programSys_quiet ..

theorem eraseExpiry_quiet (s : State) : Quiet s (eraseExpiry s) := by
  unfold eraseExpiry
  split
  · split
    · exact endErase_quiet ..
    · exact .refl s
  · exact .refl s

theorem programExpiry_quiet (stuck : StuckBits) (s : State) : Quiet s (programExpiry stuck s) := by
  unfold programExpiry
  split
  · split
    · exact endProgram_quiet ..
    · exact .refl s
  · exact .refl s

theorem resumeExpiry_quiet (stuck : StuckBits) (s : State) : Quiet s (resumeExpiry stuck s) := by
  unfold resumeExpiry
  split
  · split
    · simp only
      split
      · split
        · exact (setSmc_quiet s _).trans (endErase_quiet ..)
        · exact (setSmc_quiet s _).trans (endProgram_quiet ..)
      · exact setSmc_quiet s _
    · exact .refl s
  · exact .refl s

theorem suspendFor_quiet (n : SlotNo) (s : State) : Quiet s (suspendFor n s) := by
  unfold suspendFor
  split
  · split
    · exact .refl s
    · exact setSmc_quiet s _
  · exact .refl s

/-! ## The note path -/

section
variable {r : Reach} {flux : Option (Part × Nat)}

theorem isHeld_not_releasing {x : VoiceStatus} (h : x.isHeld = true ∨ x.isSustained = true) :
    x.isReleasing = false := by
  rcases x with _ | ⟨n, _ | _ | _ | _⟩ | _ | _ <;>
    simp_all [VoiceStatus.isHeld, VoiceStatus.isSustained, VoiceStatus.isReleasing]

theorem inPhase_held {x : VoiceStatus} (h : x.isHeld = true ∨ x.isSustained = true) :
    (x.inPhase .held).isHeld = true := by
  cases x <;> simp_all [VoiceStatus.isHeld, VoiceStatus.isSustained, VoiceStatus.inPhase]

theorem retriggerGate_chain (v : VoiceNo) (s : State) : Chain r flux s (retriggerGate v s) := by
  unfold retriggerGate
  split
  · rename_i h
    rw [Bool.or_eq_true] at h
    have hold : Chain r flux s (s.setPhase v .held) := .single (.hold v (isHeld_not_releasing h))
    refine hold.tail (.gap v _ (.inl ?_))
    rw [setPhase_eq, setStatus_status, if_pos rfl]
    exact inPhase_held h
  · exact .refl

theorem retriggerGate_onPart (v w : VoiceNo) (p : Part) (s : State) :
    ((retriggerGate v s).status w).onPart p = (s.status w).onPart p := by
  unfold retriggerGate startGap
  split
  · rw [setGap_status, setPhase_eq, setStatus_status]
    split
    · subst w; exact inPhase_onPart ..
    · rfl
  · rfl

theorem modNote_onPart {f : Note → Note} (hf : ∀ n, (f n).part = n.part) (v w : VoiceNo) (p : Part)
    (s : State) : ((s.modNote v f).status w).onPart p = (s.status w).onPart p := by
  rw [modNote_eq, setStatus_status]
  split
  · subst w; exact withNote_onPart _ hf p
  · rfl

theorem soundingOn_mem (s : State) (p : Part) (k : Nat) (v : VoiceNo) : v ∈ soundingOn s p k ↔
    v ∈ s.val.startOrder.get p ∧ (s.status v).onKey p k = true ∧ (s.status v).isSounding = true := by
  simp [soundingOn]

theorem onKey_onPart {x : VoiceStatus} {p : Part} {k : Nat} (h : x.onKey p k = true) :
    x.onPart p = true := by
  cases x <;> simp_all [VoiceStatus.onKey, VoiceStatus.onPart]

/-- The retrigger of a sounding POLY key, voice by voice (R9). -/
theorem retrigger_chain {p : Part} {vel : Nat} (hv : 1 ≤ vel ∧ vel ≤ 127) {l : List VoiceNo} {s : State}
    (hl : ∀ v ∈ l, (s.status v).onPart p = true) : Chain r flux s (l.foldl (retriggerOne p vel) s) := by
  refine (Chain.foldl (I := fun t => ∀ v, (t.status v).onPart p = (s.status v).onPart p)
    (fun t v hm ht => ?_) fun _ => rfl).1
  have on : ∀ w, ((retriggerGate v (t.modNote v fun n => { n with velocity := vel })).status w).onPart p =
      (s.status w).onPart p := fun w => by
    rw [retriggerGate_onPart]
    exact (modNote_onPart (f := fun n => { n with velocity := vel }) (fun _ => rfl) v w p t).trans (ht w)
  have note : Chain r flux t (t.modNote v fun n => { n with velocity := vel }) :=
    .single (.note v _ (fun _ => rfl) (fun _ => rfl) fun n hn => ⟨hn.1, hv.1, hv.2, hn.2.2.2⟩)
  refine ⟨(note.trans (retriggerGate_chain v _)).tail (.tail p v fun _ => ?_), on⟩
  rw [on]
  exact hl v hm

theorem endVoice_chain (hr : r ≠ .sounding) (p : Part) (s : State) (v : VoiceNo) :
    Chain r flux s (endVoice p s v) := by
  rw [endVoice_eq]
  split
  · rename_i h
    exact .single (.free v hr (.inr (by rw [h]; rfl)))
  · rename_i n h
    split
    · rw [← setPhase_bound .sustained h]
      exact .single (.sustained v (by rw [h]; rfl))
    · exact .single (.releasing v p)
  · exact .refl

theorem modeChangeVoice_chain (hr : r ≠ .sounding) (p : Part) (s : State) (v : VoiceNo) :
    Chain r flux s (modeChangeVoice p s v) := by
  rw [modeChangeVoice_eq]
  split
  · rename_i h
    exact .single (.free v hr (.inr (by rw [h]; rfl)))
  · exact .single (.releasing v p)
  · exact .single (.releasing v p)
  · exact .refl

/-- Steps that are chains from every state are one chain. -/
theorem Chain.foldl' {α : Type} {f : State → α → State} (h : ∀ s x, Chain r flux s (f s x)) (l : List α)
    (s : State) : Chain r flux s (l.foldl f s) :=
  (Chain.foldl (I := fun _ => True) (fun s x _ _ => ⟨h s x, trivial⟩) trivial).1

theorem releasePart_chain (hr : r ≠ .sounding) (p : Part) (s : State) :
    Chain r flux s (releasePart p s) := by
  unfold releasePart
  exact ((Chain.foldl' (modeChangeVoice_chain hr p) _ s).tail
    (.keys p [] fun _ => ⟨.nil, Nat.zero_le _, by simp⟩)).tail (.dissolve p)

theorem releaseSustained_chain (p : Part) (s : State) : Chain r flux s (releaseSustained p s) :=
  Chain.foldl' (fun _ v => .single (.releasing v p)) _ s

end

/-! ### Solo groups -/

/-- Steps that give one voice after another a key give it to each voice of the list that has a note. -/
theorem foldl_keyOf {f : State → VoiceNo → State} {k : Nat}
    (h : ∀ s v w, keyOf (f s v) w = if w = v then (keyOf s v).map fun _ => k else keyOf s w)
    (l : List VoiceNo) (s : State) (w : VoiceNo) :
    keyOf (l.foldl f s) w = if w ∈ l then (keyOf s w).map fun _ => k else keyOf s w := by
  induction l generalizing s with
  | nil => rfl
  | cons v l ih =>
    rw [List.foldl_cons, ih, h]
    by_cases hw : w = v
    · subst w
      simp only [List.mem_cons, true_or, if_true, Option.map_map]
      split <;> rfl
    · simp [hw]

theorem keyOf_quiet {s t : State} (h : Quiet s t) (w : VoiceNo) : keyOf t w = keyOf s w :=
  keyOf_congr h.notes.voice w

theorem keyOf_modNote_set {f : Note → Note} {k : Nat} (hf : ∀ n, (f n).key = k) (s : State) (v w : VoiceNo) :
    keyOf (s.modNote v f) w = if w = v then (keyOf s v).map fun _ => k else keyOf s w := by
  split
  · subst w
    unfold keyOf
    rw [modNote_eq, setStatus_status, if_pos rfl]
    cases s.status v <;> simp [VoiceStatus.withNote, VoiceStatus.note?, hf]
  · exact keyOf_modNote_ne f ‹_›

theorem keyOf_retriggerGate (s : State) (v w : VoiceNo) : keyOf (retriggerGate v s) w = keyOf s w := by
  unfold retriggerGate startGap
  split
  · exact keyOf_setPhase s v w .held
  · rfl

/-- One voice of a group moves to a key, with its hand-over (R33, R35). -/
def legatoOne (p : Part) (key : Nat) (s : State) (v : VoiceNo) : State :=
  handOver v p key true (s.modNote v fun n => { n with key })

theorem legatoMove_eq (p : Part) (key : Nat) (l : List VoiceNo) (s : State) :
    legatoMove p key l s = l.foldl (legatoOne p key) s := rfl

theorem keyOf_legatoOne (p : Part) (k : Nat) (s : State) (v w : VoiceNo) :
    keyOf (legatoOne p k s v) w = if w = v then (keyOf s v).map fun _ => k else keyOf s w := by
  unfold legatoOne
  rw [keyOf_quiet (handOver_quiet ..), keyOf_modNote_set (k := k) (fun _ => rfl)]

theorem keyOf_soloRetriggerOne (p : Part) (k vel : Nat) (s : State) (v w : VoiceNo) :
    keyOf (soloRetriggerOne p k vel s v) w = if w = v then (keyOf s v).map fun _ => k else keyOf s w := by
  unfold soloRetriggerOne
  simp only
  rw [keyOf_quiet (handOver_quiet ..)]
  rw [← keyOf_modNote_set (k := k) (f := fun n => { n with key := k, velocity := vel }) (fun _ => rfl)]
  show keyOf (State.toStartTail _ p v) w = _
  split
  · exact keyOf_setPhase _ v w .held
  · exact keyOf_retriggerGate _ v w

theorem mem_soloMembers (s : State) (g : VoiceSet) (v : VoiceNo) :
    v ∈ soloMembers s g ↔ inSet g v = true := by
  simp [soloMembers]

/-- A fold over a group's members that gives each the key, as one move of the whole group. -/
theorem Moves.rekey_group {r : Reach} {f : State → VoiceNo → State} {p : Part} {k : Nat} {s : State}
    {g : VoiceSet} (hg : (s.part p).solo = some g)
    (chain : ∀ t v, inSet g v = true → (t.part p).solo = some g → Chain r (some (p, k)) t (f t v))
    (solo : ∀ t v, ((f t v).part p).solo = (t.part p).solo)
    (key : ∀ t v w, keyOf (f t v) w = if w = v then (keyOf t v).map fun _ => k else keyOf t w)
    (hk : HeldKeysLaw s → k ≤ 127) : Moves r s ((soloMembers s g).foldl f s) := by
  obtain ⟨c, hu⟩ := Chain.foldl (f := f) (I := fun t => (t.part p).solo = some g) (l := soloMembers s g)
    (fun t v hv ht => ⟨chain t v ((mem_soloMembers s g v).1 hv) ht, (solo t v).trans ht⟩) hg
  refine (Moves.refl s).rekeyed p k c hk fun hl g' hg' v hv => ?_
  rw [hu] at hg'
  cases hg'
  have on := (hl.shape p g hg).2.1 v hv
  have := foldl_keyOf key (soloMembers s g) s v
  rw [if_pos ((mem_soloMembers s g v).2 hv)] at this
  refine Eq.trans this ?_
  unfold keyOf
  cases h : s.status v with
  | bound n ph => rfl
  | _ => rw [h] at on; cases on

theorem groupMember_onPart {s : State} {p : Part} {g : VoiceSet} (hg : (s.part p).solo = some g)
    {v : VoiceNo} (hv : inSet g v = true) (h : Lawful s) : (s.status v).onPart p = true :=
  (h.shape p g hg).2.1 v hv

theorem legatoOne_solo (p : Part) (k : Nat) (s : State) (v : VoiceNo) :
    ((legatoOne p k s v).part p).solo = (s.part p).solo := by
  unfold legatoOne
  rw [(handOver_quiet ..).notes.part, modNote_eq]
  rfl

/-- The move of a whole group to a key (R33, R35). -/
theorem legatoMove_moves {r : Reach} {s : State} {p : Part} {g : VoiceSet} {k : Nat}
    (hg : (s.part p).solo = some g) (hk : HeldKeysLaw s → k ≤ 127) :
    Moves r s (legatoMove p k (soloMembers s g) s) := by
  rw [legatoMove_eq]
  refine Moves.rekey_group hg (fun t v hv ht => ?_) (fun t v => legatoOne_solo p k t v)
    (keyOf_legatoOne p k) hk
  exact (Relation.ReflTransGen.single (.rekey v _ p k rfl (groupMember_onPart ht hv) (fun _ => rfl)
    fun n hn hk => ⟨hk, hn.2⟩)).tail (handOver_quiet ..).move

/-- The phase changes of one member of a retriggered group (R34). -/
def soloRegate (s : State) (v : VoiceNo) : State :=
  if (s.status v).isReleasing then (s.setPhase v .held).setReleaseOrder (without v s.val.releaseOrder)
  else retriggerGate v s

theorem soloRetriggerOne_eq (p : Part) (k vel : Nat) (s : State) (v : VoiceNo) :
    soloRetriggerOne p k vel s v = handOver v p k false ((soloRegate (s.modNote v fun n =>
      { n with key := k, velocity := vel }) v).toStartTail p v) := rfl

theorem soloRegate_chain {r : Reach} {flux : Option (Part × Nat)} (s : State) (v : VoiceNo) :
    Chain r flux s (soloRegate s v) := by
  unfold soloRegate
  split
  · exact .single (.unrelease v)
  · exact retriggerGate_chain v s

theorem soloRegate_parts (s : State) (v : VoiceNo) : (soloRegate s v).val.parts = s.val.parts := by
  unfold soloRegate retriggerGate startGap
  rw [setPhase_eq]
  split
  · rfl
  · split <;> rfl

theorem modNote_parts (s : State) (v : VoiceNo) (f : Note → Note) :
    (s.modNote v f).val.parts = s.val.parts := by
  rw [modNote_eq]; rfl

theorem soloRetriggerOne_solo (p : Part) (k vel : Nat) (s : State) (v : VoiceNo) :
    ((soloRetriggerOne p k vel s v).part p).solo = (s.part p).solo := by
  rw [soloRetriggerOne_eq, (handOver_quiet ..).notes.part]
  show ((soloRegate _ v).part p).solo = _
  unfold State.part
  rw [soloRegate_parts, modNote_parts]

/-- The retrigger of a whole group on a key (R34). -/
theorem soloRetrigger_moves {r : Reach} {s : State} {p : Part} {g : VoiceSet} {k vel : Nat}
    (hg : (s.part p).solo = some g) (hv : 1 ≤ vel ∧ vel ≤ 127) (hk : k ≤ 127) :
    Moves r s ((soloMembers s g).foldl (soloRetriggerOne p k vel) s) := by
  refine Moves.rekey_group hg (fun t v hm ht => ?_) (fun t v => soloRetriggerOne_solo p k vel t v)
    (keyOf_soloRetriggerOne p k vel) (fun _ => hk)
  rw [soloRetriggerOne_eq]
  have note : Chain r (some (p, k)) t (t.modNote v fun n => { n with key := k, velocity := vel }) :=
    .single (.rekey v _ p k rfl (groupMember_onPart ht hm) (fun _ => rfl)
      fun n hn hk => ⟨hk, hv.1, hv.2, hn.2.2.2⟩)
  refine ((note.trans (soloRegate_chain _ v)).tail (.tail p v (groupMember_onPart ?_ hm))).tail
    (handOver_quiet ..).move
  unfold State.part at ht ⊢
  rw [soloRegate_parts, modNote_parts]
  exact ht

end Sys2Proof.Machine
end

