-- ==== Sys2Proof/Proofs/EngineMoves.lean ====
section
/-! The functions that reach the Tune Engine, the edit buffers and the panel, as moves; and a step, as moves,
a tick or a reset. -/

namespace Sys2Proof.Machine

/-! ## The engine -/

theorem EngineOnly.of_blocks {s t : State} (val : t.val = s.val) (gaps : t.cvo.gaps = s.cvo.gaps)
    (ebu : t.ebu = s.ebu) : EngineOnly s t :=
  ⟨val, gaps, fun p => by unfold State.patch; rw [ebu]⟩

theorem EngineOnly.moves {s t : State} (h : EngineOnly s t) : Moves .lending s t :=
  .of_move (.engine rfl h)

theorem BusOnly.engineOnly {s t : State} (h : BusOnly s t) : EngineOnly s t := by
  obtain ⟨-, -, -, val, -, -, ebu, -, cvo, -⟩ := h.blocks
  exact .of_blocks val (by rw [cvo]) ebu

theorem setTne_moves (s : State) (x : Tne) : Moves .lending s { s with tne := x } :=
  EngineOnly.moves (.of_blocks rfl rfl rfl)

theorem setPlan_moves (s : State) (l : List Entry) : Moves .lending s (s.setPlan l) := setTne_moves s _

theorem setCurrent_moves (s : State) (c : Option Current) : Moves .lending s (s.setCurrent c) :=
  EngineOnly.moves (.of_blocks rfl rfl rfl)

theorem lend_moves (s : State) (v : VoiceNo) {x : VoiceStatus} (hx : x.isAway = true) :
    Moves .lending s ((s.detach v).setStatus v x) := .of_move (.lend v x rfl hx)

theorem claimVoice_moves (v : VoiceNo) (fg : Bool) (s : State) : Moves .lending s (claimVoice v fg s) := by
  unfold claimVoice
  split
  · rename_i r h
    have m : Moves .lending s (s.setStatus v (.tuning fg r)) :=
      .of_move (.relend v (.tuning fg r) rfl rfl (by rw [h]; rfl))
    exact (m.trans (recompute_quiet _ _).moves).trans (setTne_moves _ _)
  · rename_i r h
    have m : Moves .lending s (s.setStatus v (.tuning fg (some r))) :=
      .of_move (.relend v (.tuning fg (some r)) rfl rfl (by rw [h]; rfl))
    exact m.trans (recompute_quiet _ _).moves
  · exact (lend_moves s v rfl).trans (recompute_quiet _ _).moves

theorem parkVoice_moves (v : VoiceNo) (r : ParkReason) (s : State) :
    Moves .lending s (parkVoice v r s) :=
  ((lend_moves s v rfl).trans (recompute_quiet _ _).moves).trans (setTne_moves _ _)

theorem freeVoice_moves (v : VoiceNo) (s : State) : Moves .lending s (freeVoice v s) :=
  ((Moves.of_move (.free v (by simp) (.inl rfl))).trans (recompute_quiet _ _).moves).trans
    (setTne_moves _ _)

theorem returnVoice_moves (v : VoiceNo) (s : State) : Moves .lending s (returnVoice v s) := by
  unfold returnVoice
  split
  · split
    · exact parkVoice_moves ..
    · exact freeVoice_moves ..
  · exact freeVoice_moves ..
  · exact .refl s

theorem startNext_moves (s : State) : Moves .lending s (startNext s) := by
  unfold startNext
  split
  · exact (beginMeasurement_only s).engineOnly.moves
  · split
    · rename_i e _
      have claim : Moves .lending s
          (if (s.status e.voice).isFree then claimVoice e.voice false s else s) := by
        split
        · exact claimVoice_moves ..
        · exact .refl s
      exact (claim.trans (setCurrent_moves _ _)).trans (beginMeasurement_only _).engineOnly.moves
    · exact setTne_moves s _

theorem kick_moves (s : State) : Moves .lending s (kick s) := by
  unfold kick
  split
  · exact startNext_moves s
  · exact .refl s

theorem EngineOnly.trans {s t u : State} (a : EngineOnly s t) (b : EngineOnly t u) : EngineOnly s u :=
  ⟨b.1.trans a.1, b.2.1.trans a.2.1, fun p => (b.2.2 p).trans (a.2.2 p)⟩

theorem EngineOnly.refl (s : State) : EngineOnly s s := .of_blocks rfl rfl rfl

theorem setTne_only (s : State) (x : Tne) : EngineOnly s { s with tne := x } := .of_blocks rfl rfl rfl

theorem stepUsed_only (s : State) : EngineOnly s (stopMeasurement.stepUsed s) := by
  unfold stopMeasurement.stepUsed
  split
  · exact setTne_only s _
  · exact .refl s

/-- The end of a measurement does not reach the voices. -/
theorem stopMeasurement_only (s : State) : EngineOnly s (stopMeasurement s) := by
  unfold stopMeasurement
  split
  · exact .refl s
  · refine EngineOnly.trans ?_ (stepUsed_only _)
    exact .of_blocks rfl rfl rfl
  · exact ((releaseBus_only .engine s).engineOnly.trans (setTne_only _ _)).trans (stepUsed_only _)

theorem abandonCurrent_only (s : State) : EngineOnly s (abandonCurrent s) :=
  (stopMeasurement_only s).trans (.of_blocks rfl rfl rfl)

/-- The engine's loss of a voice does not reach the voices. -/
theorem engineLoses_only (v : VoiceNo) (s : State) : EngineOnly s (engineLoses v s) := by
  unfold engineLoses
  refine EngineOnly.trans ?_ (setTne_only _ _)
  split
  · split
    · exact abandonCurrent_only s
    · exact .refl s
  · exact .refl s

theorem dropEntry_moves (c : Current) (s : State) : Moves .lending s (dropEntry c s) :=
  (setTne_moves s _).trans (setCurrent_moves _ _)

theorem returnIfDone_moves (v : VoiceNo) (s : State) : Moves .lending s (returnIfDone v s) := by
  unfold returnIfDone
  split
  · exact .refl s
  · exact returnVoice_moves v s

theorem entrySucceeds_moves (c : Current) (codes : Vector Nat 9) (s : State) :
    Moves .lending s (entrySucceeds c codes s) :=
  (((dropEntry_moves c s).trans (commit_quiet ..).moves).trans (returnIfDone_moves ..)).trans
    (doneIfEmpty_quiet _).moves

theorem entryFails_moves (c : Current) (r : FailReason) (s : State) :
    Moves .lending s (entryFails c r s) := by
  have m : Moves .lending s ((reportFailure c.source r (dropEntry c s)).mark (.tuneFailed c.source)) :=
    ((dropEntry_moves c s).trans (setRecord_quiet _ _ _).moves).trans (mark_quiet _ _).moves
  unfold entryFails
  simp only
  split
  · exact ((((m.trans (setTne_moves _ _)).trans (setTne_moves _ _)).trans (parkVoice_moves ..)).trans
      (mark_quiet _ _).moves).trans (doneIfEmpty_quiet _).moves
  · exact ((m.trans (setTne_moves _ _)).trans (returnIfDone_moves ..)).trans (doneIfEmpty_quiet _).moves

theorem applyCount_moves (m : Nat) (s : State) : Moves .lending s (applyCount m s) := by
  unfold applyCount
  refine (setTne_moves s { s.tne with lastM := some m }).trans ?_
  show Moves _ (s.setLastM (some m)) _
  simp only
  split
  · split
    · unfold convergeAt
      split
      · simp only
        split
        · exact setCurrent_moves ..
        · exact entrySucceeds_moves ..
      · exact entryFails_moves ..
    · unfold correctTrial
      simp only
      split
      · exact entryFails_moves ..
      · split
        · exact (setCurrent_moves ..).trans (entryFails_moves ..)
        · exact setCurrent_moves ..
  · exact .refl _

theorem applyNoSignal_moves (s : State) : Moves .lending s (applyNoSignal s) := by
  unfold applyNoSignal
  refine (setTne_moves s { s.tne with lastM := none }).trans ?_
  show Moves _ (s.setLastM none) _
  simp only
  split
  · exact entryFails_moves ..
  · exact .refl _

theorem afterMeasurement_moves (s : State) : Moves .lending s (afterMeasurement s) := by
  unfold afterMeasurement
  split
  · exact startNext_moves s
  · exact (setTne_moves s _).trans (setTne_moves _ _)
  · exact setTne_moves s _

theorem endMeasurement_moves (count : Option Nat) (s : State) :
    Moves .lending s (endMeasurement count s) := by
  unfold endMeasurement
  refine (releaseBus_only .engine s).engineOnly.moves.trans ?_
  simp only
  refine Moves.trans ?_ (afterMeasurement_moves _)
  split
  · exact applyCount_moves ..
  · exact applyNoSignal_moves ..

theorem settlingExpiry_moves (s : State) : Moves .lending s (settlingExpiry s) := by
  unfold settlingExpiry
  split
  · exact setTne_moves s _
  · exact .refl s

theorem firstProbeEdge_moves (e : Edge) (s : State) : Moves .lending s (firstProbeEdge e s) := by
  unfold firstProbeEdge
  split
  · split
    · exact setTne_moves s _
    · exact .refl s
  · exact .refl s

theorem gateClose_moves (e : Edge) (n : Nat) (s : State) : Moves .lending s (gateClose e n s) := by
  unfold gateClose
  split
  · split
    · exact .refl s
    · split
      · exact endMeasurement_moves ..
      · split
        · exact setTne_moves s _
        · exact endMeasurement_moves ..
  · exact .refl s

theorem gateWindowExpiry_moves (s : State) : Moves .lending s (gateWindowExpiry s) := by
  unfold gateWindowExpiry
  split
  · exact endMeasurement_moves ..
  · exact endMeasurement_moves ..
  · exact .refl s

/-! ### The engine's commands -/

theorem claimAll_moves (l : List VoiceNo) (s : State) : Moves .lending s (claimAll l s) := by
  refine Moves.foldl (fun s v => ?_) _ _
  split
  · exact .refl s
  · exact claimVoice_moves ..

theorem tuneAdd_moves (voices : VoiceSet) (sources mode : Byte) (s : State) :
    Moves .lending s (tuneAdd voices sources mode s).1 := by
  unfold tuneAdd
  split
  · exact .refl s
  · split
    · exact .refl s
    · simp only [ok_fst]
      refine Moves.trans ?_ (kick_moves _)
      split
      · exact (setPlan_moves s _).trans (claimAll_moves _ _)
      · exact setPlan_moves s _

theorem tuneRun_moves (a : Byte) (s : State) : Moves .lending s (tuneRun a s).1 := by
  unfold tuneRun
  split
  · exact (setTne_moves s _).trans (kick_moves _)
  · exact .refl s

theorem tuneStep_moves (s : State) : Moves .lending s (tuneStep s).1 := by
  unfold tuneStep
  split
  · exact (setTne_moves s _).trans (kick_moves _)
  · exact .refl s

theorem cancelVoice_moves (s : State) (v : VoiceNo) : Moves .lending s (cancelVoice s v) := by
  unfold cancelVoice
  split
  · exact parkVoice_moves ..
  · exact freeVoice_moves ..
  · exact .refl s

theorem tuneCancel_moves (s : State) : Moves .lending s (tuneCancel s).1 := by
  have m : Moves .lending s ((List.finRange 16).foldl cancelVoice ((abandonCurrent s).setPlan [])) :=
    ((abandonCurrent_only s).moves.trans (setTne_moves _ _)).trans (Moves.foldl cancelVoice_moves _ _)
  unfold tuneCancel
  simp only [ok_fst]
  exact m.trans (((setTne_moves _ _).trans (setTne_moves _ _)).trans (setTne_moves _ _))

theorem ageAll_quiet (s : State) : Quiet s (ageAll s) := setCal_quiet s _

theorem minuteEvent_moves (s : State) : Moves .lending s (minuteEvent s) := by
  unfold minuteEvent
  simp only
  refine Moves.trans ?_ (kick_moves _)
  exact ((setCal_quiet s _).trans (ageAll_quiet _)).moves.trans (setTne_moves _ _)

theorem removeEntries_moves (v : VoiceNo) (s : State) : Moves .lending s (removeEntries v s) := by
  have m : Moves .lending s
      ((engineLoses v s).setPlan ((engineLoses v s).tne.plan.filter fun e => e.voice != v)) :=
    ((engineLoses_only v s).trans (setTne_only _ _)).moves
  unfold removeEntries
  simp only
  split
  · exact m.trans (doneIfEmpty_quiet _).moves
  · exact m

theorem serviceOff_moves (v x : Byte) (s : State) : Moves .lending s (serviceOff v x s).1 := by
  unfold serviceOff
  split
  · exact .refl s
  · split
    · exact .refl s
    · simp only [ok_fst]
      refine Moves.trans (Moves.trans ?_ (parkVoice_moves ..)) (kick_moves _)
      split
      · exact removeEntries_moves ..
      · exact .refl s

theorem serviceOn_moves (v : Byte) (s : State) : Moves .lending s (serviceOn v s).1 := by
  unfold serviceOn
  split
  · exact .refl s
  · split
    · exact (freeVoice_moves ..).trans (kick_moves _)
    · exact .refl s

/-! ## The search and the placement -/

theorem search_length (s : State) (p : Part) (k : Nat) : (search s p k).length ≤ (s.patch p).unison :=
  addFound_length (addFound_length (addFound_length (addFound_length (addFound_length (Nat.zero_le _)))))

/-- With lawful lists, the search finds no voice twice (R10). -/
theorem search_nodup {s : State} (h : VoiceLaw s) (p : Part) (k : Nat) :
    ((search s p k).map Prod.fst).Nodup := by
  have free : ∀ c, (searchFree s p c).Nodup := by
    intro c
    unfold searchFree
    simp only
    split
    · exact (countFrom_nodup c).filter _
    · exact h.freeNodup.filter _
    · exact (List.nodup_finRange 16).filter _
  have own : ((s.val.startOrder.get p).filter fun v =>
      !topKeyProtected s p (s.part p).heldKeys v).Nodup := (h.startNodup p).filter _
  have steal : (searchSteal s p).Nodup := by
    unfold searchSteal
    simp only
    split
    · refine List.Nodup.append (own.filter _) (own.filter _) fun v hs hh => ?_
      have h1 := (List.mem_filter.1 hs).2
      have h2 := (List.mem_filter.1 hh).2
      revert h1 h2
      rcases s.status v with _ | ⟨n, _ | _ | _ | _⟩ | _ | _ <;>
        simp [VoiceStatus.isHeld, VoiceStatus.isSustained]
    · exact (List.perm_insertionSort _ _).nodup_iff.2 (own.filter _)
    · exact .nil
  unfold search
  exact addFound_nodup steal (addFound_nodup ((List.nodup_finRange 16).filter _)
    (addFound_nodup (h.releaseNodup.filter _) (addFound_nodup (free _)
      (addFound_nodup (h.releaseNodup.filter _) .nil))))

theorem engineLoses_ebu (v : VoiceNo) (s : State) : (engineLoses v s).ebu = s.ebu := by
  have stop : (stopMeasurement s).ebu = s.ebu := by
    unfold stopMeasurement
    split
    · rfl
    · unfold stopMeasurement.stepUsed; split <;> rfl
    · have := (releaseBus_only .engine s).blocks.2.2.2.2.2.2.1
      unfold stopMeasurement.stepUsed; split <;> exact this
  unfold engineLoses
  split
  · split
    · exact stop
    · rfl
  · rfl

/-- The placement of a voice found by step 4 is a placement after the engine has lost the voice (R102). -/
theorem placeOne_background (p : Part) (k vel size : Nat) (s : State) (v : VoiceNo) (j : Nat) :
    placeOne p k vel size s ((v, .background), j) =
      placeOne p k vel size (engineLoses v s) ((v, .free), j) := by
  unfold placeOne State.patch
  simp only [if_true, engineLoses_ebu]
  rfl

theorem placeOne_chain {p : Part} {k vel size : Nat} (hk : k ≤ 127) (hv : 1 ≤ vel ∧ vel ≤ 127)
    (s : State) (v : VoiceNo) (b : FoundBy) (j : Nat) (hs : BufferLaw s → j < size ∧ size ≤ 8) :
    Chain .lending none s (placeOne p k vel size s ((v, b), j)) := by
  by_cases hb : b = .background
  · subst b
    rw [placeOne_background]
    have e := engineLoses_only v s
    refine (Relation.ReflTransGen.single (.engine rfl e)).tail ?_
    exact .bind p k vel size v .free j rfl (by simp) hk hv fun h =>
      hs (h.congr fun p => (e.2.2 p).symm)
  · exact .single (.bind p k vel size v b j rfl hb hk hv hs)

theorem placeOne_patch (p q : Part) (k vel size : Nat) (s : State) (x : (VoiceNo × FoundBy) × Nat) :
    (placeOne p k vel size s x).patch q = s.patch q := by
  obtain ⟨⟨v, b⟩, j⟩ := x
  unfold State.patch
  by_cases hb : b = .background
  · subst b
    rw [placeOne_background, placeOne_ebu p k vel size _ v j (by simp), engineLoses_ebu]
  · rw [placeOne_ebu p k vel size s v j hb]

/-- What a placement leaves of a voice's record: bound on the part and key, with its unison index and
size. -/
structure Placed (t : State) (p : Part) (k size : Nat) (v : VoiceNo) (j : Nat) : Prop where
  onPart : (t.status v).onPart p = true
  key : keyOf t v = some k
  index : (t.voice v).unisonIndex = j
  unison : (t.voice v).unisonSize = size

theorem placeOne_placed (p : Part) (k vel size : Nat) (s : State) (v : VoiceNo) (b : FoundBy) (j : Nat) :
    Placed (placeOne p k vel size s ((v, b), j)) p k size v j := by
  have go : ∀ (s : State) (b : FoundBy), b ≠ .background →
      Placed (placeOne p k vel size s ((v, b), j)) p k size v j := by
    intro s b hb
    constructor
    · rw [placeOne_status p k vel size s v j hb, if_pos rfl]; simp [VoiceStatus.onPart, placedNote]
    · unfold keyOf; rw [placeOne_status p k vel size s v j hb, if_pos rfl]; rfl
    · rw [placeOne_voice p k vel size s v j hb, if_pos rfl]
    · rw [placeOne_voice p k vel size s v j hb, if_pos rfl]
  by_cases hb : b = .background
  · subst b; rw [placeOne_background]; exact go _ _ (by simp)
  · exact go s b hb

theorem engineLoses_voice (v w : VoiceNo) (s : State) : (engineLoses v s).voice w = s.voice w := by
  unfold State.voice; rw [(engineLoses_only v s).1]

theorem placeOne_voice_ne' (p : Part) (k vel size : Nat) (s : State) (v w : VoiceNo) (b : FoundBy) (j : Nat)
    (hw : w ≠ v) : (placeOne p k vel size s ((v, b), j)).voice w = s.voice w := by
  by_cases hb : b = .background
  · subst b
    rw [placeOne_background, placeOne_voice p k vel size _ v j (by simp), if_neg hw, engineLoses_voice]
  · rw [placeOne_voice p k vel size s v j hb, if_neg hw]

theorem Placed.congr {s t : State} {p : Part} {k size j : Nat} {v : VoiceNo} (h : Placed s p k size v j)
    (e : SameVoice (s.voice v) (t.voice v)) : Placed t p k size v j := by
  obtain ⟨e1, e2, e3, -⟩ := e
  have e1 : t.status v = s.status v := e1
  exact ⟨e1 ▸ h.onPart, by unfold keyOf; rw [e1]; exact h.key, e2.trans h.index, e3.trans h.unison⟩

/-- Each voice of a list without doubles is placed at its place in the list. -/
theorem placeAll_placed (p : Part) (k vel size : Nat) (l : Found) (n : Nat) (s : State)
    (nd : (l.map Prod.fst).Nodup) : ∀ x ∈ l.zipIdx n,
      Placed ((l.zipIdx n).foldl (placeOne p k vel size) s) p k size x.1.1 x.2 := by
  induction l generalizing n s with
  | nil => simp
  | cons y l ih =>
    obtain ⟨v, b⟩ := y
    rw [List.map_cons, List.nodup_cons] at nd
    have out : ∀ (l : Found) (n : Nat) (s : State), v ∉ l.map Prod.fst →
        ((l.zipIdx n).foldl (placeOne p k vel size) s).voice v = s.voice v := by
      intro l
      induction l with
      | nil => intro _ _ _; rfl
      | cons y l ih =>
        intro n s hv
        obtain ⟨w, c⟩ := y
        simp only [List.map_cons, List.mem_cons, not_or] at hv
        rw [List.zipIdx_cons, List.foldl_cons, ih _ _ hv.2, placeOne_voice_ne' _ _ _ _ _ _ _ _ _ hv.1]
    intro x hx
    rw [List.zipIdx_cons, List.foldl_cons]
    rw [List.zipIdx_cons, List.mem_cons] at hx
    rcases hx with rfl | hx
    · refine (placeOne_placed p k vel size s v b n).congr ?_
      rw [out l _ _ nd.1]
      exact .refl _
    · exact ih _ _ nd.2 x hx

theorem mem_zipIdx_index {l : Found} {j : Nat} {x : VoiceNo × FoundBy} (h : (x, j) ∈ l.zipIdx) :
    j < l.length := (List.mem_zipIdx' h).1

/-- The hand-overs of the placed voices (R15, R54). -/
def handAll (p : Part) (key : Nat) (another : Bool) (found : Found) (s : State) : State :=
  found.foldl (fun s x => handOver x.1 p key another (setUnison x.1 p s)) s

theorem handAll_quiet (p : Part) (key : Nat) (another : Bool) (found : Found) (s : State) :
    Quiet s (handAll p key another found s) := by
  unfold handAll
  induction found generalizing s with
  | nil => exact .refl s
  | cons x l ih => exact ((setUnison_quiet ..).trans (handOver_quiet ..)).trans (ih _)

/-- The placements of the voices found, one after another. -/
def placeAll (p : Part) (key velocity : Nat) (found : Found) (s : State) : State :=
  found.zipIdx.foldl (placeOne p key velocity (s.patch p).unison) s

theorem place_eq (p : Part) (k vel : Nat) (found : Found) (s : State) : place p k vel found s =
    handAll p k (holdsOther k (s.part p).heldKeys) found
      ((placeAll p k vel found s).modPart p fun x => { x with cursor := cursorAfter x.cursor found }) := rfl

theorem place_chain {p : Part} {k vel : Nat} (hk : k ≤ 127) (hv : 1 ≤ vel ∧ vel ≤ 127) (s : State) :
    Chain .lending none s (place p k vel (search s p k) s) := by
  rw [place_eq]
  refine Relation.ReflTransGen.tail (.tail ?_ (.part p _ ?_ ?_ ?_)) (handAll_quiet ..).move
  · refine (Chain.foldl (I := fun t => ∀ q, t.patch q = s.patch q) (fun t x hx ht => ?_) fun _ => rfl).1
    obtain ⟨⟨v, b⟩, j⟩ := x
    refine ⟨placeOne_chain hk hv t v b j fun hb => ?_, fun q => (placeOne_patch ..).trans (ht q)⟩
    have hu := Patch.unison_range (ht p ▸ hb p)
    exact ⟨lt_of_lt_of_le (mem_zipIdx_index hx) (search_length s p k), hu.2⟩
  · exact fun _ => rfl
  · exact fun _ => rfl
  · exact fun _ h => h

/-- The voices placed by a search on lawful lists make a group of the part on the key (R32). -/
theorem place_group {p : Part} {k vel : Nat} {s : State} (h : VoiceLaw s)
    (hne : (search s p k).isEmpty = false) : let t := place p k vel (search s p k) s
    let g := setOf ((search s p k).map Prod.fst)
    GroupShape t p g ∧ GroupKey t g := by
  intro t g
  have nd := search_nodup h p k
  have placed : ∀ v, inSet g v = true → ∃ j, Placed t p k (s.patch p).unison v j ∧
      ((search s p k).map Prod.fst)[j]? = some v := by
    intro v hv
    rw [inSet_setOf, decide_eq_true_eq] at hv
    obtain ⟨x, hx, rfl⟩ := List.mem_map.1 hv
    obtain ⟨j, hj, rfl⟩ := List.mem_iff_getElem.1 hx
    refine ⟨j, ?_, by simp [hj]⟩
    have hz : ((search s p k)[j], j) ∈ (search s p k).zipIdx := by
      rw [List.mem_zipIdx_iff_getElem?]; simp [hj]
    have hp := placeAll_placed p k vel (s.patch p).unison (search s p k) 0 s nd _ hz
    have q := (handAll_quiet p k (holdsOther k (s.part p).heldKeys) (search s p k)
      ((placeAll p k vel (search s p k) s).modPart p fun x =>
        { x with cursor := cursorAfter x.cursor (search s p k) })).notes.voice (search s p k)[j].1
    exact hp.congr q
  refine ⟨⟨?_, fun v hv => ?_, fun v w hv hw => ?_⟩, fun v w hv hw => ?_⟩
  · obtain ⟨x, l, hx⟩ : ∃ x l, search s p k = x :: l := by
      cases hs : search s p k with
      | nil => rw [hs] at hne; cases hne
      | cons x l => exact ⟨x, l, rfl⟩
    intro h0
    have : inSet g x.1 = true := by
      rw [inSet_setOf, hx]; simp
    rw [h0, inSet_zero] at this
    cases this
  · obtain ⟨j, hj, -⟩ := placed v hv
    exact hj.onPart
  · obtain ⟨i, hi, ei⟩ := placed v hv
    obtain ⟨j, hj, ej⟩ := placed w hw
    rw [hi.unison, hj.unison, hi.index, hj.index]
    refine ⟨rfl, ?_⟩
    rintro rfl
    exact Option.some.inj (ei.symm.trans ej)
  · obtain ⟨i, hi, -⟩ := placed v hv
    obtain ⟨j, hj, -⟩ := placed w hw
    exact hi.key.trans hj.key.symm

theorem searchAndPlace_moves {p : Part} {k vel : Nat} (hk : k ≤ 127) (hv : 1 ≤ vel ∧ vel ≤ 127)
    (solo : Bool) (s : State) : Moves .lending s (searchAndPlace p k vel solo s).1 := by
  unfold searchAndPlace
  simp only
  split
  · exact .refl s
  · rename_i hne
    refine Moves.trans ?_ (kick_moves _)
    split
    · exact (Moves.refl s).grouped (place_chain hk hv s) p _ fun h => place_group h.lists (by simpa using hne)
    · exact .of_chain (place_chain hk hv s)

end Sys2Proof.Machine
end

