-- ==== Sys2Proof/Proofs/CommandMoves.lean ====
section
/-! The edit buffers, the panel and the commands of the note path as moves, and what a step is: moves, a
tick or a reset. -/

namespace Sys2Proof.Machine

/-! ## Note commands -/

theorem vel_range (velocity : Byte) :
    1 ≤ clampNat 1 127 velocity.toNat ∧ clampNat 1 127 velocity.toNat ≤ 127 :=
  clampNat_mem (by decide) _

theorem key?_le {b : Byte} {k : Nat} (h : key? b = some k) : k ≤ 127 := by
  unfold key? at h
  split at h
  · cases h; assumption
  · cases h

theorem setKeys_moves {r : Reach} (s : State) (p : Part) {l : List Nat}
    (h : HeldKeysLaw s → l.Nodup ∧ l.length ≤ 16 ∧ ∀ k ∈ l, k ≤ 127) : Moves r s (s.setKeys p l) :=
  .of_move (.keys p l h)

theorem enterKey_mem {k q : Nat} {l : List Nat} (h : q ∈ enterKey k l) : q ∈ l ∨ q = k := by
  unfold enterKey at h
  simp only [List.mem_append, List.mem_singleton] at h
  rcases h with h | h
  · left
    split at h
    · exact (List.mem_filter.1 (List.mem_of_mem_drop h)).1
    · exact (List.mem_filter.1 h).1
  · exact .inr h

theorem enterKey_moves {r : Reach} (s : State) (p : Part) {k : Nat} (hk : k ≤ 127) :
    Moves r s (s.setKeys p (enterKey k (s.part p).heldKeys)) := by
  refine setKeys_moves s p fun h => ?_
  obtain ⟨nd, len, le⟩ := h p
  obtain ⟨nd', len'⟩ := enterKey_lawful (k := k) nd len
  refine ⟨nd', len', fun q hq => ?_⟩
  rcases enterKey_mem hq with hq | rfl
  · exact le q hq
  · exact hk

theorem leaveKey_moves {r : Reach} (s : State) (p : Part) (k : Nat) :
    Moves r s (s.setKeys p (leaveKey k (s.part p).heldKeys)) := by
  refine setKeys_moves s p fun h => ?_
  obtain ⟨nd, len, le⟩ := h p
  exact ⟨nd.filter _, (List.length_filter_le _ _).trans len, fun q hq => le q (List.mem_filter.1 hq).1⟩

theorem noteStart_moves (part key velocity : Byte) (s : State) :
    Moves .lending s (noteStart part key velocity s).1 := by
  unfold noteStart
  split
  · rename_i p k _ hk
    have hk := key?_le hk
    refine (enterKey_moves s p hk).trans ?_
    simp only
    split
    · unfold polyStart
      split
      · exact searchAndPlace_moves hk (vel_range velocity) false _
      · refine .of_chain (retrigger_chain (vel_range velocity) fun v hv => ?_)
        rw [soundingOn_mem] at hv
        exact onKey_onPart hv.2.1
    · unfold soloStart
      split
      · exact searchAndPlace_moves hk (vel_range velocity) true _
      · rename_i g hg
        simp only
        split
        · exact legatoMove_moves hg fun _ => hk
        · exact soloRetrigger_moves hg (vel_range velocity) hk
  · exact .refl s

/-- Moves that reach sounding voices, or moves that free voices and then the engine's choice of work. -/
def Freed (s t : State) : Prop :=
  Moves .sounding s t ∨ ∃ u, Moves .freeing s u ∧ t = kick u

theorem Freed.after {s t u : State} (a : ∀ r, Moves r s t) (b : Freed t u) : Freed s u := by
  obtain b | ⟨w, b, rfl⟩ := b
  · exact .inl ((a _).trans b)
  · exact .inr ⟨w, (a _).trans b, rfl⟩

theorem Freed.moves {s t : State} (h : Freed s t) : Moves .lending s t := by
  obtain h | ⟨u, h, rfl⟩ := h
  · exact h.lift
  · exact h.lift.trans (kick_moves u)

theorem Freed.refl (s : State) : Freed s s := .inl (.refl s)

theorem endVoices_freed (p : Part) (l : List VoiceNo) (s : State) : Freed s (kick (l.foldl (endVoice p) s)) :=
  .inr ⟨_, .of_chain (Chain.foldl' (endVoice_chain (by simp) p) l s), rfl⟩

theorem soloKeyUp_freed {s : State} {p : Part} {g : VoiceSet} (hg : (s.part p).solo = some g) :
    Freed s (soloKeyUp p g (s.part p).heldKeys s) := by
  unfold soloKeyUp
  split
  · rename_i k hk
    exact .inl (legatoMove_moves hg fun h => (h p).2.2 k (List.mem_of_getLast? hk))
  · exact endVoices_freed p _ s

theorem noteEnd_freed (part key : Byte) (s : State) : Freed s (noteEnd part key s).1 := by
  unfold noteEnd
  split
  · rename_i p k _ _
    split
    · unfold polyEnd
      refine .after (fun r => leaveKey_moves s p k) ?_
      simp only
      split
      · exact .refl _
      · exact endVoices_freed p _ _
    · unfold soloEnd
      simp only
      split
      · refine .after (fun r => leaveKey_moves s p k) ?_
        split
        · rename_i g hg
          simp only [ok_fst]
          split
          · have := soloKeyUp_freed hg
            rwa [setKeys_part, if_pos rfl] at this
          · exact .refl _
        · exact .refl _
      · exact .refl s
  · exact .refl s

theorem notePressure_moves {r : Reach} (part key value : Byte) (s : State) :
    Moves r s (notePressure part key value s).1 := by
  unfold notePressure
  split
  · split
    · exact .refl s
    · refine Moves.foldl (fun s v => .of_move
        (.note v (fun n => { n with pressure := min 127 value.toNat }) (fun _ => rfl) (fun _ => rfl)
          fun n hn => ?_)) _ s
      exact ⟨hn.1, hn.2.1, hn.2.2.1, Nat.min_le_left _ _⟩
  · exact .refl s

theorem sustain_moves {r : Reach} (part setting : Byte) (s : State) :
    Moves r s (sustain part setting s).1 := by
  unfold sustain
  split
  · rename_i p x _ _
    split
    · exact .refl s
    · have m : Moves r s (s.modPart p fun r => { r with sustain := x }) :=
        .of_move (.part p _ (fun _ => rfl) (fun _ => rfl) fun _ h => h)
      simp only [ok_fst]
      split
      · exact m
      · exact m.trans (.of_chain (releaseSustained_chain p _))
  · exact .refl s

theorem dampExpiry_moves {r : Reach} (v : VoiceNo) (s : State) : Moves r s (dampExpiry v s) := by
  unfold dampExpiry
  split
  · rename_i h
    refine .of_move (.hold v ?_)
    revert h
    rcases s.status v with _ | ⟨n, _ | _ | _ | _⟩ | _ | _ <;>
      simp [VoiceStatus.isMuting, VoiceStatus.isReleasing]
  · exact .refl s

theorem tailExpiry_freed (v : VoiceNo) (s : State) : Freed s (tailExpiry v s) := by
  unfold tailExpiry
  split
  · rename_i h
    refine .inr ⟨_, .of_move (.free v (by simp) (.inr ?_)), rfl⟩
    revert h
    cases s.status v <;> simp [VoiceStatus.isReleasing, VoiceStatus.isTuning]
  · exact .refl s

theorem Control.clamp_mem (c : Control) (x : Int) : match c with
    | .bend => -8192 ≤ c.clamp x ∧ c.clamp x ≤ 8191
    | .mod => 0 ≤ c.clamp x ∧ c.clamp x ≤ 1023
    | .pressure => 0 ≤ c.clamp x ∧ c.clamp x ≤ 127
    | .expression => 0 ≤ c.clamp x ∧ c.clamp x ≤ 1023 := by
  cases c <;> exact clampInt_mem (by decide) x

theorem setControl_inRange {x : PartRec} (h : x.InRange) (c : Control) (v : Int) :
    (x.setControl c (c.clamp v)).InRange := by
  have hc := c.clamp_mem v
  obtain ⟨h1, h2, h3, h4, h5⟩ := h
  unfold PartRec.InRange
  cases c <;> simp only [PartRec.setControl] at hc ⊢ <;> omega

theorem setControl_moves {r : Reach} (s : State) (p : Part) (c : Control) (v : Int) :
    Moves r s (s.modPart p fun x => x.setControl c (c.clamp v)) :=
  .of_move (.part p _ (fun _ => by cases c <;> rfl) (fun _ => by cases c <;> rfl)
    fun _ h => setControl_inRange h c v)

theorem performanceSet_moves {r : Reach} (part control : Byte) (value : BitVec 16) (s : State) :
    Moves r s (performanceSet part control value s).1 := by
  unfold performanceSet
  split
  · rename_i p c _ _
    have m : Moves r s (s.modPart p fun x => x.setControl c (c.clamp value.toInt)) :=
      setControl_moves s p c _
    have m' := m.trans (recompute_quiet (fun n => pitchPart (s.modPart p fun x =>
      x.setControl c (c.clamp value.toInt)) (sourceVoice n) == p) _).moves
    revert m m'
    generalize c.clamp value.toInt = x
    intro m m'
    simp only [ok_fst]
    split
    · exact m'
    · exact m
  · exact .refl s

theorem partSettings_moves {r : Reach} (part : Byte) (pool : BitVec 16) (scale : Byte) (s : State) :
    Moves r s (partSettings part pool scale s).1 := by
  unfold partSettings
  split
  · rename_i p t _ _
    exact (Moves.of_move (.part p (fun r => { r with pool, scale := t }) (fun _ => rfl) (fun _ => rfl)
      fun _ h => h)).trans (moveNotes_quiet _ _).moves
  · exact .refl s

theorem seed_moves {r : Reach} (value : BitVec 16) (s : State) : Moves r s (seed value s).1 := by
  refine .of_move (.seed _ ?_)
  split
  · decide
  · assumption

/-- The voices of a list set free one after another. -/
theorem freeAll_chain {r : Reach} (hr : r ≠ .sounding) (l : List VoiceNo) (s : State)
    (h : ∀ v ∈ l, (s.status v).isTuning = false) : Chain r none s (l.foldl State.enterFree s) := by
  refine (Chain.foldl (I := fun t => ∀ v ∈ l, (t.status v).isTuning = false) (fun t v hv ht => ?_) h).1
  refine ⟨.single (.free v hr (.inr (ht v hv))), fun w hw => ?_⟩
  rw [enterFree_status]
  split
  · rfl
  · exact ht w hw

theorem clearRecord_eq (s : State) (p : Part) :
    (s.modPart p fun r => { r with heldKeys := [], sustain := false, solo := none }) =
      ((s.setKeys p []).modPart p fun r => { r with sustain := false }).setSolo p none := by
  unfold State.setSolo State.setKeys State.modPart
  cases p <;> rfl

theorem onPart_not_tuning {x : VoiceStatus} {p : Part} (h : x.onPart p = true) : x.isTuning = false := by
  cases x <;> simp_all [VoiceStatus.onPart, VoiceStatus.isTuning]

theorem clearPart_moves {r : Reach} (hr : r ≠ .sounding) (s : State) (p : Part) :
    Moves r s (clearPart s p) := by
  unfold clearPart
  simp only [clearRecord_eq]
  refine (Moves.of_chain (freeAll_chain hr _ s fun v hv => ?_)).trans <|
    (setKeys_moves _ p fun _ => ⟨.nil, Nat.zero_le _, by simp⟩).trans <|
    (Moves.of_move (.part p (fun r => { r with sustain := false }) (fun _ => rfl) (fun _ => rfl)
      fun _ h => h)).move (.dissolve p)
  exact onPart_not_tuning (List.mem_filter.1 hv).2

theorem allNotesClear_freed (target : Byte) (s : State) : Freed s (allNotesClear target s).1 := by
  unfold allNotesClear
  split
  · exact .inr ⟨_, Moves.foldl (clearPart_moves (by simp)) _ s, rfl⟩
  · exact .refl s

/-! ## The edit buffers -/

/-- A buffer is overwritten by one whose patch is in range where the patches were. -/
theorem setBuffer_moves {r : Reach} (s : State) (p : Part) (b : EditBuffer)
    (h : BufferLaw s → b.patch.InRange) : Moves r s (s.setBuffer p b) := by
  refine .of_move (.patch rfl rfl ⟨rfl, rfl, rfl, .of_eq rfl⟩ fun hb q => ?_)
  rw [setBuffer_patch]
  split
  · exact h hb
  · exact hb q

theorem storeParam_moves {r : Reach} (s : State) (p : Part) (n : ParamNo) (x : Nat) (hx : x ≤ 1023) :
    Moves r s (storeParam p n x s) := by
  refine setBuffer_moves s p _ fun h => ?_
  obtain ⟨params, name, cat⟩ := h p
  refine ⟨fun m => ?_, name, cat⟩
  change look (put (s.buffer p).patch.params n x) m ≤ 1023
  rw [look_put]
  split
  · exact hx
  · exact params m

theorem releasePart_moves {r : Reach} (hr : r ≠ .sounding) (p : Part) (s : State) :
    Moves r s (releasePart p s) := .of_chain (releasePart_chain hr p s)

theorem engineEffect_moves {r : Reach} (hr : r ≠ .sounding) (old : State) (p : Part) (n : ParamNo)
    (s : State) : Moves r s (engineEffect old p n s) := by
  unfold engineEffect
  split
  · split
    · exact .refl s
    · exact releasePart_moves hr p s
  all_goals first
    | exact .refl s
    | exact (recompute_quiet _ s).moves
    | exact ((moveNotes_quiet old s).trans (recompute_quiet _ _)).moves

theorem ite_mark_quiet (c : Prop) [Decidable c] (s : State) (m : Mark) :
    Quiet s (if c then s.mark m else s) := by
  split
  · exact mark_quiet s m
  · exact .refl s

theorem writeParam_moves {r : Reach} (hr : r ≠ .sounding) (w : Writer) (p : Part) (n : ParamNo)
    (value : Nat) (s : State) : Moves r s (writeParam w p n value s) := by
  unfold writeParam
  simp only
  have stored := (storeParam_moves (r := r) s p n (min 1023 value) (Nat.min_le_left ..)).trans
    (reArm_quiet (fun q => ((storeParam p n (min 1023 value) s).potEntry q).names n && w != .pot q) p
      _).moves
  refine stored.trans (Moves.trans ?_ (ite_mark_quiet _ _ _).moves)
  split
  · exact engineEffect_moves hr ..
  · exact .refl _

theorem loadImage_moves {r : Reach} (hr : r ≠ .sounding) (p : Part) {x : Patch} (hx : x.InRange)
    (s : State) : Moves r s (loadImage p x s) := by
  unfold loadImage
  simp only
  have loaded := (setBuffer_moves (r := r) s p { patch := x, modified := false } fun _ => hx).trans
    (reArm_quiet (fun _ => true) p _).moves
  split
  · exact loaded.trans ((moveNotes_quiet s _).trans (recompute_quiet _ _)).moves
  · exact (loaded.trans (releasePart_moves hr p _)).trans
      ((moveNotes_quiet s _).trans (recompute_quiet _ _)).moves

theorem unpackParams_le : ∀ (l : List Byte), ∀ x ∈ unpackParams l, x ≤ 1023
  | v :: w :: x :: y :: z :: rest, n, hn => by
    simp only [unpackParams, List.mem_cons] at hn
    rcases hn with rfl | rfl | rfl | rfl | hn
    · omega
    · omega
    · omega
    · omega
    · exact unpackParams_le rest n hn
  | [], _, hn | [_], _, hn | [_, _], _, hn | [_, _, _], _, hn | [_, _, _, _], _, hn => by
    simp [unpackParams] at hn

theorem imagePatch_inRange (img : List Byte) : (imagePatch img).InRange := by
  refine ⟨fun n => ?_, fun i => ?_, Nat.min_le_left ..⟩
  · change look (tabulate fun n : Fin 80 => (unpackParams (img.drop 28)).getD n.val 0) n ≤ 1023
    rw [look_tabulate, List.getD_eq_getElem?_getD]
    rcases h : (unpackParams (img.drop 28))[n.val]? with _ | x
    · exact Nat.zero_le _
    · exact unpackParams_le _ x (List.mem_of_getElem? h)
  · have e : look (imagePatch img).name i = nameByte (img.getD (4 + i.val) 0) := look_tabulate _ i
    rw [e]
    exact nameByte_range _

end Sys2Proof.Machine
end

