-- ==== Sys2Proof/Proofs/EffectOfCommands.lean ====
section
/-! The panel and the commands outside the note path as moves, and what a step is: moves, one tick of the
clock, or a reset. -/

namespace Sys2Proof.Machine

/-! ## The panel -/

section
variable {r : Reach}

theorem applyTakeover_moves (hr : r ≠ .sounding) (q : PotNo) (l : PotLink) (k0 k1 : Nat) (p : Part)
    (s : State) : Moves r s (applyTakeover q l k0 k1 p s) := by
  have write (x : Nat) : Moves r s (writeParam (.pot q) p l.param x s) := writeParam_moves hr ..
  have caught : Moves r s ((writeParam (.pot q) p l.param k1 s).setTakeover q p .caught) :=
    (write k1).trans (setTakeover_quiet ..).moves
  unfold applyTakeover
  simp only
  split
  · split
    · exact caught
    · split
      · exact .refl s
      · exact write _
  · split
    · exact caught
    · exact .refl s

theorem stableChangeAt_moves (hr : r ≠ .sounding) (q : PotNo) (k0 k1 : Nat) (s : State) (p : Part) :
    Moves r s (stableChangeAt q k0 k1 s p) := by
  unfold stableChangeAt
  split
  · split
    · exact applyTakeover_moves hr ..
    · exact (reArm_quiet ..).moves
  · exact (reArm_quiet ..).moves

theorem stableChange_moves (hr : r ≠ .sounding) (q : PotNo) (k0 k1 : Nat) (s : State) :
    Moves r s (stableChange q k0 k1 s) := by
  have both : Moves r s (stableChangeAt q k0 k1 (stableChangeAt q k0 k1 s .A) .B) :=
    (stableChangeAt_moves hr ..).trans (stableChangeAt_moves hr ..)
  unfold stableChange
  simp only
  split
  · split
    · exact both.trans (mark_quiet _ _).moves
    · exact both
  · exact both

theorem readPot_moves (hr : r ≠ .sounding) (q : PotNo) (x : Nat) (s : State) :
    Moves r s (readPot q x s) := by
  unfold readPot
  simp only
  split
  · exact ((setPot_quiet s q _).trans (firstReading_quiet q _)).moves
  · split
    · exact (setPot_quiet s q _).moves.trans (stableChange_moves hr ..)
    · exact (setPot_quiet s q _).moves

theorem setFocus_quiet (s : State) (f : Focus) : Quiet s (s.setFocus f) := setEbu_quiet fun _ => rfl

theorem stepAt_moves (hr : r ≠ .sounding) (t : Target) (n : ParamNo) (count : Nat) (s : State) (p : Part) :
    Moves r s (stepAt t n count s p) := by
  unfold stepAt
  split
  · exact writeParam_moves hr ..
  · exact .refl s

theorem switchChange_moves (hr : r ≠ .sounding) (n : SwitchNo) (pressed : Bool) (s : State) :
    Moves r s (switchChange n pressed s) := by
  unfold switchChange
  split
  · exact (mark_quiet s _).moves
  · split
    · exact (setFocus_quiet s _).moves
    · exact .refl s
  · split
    · exact (stepAt_moves hr ..).trans (stepAt_moves hr ..)
    · exact .refl s

theorem readSwitch_moves (hr : r ≠ .sounding) (n : SwitchNo) (swin : Bool) (s : State) :
    Moves r s (readSwitch n swin s) := by
  unfold readSwitch
  simp only
  split
  · exact (setSwitch_quiet s n _).moves
  · split
    · exact (setSwitch_quiet s n _).moves
    · exact (setSwitch_quiet s n _).moves.trans (switchChange_moves hr ..)

theorem readItem_moves (hr : r ≠ .sounding) (group : Fin 11) (addr : Fin 16) (padc : BitVec 12)
    (swin : Bool) (s : State) : Moves r s (readItem group addr padc swin s) := by
  unfold readItem
  split
  · exact readPot_moves hr ..
  · split
    · exact readSwitch_moves hr ..
    · split
      · exact readSwitch_moves hr ..
      · exact .refl s

end

theorem setPsc_engineOnly (s : State) (x : Psc) : EngineOnly s (s.setPsc x) := .of_blocks rfl rfl rfl

theorem startSweep_engineOnly (s : State) : EngineOnly s (startSweep s) := (startSweep_only s).engineOnly

theorem endGroup_only (s : State) : EngineOnly s (endGroup s) := by
  have rested : EngineOnly s ((releaseBus .scanner s).setPsc { (releaseBus .scanner s).psc with
      groups := (releaseBus .scanner s).psc.groups.drop 1, phase := .resting }) :=
    (releaseBus_only .scanner s).engineOnly.trans (setPsc_engineOnly _ _)
  unfold endGroup
  simp only
  split
  · split
    · exact rested.trans (startSweep_engineOnly _)
    · exact rested
  · exact rested.trans (requestBus_only .scanner _).engineOnly

theorem scanSample_moves (padc : BitVec 12) (swin : Bool) (s : State) :
    Moves .lending s (scanSample padc swin s) := by
  unfold scanSample
  split
  · rename_i group _ _ _
    have sampled : Moves .lending s (kick (readItem group s.psc.addr padc swin s)) :=
      (readItem_moves (by simp) ..).trans (kick_moves _)
    simp only
    split
    · exact sampled.trans (setPsc_engineOnly _ _).moves
    · exact sampled.trans (endGroup_only _).moves
  · exact .refl s

theorem sweepTimerExpiry_only (s : State) : EngineOnly s (sweepTimerExpiry s) := by
  unfold sweepTimerExpiry
  simp only
  split
  · exact (setPsc_engineOnly s _).trans (startSweep_engineOnly _)
  · exact (setPsc_engineOnly s _).trans (setPsc_engineOnly _ _)

/-! ## Commands that reach sounding voices at most -/

/-- A command all of whose effects the laws of voices and engine do not see. -/
def Unseen (f : State → Answered) : Prop := ∀ s, Quiet s (f s).1

theorem recomputeAll_quiet (s : State) : Quiet s (recomputeAll s) := recompute_quiet _ s

theorem masterPitch_unseen (x : Int) : Unseen (masterPitch x) := fun s => by
  unfold masterPitch
  rw [ok_fst]
  exact (setPtu_quiet s _).trans (recomputeAll_quiet _)

theorem scaleSet_unseen (table : Byte) (offsets : Vector (BitVec 16) 12) :
    Unseen (scaleSet table offsets) := fun s => by
  unfold scaleSet
  split
  · exact .refl s
  · exact (setPtu_quiet s _).trans (moveNotes_quiet s _)

theorem overrideSet_unseen (part key : Byte) (pitch : BitVec 24) : Unseen (overrideSet part key pitch) :=
  fun s => by
  unfold overrideSet
  split
  · split
    · exact .refl s
    · exact (setPtu_quiet s _).trans (moveNotes_quiet s _)
  · exact .refl s

theorem overrideRemove_quiet (gone : Override → Bool) (s : State) : Quiet s (overrideRemove gone s) :=
  (setPtu_quiet s _).trans (moveNotes_quiet s _)

theorem overrideClear_unseen (selector part key : Byte) : Unseen (overrideClear selector part key) :=
  fun s => by
  unfold overrideClear
  split
  · exact .refl s
  · exact overrideRemove_quiet _ s
  · split
    · exact overrideRemove_quiet _ s
    · exact .refl s

theorem tuneSettings_unseen (oscGain fltGain : BitVec 16) (oscEdge fltEdge retune autoPark : Byte) :
    Unseen (tuneSettings oscGain fltGain oscEdge fltEdge retune autoPark) := fun s => by
  unfold tuneSettings
  split
  · exact setCal_quiet s _
  · exact .refl s

theorem calRead_fst (source : Byte) (s : State) : (calRead source s).1 = s := by
  unfold calRead; split <;> rfl

theorem voiceRead_fst (voice : Byte) (s : State) : (voiceRead voice s).1 = s := by
  unfold voiceRead; split <;> rfl

theorem potRead_fst (pot : Byte) (s : State) : (potRead pot s).1 = s := by
  unfold potRead; split <;> rfl

theorem paramRead_fst (part item : Byte) (s : State) : (paramRead part item s).1 = s := by
  unfold paramRead
  split
  · simp only
    split <;> rfl
  · rfl

theorem routeRead_fst (channel : Byte) (s : State) : (routeRead channel s).1 = s := by
  unfold routeRead; split <;> rfl

/-- A command that leaves the state is not seen. -/
theorem Unseen.of_fst {f : State → Answered} (h : ∀ s, (f s).1 = s) : Unseen f := fun s => by
  rw [h s]; exact .refl s

theorem scheduleSet_unseen (profile interval : Byte) (mask : BitVec 16) :
    Unseen (scheduleSet profile interval mask) := fun s => by
  unfold scheduleSet
  split
  · rename_i n _
    refine setPsc_quiet ?_
    cases n <;> exact ⟨rfl, rfl, rfl, rfl, rfl, rfl, rfl, rfl⟩
  · exact .refl s

theorem profileSet_unseen (slot shift deadband : Byte) : Unseen (profileSet slot shift deadband) :=
  fun s => by
  unfold profileSet
  split
  · exact setPsc_quiet ⟨rfl, rfl, rfl, rfl, rfl, rfl, rfl, rfl⟩
  · exact .refl s

theorem potMapSet_unseen (pot target param mode slot : Byte) :
    Unseen (potMapSet pot target param mode slot) := fun s => by
  unfold potMapSet
  split
  · simp only [ok_fst]
    refine Quiet.trans (Quiet.trans ?_ (setPot_quiet _ _ _)) (firstReading_quiet _ _)
    exact setEbu_quiet fun _ => rfl
  · exact .refl s

theorem switchMapSet_unseen (switch action field param count : Byte) :
    Unseen (switchMapSet switch action field param count) := fun s => by
  unfold switchMapSet
  split
  · exact setEbu_quiet fun _ => rfl
  · exact .refl s

theorem focusSet_unseen (focus : Byte) : Unseen (focusSet focus) := fun s => by
  unfold focusSet
  split
  · exact setFocus_quiet s _
  · exact .refl s

theorem slotWrite_unseen (slot : BitVec 16) (name : Name) (category : Byte)
    (params : Vector (BitVec 16) 80) : Unseen (slotWrite slot name category params) := fun s => by
  unfold slotWrite
  split
  · split
    · exact .refl s
    · exact accept_quiet _ s
  · exact .refl s

theorem slotClear_unseen (slot : BitVec 16) : Unseen (slotClear slot) := fun s => by
  unfold slotClear
  split
  · split
    · exact .refl s
    · exact accept_quiet _ s
  · exact .refl s

theorem calSave_unseen : Unseen calSave := fun s => by
  unfold calSave
  split
  · exact .refl s
  · exact accept_quiet _ s

theorem guardSet_unseen (extent anchor invert : Byte) : Unseen (guardSet extent anchor invert) :=
  fun s => by
  unfold guardSet
  split
  · split
    · exact .refl s
    · split
      · exact .refl s
      · exact accept_quiet _ s
  · exact .refl s

theorem guardFreeze_unseen : Unseen guardFreeze := fun s => setSmc_quiet s _

theorem slotRead_unseen (slot : BitVec 16) : Unseen (slotRead slot) := fun s => by
  unfold slotRead
  split
  · exact suspendFor_quiet _ s
  · exact .refl s

/-- A change of the output that leaves gaps and trial code override. -/
theorem setCvo_quiet {s : State} {x : Cvo} (gaps : x.gaps = s.cvo.gaps) (trial : x.trial = s.cvo.trial) :
    Quiet s { s with cvo := x } :=
  ⟨.of_val rfl gaps fun _ => rfl, rfl, rfl, trial, .of_eq rfl⟩

theorem routeSet_unseen (channel source : Byte) : Unseen (routeSet channel source) := fun s => by
  unfold routeSet
  split
  · split
    · exact setCvo_quiet rfl rfl
    · exact .refl s
  · exact .refl s

theorem refreshWrite_quiet (s : State) : Quiet s (refreshWrite s) := setCvo_quiet rfl rfl

theorem nextNotice_unseen : Unseen nextNotice := fun s => by
  unfold nextNotice
  split
  · exact setLnk_quiet s _
  · exact .refl s

theorem noticeEnable_unseen (mask : Byte) : Unseen (noticeEnable mask) := fun s => setLnk_quiet s _

theorem nameByte_buffer {b : EditBuffer} (h : b.patch.InRange) (name : Name) (category : Byte) :
    Patch.InRange { b.patch with name := cleanName name, category := min 15 category.toNat } := by
  refine ⟨h.1, fun i => ?_, Nat.min_le_left ..⟩
  have e : look (cleanName name) i = nameByte (look name i) := look_tabulate _ i
  rw [e]
  exact nameByte_range _

theorem nameSet_moves {r : Reach} (part : Byte) (name : Name) (category : Byte) (s : State) :
    Moves r s (nameSet part name category s).1 := by
  unfold nameSet
  split
  · rename_i p _
    exact setBuffer_moves s p _ fun h => nameByte_buffer (h p) name category
  · exact .refl s

theorem accept_ebu (j : Job) (s : State) : (accept j s).ebu = s.ebu := by
  unfold accept setStateByte
  rcases j.slot? with _ | n <;> rfl

theorem patchStore_moves {r : Reach} (part : Byte) (slot : BitVec 16) (s : State) :
    Moves r s (patchStore part slot s).1 := by
  unfold patchStore
  split
  · rename_i p n _ _
    split
    · exact .refl s
    · exact (accept_quiet _ s).moves.trans (setBuffer_moves _ p _ fun h => by
        have := h p
        unfold State.patch at this
        rwa [accept_ebu] at this)
  · exact .refl s

/-! ## Commands that free voices, and what they make runnable -/

theorem paramWrite_freed (part param : Byte) (value : BitVec 16) (s : State) :
    Freed s (paramWrite part param value s).1 := by
  unfold paramWrite
  split
  · exact .inr ⟨_, writeParam_moves (by simp) .., rfl⟩
  · exact .refl s

theorem readout_inRange {img : List Byte} {x : Patch} (h : readout img = .valid x) : x.InRange := by
  unfold readout at h
  split at h
  · cases h
  · split at h
    · cases h
      exact imagePatch_inRange _
    · cases h

theorem patchRecall_freed (slot : BitVec 16) (part : Byte) (s : State) :
    Freed s (patchRecall slot part s).1 := by
  unfold patchRecall
  split
  · rename_i n p _ _
    simp only
    refine .after (fun r => (suspendFor_quiet n s).moves) ?_
    split
    · exact .refl _
    · exact .refl _
    · rename_i x hx
      exact .inr ⟨_, loadImage_moves (by simp) p (readout_inRange hx) _, rfl⟩
  · exact .refl s

/-! ## What a command does, for any relation that knows the moves and the engine's functions -/

/-- A relation between the states before and after a command that holds of the moves of sounding and freed
voices and of each function by which a command reaches the engine or the reset. -/
structure Follows (R : State → State → Prop) : Prop where
  quiet : ∀ {s t u}, R s t → Quiet t u → R s u
  sounding : ∀ {s t}, Moves .sounding s t → R s t
  freed : ∀ {s t}, s.run = .running → Freed s t → R s t
  noteStart : ∀ part key vel s, s.run = .running → R s (noteStart part key vel s).1
  serviceOff : ∀ v x s, s.run = .running → R s (serviceOff v x s).1
  serviceOn : ∀ v s, s.run = .running → R s (serviceOn v s).1
  minute : ∀ s, s.run = .running → R s (minuteEvent s)
  tuneAdd : ∀ voices sources mode s, s.run = .running → R s (tuneAdd voices sources mode s).1
  tuneRun : ∀ a s, s.run = .running → R s (tuneRun a s).1
  tuneHalt : ∀ s, s.run = .running → R s (tuneHalt s).1
  tuneStep : ∀ s, s.run = .running → R s (tuneStep s).1
  tuneCancel : ∀ s, s.run = .running → R s (tuneCancel s).1
  settling : ∀ s, s.run = .running → R s (settlingExpiry s)
  firstEdge : ∀ e s, s.run = .running → R s (firstProbeEdge e s)
  gateClose : ∀ e n s, s.run = .running → R s (gateClose e n s)
  window : ∀ s, s.run = .running → R s (gateWindowExpiry s)
  sweep : ∀ s, s.run = .running → R s (sweepTimerExpiry s)
  sample : ∀ x y s, s.run = .running → R s (scanSample x y s)
  reset : ∀ kind frozen s, kind ≠ .running → R s (enterReset kind frozen s)
  exit : ∀ s, s.run ≠ .running → R s (leaveReset s)

namespace Follows
variable {R : State → State → Prop} (F : Follows R) {s t : State}
include F

theorem refl (s : State) : R s s := F.sounding (.refl s)

theorem host {c : Instr} {f : State → Answered} (h : s.run = .running → R s (f s).1)
    (e : hostCommand c s f = .next t) : R s t := by
  unfold hostCommand at e
  split at e
  · rename_i heard
    cases e
    exact F.quiet (h ((hears_iff s).1 heard).1) (setLnk_quiet _ _)
  · cases e
    exact F.refl s

theorem heard {c : Instr} {f : State → Answered} (h : Moves .sounding s (f s).1)
    (e : hostCommand c s f = .next t) : R s t := F.host (fun _ => F.sounding h) e

theorem unseen {c : Instr} {f : State → Answered} (h : Unseen f) (e : hostCommand c s f = .next t) :
    R s t := F.heard (h s).moves e

theorem read {c : Instr} {f : State → Answered} (h : ∀ s, (f s).1 = s) (e : hostCommand c s f = .next t) :
    R s t := F.unseen (.of_fst h) e

theorem part {f : State → State} (h : s.run = .running → R s (f s)) (e : event s f = .next t) : R s t := by
  unfold event at e
  split at e
  · rename_i run
    cases e
    exact h run
  · cases e
    exact F.refl s

theorem happens {f : State → State} (h : Moves .sounding s (f s)) (e : event s f = .next t) : R s t :=
  F.part (fun _ => F.sounding h) e

theorem link {x : Lnk} : R s (s.setLnk x) := F.sounding (setLnk_quiet s x).moves

theorem frameCut {bits : Nat} (e : execFrameCut bits s = .next t) : R s t := by
  unfold execFrameCut at e
  split at e
  · simp only at e
    split at e
    · cases e
      exact F.quiet F.link (mark_quiet _ _)
    · cases e
      exact F.link
  · cases e
    exact F.link

theorem voidFrame {code : Byte} (e : execVoidFrame code s = .next t) : R s t := by
  unfold execVoidFrame at e
  split at e
  · cases e
    exact F.quiet F.link (mark_quiet _ _)
  · cases e
    exact F.refl s

theorem frameStart {sckHigh : Bool} (e : execFrameStart sckHigh s = .next t) : R s t := by
  unfold execFrameStart at e
  split at e <;> cases e <;> exact F.link

theorem resetExit (e : execResetExit s = .next t) : R s t := by
  unfold execResetExit at e
  split at e
  · cases e
    exact F.refl s
  · rename_i h
    cases e
    exact F.exit s h

/-- Every command, by its arm of the dispatch. -/
theorem command (i : Instr) (e : exec i s = .next t) : R s t := by
  cases i with
  | noteStart part key vel => exact F.host (F.noteStart part key vel s) e
  | noteEnd part key => exact F.host (fun r => F.freed r (noteEnd_freed part key s)) e
  | notePressure part key x => exact F.heard (notePressure_moves part key x s) e
  | sustain part x => exact F.heard (sustain_moves part x s) e
  | performanceSet part c x => exact F.heard (performanceSet_moves part c x s) e
  | allNotesClear a => exact F.host (fun r => F.freed r (allNotesClear_freed a s)) e
  | voiceRead v => exact F.read (voiceRead_fst v) e
  | partSettings part pool scale => exact F.heard (partSettings_moves part pool scale s) e
  | seed x => exact F.heard (seed_moves x s) e
  | voiceServiceOff v x => exact F.host (F.serviceOff v x s) e
  | voiceServiceOn v => exact F.host (F.serviceOn v s) e
  | dampExpiry v => exact F.happens (dampExpiry_moves v s) e
  | tailExpiry v => exact F.part (fun r => F.freed r (tailExpiry_freed v s)) e
  | retriggerGapExpiry v => exact F.happens (.of_move (.gapExpiry v)) e
  | glideUpdate v => exact F.happens (glideUpdate_quiet v s).moves e
  | masterPitch x => exact F.unseen (masterPitch_unseen x.toInt) e
  | scaleSet t o => exact F.unseen (scaleSet_unseen t o) e
  | overrideSet part key x => exact F.unseen (overrideSet_unseen part key x) e
  | overrideClear sel part key => exact F.unseen (overrideClear_unseen sel part key) e
  | minuteEvent => exact F.part (F.minute s) e
  | calRead n => exact F.read (calRead_fst n) e
  | calSave => exact F.unseen calSave_unseen e
  | tuneSettings a b c d x y => exact F.unseen (tuneSettings_unseen a b c d x y) e
  | tuneAdd voices sources mode => exact F.host (F.tuneAdd voices sources mode s) e
  | tuneControlRun a => exact F.host (F.tuneRun a s) e
  | tuneControlHalt => exact F.host (F.tuneHalt s) e
  | tuneControlStep => exact F.host (F.tuneStep s) e
  | tuneControlCancel => exact F.host (F.tuneCancel s) e
  | tuneRead => exact F.read (f := fun s => ok s (tuneData s)) (fun _ => rfl) e
  | settlingExpiry => exact F.part (F.settling s) e
  | firstProbeEdge x => exact F.part (F.firstEdge x s) e
  | gateClose x n => exact F.part (F.gateClose x n s) e
  | gateWindowExpiry => exact F.part (F.window s) e
  | sweepTimerExpiry => exact F.part (F.sweep s) e
  | scanSample x y => exact F.part (F.sample x y s) e
  | scheduleSet a b m => exact F.unseen (scheduleSet_unseen a b m) e
  | profileSet a b c => exact F.unseen (profileSet_unseen a b c) e
  | potRead q => exact F.read (potRead_fst q) e
  | paramWrite part n x => exact F.host (fun r => F.freed r (paramWrite_freed part n x s)) e
  | paramRead part n => exact F.read (paramRead_fst part n) e
  | nameSet part name cat => exact F.heard (nameSet_moves part name cat s) e
  | potMapSet a b c d x => exact F.unseen (potMapSet_unseen a b c d x) e
  | switchMapSet a b c d x => exact F.unseen (switchMapSet_unseen a b c d x) e
  | focusSet x => exact F.unseen (focusSet_unseen x) e
  | patchStore part slot => exact F.heard (patchStore_moves part slot s) e
  | slotWrite slot name cat x => exact F.unseen (slotWrite_unseen slot name cat x) e
  | slotClear slot => exact F.unseen (slotClear_unseen slot) e
  | patchRecall slot part => exact F.host (fun r => F.freed r (patchRecall_freed slot part s)) e
  | slotRead slot => exact F.unseen (slotRead_unseen slot) e
  | guardSet a b c => exact F.unseen (guardSet_unseen a b c) e
  | guardFreeze => exact F.unseen guardFreeze_unseen e
  | guardRead => exact F.read (f := fun s => ok s (guardData s)) (fun _ => rfl) e
  | eraseExpiry => exact F.happens (eraseExpiry_quiet s).moves e
  | programExpiry x => exact F.happens (programExpiry_quiet x s).moves e
  | resumeExpiry x => exact F.happens (resumeExpiry_quiet x s).moves e
  | routeSet a b => exact F.unseen (routeSet_unseen a b) e
  | routeRead a => exact F.read (routeRead_fst a) e
  | refreshWrite => exact F.happens (refreshWrite_quiet s).moves e
  | nextNotice => exact F.unseen nextNotice_unseen e
  | noticeEnable m => exact F.unseen (noticeEnable_unseen m) e
  | voidFrame x => exact F.voidFrame e
  | frameCut n => exact F.frameCut e
  | powerOnReset => cases e; exact F.reset _ _ s (by simp)
  | pinReset => cases e; exact F.reset _ _ s (by simp)
  | resetExit => exact F.resetExit e
  | frameStart x => exact F.frameStart e

end Follows

theorem setPending_quiet (s : State) (l : List Instr) : Quiet s { s with pending := l } :=
  .of_blocks rfl rfl rfl rfl rfl rfl

/-- A step is a command taken off the queue, or a tick. -/
theorem step_cases {s t : State} (h : step s = .next t) :
    (∃ (i : Instr) (rest : List Instr), exec i { s with pending := rest } = .next t) ∨ t = tick s := by
  unfold step at h
  split at h
  · rename_i c rest _
    exact .inl ⟨c, rest, h⟩
  · cases h
    exact .inr rfl

/-- A law is kept that a relation followed by the commands carries, and that the clock keeps. -/
theorem Follows.kept {R : State → State → Prop} (F : Follows R) {law : State → Prop}
    (carry : ∀ {s t}, R s t → law s → law t) (clock : ∀ s, law s → law (tick s)) : Kept law := by
  intro s t hs h
  obtain ⟨i, rest, h⟩ | rfl := step_cases h
  · exact carry (F.command i h) (carry (F.sounding (setPending_quiet s rest).moves) hs)
  · exact clock s hs

end Sys2Proof.Machine
end

