-- ==== Sys2Proof/Proofs/NotesKept.lean ====
section
/-! Every step keeps the voice lists, the solo groups, the held keys, the retrigger gaps and the ranges. -/

namespace Sys2Proof.Machine

/-! ## The reset values meet the laws (R27) -/

section
variable {s : State}

theorem voice_of_reset (h : s.val = Val.reset) (v : VoiceNo) : s.voice v = Voice.reset := by
  unfold State.voice
  rw [h]
  exact look_replicate _ v

theorem status_of_reset (h : s.val = Val.reset) (v : VoiceNo) : s.status v = .free := by
  unfold State.status
  rw [voice_of_reset h]
  rfl

theorem part_of_reset (h : s.val = Val.reset) (p : Part) : s.part p = PartRec.reset := by
  unfold State.part
  rw [h]
  cases p <;> rfl

theorem patch_of_reset (h : s.ebu = Ebu.reset) (p : Part) : s.patch p = Patch.init := by
  unfold State.patch
  rw [h]
  cases p <;> rfl

theorem startOrder_of_reset (h : s.val = Val.reset) (p : Part) : s.val.startOrder.get p = [] := by
  rw [h]
  cases p <;> rfl

theorem voiceLaw_of_reset (h : s.val = Val.reset) : VoiceLaw s where
  freeNodup := by rw [h]; exact List.nodup_finRange 16
  free v := by rw [status_of_reset h, h]; exact iff_of_true (List.mem_finRange v) rfl
  startNodup p := by rw [startOrder_of_reset h]; exact .nil
  start p v := by
    rw [status_of_reset h, startOrder_of_reset h]
    exact iff_of_false List.not_mem_nil (by simp [VoiceStatus.onPart])
  releaseNodup := by rw [h]; exact .nil
  release v := by
    rw [status_of_reset h, h]
    exact iff_of_false List.not_mem_nil (by simp [VoiceStatus.isReleasing])

theorem soloLaw_of_reset (h : s.val = Val.reset) : SoloLaw s := by
  intro p g hg
  rw [part_of_reset h] at hg
  cases hg

theorem heldKeysLaw_of_reset (h : s.val = Val.reset) : HeldKeysLaw s := by
  intro p
  rw [part_of_reset h]
  exact ⟨.nil, Nat.zero_le _, by simp [PartRec.reset]⟩

theorem gapLaw_of_reset (h : s.cvo = Cvo.reset) : GapLaw s := by
  intro v hv
  rw [h] at hv
  unfold Cvo.reset at hv
  rw [look_replicate] at hv
  cases hv

theorem allocatorRanges_of_reset (h : s.val = Val.reset) : AllocatorRanges s := by
  refine ⟨fun v => ?_, fun p => ?_, ?_⟩
  · rw [voice_of_reset h]
    exact ⟨trivial, by decide⟩
  · rw [part_of_reset h]
    unfold PartRec.InRange
    decide
  · rw [h]
    decide

theorem init_inRange : Patch.init.InRange := by
  unfold Patch.InRange
  decide

theorem bufferLaw_of_reset (h : s.ebu = Ebu.reset) : BufferLaw s := by
  intro p
  rw [patch_of_reset h]
  exact init_inRange

end

/-! ## The clock leaves the lists, the keys, the gaps and the ranges -/

theorem elapse_voice (s : State) (v : VoiceNo) :
    (elapse s).voice v = { s.voice v with status := (s.status v).elapse } := look_tabulate _ v

theorem elapse_status (s : State) (v : VoiceNo) : (elapse s).status v = (s.status v).elapse := by
  unfold State.status
  rw [elapse_voice]
  rfl

theorem elapse_cases (x : VoiceStatus) : x.elapse = x ∨ ∃ n t,
    (x = .bound n (.releasing t) ∧ x.elapse = .bound n (.releasing (t - 1))) ∨
      (x = .bound n (.muting t) ∧ x.elapse = .bound n (.muting (t - 1))) := by
  rcases x with _ | ⟨n, _ | _ | t | t⟩ | _ | _
  case bound.releasing => exact .inr ⟨n, t, .inl ⟨rfl, rfl⟩⟩
  case bound.muting => exact .inr ⟨n, t, .inr ⟨rfl, rfl⟩⟩
  all_goals exact .inl rfl

section
variable (x : VoiceStatus)

@[simp] theorem elapse_isFree : x.elapse.isFree = x.isFree := by
  obtain h | ⟨n, t, ⟨rfl, h⟩ | ⟨rfl, h⟩⟩ := elapse_cases x <;> rw [h] <;> rfl

@[simp] theorem elapse_onPart (p : Part) : x.elapse.onPart p = x.onPart p := by
  obtain h | ⟨n, t, ⟨rfl, h⟩ | ⟨rfl, h⟩⟩ := elapse_cases x <;> rw [h] <;> rfl

@[simp] theorem elapse_isReleasing : x.elapse.isReleasing = x.isReleasing := by
  obtain h | ⟨n, t, ⟨rfl, h⟩ | ⟨rfl, h⟩⟩ := elapse_cases x <;> rw [h] <;> rfl

@[simp] theorem elapse_note? : x.elapse.note? = x.note? := by
  obtain h | ⟨n, t, ⟨rfl, h⟩ | ⟨rfl, h⟩⟩ := elapse_cases x <;> rw [h] <;> rfl

@[simp] theorem elapse_isHeld : x.elapse.isHeld = x.isHeld := by
  obtain h | ⟨n, t, ⟨rfl, h⟩ | ⟨rfl, h⟩⟩ := elapse_cases x <;> rw [h] <;> rfl

@[simp] theorem elapse_isSustained : x.elapse.isSustained = x.isSustained := by
  obtain h | ⟨n, t, ⟨rfl, h⟩ | ⟨rfl, h⟩⟩ := elapse_cases x <;> rw [h] <;> rfl

theorem elapse_inRange {x : VoiceStatus} (h : x.InRange) : x.elapse.InRange := by
  obtain e | ⟨n, t, ⟨rfl, e⟩ | ⟨rfl, e⟩⟩ := elapse_cases x <;> rw [e]
  · exact h
  · exact ⟨h.1, (Nat.sub_le t 1).trans h.2⟩
  · exact ⟨h.1, (Nat.sub_le t 1).trans h.2⟩

end

/-- A law that time's passing keeps is kept by the clock: in reset time stands still, and no law reads
the queue. -/
theorem tick_keeps {law : State → Prop} (passing : ∀ s, law s → law (elapse s))
    (queue : ∀ s l, law s → law { s with pending := l }) {s : State} (h : law s) : law (tick s) := by
  unfold tick
  split
  · exact queue _ _ (passing s h)
  · exact h

theorem elapse_voiceLaw {s : State} (h : VoiceLaw s) : VoiceLaw (elapse s) where
  freeNodup := h.freeNodup
  free v := by rw [elapse_status, elapse_isFree]; exact h.free v
  startNodup := h.startNodup
  start p v := by rw [elapse_status, elapse_onPart]; exact h.start p v
  releaseNodup := h.releaseNodup
  release v := by rw [elapse_status, elapse_isReleasing]; exact h.release v

theorem elapse_soloLaw {s : State} (h : SoloLaw s) : SoloLaw (elapse s) := by
  intro p g hg
  obtain ⟨ne, on, alike⟩ := h p g hg
  refine ⟨ne, fun v hv => ?_, fun v w hv hw => ?_⟩
  · rw [elapse_status, elapse_onPart]
    exact on v hv
  · simp only [elapse_status, elapse_note?, elapse_voice]
    exact alike v w hv hw

theorem elapse_gapLaw {s : State} (h : GapLaw s) : GapLaw (elapse s) := by
  intro v hv
  rw [elapse_status, elapse_isHeld, elapse_isSustained]
  refine h v ?_
  have e : look (elapse s).cvo.gaps v = (look s.cvo.gaps v).map Countdown.elapse := look_tabulate _ v
  rwa [e, Option.isSome_map] at hv

theorem elapse_allocatorRanges {s : State} (h : AllocatorRanges s) : AllocatorRanges (elapse s) := by
  obtain ⟨voices, parts, seed⟩ := h
  refine ⟨fun v => ?_, parts, seed⟩
  rw [elapse_voice]
  exact ⟨elapse_inRange (voices v).1, (voices v).2⟩

/-! ## What every step keeps of voices and parts -/

/-- The laws of voices and parts are carried from one state to another. -/
structure NotesKept (s t : State) : Prop where
  lists : VoiceLaw s ∧ SoloLaw s → VoiceLaw t ∧ SoloLaw t
  keys : HeldKeysLaw s → HeldKeysLaw t
  gaps : GapLaw s → GapLaw t
  ranges : AllocatorRanges s ∧ BufferLaw s ∧ HeldKeysLaw s → AllocatorRanges t ∧ BufferLaw t ∧ HeldKeysLaw t

theorem NotesKept.of_moves {s t : State} (m : Moves .lending s t) : NotesKept s t where
  lists := by
    rw [voiceLaw_and_soloLaw_iff, voiceLaw_and_soloLaw_iff]
    exact m.lawful
  keys := m.heldKeysLaw
  gaps := m.gapLaw
  ranges := by
    rw [← ranged_iff, ← ranged_iff]
    exact m.ranged

theorem NotesKept.trans {s t u : State} (a : NotesKept s t) (b : NotesKept t u) : NotesKept s u :=
  ⟨b.lists ∘ a.lists, b.keys ∘ a.keys, b.gaps ∘ a.gaps, b.ranges ∘ a.ranges⟩

theorem enterReset_notes (kind : Running) (frozen : Bool) (s : State) :
    NotesKept s (enterReset kind frozen s) where
  lists _ := ⟨voiceLaw_of_reset rfl, soloLaw_of_reset rfl⟩
  keys _ := heldKeysLaw_of_reset rfl
  gaps _ := gapLaw_of_reset rfl
  ranges _ := ⟨allocatorRanges_of_reset rfl, bufferLaw_of_reset rfl, heldKeysLaw_of_reset rfl⟩

theorem loadSystem_only (s : State) : EngineOnly s (loadSystem s) := by
  unfold loadSystem
  split <;> exact .of_blocks rfl rfl rfl

theorem leaveReset_moves (s : State) : Moves .lending s (leaveReset s) := by
  have run : EngineOnly s { s with run := .running } := .of_blocks rfl rfl rfl
  exact ((run.trans (loadSystem_only _)).moves.trans (recomputeAll_quiet _).moves).trans
    (startSweep_engineOnly _).moves

theorem tuneHalt_moves (s : State) : Moves .lending s (tuneHalt s).1 := (setTne_only s _).moves

theorem notesKept_follows : Follows NotesKept where
  quiet h q := h.trans (.of_moves q.moves)
  sounding h := .of_moves h.lift
  freed _ h := .of_moves h.moves
  noteStart _ _ _ _ _ := .of_moves (noteStart_moves ..)
  serviceOff _ _ _ _ := .of_moves (serviceOff_moves ..)
  serviceOn _ _ _ := .of_moves (serviceOn_moves ..)
  minute _ _ := .of_moves (minuteEvent_moves _)
  tuneAdd _ _ _ _ _ := .of_moves (tuneAdd_moves ..)
  tuneRun _ _ _ := .of_moves (tuneRun_moves ..)
  tuneHalt _ _ := .of_moves (tuneHalt_moves _)
  tuneStep _ _ := .of_moves (tuneStep_moves _)
  tuneCancel _ _ := .of_moves (tuneCancel_moves _)
  settling _ _ := .of_moves (settlingExpiry_moves _)
  firstEdge _ _ _ := .of_moves (firstProbeEdge_moves ..)
  gateClose _ _ _ _ := .of_moves (gateClose_moves ..)
  window _ _ := .of_moves (gateWindowExpiry_moves _)
  sweep _ _ := .of_moves (sweepTimerExpiry_only _).moves
  sample _ _ _ _ := .of_moves (scanSample_moves ..)
  reset kind frozen s _ := enterReset_notes kind frozen s
  exit _ _ := .of_moves (leaveReset_moves _)

/-- A new queue leaves every law of voices and parts. -/
theorem pending_notes (s : State) (l : List Instr) : NotesKept s { s with pending := l } :=
  .of_moves (setPending_quiet s l).moves

/-- Settles O52: each law of the lists and groups is kept by every move, and each command is moves. -/
theorem stepsKeepVoiceListsAndSoloGroups : Obligations.StepsKeepVoiceListsAndSoloGroups :=
  notesKept_follows.kept NotesKept.lists fun _ =>
    tick_keeps (law := fun s => VoiceLaw s ∧ SoloLaw s)
      (fun _ h => ⟨elapse_voiceLaw h.1, elapse_soloLaw h.2⟩) (fun s l => (pending_notes s l).lists)

/-- Settles O53: held keys, gaps and ranges are kept by every move, and each command is moves. -/
theorem stepsKeepHeldKeysGapsAndRanges : Obligations.StepsKeepHeldKeysGapsAndRanges :=
  ⟨notesKept_follows.kept NotesKept.keys fun _ =>
      tick_keeps (law := HeldKeysLaw) (fun _ h => h) fun s l => (pending_notes s l).keys,
    notesKept_follows.kept NotesKept.gaps fun _ =>
      tick_keeps (law := GapLaw) (fun _ => elapse_gapLaw) fun s l => (pending_notes s l).gaps,
    notesKept_follows.kept NotesKept.ranges fun _ =>
      tick_keeps (law := fun s => AllocatorRanges s ∧ BufferLaw s ∧ HeldKeysLaw s)
        (fun _ h => ⟨elapse_allocatorRanges h.1, h.2⟩) fun s l => (pending_notes s l).ranges⟩

end Sys2Proof.Machine
end

