-- ==== Sys2Proof/Proofs/EngineLaws.lean ====
section
/-! What the laws of the plan, the engine and the bus read, and what carries them. -/

namespace Sys2Proof.Machine

/-! ## The law of the plan, but for the activity -/

/-- The law of the plan but for the activity; a voice of `out` may be TUNING with no entry. -/
structure Planned (out : VoiceNo → Prop) (s : State) : Prop where
  nodup : s.tne.plan.Pairwise fun x y => ¬(x.voice = y.voice ∧ x.src = y.src)
  length : s.tne.plan.length ≤ 48
  tuning : ∀ v, (s.status v).isTuning = true → voiceInPlan s v = true ∨ out v
  oneBg : ∀ v w, (s.status v).isBgTuning = true → (s.status w).isBgTuning = true → v = w
  fg : ∀ e ∈ s.tne.plan, e.mode = .fg → (s.status e.voice).isFgTuning = true
  current : ∀ c, s.tne.current = some c →
    inPlan s c.voice c.src = true ∧ (s.status c.voice).isTuning = true
  failed : ∀ v, inSet s.tne.failed v = true → (s.status v).isTuning = true

/-- No voice is TUNING without an entry. -/
abbrev PlannedAll (s : State) : Prop := Planned (fun _ => False) s

/-- R83, R90: a measurement in flight has a current entry. -/
def Busy (s : State) : Prop := s.tne.activity ≠ .idle → s.tne.current.isSome = true

theorem planLaw_iff (s : State) : PlanLaw s ↔ PlannedAll s ∧ Busy s :=
  ⟨fun h => ⟨⟨h.nodup, h.length, fun v hv => .inl (h.tuning v hv), h.oneBg, h.fg, h.current, h.failed⟩,
      h.busy⟩,
    fun ⟨h, b⟩ => ⟨h.nodup, h.length, fun v hv => (h.tuning v hv).resolve_right id, h.oneBg, h.fg,
      h.current, b, h.failed⟩⟩

/-- The law reads the plan, the current entry, the failed-in-lending set and which voices are TUNING. -/
theorem Planned.congr {out : VoiceNo → Prop} {s t : State} (h : Planned out s)
    (plan : t.tne.plan = s.tne.plan) (current : t.tne.current = s.tne.current)
    (failed : t.tne.failed = s.tne.failed) (tuning : ∀ v, SameTuning (s.status v) (t.status v)) :
    Planned out t where
  nodup := plan ▸ h.nodup
  length := plan ▸ h.length
  tuning v hv := by
    rw [(tuning v).2.2] at hv
    unfold voiceInPlan
    rw [plan]
    exact h.tuning v hv
  oneBg v w hv hw := by
    rw [(tuning v).2.1] at hv
    rw [(tuning w).2.1] at hw
    exact h.oneBg v w hv hw
  fg e he hm := by
    rw [plan] at he
    rw [(tuning e.voice).1]
    exact h.fg e he hm
  current c hc := by
    rw [current] at hc
    rw [(tuning c.voice).2.2]
    unfold inPlan
    rw [plan]
    exact h.current c hc
  failed v hv := by
    rw [failed] at hv
    rw [(tuning v).2.2]
    exact h.failed v hv

theorem SameTuning.refl (x : VoiceStatus) : SameTuning x x := ⟨rfl, rfl, rfl⟩

theorem isFgTuning_isTuning {x : VoiceStatus} (h : x.isFgTuning = true) : x.isTuning = true := by
  rcases x with _ | _ | ⟨_ | _, _⟩ | _ <;> simp_all [VoiceStatus.isFgTuning, VoiceStatus.isTuning]

theorem isBgTuning_isTuning {x : VoiceStatus} (h : x.isBgTuning = true) : x.isTuning = true := by
  rcases x with _ | _ | ⟨_ | _, _⟩ | _ <;> simp_all [VoiceStatus.isBgTuning, VoiceStatus.isTuning]

/-- A voice leaves TUNING, and the failed-in-lending set with it; the current entry is not its own, and its
entries that are left are not FG. -/
theorem Planned.lose {s t : State} {v : VoiceNo} (h : Planned (· = v) s)
    (plan : t.tne.plan = s.tne.plan) (current : t.tne.current = s.tne.current)
    (own : (t.status v).isTuning = false) (others : ∀ w, w ≠ v → t.status w = s.status w)
    (failed : ∀ w, inSet t.tne.failed w = true → inSet s.tne.failed w = true ∧ w ≠ v)
    (notCurrent : ∀ c, s.tne.current = some c → c.voice ≠ v)
    (notFg : ∀ e ∈ s.tne.plan, e.voice = v → e.mode ≠ .fg) : PlannedAll t where
  nodup := plan ▸ h.nodup
  length := plan ▸ h.length
  tuning w hw := by
    have ne : w ≠ v := by rintro rfl; rw [own] at hw; cases hw
    rw [others w ne] at hw
    unfold voiceInPlan
    rw [plan]
    exact .inl ((h.tuning w hw).resolve_right ne)
  oneBg w x hw hx := by
    have ne : ∀ w, (t.status w).isBgTuning = true → w ≠ v := by
      rintro w hw rfl
      rw [isBgTuning_isTuning hw] at own
      cases own
    rw [others w (ne w hw)] at hw
    rw [others x (ne x hx)] at hx
    exact h.oneBg w x hw hx
  fg e he hm := by
    rw [plan] at he
    rw [others _ fun hv => notFg e he hv hm]
    exact h.fg e he hm
  current c hc := by
    rw [current] at hc
    rw [others _ (notCurrent c hc)]
    unfold inPlan
    rw [plan]
    exact h.current c hc
  failed w hw := by
    obtain ⟨hf, ne⟩ := failed w hw
    rw [others w ne]
    exact h.failed w hf

theorem Planned.weaken {out out' : VoiceNo → Prop} {s : State} (h : Planned out s) (ho : ∀ v, out v → out' v) :
    Planned out' s := { h with tuning := fun v hv => (h.tuning v hv).imp_right (ho v) }

/-! ## The plan holds at most 48 entries -/

/-- Entries with 48 pairs at most: a plan with no pair twice is no longer. -/
theorem length_le_of_pairs {l : List Entry} (h : l.Pairwise fun x y => ¬(x.voice = y.voice ∧ x.src = y.src)) :
    l.length ≤ 48 := by
  have nd : (l.map fun e => (e.voice, e.src)).Nodup := by
    unfold List.Nodup
    rw [List.pairwise_map]
    exact h.imp fun hn he => hn (Prod.mk.injEq .. ▸ he)
  have := nd.length_le_card
  simpa using this

/-! ## The law of the bus, for an activity -/

/-- The law of the bus, the engine's activity being `a`. -/
def BusFor (a : Activity) (s : State) : Prop := BusLaw (s.setActivity a)

/-- The law of the bus reads the run, the activity and the scanner's side of it. -/
theorem BusLaw.congr {s t : State} (h : BusLaw s) (run : t.run = s.run)
    (activity : t.tne.activity = s.tne.activity) (b : BusSame s t) : BusLaw t where
  reset hr := by
    rw [run] at hr
    rw [b.phase, activity, b.groups]
    exact h.reset hr
  engine := by rw [activity, b.holder]; exact h.engine
  scanner := by rw [b.phase, b.holder]; exact h.scanner
  engineWaits := by rw [b.engineWaits, activity]; exact h.engineWaits
  scannerWaits := by rw [b.scannerWaits, b.phase]; exact h.scannerWaits
  noWaitOnFree := by rw [b.holder, b.engineWaits, b.scannerWaits]; exact h.noWaitOnFree
  last := by rw [b.holder, b.lastHolder]; exact h.last
  groups := by rw [b.groups, b.phase]; exact h.groups
  pending := by rw [b.startPending, b.phase]; exact h.pending
  timer := by rw [run, b.sweepTimer, b.startPending]; exact h.timer

theorem BusFor.congr {a : Activity} {s t : State} (h : BusFor a s) (run : t.run = s.run)
    (b : BusSame s t) : BusFor a t :=
  BusLaw.congr h (t := t.setActivity a) run rfl ⟨b.1, b.2, b.3, b.4, b.5, b.6, b.7, b.8⟩

/-! ## What carries the engine's laws -/

/-- The trial code override and the gate stay lawful. -/
structure Steady (s t : State) : Prop where
  trial : TrialLaw s → TrialLaw t
  gate : GateLaw s → GateLaw t

theorem Steady.refl (s : State) : Steady s s := ⟨id, id⟩

theorem Steady.trans {s t u : State} (a : Steady s t) (b : Steady t u) : Steady s u :=
  ⟨b.trial ∘ a.trial, b.gate ∘ a.gate⟩

theorem TrialLaw.congr {s t : State} (h : TrialLaw s) (trial : t.cvo.trial = s.cvo.trial)
    (current : t.tne.current = s.tne.current) : TrialLaw t := by
  unfold TrialLaw
  rw [trial, current]
  exact h

theorem trialLaw_setCurrent (s : State) (c : Option Current) : TrialLaw (s.setCurrent c) := rfl

theorem GateLaw.congr {s t : State} (h : GateLaw s) (activity : t.tne.activity = s.tne.activity)
    (current : t.tne.current = s.tne.current) : GateLaw t := by
  unfold GateLaw
  rw [activity, current]
  exact h

/-- In GATING. -/
def Activity.isGating : Activity → Bool
  | .gating _ _ _ => true
  | _ => false

theorem gateLaw_of_notGating {s : State} (h : s.tne.activity.isGating = false) : GateLaw s := by
  intro e w x ha
  rw [ha] at h
  cases h

theorem Steady.of_same {s t : State} (activity : t.tne.activity = s.tne.activity)
    (current : t.tne.current = s.tne.current) (trial : t.cvo.trial = s.cvo.trial) : Steady s t :=
  ⟨fun h => h.congr trial current, fun h => h.congr activity current⟩

/-- Each of the engine's laws, carried from one state to another. -/
structure EngineKept (s t : State) : Prop where
  plan : PlanLaw s ∧ BusLaw s → PlanLaw t ∧ BusLaw t
  steady : Steady s t
  eager : EagerLaw s → EagerLaw t

theorem EngineKept.trans {s t u : State} (a : EngineKept s t) (b : EngineKept t u) : EngineKept s u :=
  ⟨b.plan ∘ a.plan, a.steady.trans b.steady, b.eager ∘ a.eager⟩

theorem EngineKept.refl (s : State) : EngineKept s s := ⟨id, .refl s, id⟩

section
variable {b : Bool} {s t : State}

theorem EngineStands.steady (h : EngineStands b s t) : Steady s t :=
  .of_same (by rw [h.same.tne]) (by rw [h.same.tne]) h.same.trial

theorem EngineStands.planned (h : EngineStands b s t) {out : VoiceNo → Prop} (hs : Planned out s) :
    Planned out t := by
  have tne := h.same.tne
  exact hs.congr (by rw [tne]) (by rw [tne]) (by rw [tne]) h.tuning

theorem EngineStands.plan (h : EngineStands b s t) (hs : PlanLaw s ∧ BusLaw s) : PlanLaw t ∧ BusLaw t := by
  obtain ⟨hp, hb⟩ := hs
  rw [planLaw_iff] at hp ⊢
  have tne := h.same.tne
  refine ⟨⟨h.planned hp.1, ?_⟩, hb.congr h.same.run (by rw [tne]) h.same.bus⟩
  unfold Busy
  rw [tne]
  exact hp.2

theorem EngineStands.eager (h : EngineStands false s t) (hs : EagerLaw s) : EagerLaw t := by
  intro hm ha
  have tne := h.same.tne
  rw [tne] at hm ha ⊢
  obtain ⟨hc, hn⟩ := hs hm ha
  refine ⟨hc, ?_⟩
  rw [choose_none_iff] at hn ⊢
  intro e he
  rw [tne] at he
  obtain ⟨h1, h2, h3⟩ := hn e he
  have st := h.tuning e.voice
  refine ⟨st.1.trans h1, st.2.1.trans h2, fun hb => ?_⟩
  rw [Bool.eq_false_iff]
  intro hf
  rw [h.free rfl _ hf] at h3
  cases h3 hb

/-- Moves of sounding voices leave the engine's laws. -/
theorem EngineKept.of_stands (h : EngineStands false s t) : EngineKept s t := ⟨h.plan, h.steady, h.eager⟩

end

theorem EngineKept.of_moves {s t : State} (m : Moves .sounding s t) : EngineKept s t :=
  .of_stands (m.stands (by simp))

end Sys2Proof.Machine
end

