-- ==== Sys2Proof/Proofs/BusLaws.lean ====
section
/-! The law of the bus under the bus's operations (R107 to R111). -/

namespace Sys2Proof.Machine

/-! ## Holders and waiters -/

/-- The law of the bus but for sweeps and reset: who holds and who waits, by activity and phase. -/
structure Held (s : State) : Prop where
  engine : s.tne.activity.holdsBus = true ↔ s.psc.holder = some .engine
  scanner : s.psc.phase.holdsBus = true ↔ s.psc.holder = some .scanner
  engineWaits : s.psc.engineWaits = true ↔ s.tne.activity = .busWait
  scannerWaits : s.psc.scannerWaits = true ↔ s.psc.phase = .busWait
  noWaitOnFree : s.psc.holder = none → s.psc.engineWaits = false ∧ s.psc.scannerWaits = false
  last : s.psc.holder.isSome = true → s.psc.lastHolder = s.psc.holder

theorem BusLaw.held {s : State} (h : BusLaw s) : Held s :=
  ⟨h.engine, h.scanner, h.engineWaits, h.scannerWaits, h.noWaitOnFree, h.last⟩

/-- While the part runs, the law of the bus is the law of holders and waiters, with the sweep's. -/
theorem BusLaw.of_held {s : State} (h : Held s) (run : s.run = .running)
    (groups : s.psc.groups = [] ↔ s.psc.phase = .resting)
    (pending : s.psc.startPending = true → s.psc.phase ≠ .resting)
    (timer : s.psc.sweepTimer.isSome = true ∨ s.psc.startPending = true) : BusLaw s :=
  ⟨fun hr => absurd run hr, h.engine, h.scanner, h.engineWaits, h.scannerWaits, h.noWaitOnFree, h.last,
    groups, pending, fun _ => timer⟩

/-- The engine's side of the bus changes, and the sweep's does not. -/
theorem BusLaw.of_engineSide {s t : State} (hs : BusLaw s) (h : Held t) (run : t.run = s.run)
    (running : s.run = .running) (groups : t.psc.groups = s.psc.groups)
    (phase : t.psc.phase = .resting ↔ s.psc.phase = .resting)
    (pending : t.psc.startPending = s.psc.startPending)
    (timer : t.psc.sweepTimer = s.psc.sweepTimer) : BusLaw t := by
  refine .of_held h (run.trans running) ?_ ?_ ?_
  · rw [groups, phase]; exact hs.groups
  · rw [pending, ne_eq, phase]; exact hs.pending
  · rw [pending, timer]; exact hs.timer running

/-- The engine's release, with its activity ended (R109). -/
theorem Held.releaseEngine {s : State} (h : Held s) (hold : s.psc.holder = some .engine) :
    Held ((releaseBus .engine s).setActivity .idle) := by
  obtain ⟨e, c, ew, sw, -, -⟩ := h
  have noWait : s.psc.engineWaits = false := by
    rw [Bool.eq_false_iff, ne_eq, ew]
    intro ha
    rw [ha, hold] at e
    cases e.2 rfl
  rw [hold] at c
  cases hw : s.psc.scannerWaits with
  | false =>
    rw [releaseBus_engine_unwaited hold hw]
    constructor <;> simp_all [State.setPsc, State.setActivity, Activity.holdsBus]
  | true =>
    rw [releaseBus_engine_waited hold hw]
    constructor <;> simp_all [State.setPsc, State.setActivity, Activity.holdsBus, ScanPhase.holdsBus]

/-- The engine's withdrawal, with its activity ended (R110). -/
theorem Held.withdraw {s : State} (h : Held s) (wait : s.tne.activity = .busWait) :
    Held ((withdrawEngine s).setActivity .idle) := by
  obtain ⟨e, c, ew, sw, nw, last⟩ := h
  rw [wait] at e
  constructor <;> simp_all [withdrawEngine, State.setPsc, State.setActivity, Activity.holdsBus]

/-- A measurement's request by an idle engine (R90, R108). -/
theorem Held.begin {s : State} (h : Held (s.setActivity .idle)) : Held (beginMeasurement s) := by
  obtain ⟨e, c, ew, sw, nw, last⟩ := h
  unfold beginMeasurement
  cases hh : s.psc.holder with
  | none =>
    rw [requestBus_free (by exact hh)]
    constructor <;>
      simp_all [grantBus, State.setPsc, State.setActivity, Activity.holdsBus]
  | some x =>
    rw [requestBus_held_engine (x := x) (by exact hh)]
    cases x <;> constructor <;>
      simp_all [State.setPsc, State.setActivity, Activity.holdsBus]

/-- The scanner's request, from rest (R108, R111). -/
theorem Held.requestScanner {s : State} (h : Held s) (rest : s.psc.phase = .resting) :
    Held (requestBus .scanner s) := by
  obtain ⟨e, c, ew, sw, nw, last⟩ := h
  cases hh : s.psc.holder with
  | none =>
    rw [requestBus_free hh]
    constructor <;> simp_all [grantBus, State.setPsc, ScanPhase.holdsBus]
  | some x =>
    rw [requestBus_held_scanner hh]
    cases x <;> constructor <;> simp_all [State.setPsc, ScanPhase.holdsBus]

/-- The scanner's release at the end of a group (R109, R112). -/
theorem Held.releaseScanner {s : State} (h : Held s) (hold : s.psc.holder = some .scanner)
    (groups : List (Fin 11)) :
    Held ((releaseBus .scanner s).setPsc
      { (releaseBus .scanner s).psc with groups := groups, phase := .resting }) := by
  obtain ⟨e, c, ew, sw, -, -⟩ := h
  have noWait : s.psc.scannerWaits = false := by
    rw [Bool.eq_false_iff, ne_eq, sw]
    intro hp
    rw [hp, hold] at c
    cases c.2 rfl
  rw [hold] at e
  cases hw : s.psc.engineWaits with
  | false =>
    rw [releaseBus_scanner_unwaited hold hw]
    constructor <;> simp_all [State.setPsc, ScanPhase.holdsBus]
  | true =>
    rw [releaseBus_scanner_waited hold hw]
    constructor <;>
      simp_all [grantBus, State.setPsc, State.setActivity, Activity.holdsBus, ScanPhase.holdsBus]

/-! ## The sweep (R111, R112) -/

/-- What a request leaves of the sweep, and where its phase goes. -/
theorem requestScanner_sweep (s : State) :
    (requestBus .scanner s).psc.phase ≠ .resting ∧ (requestBus .scanner s).psc.groups = s.psc.groups ∧
      (requestBus .scanner s).psc.startPending = s.psc.startPending ∧
      (requestBus .scanner s).psc.sweepTimer = s.psc.sweepTimer := by
  cases hh : s.psc.holder with
  | none => rw [requestBus_free hh]; exact ⟨by simp [grantBus, State.setPsc], rfl, rfl, rfl⟩
  | some x => rw [requestBus_held_scanner hh]; exact ⟨by simp [State.setPsc], rfl, rfl, rfl⟩

/-- The scanner's block as a start of a sweep sets it, before the first request. -/
def sweepPsc (s : State) : Psc :=
  { s.psc with
    inUse := selectedProfile s
    sweepTimer := some ((s.psc.schedule (selectedProfile s)).interval * Config.ticksPerMs)
    startPending := false, groups := sweepGroups (s.psc.schedule (selectedProfile s)).mask
    phase := .resting }

theorem startSweep_eq (s : State) : startSweep s =
    if (sweepPsc s).groups.isEmpty then s.setPsc (sweepPsc s)
    else requestBus .scanner (s.setPsc (sweepPsc s)) := rfl

/-- A start of a sweep from rest makes the bus lawful, whatever the timer and the groups left were. -/
theorem startSweep_busLaw {s : State} (h : Held s) (run : s.run = .running) (rest : s.psc.phase = .resting) :
    BusLaw (startSweep s) := by
  have held : Held (s.setPsc (sweepPsc s)) := by
    obtain ⟨e, c, ew, sw, nw, last⟩ := h
    rw [rest] at c sw
    exact ⟨e, c, ew, sw, nw, last⟩
  rw [startSweep_eq]
  split
  · rename_i none
    exact .of_held held run (iff_of_true (List.isEmpty_iff.1 none) rfl) (fun hp => nomatch hp) (.inl rfl)
  · rename_i some
    obtain ⟨phase, groups, pending, timer⟩ := requestScanner_sweep (s.setPsc (sweepPsc s))
    refine .of_held (held.requestScanner rfl) ?_ (iff_of_false ?_ phase) ?_ ?_
    · rw [(requestBus_only .scanner _).blocks.2.1]; exact run
    · rw [groups]
      exact fun hn => some (by rw [List.isEmpty_iff]; exact hn)
    · rw [pending]; exact fun hp => nomatch hp
    · rw [timer]; exact .inl rfl

theorem endGroup_busLaw {s : State} (h : BusLaw s) (run : s.run = .running)
    (scanning : s.psc.phase.holdsBus = true) : BusLaw (endGroup s) := by
  have hold := h.scanner.1 scanning
  have held := h.held.releaseScanner hold ((releaseBus .scanner s).psc.groups.drop 1)
  have run' : (releaseBus .scanner s).run = .running := by
    rw [(releaseBus_only .scanner s).blocks.2.1]; exact run
  have kept : (releaseBus .scanner s).psc.startPending = s.psc.startPending ∧
      (releaseBus .scanner s).psc.sweepTimer = s.psc.sweepTimer := by
    cases hw : s.psc.engineWaits with
    | false => rw [releaseBus_scanner_unwaited hold hw]; exact ⟨rfl, rfl⟩
    | true => rw [releaseBus_scanner_waited hold hw]; exact ⟨rfl, rfl⟩
  have timer := h.timer run
  unfold endGroup
  simp only
  split
  · rename_i none
    split
    · exact startSweep_busLaw held run' rfl
    · rename_i notPending
      refine .of_held held run' (iff_of_true (List.isEmpty_iff.1 none) rfl)
        (fun hp => absurd hp notPending) ?_
      have left := timer.resolve_right (by rw [← kept.1]; exact notPending)
      rw [← kept.2] at left
      exact .inl left
  · rename_i some
    obtain ⟨phase, groups, pending, sweepTimer⟩ := requestScanner_sweep
      ((releaseBus .scanner s).setPsc { (releaseBus .scanner s).psc with
        groups := (releaseBus .scanner s).psc.groups.drop 1, phase := .resting })
    refine .of_held (held.requestScanner rfl) ?_ (iff_of_false ?_ phase) (fun _ => phase) ?_
    · rw [(requestBus_only .scanner _).blocks.2.1]; exact run'
    · rw [groups]
      exact fun hn => some (by rw [List.isEmpty_iff]; exact hn)
    · rw [sweepTimer, pending]
      change (releaseBus .scanner s).psc.sweepTimer.isSome = true ∨
        (releaseBus .scanner s).psc.startPending = true
      rw [kept.1, kept.2]
      exact timer

theorem sweepTimerExpiry_busLaw {s : State} (h : BusLaw s) (run : s.run = .running) :
    BusLaw (sweepTimerExpiry s) := by
  obtain ⟨e, c, ew, sw, nw, last⟩ := h.held
  unfold sweepTimerExpiry
  simp only
  split
  · rename_i rest
    exact startSweep_busLaw ⟨e, c, ew, sw, nw, last⟩ run rest
  · rename_i busy
    exact .of_held ⟨e, c, ew, sw, nw, last⟩ run h.groups (fun _ => busy) (.inr rfl)

/-- The part leaves reset with a lawful bus (R111, R195). -/
theorem startSweep_busLaw_of_reset {s t : State} (h : BusLaw s) (hr : s.run ≠ .running)
    (psc : t.psc = s.psc) (activity : t.tne.activity = s.tne.activity) (run : t.run = .running) :
    BusLaw (startSweep t) := by
  obtain ⟨e, c, ew, sw, nw, last⟩ := h.held
  refine startSweep_busLaw ?_ run (by rw [psc]; exact (h.reset hr).1)
  constructor <;> rw [psc] <;> try rw [activity]
  all_goals assumption

end Sys2Proof.Machine
end

