-- ==== Sys2Proof/Proofs/PlanKept.lean ====
section
/-! The engine's functions and the laws of the plan, the bus, the trial code override and the gate. -/

namespace Sys2Proof.Machine

/-! ## Nothing but the plan and the failed-in-lending set of the engine -/

/-- Run, bus, activity, mode, current entry and trial code override are the same. -/
structure EngineRests (s t : State) : Prop where
  run : t.run = s.run
  psc : t.psc = s.psc
  activity : t.tne.activity = s.tne.activity
  mode : t.tne.mode = s.tne.mode
  current : t.tne.current = s.tne.current
  trial : t.cvo.trial = s.cvo.trial

theorem EngineRests.refl (s : State) : EngineRests s s := ⟨rfl, rfl, rfl, rfl, rfl, rfl⟩

theorem EngineRests.trans {s t u : State} (a : EngineRests s t) (b : EngineRests t u) : EngineRests s u :=
  ⟨b.run.trans a.run, b.psc.trans a.psc, b.activity.trans a.activity, b.mode.trans a.mode,
    b.current.trans a.current, b.trial.trans a.trial⟩

theorem EngineRests.steady {s t : State} (h : EngineRests s t) : Steady s t :=
  .of_same h.activity h.current h.trial

theorem EngineRests.busFor {a : Activity} {s t : State} (h : EngineRests s t) (hb : BusFor a s) :
    BusFor a t := hb.congr h.run (.of_eq h.psc)

theorem EngineRests.busLaw {s t : State} (h : EngineRests s t) (hb : BusLaw s) : BusLaw t :=
  hb.congr h.run h.activity (.of_eq h.psc)

theorem EngineRests.busy {s t : State} (h : EngineRests s t) (hb : Busy s) : Busy t := by
  unfold Busy
  rw [h.activity, h.current]
  exact hb

theorem setPlan_rests (s : State) (l : List Entry) : EngineRests s (s.setPlan l) :=
  ⟨rfl, rfl, rfl, rfl, rfl, rfl⟩

theorem setFailed_rests (s : State) (m : VoiceSet) : EngineRests s (s.setFailed m) :=
  ⟨rfl, rfl, rfl, rfl, rfl, rfl⟩

theorem mark_rests (s : State) (m : Mark) : EngineRests s (s.mark m) := ⟨rfl, rfl, rfl, rfl, rfl, rfl⟩

theorem doneIfEmpty_rests (s : State) : EngineRests s (doneIfEmpty s) := by
  unfold doneIfEmpty
  split
  · exact mark_rests s _
  · exact .refl s

theorem claimVoice_rests (v : VoiceNo) (fg : Bool) (s : State) : EngineRests s (claimVoice v fg s) := by
  unfold claimVoice
  split <;> exact ⟨rfl, rfl, rfl, rfl, rfl, rfl⟩

theorem parkVoice_rests (v : VoiceNo) (r : ParkReason) (s : State) : EngineRests s (parkVoice v r s) :=
  ⟨rfl, rfl, rfl, rfl, rfl, rfl⟩

theorem freeVoice_rests (v : VoiceNo) (s : State) : EngineRests s (freeVoice v s) :=
  ⟨rfl, rfl, rfl, rfl, rfl, rfl⟩

theorem returnVoice_rests (v : VoiceNo) (s : State) : EngineRests s (returnVoice v s) := by
  unfold returnVoice
  split
  · split
    · exact parkVoice_rests ..
    · exact freeVoice_rests ..
  · exact freeVoice_rests ..
  · exact .refl s

theorem returnIfDone_rests (v : VoiceNo) (s : State) : EngineRests s (returnIfDone v s) := by
  unfold returnIfDone
  split
  · exact .refl s
  · exact returnVoice_rests v s

theorem setRecord_rests (s : State) (n : SourceNo) (r : SourceRec) : EngineRests s (s.setRecord n r) :=
  ⟨rfl, rfl, rfl, rfl, rfl, rfl⟩

theorem commit_rests (n : SourceNo) (codes : Vector Nat 9) (s : State) : EngineRests s (commit n codes s) :=
  ⟨rfl, rfl, rfl, rfl, rfl, rfl⟩

/-! ## Voices leave TUNING -/

/-- What a state reads of the plan where nothing but blocks outside it differ. -/
theorem Planned.of_blocks {out : VoiceNo → Prop} {s t : State} (h : Planned out s) (tne : t.tne = s.tne)
    (status : ∀ v, t.status v = s.status v) : Planned out t :=
  h.congr (by rw [tne]) (by rw [tne]) (by rw [tne]) fun v => by rw [status]; exact .refl _

theorem doneIfEmpty_planned {out : VoiceNo → Prop} {s : State} (h : Planned out s) :
    Planned out (doneIfEmpty s) := by
  unfold doneIfEmpty
  split
  · exact h.of_blocks rfl fun _ => rfl
  · exact h

theorem Planned.setFailed {out : VoiceNo → Prop} {s : State} (h : Planned out s) {m : VoiceSet}
    (hm : ∀ v, inSet m v = true → (s.status v).isTuning = true) : Planned out (s.setFailed m) :=
  { h with failed := hm }

section
variable {s : State} {v : VoiceNo}

/-- A voice of the current entry, or with an FG entry, is TUNING. -/
theorem Planned.free_of_notTuning {out : VoiceNo → Prop} (h : Planned out s)
    (hv : (s.status v).isTuning = false) :
    (∀ c, s.tne.current = some c → c.voice ≠ v) ∧ ∀ e ∈ s.tne.plan, e.voice = v → e.mode ≠ .fg := by
  refine ⟨?_, ?_⟩
  · rintro c hc rfl
    rw [(h.current c hc).2] at hv
    cases hv
  · rintro e he rfl hm
    rw [isFgTuning_isTuning (h.fg e he hm)] at hv
    cases hv

theorem Planned.free_of_noEntry {out : VoiceNo → Prop} (h : Planned out s) (hv : voiceInPlan s v = false) :
    (∀ c, s.tne.current = some c → c.voice ≠ v) ∧ ∀ e ∈ s.tne.plan, e.voice = v → e.mode ≠ .fg := by
  unfold voiceInPlan at hv
  rw [List.any_eq_false] at hv
  refine ⟨?_, ?_⟩
  · rintro c hc rfl
    have hin := (h.current c hc).1
    unfold inPlan at hin
    obtain ⟨e, he, hp⟩ := List.any_eq_true.1 hin
    refine hv e he ?_
    simp only [Entry.isPair, Bool.and_eq_true] at hp
    exact hp.1
  · rintro e he rfl
    exact absurd (by simp) (hv e he)

theorem failed_drop {m : VoiceSet} (w : VoiceNo) (h : inSet (setDrop m v) w = true) :
    inSet m w = true ∧ w ≠ v := by
  rw [inSet_setDrop] at h
  simpa using h

theorem parkVoice_planned (h : Planned (· = v) s) (r : ParkReason)
    (free : (∀ c, s.tne.current = some c → c.voice ≠ v) ∧ ∀ e ∈ s.tne.plan, e.voice = v → e.mode ≠ .fg) :
    PlannedAll (parkVoice v r s) := by
  refine h.lose rfl rfl ?_ (fun w hw => ?_) (fun w => failed_drop w) free.1 free.2
  · rw [parkVoice_status, if_pos rfl]; rfl
  · rw [parkVoice_status, if_neg hw]

theorem freeVoice_planned (h : Planned (· = v) s)
    (free : (∀ c, s.tne.current = some c → c.voice ≠ v) ∧ ∀ e ∈ s.tne.plan, e.voice = v → e.mode ≠ .fg) :
    PlannedAll (freeVoice v s) := by
  refine h.lose rfl rfl ?_ (fun w hw => ?_) (fun w => failed_drop w) free.1 free.2
  · rw [freeVoice_status, if_pos rfl]; rfl
  · rw [freeVoice_status, if_neg hw]

theorem returnVoice_planned (h : Planned (· = v) s) (none : voiceInPlan s v = false) :
    PlannedAll (returnVoice v s) := by
  have free := h.free_of_noEntry none
  unfold returnVoice
  split
  · split
    · exact parkVoice_planned h _ free
    · exact freeVoice_planned h free
  · exact freeVoice_planned h free
  · rename_i h1 h2
    refine { h with tuning := fun w hw => (h.tuning w hw).imp_right ?_ }
    rintro rfl
    cases hs : s.status w with
    | tuning fg r => cases r with
      | none => exact h2 fg hs
      | some r => exact h1 fg r hs
    | _ => rw [hs] at hw; cases hw

theorem returnIfDone_planned (h : Planned (· = v) s) : PlannedAll (returnIfDone v s) := by
  unfold returnIfDone
  split
  · rename_i some
    exact { h with tuning := fun w hw => .inl ((h.tuning w hw).elim id fun e => e ▸ some) }
  · rename_i none
    exact returnVoice_planned h (by simpa using none)

end

/-! ## The end of an entry (R98 to R101) -/

/-- Entries leave the plan, none of them the current one; the voices that lose one are those of `out`. -/
theorem Planned.filter {out : VoiceNo → Prop} {s : State} (h : Planned out s) (keep : Entry → Bool)
    (noCurrent : s.tne.current = none) (ho : ∀ e, keep e = false → out e.voice) :
    Planned out (s.setPlan (s.tne.plan.filter keep)) where
  nodup := h.nodup.filter _
  length := (List.length_filter_le _ _).trans h.length
  tuning v hv := by
    rcases h.tuning v hv with hp | hp
    · by_cases hout : out v
      · exact .inr hout
      · left
        obtain ⟨e, he, hev⟩ := List.any_eq_true.1 hp
        refine List.any_eq_true.2 ⟨e, List.mem_filter.2 ⟨he, ?_⟩, hev⟩
        rw [← Bool.not_eq_false]
        intro hk
        rw [beq_iff_eq] at hev
        exact hout (hev ▸ ho e hk)
    · exact .inr hp
  oneBg := h.oneBg
  fg e he := h.fg e (List.mem_filter.1 he).1
  current c hc := by
    change s.tne.current = some c at hc
    rw [noCurrent] at hc
    cases hc
  failed := h.failed

theorem Planned.setCurrent_none {out : VoiceNo → Prop} {s : State} (h : Planned out s) :
    Planned out (s.setCurrent none) := { h with current := fun _ hc => nomatch hc }

/-- The entry has left the plan: its voice may have none left. -/
theorem dropEntry_planned {c : Current} {s : State} (h : PlannedAll s) :
    Planned (· = c.voice) (dropEntry c s) := by
  have h' := (h.weaken (out' := (· = c.voice)) (fun _ => False.elim)).setCurrent_none.filter
    (fun e => !e.isPair c.voice c.src) rfl (fun e he => by
      simp only [Entry.isPair, Bool.not_eq_false', Bool.and_eq_true, beq_iff_eq] at he
      exact he.1)
  exact h'.of_blocks rfl fun _ => rfl

theorem entrySucceeds_planned {c : Current} {s : State} (codes : Vector Nat 9) (h : PlannedAll s) :
    PlannedAll (entrySucceeds c codes s) := by
  refine doneIfEmpty_planned (returnIfDone_planned ?_)
  refine (dropEntry_planned (c := c) h).of_blocks rfl fun v => ?_
  exact recompute_status ..

theorem entryFails_planned {c : Current} {s : State} (r : FailReason) (h : PlannedAll s)
    (tuning : (s.status c.voice).isTuning = true) : PlannedAll (entryFails c r s) := by
  have failed : Planned (· = c.voice)
      (((reportFailure c.source r (dropEntry c s)).mark (.tuneFailed c.source)).setFailed
        (setAdd s.tne.failed c.voice)) := by
    have reported : Planned (· = c.voice)
        ((reportFailure c.source r (dropEntry c s)).mark (.tuneFailed c.source)) :=
      (dropEntry_planned h).of_blocks rfl fun _ => rfl
    refine reported.setFailed fun v hv => ?_
    rw [inSet_setAdd, Bool.or_eq_true, beq_iff_eq] at hv
    rcases hv with hv | rfl
    · exact h.failed v hv
    · exact tuning
  unfold entryFails
  simp only
  split
  · refine doneIfEmpty_planned ?_
    have cut := failed.filter (fun e => e.voice != c.voice) rfl fun e he => by simpa using he
    refine (parkVoice_planned cut .noSignal ⟨fun _ hc => (nomatch hc), fun e he hv => ?_⟩).of_blocks rfl
      fun _ => rfl
    have := (List.mem_filter.1 he).2
    simp [hv] at this
  · exact doneIfEmpty_planned (returnIfDone_planned failed)

/-! ## The search moves the current entry on (R95 to R97) -/

/-- The current entry goes on with the same pair. -/
theorem Planned.setCurrent {out : VoiceNo → Prop} {s : State} (h : Planned out s) {c c' : Current}
    (hc : s.tne.current = some c) (hv : c'.voice = c.voice) (hi : c'.src = c.src) :
    Planned out (s.setCurrent (some c')) := by
  refine { h with current := fun x hx => ?_ }
  obtain rfl : c' = x := Option.some.inj hx
  rw [hv, hi]
  exact h.current c hc

theorem setLastM_planned {s : State} (h : PlannedAll s) (m : Option Nat) : PlannedAll (s.setLastM m) :=
  h.congr rfl rfl rfl fun _ => .refl _

theorem applyCount_planned {s : State} (h : PlannedAll s) (m : Nat) : PlannedAll (applyCount m s) := by
  have h := setLastM_planned h (some m)
  unfold applyCount
  simp only
  split
  · rename_i c hc
    have tuning := (h.current c hc).2
    split
    · unfold convergeAt
      split
      · simp only
        split
        · exact h.setCurrent hc rfl rfl
        · exact entrySucceeds_planned _ h
      · exact entryFails_planned _ h tuning
    · unfold correctTrial
      simp only
      split
      · exact entryFails_planned _ h tuning
      · split
        · exact entryFails_planned _ (h.setCurrent hc rfl rfl) tuning
        · exact h.setCurrent hc rfl rfl
  · exact h

theorem applyNoSignal_planned {s : State} (h : PlannedAll s) : PlannedAll (applyNoSignal s) := by
  have h := setLastM_planned h none
  unfold applyNoSignal
  simp only
  split
  · rename_i c hc
    exact entryFails_planned _ h (h.current c hc).2
  · exact h

end Sys2Proof.Machine
end

