-- ==== Sys2Proof/Proofs/WorkKept.lean ====
section
/-! Choosing work, ending a measurement and losing a voice keep the laws of the plan, the bus, the trial
code override and the gate. -/

namespace Sys2Proof.Machine

/-! ## The end of an entry and the bus -/

/-- Run, bus, activity and mode are the same, and the trial code override is lawful where it was. -/
structure BusRests (s t : State) : Prop where
  run : t.run = s.run
  psc : t.psc = s.psc
  activity : t.tne.activity = s.tne.activity
  mode : t.tne.mode = s.tne.mode
  trial : TrialLaw s → TrialLaw t

theorem EngineRests.bus {s t : State} (h : EngineRests s t) : BusRests s t :=
  ⟨h.run, h.psc, h.activity, h.mode, fun ht => ht.congr h.trial h.current⟩

theorem BusRests.refl (s : State) : BusRests s s := ⟨rfl, rfl, rfl, rfl, id⟩

theorem BusRests.trans {s t u : State} (a : BusRests s t) (b : BusRests t u) : BusRests s u :=
  ⟨b.run.trans a.run, b.psc.trans a.psc, b.activity.trans a.activity, b.mode.trans a.mode,
    b.trial ∘ a.trial⟩

theorem setCurrent_bus (s : State) (c : Option Current) : BusRests s (s.setCurrent c) :=
  ⟨rfl, rfl, rfl, rfl, fun _ => trialLaw_setCurrent s c⟩

theorem setLastM_bus (s : State) (m : Option Nat) : BusRests s (s.setLastM m) :=
  ⟨rfl, rfl, rfl, rfl, id⟩

theorem dropEntry_bus (c : Current) (s : State) : BusRests s (dropEntry c s) :=
  (setPlan_rests s _).bus.trans (setCurrent_bus _ none)

theorem entrySucceeds_bus (c : Current) (codes : Vector Nat 9) (s : State) :
    BusRests s (entrySucceeds c codes s) :=
  (dropEntry_bus c s).trans
    (((commit_rests ..).trans (returnIfDone_rests ..)).trans (doneIfEmpty_rests _)).bus

theorem entryFails_bus (c : Current) (r : FailReason) (s : State) : BusRests s (entryFails c r s) := by
  have failed : BusRests s (((reportFailure c.source r (dropEntry c s)).mark (.tuneFailed c.source)).setFailed
      (setAdd s.tne.failed c.voice)) :=
    (dropEntry_bus c s).trans
      (((setRecord_rests ..).trans (mark_rests ..)).trans (setFailed_rests ..)).bus
  unfold entryFails
  simp only
  split
  · exact failed.trans ((((setPlan_rests ..).trans (parkVoice_rests ..)).trans (mark_rests ..)).trans
      (doneIfEmpty_rests _)).bus
  · exact failed.trans ((returnIfDone_rests ..).trans (doneIfEmpty_rests _)).bus

theorem applyCount_bus (m : Nat) (s : State) : BusRests s (applyCount m s) := by
  have last := setLastM_bus s (some m)
  unfold applyCount
  simp only
  split
  · split
    · unfold convergeAt
      split
      · simp only
        split
        · exact last.trans (setCurrent_bus ..)
        · exact last.trans (entrySucceeds_bus ..)
      · exact last.trans (entryFails_bus ..)
    · unfold correctTrial
      simp only
      split
      · exact last.trans (entryFails_bus ..)
      · split
        · exact (last.trans (setCurrent_bus ..)).trans (entryFails_bus ..)
        · exact last.trans (setCurrent_bus ..)
  · exact last

theorem applyNoSignal_bus (s : State) : BusRests s (applyNoSignal s) := by
  have last := setLastM_bus s none
  unfold applyNoSignal
  simp only
  split
  · exact last.trans (entryFails_bus ..)
  · exact last

/-! ## A measurement begins (R84, R85, R90) -/

theorem beginMeasurement_notIdle (s : State) : (beginMeasurement s).tne.activity ≠ .idle ∧
    (beginMeasurement s).tne.activity.isGating = false := by
  unfold beginMeasurement
  cases hh : s.psc.holder with
  | none =>
    rw [requestBus_free (by exact hh)]
    exact ⟨by simp [grantBus, State.setPsc, State.setActivity], rfl⟩
  | some x =>
    rw [requestBus_held_engine (x := x) (by exact hh)]
    exact ⟨by simp [State.setPsc, State.setActivity], rfl⟩

/-- A request of the engine leaves the sweep. -/
theorem beginMeasurement_sweep (s : State) : (beginMeasurement s).psc.phase = s.psc.phase ∧
    (beginMeasurement s).psc.groups = s.psc.groups ∧
    (beginMeasurement s).psc.startPending = s.psc.startPending ∧
    (beginMeasurement s).psc.sweepTimer = s.psc.sweepTimer := by
  unfold beginMeasurement
  cases hh : s.psc.holder with
  | none => rw [requestBus_free (by exact hh)]; exact ⟨rfl, rfl, rfl, rfl⟩
  | some x => rw [requestBus_held_engine (x := x) (by exact hh)]; exact ⟨rfl, rfl, rfl, rfl⟩

theorem beginMeasurement_busLaw {s : State} (h : BusFor .idle s) (run : s.run = .running) :
    BusLaw (beginMeasurement s) := by
  obtain ⟨phase, groups, pending, timer⟩ := beginMeasurement_sweep s
  exact BusLaw.of_engineSide h (BusLaw.held h).begin (beginMeasurement_only s).blocks.2.1 run groups
    (by rw [phase]; rfl) pending timer

theorem beginMeasurement_planned {s : State} (h : PlannedAll s) : PlannedAll (beginMeasurement s) := by
  obtain ⟨plan, -, current, -, failed⟩ := (beginMeasurement_only s).engine
  obtain ⟨-, -, -, val, -⟩ := (beginMeasurement_only s).blocks
  refine h.congr plan current failed fun v => ?_
  unfold State.status State.voice
  rw [val]
  exact .refl _

theorem beginMeasurement_trial {s : State} (h : TrialLaw s) : TrialLaw (beginMeasurement s) := by
  obtain ⟨-, -, current, -, -⟩ := (beginMeasurement_only s).engine
  obtain ⟨-, -, -, -, -, -, -, -, cvo, -⟩ := (beginMeasurement_only s).blocks
  exact h.congr (by rw [cvo]) current

/-- The voice of the entry chosen is claimed where it is FREE, which makes it the one background-tuning
voice (R84). -/
theorem claimChosen_planned {s : State} {e : Entry} (h : PlannedAll s) (he : choose s = some e)
    (hf : (s.status e.voice).isFree = true) : PlannedAll (claimVoice e.voice false s) := by
  obtain ⟨hin, -⟩ := choose_spec he
  have noBg : ∀ v, (s.status v).isBgTuning = false := by
    intro v
    rw [Bool.eq_false_iff]
    intro hv
    obtain ⟨x, hx, hxv⟩ := List.any_eq_true.1 ((h.tuning v (isBgTuning_isTuning hv)).resolve_right id)
    rw [beq_iff_eq] at hxv
    unfold choose at he
    have notFree : ∀ y : VoiceStatus, y.isFree = true → y.isFgTuning = false ∧ y.isBgTuning = false := by
      intro y hy
      cases y <;> simp_all [VoiceStatus.isFree, VoiceStatus.isFgTuning, VoiceStatus.isBgTuning]
    obtain ⟨nf, nb⟩ := notFree _ hf
    split at he
    · rename_i y hy
      cases he
      have := List.find?_some hy
      rw [nf] at this
      cases this
    · split at he
      · rename_i y hy
        cases he
        have := List.find?_some hy
        rw [nb] at this
        cases this
      · rename_i hn
        rw [List.find?_eq_none] at hn
        exact hn x hx (hxv ▸ hv)
  have own : (s.status e.voice).isTuning = false := by
    cases hs : s.status e.voice <;> simp_all [VoiceStatus.isFree, VoiceStatus.isTuning]
  obtain ⟨notCurrent, notFg⟩ := h.free_of_notTuning own
  have tne := claimVoice_tne own false
  have status := fun w => claimVoice_status e.voice w false s
  have others : ∀ w, w ≠ e.voice → (claimVoice e.voice false s).status w = s.status w := fun w hw => by
    rw [status, if_neg hw]
  have claimed : ∀ w, ((claimVoice e.voice false s).status w).isBgTuning = true → w = e.voice := by
    intro w hw
    by_contra hne
    rw [others w hne, noBg w] at hw
    cases hw
  refine ⟨by rw [tne]; exact h.nodup, by rw [tne]; exact h.length, fun w hw => ?_, fun v w hv hw => ?_,
    fun x hx hm => ?_, fun c hc => ?_, fun w hw => ?_⟩
  · left
    unfold voiceInPlan
    rw [tne]
    by_cases hwv : w = e.voice
    · exact List.any_eq_true.2 ⟨e, hin, by rw [hwv]; exact beq_self_eq_true _⟩
    · rw [others w hwv] at hw
      exact (h.tuning w hw).resolve_right id
  · exact (claimed v hv).trans (claimed w hw).symm
  · rw [tne] at hx
    rw [others _ fun hv => notFg x hx hv hm]
    exact h.fg x hx hm
  · rw [tne] at hc
    rw [others _ (notCurrent c hc)]
    unfold inPlan
    rw [tne]
    exact h.current c hc
  · rw [tne] at hw
    have hwv : w ≠ e.voice := by
      rintro rfl
      rw [h.failed _ hw] at own
      cases own
    rw [others w hwv]
    exact h.failed w hw

/-- The state in which the chosen entry becomes current: its voice is lent where it was FREE. -/
def lentFor (e : Entry) (s : State) : State :=
  if (s.status e.voice).isFree then claimVoice e.voice false s else s

theorem startNext_chosen {s : State} {e : Entry} (hc : s.tne.current = none) (he : choose s = some e) :
    startNext s = beginMeasurement (makeCurrent e (lentFor e s)) := by
  unfold startNext
  rw [hc]
  simp only [he]
  rfl

theorem startNext_current {s : State} {c : Current} (hc : s.tne.current = some c) :
    startNext s = beginMeasurement s := by
  unfold startNext
  rw [hc]

theorem startNext_none {s : State} (hc : s.tne.current = none) (he : choose s = none) :
    startNext s = s.setActivity .idle := by
  unfold startNext
  rw [hc]
  simp only [he]

theorem lentFor_rests (e : Entry) (s : State) : EngineRests s (lentFor e s) := by
  unfold lentFor
  split
  · exact claimVoice_rests ..
  · exact .refl s

theorem lentFor_planned {s : State} {e : Entry} (h : PlannedAll s) (he : choose s = some e) :
    PlannedAll (makeCurrent e (lentFor e s)) := by
  obtain ⟨hin, hm⟩ := choose_spec he
  have lent : PlannedAll (lentFor e s) ∧ ((lentFor e s).status e.voice).isTuning = true ∧
      (lentFor e s).tne.plan = s.tne.plan := by
    unfold lentFor
    split
    · rename_i hf
      have own : (s.status e.voice).isTuning = false := by
        cases hs : s.status e.voice <;> simp_all [VoiceStatus.isFree, VoiceStatus.isTuning]
      refine ⟨claimChosen_planned h he hf, ?_, by rw [claimVoice_tne own]⟩
      rw [claimVoice_status, if_pos rfl]
      rfl
    · rename_i hf
      refine ⟨h, ?_, rfl⟩
      rcases hm with hm | hm | hm
      · exact isFgTuning_isTuning hm
      · exact isBgTuning_isTuning hm
      · exact absurd hm.2 hf
  obtain ⟨planned, tuning, plan⟩ := lent
  refine { planned with current := fun c hc => ?_ }
  cases hc
  refine ⟨?_, tuning⟩
  change (lentFor e s).tne.plan.any _ = true
  rw [plan]
  exact List.any_eq_true.2 ⟨e, hin, by simp [Entry.isPair]⟩

theorem startNext_laws {s : State} (h : PlannedAll s) (hb : BusFor .idle s) (run : s.run = .running) :
    PlanLaw (startNext s) ∧ BusLaw (startNext s) := by
  have begun : ∀ {t : State}, PlannedAll t → BusFor .idle t → t.run = .running →
      t.tne.current.isSome = true → PlanLaw (beginMeasurement t) ∧ BusLaw (beginMeasurement t) := by
    intro t ht hbt hr hc
    refine ⟨(planLaw_iff _).2 ⟨beginMeasurement_planned ht, fun _ => ?_⟩, beginMeasurement_busLaw hbt hr⟩
    rw [(beginMeasurement_only t).engine.2.2.1]
    exact hc
  cases hc : s.tne.current with
  | some c =>
    rw [startNext_current hc]
    exact begun h hb run (by rw [hc]; rfl)
  | none =>
    cases he : choose s with
    | some e =>
      rw [startNext_chosen hc he]
      have r := lentFor_rests e s
      have hbl := r.busFor hb
      exact begun (lentFor_planned h he) (hbl.congr rfl (.of_eq rfl)) (r.run.trans run) rfl
    | none =>
      rw [startNext_none hc he]
      exact ⟨(planLaw_iff _).2 ⟨h.congr rfl rfl rfl fun _ => .refl _, fun hn => absurd rfl hn⟩, hb⟩

theorem startNext_trial {s : State} (h : TrialLaw s) : TrialLaw (startNext s) := by
  cases hc : s.tne.current with
  | some c => rw [startNext_current hc]; exact beginMeasurement_trial h
  | none =>
    cases he : choose s with
    | some e => rw [startNext_chosen hc he]; exact beginMeasurement_trial (trialLaw_setCurrent _ _)
    | none => rw [startNext_none hc he]; exact h.congr rfl rfl

/-- After a choice of work, nothing runnable is left idle, and no gate is open. -/
theorem startNext_eager (s : State) :
    EagerLaw (startNext s) ∧ (startNext s).tne.activity.isGating = false := by
  have begun : ∀ t : State, EagerLaw (beginMeasurement t) ∧
      (beginMeasurement t).tne.activity.isGating = false := fun t =>
    ⟨fun _ hi => absurd hi (beginMeasurement_notIdle t).1, (beginMeasurement_notIdle t).2⟩
  cases hc : s.tne.current with
  | some c => rw [startNext_current hc]; exact begun s
  | none =>
    cases he : choose s with
    | some e => rw [startNext_chosen hc he]; exact begun _
    | none => rw [startNext_none hc he]; exact ⟨fun _ _ => ⟨hc, he⟩, rfl⟩

theorem kick_laws {s : State} (h : PlanLaw s ∧ BusLaw s) (run : s.run = .running) :
    PlanLaw (kick s) ∧ BusLaw (kick s) := by
  unfold kick
  split
  · rename_i hk
    refine startNext_laws ((planLaw_iff s).1 h.1).1 ?_ run
    rw [← hk.2]
    exact h.2
  · exact h

theorem kick_steady (s : State) : Steady s (kick s) := by
  unfold kick
  split
  · exact ⟨startNext_trial, fun _ => gateLaw_of_notGating (startNext_eager s).2⟩
  · exact .refl s

theorem kick_eager (s : State) : EagerLaw (kick s) := by
  unfold kick
  split
  · exact (startNext_eager s).1
  · rename_i hk
    exact fun hm hi => absurd ⟨hm, hi⟩ hk

/-- A change followed by the choice of work keeps the engine's laws. -/
theorem EngineKept.kick {s t : State} (plan : PlanLaw s ∧ BusLaw s → PlanLaw t ∧ BusLaw t)
    (steady : Steady s t) (run : t.run = .running) : EngineKept s (kick t) :=
  ⟨fun h => kick_laws (plan h) run, steady.trans (kick_steady t), fun _ => kick_eager t⟩

/-! ## A measurement ends (R94) -/

theorem afterMeasurement_laws {s : State} (h : PlannedAll s) (hb : BusFor .idle s)
    (run : s.run = .running) : PlanLaw (afterMeasurement s) ∧ BusLaw (afterMeasurement s) := by
  have idle : ∀ t : State, t.tne.plan = s.tne.plan → t.tne.current = s.tne.current →
      t.tne.failed = s.tne.failed → t.val = s.val → t.tne.activity = .idle → BusLaw t →
      PlanLaw t ∧ BusLaw t := by
    intro t h1 h2 h3 h4 h5 h6
    refine ⟨(planLaw_iff t).2 ⟨h.congr h1 h2 h3 fun v => ?_, fun hn => absurd h5 hn⟩, h6⟩
    unfold State.status State.voice
    rw [h4]
    exact .refl _
  unfold afterMeasurement
  split
  · exact startNext_laws h hb run
  · exact idle _ rfl rfl rfl rfl rfl (hb.congr rfl (.of_eq rfl))
  · exact idle _ rfl rfl rfl rfl rfl hb

theorem afterMeasurement_trial {s : State} (h : TrialLaw s) : TrialLaw (afterMeasurement s) := by
  unfold afterMeasurement
  split
  · exact startNext_trial h
  · exact h.congr rfl rfl
  · exact h.congr rfl rfl

theorem afterMeasurement_eager (s : State) :
    EagerLaw (afterMeasurement s) ∧ (afterMeasurement s).tne.activity.isGating = false := by
  unfold afterMeasurement
  split
  · exact startNext_eager s
  · exact ⟨fun hm => absurd rfl hm, rfl⟩
  · rename_i halt
    exact ⟨fun hm => absurd halt hm, rfl⟩

theorem releaseBus_planned {out : VoiceNo → Prop} {s : State} (h : Planned out s) (r : Requester) :
    Planned out (releaseBus r s) := by
  obtain ⟨plan, -, current, -, failed⟩ := (releaseBus_only r s).engine
  obtain ⟨-, -, -, val, -⟩ := (releaseBus_only r s).blocks
  refine h.congr plan current failed fun v => ?_
  unfold State.status State.voice
  rw [val]
  exact .refl _

theorem releaseBus_trial {s : State} (h : TrialLaw s) (r : Requester) : TrialLaw (releaseBus r s) := by
  obtain ⟨-, -, current, -, -⟩ := (releaseBus_only r s).engine
  obtain ⟨-, -, -, -, -, -, -, -, cvo, -⟩ := (releaseBus_only r s).blocks
  exact h.congr (by rw [cvo]) current

/-- The engine holds the bus only while the part runs. -/
theorem BusLaw.running {s : State} (h : BusLaw s) (hold : s.tne.activity ≠ .idle) : s.run = .running := by
  by_contra hr
  exact hold (h.reset hr).2.1

theorem holdsBus_notIdle {a : Activity} (h : a.holdsBus = true) : a ≠ .idle := by
  rintro rfl
  cases h

/-- The engine's release, with the activity ended, leaves the bus lawful (R109). -/
theorem releaseEngine_busFor {s : State} (h : BusLaw s) (hold : s.tne.activity.holdsBus = true) :
    BusFor .idle (releaseBus .engine s) := by
  have holder := h.engine.1 hold
  have run := h.running (holdsBus_notIdle hold)
  have kept : (releaseBus .engine s).psc.groups = s.psc.groups ∧
      ((releaseBus .engine s).psc.phase = .resting ↔ s.psc.phase = .resting) ∧
      (releaseBus .engine s).psc.startPending = s.psc.startPending ∧
      (releaseBus .engine s).psc.sweepTimer = s.psc.sweepTimer := by
    cases hw : s.psc.scannerWaits with
    | false => rw [releaseBus_engine_unwaited holder hw]; exact ⟨rfl, .rfl, rfl, rfl⟩
    | true =>
      rw [releaseBus_engine_waited holder hw]
      refine ⟨rfl, iff_of_false (by simp [State.setPsc]) ?_, rfl, rfl⟩
      rw [h.scannerWaits.1 hw]
      simp
  obtain ⟨groups, phase, pending, timer⟩ := kept
  exact h.of_engineSide (h.held.releaseEngine holder) (releaseBus_only .engine s).blocks.2.1 run groups
    phase pending timer

theorem endMeasurement_kept {s : State} (hold : s.tne.activity.holdsBus = true) (count : Option Nat) :
    EngineKept s (endMeasurement count s) := by
  have applied : ∃ t, BusRests (releaseBus .engine s) t ∧ (PlannedAll (releaseBus .engine s) → PlannedAll t) ∧
      endMeasurement count s = afterMeasurement t := by
    cases count with
    | none => exact ⟨_, applyNoSignal_bus _, applyNoSignal_planned, rfl⟩
    | some m => exact ⟨_, applyCount_bus .., fun h => applyCount_planned h _, rfl⟩
  obtain ⟨t, bus, planned, he⟩ := applied
  rw [he]
  refine ⟨fun ⟨hp, hb⟩ => ?_, ⟨fun ht => ?_, fun _ => ?_⟩, fun _ => (afterMeasurement_eager t).1⟩
  · refine afterMeasurement_laws (planned (releaseBus_planned ((planLaw_iff s).1 hp).1 _))
      ((releaseEngine_busFor hb hold).congr bus.run (.of_eq bus.psc)) ?_
    rw [bus.run, (releaseBus_only .engine s).blocks.2.1]
    exact hb.running (holdsBus_notIdle hold)
  · exact afterMeasurement_trial (bus.trial (releaseBus_trial ht _))
  · exact gateLaw_of_notGating (afterMeasurement_eager t).2

end Sys2Proof.Machine
end

