-- ==== Sys2Proof/Proofs/LossKept.lean ====
section
/-! Each command that reaches the engine keeps the engine's laws, and so does every step. -/

namespace Sys2Proof.Machine

/-! ## The engine loses a voice (R102, R103) -/

theorem stopMeasurement_tne (s : State) : (stopMeasurement s).tne.plan = s.tne.plan ∧
    (stopMeasurement s).tne.current = s.tne.current ∧ (stopMeasurement s).tne.failed = s.tne.failed ∧
    (stopMeasurement s).cvo = s.cvo ∧ (stopMeasurement s).run = s.run := by
  have used : ∀ t : State, (stopMeasurement.stepUsed t).tne.plan = t.tne.plan ∧
      (stopMeasurement.stepUsed t).tne.current = t.tne.current ∧
      (stopMeasurement.stepUsed t).tne.failed = t.tne.failed ∧
      (stopMeasurement.stepUsed t).cvo = t.cvo ∧ (stopMeasurement.stepUsed t).run = t.run := by
    intro t
    unfold stopMeasurement.stepUsed
    split <;> exact ⟨rfl, rfl, rfl, rfl, rfl⟩
  unfold stopMeasurement
  split
  · exact ⟨rfl, rfl, rfl, rfl, rfl⟩
  · exact used _
  · obtain ⟨plan, -, current, -, failed⟩ := (releaseBus_only .engine s).engine
    obtain ⟨-, run, -, -, -, -, -, -, cvo, -⟩ := (releaseBus_only .engine s).blocks
    obtain ⟨h1, h2, h3, h4, h5⟩ := used ((releaseBus .engine s).setActivity .idle)
    exact ⟨h1.trans plan, h2.trans current, h3.trans failed, h4.trans cvo, h5.trans run⟩

theorem stepUsed_busLaw {s : State} (h : BusLaw s) : BusLaw (stopMeasurement.stepUsed s) := by
  unfold stopMeasurement.stepUsed
  split
  · exact h.congr rfl rfl (.of_eq rfl)
  · exact h

theorem withdrawEngine_busFor {s : State} (h : BusLaw s) (wait : s.tne.activity = .busWait) :
    BusFor .idle (withdrawEngine s) :=
  h.of_engineSide (h.held.withdraw wait) rfl (h.running (by simp [wait])) rfl Iff.rfl rfl rfl

theorem stopMeasurement_busLaw {s : State} (h : BusLaw s) : BusLaw (stopMeasurement s) := by
  unfold stopMeasurement
  split
  · exact h
  · rename_i wait
    exact stepUsed_busLaw (withdrawEngine_busFor h wait)
  · rename_i notIdle notWait
    refine stepUsed_busLaw (releaseEngine_busFor h ?_)
    cases ha : s.tne.activity with
    | idle => exact absurd ha notIdle
    | busWait => exact absurd ha notWait
    | settling t => rfl
    | gating e w c => rfl

/-- The state in which the engine has stopped measuring a voice. -/
def engineStops (v : VoiceNo) (s : State) : State :=
  match s.tne.current with
  | some c => if c.voice = v then abandonCurrent s else s
  | none => s

theorem engineLoses_eq (v : VoiceNo) (s : State) :
    engineLoses v s = (engineStops v s).setFailed (setDrop (engineStops v s).tne.failed v) := rfl

theorem engineStops_cases (v : VoiceNo) (s : State) : engineStops v s = abandonCurrent s ∨
    (engineStops v s = s ∧ ∀ c, s.tne.current = some c → c.voice ≠ v) := by
  unfold engineStops
  split
  · rename_i c hc
    split
    · exact .inl rfl
    · rename_i hne
      refine .inr ⟨rfl, fun x hx => ?_⟩
      rw [hc] at hx
      cases hx
      exact hne
  · rename_i hc
    exact .inr ⟨rfl, fun x hx => by rw [hc] at hx; cases hx⟩

theorem abandonCurrent_planned {out : VoiceNo → Prop} {s : State} (h : Planned out s) :
    Planned out (abandonCurrent s) := by
  obtain ⟨plan, current, failed, -, -⟩ := stopMeasurement_tne s
  have stopped : Planned out (stopMeasurement s) := h.congr plan current failed fun v => by
    unfold State.status State.voice
    rw [(stopMeasurement_only s).1]
    exact .refl _
  exact stopped.setCurrent_none

theorem abandonCurrent_steady (s : State) : Steady s (abandonCurrent s) :=
  ⟨fun _ => trialLaw_setCurrent _ none,
    fun _ => gateLaw_of_notGating (by rw [abandonCurrent_activity]; rfl)⟩

theorem abandonCurrent_busLaw {s : State} (h : BusLaw s) : BusLaw (abandonCurrent s) :=
  (stopMeasurement_busLaw h).congr rfl rfl (.of_eq rfl)

theorem abandonCurrent_laws {s : State} (h : PlanLaw s ∧ BusLaw s) :
    PlanLaw (abandonCurrent s) ∧ BusLaw (abandonCurrent s) :=
  ⟨(planLaw_iff _).2 ⟨abandonCurrent_planned ((planLaw_iff s).1 h.1).1,
    fun hn => absurd (abandonCurrent_activity s) hn⟩, abandonCurrent_busLaw h.2⟩

theorem engineStops_laws (v : VoiceNo) {s : State} (h : PlanLaw s ∧ BusLaw s) :
    PlanLaw (engineStops v s) ∧ BusLaw (engineStops v s) := by
  rcases engineStops_cases v s with e | ⟨e, -⟩ <;> rw [e]
  · exact abandonCurrent_laws h
  · exact h

theorem engineStops_current (v : VoiceNo) (s : State) :
    ∀ c, (engineStops v s).tne.current = some c → c.voice ≠ v := by
  rcases engineStops_cases v s with e | ⟨e, hc⟩ <;> rw [e]
  · exact fun c hc => nomatch hc
  · exact hc

/-- What the loss of a voice leaves. -/
theorem engineLoses_laws (v : VoiceNo) {s : State} (h : PlanLaw s ∧ BusLaw s) :
    PlanLaw (engineLoses v s) ∧ BusLaw (engineLoses v s) ∧
      (∀ c, (engineLoses v s).tne.current = some c → c.voice ≠ v) ∧
      inSet (engineLoses v s).tne.failed v = false := by
  obtain ⟨hp, hb⟩ := engineStops_laws v h
  rw [planLaw_iff] at hp
  refine ⟨(planLaw_iff _).2 ⟨hp.1.setFailed fun w hw => hp.1.failed w (failed_drop w hw).1, hp.2⟩,
    (setFailed_rests _ _).busLaw hb,
    engineStops_current v s, ?_⟩
  change inSet (setDrop _ v) v = false
  rw [inSet_setDrop]
  simp

theorem engineLoses_steady (v : VoiceNo) (s : State) : Steady s (engineLoses v s) := by
  rw [engineLoses_eq]
  refine Steady.trans ?_ (setFailed_rests _ _).steady
  rcases engineStops_cases v s with e | ⟨e, -⟩ <;> rw [e]
  · exact abandonCurrent_steady s
  · exact .refl s

theorem engineLoses_plan (v : VoiceNo) (s : State) : (engineLoses v s).tne.plan = s.tne.plan ∧
    (engineLoses v s).run = s.run := by
  rw [engineLoses_eq]
  rcases engineStops_cases v s with e | ⟨e, -⟩ <;> rw [e]
  · obtain ⟨plan, -, -, -, run⟩ := stopMeasurement_tne s
    exact ⟨plan, run⟩
  · exact ⟨rfl, rfl⟩

theorem engineLoses_status (v w : VoiceNo) (s : State) : (engineLoses v s).status w = s.status w := by
  unfold State.status
  rw [engineLoses_voice]

/-! ## The placement of a found voice (R15, R102) -/

theorem placeOne_rests (p : Part) (k vel size : Nat) (s : State) (v : VoiceNo) {b : FoundBy} (j : Nat)
    (hb : b ≠ .background) : (placeOne p k vel size s ((v, b), j)).tne = s.tne ∧
      EngineRests s (placeOne p k vel size s ((v, b), j)) := by
  unfold placeOne
  simp only [if_neg hb]
  exact ⟨rfl, rfl, rfl, rfl, rfl, rfl, rfl⟩

/-- A voice that no FG entry claims and that the engine does not measure is placed. -/
theorem placeOne_laws {p : Part} {k vel size : Nat} {s : State} {v : VoiceNo} {b : FoundBy} {j : Nat}
    (hb : b ≠ .background) (h : PlanLaw s ∧ BusLaw s)
    (free : (∀ c, s.tne.current = some c → c.voice ≠ v) ∧ ∀ e ∈ s.tne.plan, e.voice = v → e.mode ≠ .fg)
    (notFailed : inSet s.tne.failed v = false) :
    PlanLaw (placeOne p k vel size s ((v, b), j)) ∧ BusLaw (placeOne p k vel size s ((v, b), j)) := by
  obtain ⟨tne, rests⟩ := placeOne_rests p k vel size s v j hb
  obtain ⟨hp, busy⟩ := (planLaw_iff s).1 h.1
  refine ⟨(planLaw_iff _).2 ⟨?_, rests.busy busy⟩, rests.busLaw h.2⟩
  refine (hp.weaken (fun _ => False.elim)).lose (v := v) (by rw [tne]) (by rw [tne]) ?_ (fun w hw => ?_)
    (fun w hw => ?_) free.1 free.2
  · rw [placeOne_status p k vel size s v j hb, if_pos rfl]; rfl
  · rw [placeOne_status p k vel size s v j hb, if_neg hw]
  · rw [tne] at hw
    refine ⟨hw, ?_⟩
    rintro rfl
    rw [notFailed] at hw
    cases hw

/-- A voice that the search may find: not foreground-tuning, and not TUNING at all but for step 4. -/
def Takeable (s : State) (x : VoiceNo × FoundBy) : Prop :=
  (s.status x.1).isFgTuning = false ∧ (x.2 ≠ .background → (s.status x.1).isTuning = false)

theorem placeOne_kept {p : Part} {k vel size : Nat} {s : State} {x : VoiceNo × FoundBy} {j : Nat}
    (hx : Takeable s x) :
    (PlanLaw s ∧ BusLaw s → PlanLaw (placeOne p k vel size s (x, j)) ∧ BusLaw (placeOne p k vel size s (x, j))) ∧
      Steady s (placeOne p k vel size s (x, j)) ∧ (placeOne p k vel size s (x, j)).run = s.run := by
  obtain ⟨v, b⟩ := x
  obtain ⟨notFg, notTuning⟩ := hx
  by_cases hb : b = .background
  · subst b
    rw [placeOne_background]
    obtain ⟨-, rests⟩ := placeOne_rests p k vel size (engineLoses v s) v (b := .free) j (by simp)
    refine ⟨fun h => ?_, (engineLoses_steady v s).trans rests.steady,
      rests.run.trans (engineLoses_plan v s).2⟩
    obtain ⟨hp, hbl, current, failed⟩ := engineLoses_laws v h
    refine placeOne_laws (by simp) ⟨hp, hbl⟩ ⟨current, ?_⟩ failed
    rintro e he rfl hm
    rw [(engineLoses_plan _ s).1] at he
    rw [h.1.fg e he hm] at notFg
    cases notFg
  · obtain ⟨-, rests⟩ := placeOne_rests p k vel size s v j hb
    refine ⟨fun h => ?_, rests.steady, rests.run⟩
    have own := notTuning hb
    refine placeOne_laws hb h (((planLaw_iff s).1 h.1).1.free_of_notTuning own) ?_
    rw [Bool.eq_false_iff]
    intro hf
    rw [h.1.failed v hf] at own
    cases own

theorem placeOne_takeable {p : Part} {k vel size : Nat} {s : State} {x y : VoiceNo × FoundBy} {j : Nat}
    (h : Takeable s x) : Takeable (placeOne p k vel size s (y, j)) x := by
  obtain ⟨v, b⟩ := x
  obtain ⟨w, c⟩ := y
  by_cases hw : v = w
  · subst w
    have := (placeOne_placed p k vel size s v c j).onPart
    have nt := onPart_not_tuning this
    refine ⟨?_, fun _ => nt⟩
    rw [Bool.eq_false_iff]
    intro hf
    rw [isFgTuning_isTuning hf] at nt
    cases nt
  · unfold Takeable State.status at *
    simp only at *
    rw [placeOne_voice_ne' _ _ _ _ _ _ _ _ _ hw]
    exact h

theorem isTuning_of_listed {x : VoiceStatus} (h : x.isReleasing = true ∨ x.isFree = true ∨
    x.isSustained = true ∨ x.isHeld = true) : x.isTuning = false ∧ x.isFgTuning = false := by
  rcases x with _ | ⟨n, _ | _ | _ | _⟩ | _ | _ <;>
    simp_all [VoiceStatus.isReleasing, VoiceStatus.isFree, VoiceStatus.isSustained, VoiceStatus.isHeld,
      VoiceStatus.isTuning, VoiceStatus.isFgTuning]

theorem isBgTuning_notFg {x : VoiceStatus} (h : x.isBgTuning = true) : x.isFgTuning = false := by
  rcases x with _ | _ | ⟨_ | _, _⟩ | _ <;> simp_all [VoiceStatus.isFgTuning, VoiceStatus.isBgTuning]

theorem searchFree_free {s : State} {p : Part} {cursor v : VoiceNo} (h : v ∈ searchFree s p cursor) :
    (s.status v).isFree = true ∧ inSet (s.part p).pool v = true := by
  unfold searchFree at h
  simp only at h
  split at h <;> simp only [List.mem_filter, Bool.and_eq_true] at h <;> exact h.2

theorem searchSteal_mem (s : State) (p : Part) (v : VoiceNo) : v ∈ searchSteal s p ↔
    v ∈ s.val.startOrder.get p ∧ topKeyProtected s p (s.part p).heldKeys v = false ∧
      ((s.status v).isSustained = true ∨ (s.status v).isHeld = true) ∧ (s.patch p).stealPolicy ≠ .none := by
  unfold searchSteal
  simp only
  cases (s.patch p).stealPolicy with
  | oldest =>
    simp only [List.mem_append, List.mem_filter, Bool.not_eq_true']
    constructor
    · rintro (⟨⟨a, b⟩, c⟩ | ⟨⟨a, b⟩, c⟩)
      · exact ⟨a, b, .inl c, by simp⟩
      · exact ⟨a, b, .inr c, by simp⟩
    · rintro ⟨a, b, c | c, -⟩
      · exact .inl ⟨⟨a, b⟩, c⟩
      · exact .inr ⟨⟨a, b⟩, c⟩
  | quietest =>
    simp only [List.mem_insertionSort, List.mem_filter, Bool.not_eq_true', Bool.or_eq_true]
    constructor
    · rintro ⟨⟨a, b⟩, c⟩
      exact ⟨a, b, c, by simp⟩
    · rintro ⟨a, b, c, -⟩
      exact ⟨⟨a, b⟩, c⟩
  | none => simp

/-- A step of the search adds voices of its list. -/
theorem addFound_takeable {s : State} {n : Nat} {b : FoundBy} {l : List VoiceNo} {found : Found}
    (hl : ∀ v ∈ l, Takeable s (v, b)) (hf : ∀ x ∈ found, Takeable s x) :
    ∀ x ∈ addFound n b l found, Takeable s x := by
  rintro ⟨v, c⟩ hx
  rcases addFound_mem hx with hx | ⟨rfl, hv⟩
  · exact hf _ hx
  · exact hl v hv

theorem search_takeable (s : State) (p : Part) (k : Nat) : ∀ x ∈ search s p k, Takeable s x := by
  have listed : ∀ {v : VoiceNo} {b : FoundBy}, ((s.status v).isReleasing = true ∨ (s.status v).isFree = true ∨
      (s.status v).isSustained = true ∨ (s.status v).isHeld = true) → Takeable s (v, b) :=
    fun h => ⟨(isTuning_of_listed h).2, fun _ => (isTuning_of_listed h).1⟩
  have reclaim : ∀ v ∈ searchReclaim s p k, Takeable s (v, .reclaim) := fun v hv =>
    listed (.inl ((searchReclaim_mem ..).1 hv).2.1)
  have free : ∀ c, ∀ v ∈ searchFree s p c, Takeable s (v, .free) := fun c v hv =>
    listed (.inr (.inl (searchFree_free hv).1))
  have releasing : ∀ v ∈ searchReleasing s p, Takeable s (v, .releasing) := fun v hv =>
    listed (.inl ((searchReleasing_mem ..).1 hv).2.1)
  have background : ∀ v ∈ searchBackground s p, Takeable s (v, .background) := fun v hv =>
    ⟨isBgTuning_notFg ((searchBackground_mem ..).1 hv).1, fun h => absurd rfl h⟩
  have steal : ∀ v ∈ searchSteal s p, Takeable s (v, .steal) := fun v hv =>
    listed (.inr (.inr ((searchSteal_mem ..).1 hv).2.2.1))
  exact addFound_takeable steal <| addFound_takeable background <| addFound_takeable releasing <|
    addFound_takeable (free _) <| addFound_takeable reclaim (by simp)

theorem placeAll_kept {p : Part} {k vel : Nat} {s : State} {found : Found}
    (hf : ∀ x ∈ found, Takeable s x) :
    (PlanLaw s ∧ BusLaw s → PlanLaw (placeAll p k vel found s) ∧ BusLaw (placeAll p k vel found s)) ∧
      Steady s (placeAll p k vel found s) ∧ (placeAll p k vel found s).run = s.run := by
  unfold placeAll
  generalize (s.patch p).unison = size
  suffices go : ∀ (l : List ((VoiceNo × FoundBy) × Nat)) (t : State), (∀ x ∈ l, Takeable t x.1) →
      (PlanLaw t ∧ BusLaw t → PlanLaw (l.foldl (placeOne p k vel size) t) ∧
        BusLaw (l.foldl (placeOne p k vel size) t)) ∧
      Steady t (l.foldl (placeOne p k vel size) t) ∧ (l.foldl (placeOne p k vel size) t).run = t.run by
    exact go _ s fun x hx => hf x.1 (List.fst_mem_of_mem_zipIdx hx)
  intro l
  induction l with
  | nil => exact fun t _ => ⟨id, .refl t, rfl⟩
  | cons x l ih =>
    intro t ht
    obtain ⟨x, j⟩ := x
    obtain ⟨laws, steady, run⟩ := placeOne_kept (p := p) (k := k) (vel := vel) (size := size) (j := j)
      (ht _ List.mem_cons_self)
    obtain ⟨laws', steady', run'⟩ := ih _ fun y hy => placeOne_takeable (ht y (List.mem_cons_of_mem _ hy))
    exact ⟨laws' ∘ laws, steady.trans steady', run'.trans run⟩

/-- A search and its placement keep the engine's laws (R15, R102). -/
theorem searchAndPlace_kept (p : Part) (k vel : Nat) (solo : Bool) {s : State} (run : s.run = .running) :
    EngineKept s (searchAndPlace p k vel solo s).1 := by
  have placed : ∀ u : State, EngineStands false (placeAll p k vel (search s p k) s) u →
      EngineKept s (kick u) := by
    intro u hu
    obtain ⟨laws, steady, run'⟩ := placeAll_kept (p := p) (k := k) (vel := vel) (search_takeable s p k)
    exact .kick (hu.plan ∘ laws) (steady.trans hu.steady) (hu.same.run.trans (run'.trans run))
  have handed : EngineStands false (placeAll p k vel (search s p k) s)
      (place p k vel (search s p k) s) := by
    rw [place_eq]
    have cursor : Moves .sounding (placeAll p k vel (search s p k) s)
        ((placeAll p k vel (search s p k) s).modPart p fun x =>
          { x with cursor := cursorAfter x.cursor (search s p k) }) :=
      .of_move (.part p _ (fun _ => rfl) (fun _ => rfl) fun _ h => h)
    exact (cursor.trans (handAll_quiet ..).moves).stands (by simp)
  unfold searchAndPlace
  simp only
  split
  · exact .refl s
  · split
    · exact placed _ (handed.trans (.of_status ⟨rfl, rfl, rfl, .of_eq rfl⟩ fun _ => rfl))
    · exact placed _ handed

theorem noteStart_kept (part key velocity : Byte) {s : State} (run : s.run = .running) :
    EngineKept s (noteStart part key velocity s).1 := by
  unfold noteStart
  split
  · rename_i p k _ hk
    have hk := key?_le hk
    have entered : Moves .sounding s (s.setKeys p (enterKey k (s.part p).heldKeys)) := enterKey_moves s p hk
    refine (EngineKept.of_moves entered).trans ?_
    have run' := ((entered.stands (by simp)).same.run).trans run
    simp only
    split
    · unfold polyStart
      split
      · exact searchAndPlace_kept p k _ false run'
      · refine .of_moves (.of_chain (retrigger_chain (vel_range velocity) fun v hv => ?_))
        rw [soundingOn_mem] at hv
        exact onKey_onPart hv.2.1
    · unfold soloStart
      split
      · exact searchAndPlace_kept p k _ true run'
      · rename_i g hg
        simp only
        split
        · exact .of_moves (legatoMove_moves hg fun _ => hk)
        · exact .of_moves (soloRetrigger_moves hg (vel_range velocity) hk)
  · exact .refl s

end Sys2Proof.Machine
end

