-- ==== Sys2Proof/Proofs/EngineCommandsKept.lean ====
section
/-! The engine's commands and events, the sweep and the resets keep the engine's laws; and every step does. -/

namespace Sys2Proof.Machine

/-! ## Voices out of service and back (R22, R23, R103) -/

/-- A voice parked with the engine's laws, where nothing ties the engine to it. -/
theorem parkVoice_laws {s : State} {v : VoiceNo} (r : ParkReason) (h : Planned (· = v) s) (busy : Busy s)
    (bus : BusLaw s)
    (free : (∀ c, s.tne.current = some c → c.voice ≠ v) ∧ ∀ e ∈ s.tne.plan, e.voice = v → e.mode ≠ .fg) :
    PlanLaw (parkVoice v r s) ∧ BusLaw (parkVoice v r s) :=
  ⟨(planLaw_iff _).2 ⟨parkVoice_planned h r free, (parkVoice_rests v r s).busy busy⟩,
    (parkVoice_rests v r s).busLaw bus⟩

/-- The plan without a voice that is not current keeps its law but for that voice. -/
theorem Planned.dropVoice {s : State} {v : VoiceNo} (h : PlannedAll s)
    (notCurrent : ∀ c, s.tne.current = some c → c.voice ≠ v) :
    Planned (· = v) (s.setPlan (s.tne.plan.filter fun e => e.voice != v)) where
  nodup := h.nodup.filter _
  length := (List.length_filter_le _ _).trans h.length
  tuning w hw := by
    by_cases hwv : w = v
    · exact .inr hwv
    · left
      obtain ⟨e, he, hev⟩ := List.any_eq_true.1 ((h.tuning w hw).resolve_right id)
      refine List.any_eq_true.2 ⟨e, List.mem_filter.2 ⟨he, ?_⟩, hev⟩
      rw [beq_iff_eq] at hev
      simpa [hev] using hwv
  oneBg := h.oneBg
  fg e he := h.fg e (List.mem_filter.1 he).1
  current c hc := by
    obtain ⟨hin, ht⟩ := h.current c hc
    refine ⟨?_, ht⟩
    obtain ⟨e, he, hp⟩ := List.any_eq_true.1 hin
    refine List.any_eq_true.2 ⟨e, List.mem_filter.2 ⟨he, ?_⟩, hp⟩
    have hv : e.voice = c.voice := by
      simp only [Entry.isPair, Bool.and_eq_true, beq_iff_eq] at hp
      exact hp.1
    simpa [hv] using notCurrent c hc
  failed := h.failed

/-- The plan after the entries of a voice have been removed. -/
def planCut (v : VoiceNo) (s : State) : State :=
  (engineLoses v s).setPlan ((engineLoses v s).tne.plan.filter fun e => e.voice != v)

theorem removeEntries_rests (v : VoiceNo) (s : State) : EngineRests (planCut v s) (removeEntries v s) ∧
    (removeEntries v s).tne = (planCut v s).tne ∧ ∀ w, (removeEntries v s).status w = s.status w := by
  unfold removeEntries
  simp only
  split
  · refine ⟨doneIfEmpty_rests _, ?_, fun w => ?_⟩
    · unfold doneIfEmpty; split <;> rfl
    · unfold doneIfEmpty
      split <;> exact engineLoses_status v w s
  · exact ⟨.refl _, rfl, fun w => engineLoses_status v w s⟩

theorem serviceOff_kept (voice x : Byte) {s : State} (run : s.run = .running) :
    EngineKept s (serviceOff voice x s).1 := by
  unfold serviceOff
  split
  · exact .refl s
  · rename_i v _
    split
    · exact .refl s
    · rw [ok_fst]
      split
      · obtain ⟨rests, tne, status⟩ := removeEntries_rests v s
        refine .kick (fun h => ?_) ?_ ?_
        · obtain ⟨hp, bus, current, -⟩ := engineLoses_laws v h
          obtain ⟨planned, busy⟩ := (planLaw_iff _).1 hp
          have cut : Planned (· = v) (removeEntries v s) :=
            (planned.dropVoice current).of_blocks tne fun w => by
              rw [status]; exact (engineLoses_status v w s).symm
          refine parkVoice_laws .host cut (rests.busy busy)
            (rests.busLaw ((setPlan_rests _ _).busLaw bus)) ⟨fun c hc => ?_, fun e he hv => ?_⟩
          · rw [tne] at hc
            exact current c hc
          · rw [tne] at he
            have := (List.mem_filter.1 he).2
            simp [hv] at this
        · exact (((engineLoses_steady v s).trans (setPlan_rests _ _).steady).trans rests.steady).trans
            (parkVoice_rests v .host _).steady
        · exact rests.run.trans ((engineLoses_plan v s).2.trans run)
      · rename_i own
        refine .kick (fun h => ?_) (parkVoice_rests v .host s).steady run
        obtain ⟨planned, busy⟩ := (planLaw_iff s).1 h.1
        exact parkVoice_laws .host (planned.weaken fun _ => False.elim) busy h.2
          (planned.free_of_notTuning (by simpa using own))

theorem serviceOn_kept (voice : Byte) {s : State} (run : s.run = .running) :
    EngineKept s (serviceOn voice s).1 := by
  unfold serviceOn
  split
  · exact .refl s
  · rename_i v _
    split
    · rename_i r hr
      rw [ok_fst]
      refine .kick (fun h => ?_) (freeVoice_rests v s).steady run
      obtain ⟨planned, busy⟩ := (planLaw_iff s).1 h.1
      exact ⟨(planLaw_iff _).2 ⟨freeVoice_planned (planned.weaken fun _ => False.elim)
        (planned.free_of_notTuning (by rw [hr]; rfl)), (freeVoice_rests v s).busy busy⟩,
        (freeVoice_rests v s).busLaw h.2⟩
    · exact .refl s

/-! ## Entries join the plan (R73, R81, R82) -/

theorem inPlan_mono {s t : State} (h : ∀ e ∈ s.tne.plan, ∃ x ∈ t.tne.plan, x.voice = e.voice ∧ x.src = e.src)
    {v : VoiceNo} {i : SourceIdx} (hi : inPlan s v i = true) : inPlan t v i = true := by
  obtain ⟨e, he, hp⟩ := List.any_eq_true.1 hi
  obtain ⟨x, hx, hv, hs⟩ := h e he
  refine List.any_eq_true.2 ⟨x, hx, ?_⟩
  simpa [Entry.isPair, hv, hs] using hp

theorem voiceInPlan_mono {s t : State}
    (h : ∀ e ∈ s.tne.plan, ∃ x ∈ t.tne.plan, x.voice = e.voice ∧ x.src = e.src)
    {v : VoiceNo} (hi : voiceInPlan s v = true) : voiceInPlan t v = true := by
  obtain ⟨e, he, hp⟩ := List.any_eq_true.1 hi
  obtain ⟨x, hx, hv, -⟩ := h e he
  exact List.any_eq_true.2 ⟨x, hx, by simpa [hv] using hp⟩

/-- The plan grows, with FG entries for foreground-tuning voices only. -/
theorem Planned.grow {s : State} (h : PlannedAll s) {l : List Entry}
    (nodup : l.Pairwise fun x y => ¬(x.voice = y.voice ∧ x.src = y.src))
    (mono : ∀ e ∈ s.tne.plan, ∃ x ∈ l, x.voice = e.voice ∧ x.src = e.src)
    (fg : ∀ e ∈ l, e.mode = .fg → (s.status e.voice).isFgTuning = true) : PlannedAll (s.setPlan l) where
  nodup := nodup
  length := length_le_of_pairs nodup
  tuning v hv := .inl (voiceInPlan_mono (t := s.setPlan l) mono ((h.tuning v hv).resolve_right id))
  oneBg := h.oneBg
  fg := fg
  current c hc := ⟨inPlan_mono (t := s.setPlan l) mono (h.current c hc).1, (h.current c hc).2⟩
  failed := h.failed

theorem retuneEntries_mem {s : State} {e : Entry} (h : e ∈ retuneEntries s) :
    e.mode = .bg ∧ inPlan s e.voice e.src = false := by
  unfold retuneEntries at h
  split at h
  · cases h
  · obtain ⟨n, hn, rfl⟩ := List.mem_map.1 h
    have := (List.mem_filter.1 hn).2
    simp only [retuneDue, Bool.and_eq_true, Bool.not_eq_true'] at this
    exact ⟨rfl, this.2⟩

theorem source_injective {m n : SourceNo} (hv : sourceVoice m = sourceVoice n)
    (hi : sourceIdx m = sourceIdx n) : m = n := by
  revert hv hi
  simp only [sourceVoice, sourceIdx, Fin.ext_iff]
  omega

theorem retuneEntries_nodup (s : State) :
    (retuneEntries s).Pairwise fun x y => ¬(x.voice = y.voice ∧ x.src = y.src) := by
  unfold retuneEntries
  split
  · exact .nil
  · rw [List.pairwise_map]
    exact ((List.nodup_finRange 48).filter _).imp fun hne h => hne (source_injective h.1 h.2)

/-- The minute event's plan: the entries of the retune decision join it (R73). -/
theorem retune_planned {s : State} (h : PlannedAll s) :
    PlannedAll (s.setPlan (s.tne.plan ++ retuneEntries s)) := by
  refine h.grow (List.pairwise_append.2 ⟨h.nodup, retuneEntries_nodup s, fun x hx y hy hxy => ?_⟩)
    (fun e he => ⟨e, List.mem_append_left _ he, rfl, rfl⟩) fun e he hm => ?_
  · have no := (retuneEntries_mem hy).2
    unfold inPlan at no
    rw [List.any_eq_false] at no
    exact no x hx (by simp [Entry.isPair, hxy.1, hxy.2])
  · rcases List.mem_append.1 he with he | he
    · exact h.fg e he hm
    · rw [(retuneEntries_mem he).1] at hm
      cases hm

theorem minuteEvent_kept {s : State} (run : s.run = .running) : EngineKept s (minuteEvent s) := by
  have aged : EngineStands false s (ageAll { s with cal := { s.cal with minute := Config.minuteTicks } }) :=
    .of_status ⟨rfl, rfl, rfl, .of_eq rfl⟩ fun _ => rfl
  unfold minuteEvent
  simp only
  refine .kick (fun h => ?_) (aged.steady.trans (setPlan_rests _ _).steady) run
  obtain ⟨hp, hb⟩ := aged.plan h
  obtain ⟨planned, busy⟩ := (planLaw_iff _).1 hp
  exact ⟨(planLaw_iff _).2 ⟨retune_planned planned, (setPlan_rests _ _).busy busy⟩,
    (setPlan_rests _ _).busLaw hb⟩

/-! ### TUNE ADD -/

/-- A plan before and after pairs have been added, with the voices added and upgraded so far: no pair is
lost or doubled, and each FG entry that was none before is of a touched voice. -/
structure Added (plan : List Entry) (acc : List Entry × List VoiceNo × List VoiceNo) : Prop where
  nodup : acc.1.Pairwise fun x y => ¬(x.voice = y.voice ∧ x.src = y.src)
  mono : ∀ e ∈ plan, ∃ x ∈ acc.1, x.voice = e.voice ∧ x.src = e.src
  fg : ∀ e ∈ acc.1, e.mode = .fg → e ∈ plan ∨ e.voice ∈ acc.2.1 ∨ e.voice ∈ acc.2.2
  touched : ∀ v, v ∈ acc.2.1 ∨ v ∈ acc.2.2 → ∃ x ∈ acc.1, x.voice = v

/-- The entries' modes change, and their pairs do not. -/
theorem upgrade_pairs (v : VoiceNo) (i : SourceIdx) (e : Entry) :
    (if e.isPair v i then { e with mode := .fg } else e).voice = e.voice ∧
      (if e.isPair v i then { e with mode := .fg } else e).src = e.src := by
  split <;> exact ⟨rfl, rfl⟩

theorem isPair_iff (e : Entry) (v : VoiceNo) (i : SourceIdx) : e.isPair v i = true ↔ e.voice = v ∧ e.src = i := by
  simp [Entry.isPair]

theorem addPair_added {plan : List Entry} {acc : List Entry × List VoiceNo × List VoiceNo} (h : Added plan acc)
    (m : EntryMode) (x : VoiceNo × SourceIdx) : Added plan (addPair m acc x) := by
  obtain ⟨l, added, upgraded⟩ := acc
  obtain ⟨v, i⟩ := x
  obtain ⟨nodup, mono, fg, touched⟩ := h
  unfold addPair
  simp only
  split
  · rename_i none
    rw [List.find?_eq_none] at none
    refine ⟨List.pairwise_append.2 ⟨nodup, by simp, fun e he y hy hxy => ?_⟩, fun e he => ?_,
      fun e he hm => ?_, fun w hw => ?_⟩
    · obtain rfl := List.mem_singleton.1 hy
      exact none e he ((isPair_iff ..).2 hxy)
    · obtain ⟨y, hy, hp⟩ := mono e he
      exact ⟨y, List.mem_append_left _ hy, hp⟩
    · rcases List.mem_append.1 he with he | he
      · exact (fg e he hm).imp_right fun h => h.imp_left (List.mem_append_left _)
      · obtain rfl := List.mem_singleton.1 he
        exact .inr (.inl (by simp))
    · simp only [List.mem_append, List.mem_singleton] at hw
      rcases hw with (hw | rfl) | hw
      · obtain ⟨y, hy, hp⟩ := touched w (.inl hw)
        exact ⟨y, List.mem_append_left _ hy, hp⟩
      · exact ⟨_, List.mem_append_right _ (List.mem_singleton_self _), rfl⟩
      · obtain ⟨y, hy, hp⟩ := touched w (.inr hw)
        exact ⟨y, List.mem_append_left _ hy, hp⟩
  · rename_i y hy
    have yin := List.mem_of_find?_eq_some hy
    have ypair := List.find?_some hy
    rw [isPair_iff] at ypair
    split
    · refine ⟨?_, fun e he => ?_, fun e he hm => ?_, fun w hw => ?_⟩
      · rw [List.pairwise_map]
        refine nodup.imp fun hn hxy => hn ?_
        rwa [(upgrade_pairs v i _).1, (upgrade_pairs v i _).1, (upgrade_pairs v i _).2,
          (upgrade_pairs v i _).2] at hxy
      · obtain ⟨z, hz, hp⟩ := mono e he
        refine ⟨_, List.mem_map_of_mem hz, ?_⟩
        rw [(upgrade_pairs v i z).1, (upgrade_pairs v i z).2]
        exact hp
      · obtain ⟨z, hz, rfl⟩ := List.mem_map.1 he
        rw [(upgrade_pairs v i z).1]
        by_cases hp : z.isPair v i = true
        · exact .inr (.inr (by simp [((isPair_iff ..).1 hp).1]))
        · rw [if_neg hp] at hm ⊢
          exact (fg z hz hm).imp_right fun h => h.imp_right (List.mem_append_left _)
      · have found : ∃ z ∈ l, z.voice = w := by
          simp only [List.mem_append, List.mem_singleton] at hw
          rcases hw with hw | hw | rfl
          · exact touched w (.inl hw)
          · exact touched w (.inr hw)
          · exact ⟨y, yin, ypair.1⟩
        obtain ⟨z, hz, rfl⟩ := found
        exact ⟨_, List.mem_map_of_mem hz, (upgrade_pairs v i z).1⟩
    · exact ⟨nodup, mono, fg, touched⟩

theorem addPairs_added {plan : List Entry}
    (h : plan.Pairwise fun x y => ¬(x.voice = y.voice ∧ x.src = y.src)) (m : EntryMode)
    (l : List (VoiceNo × SourceIdx)) : Added plan (l.foldl (addPair m) (plan, [], [])) := by
  have go : ∀ (l : List (VoiceNo × SourceIdx)) acc, Added plan acc → Added plan (l.foldl (addPair m) acc) := by
    intro l
    induction l with
    | nil => exact fun _ h => h
    | cons x l ih => exact fun acc h => ih _ (addPair_added h m x)
  exact go l _ ⟨h, fun e he => ⟨e, he, rfl, rfl⟩, fun e he _ => .inl he, by simp⟩

/-- With mode BG no entry becomes FG. -/
theorem addPairs_bg (plan : List Entry) (l : List (VoiceNo × SourceIdx)) :
    ∀ e ∈ (l.foldl (addPair .bg) (plan, [], [])).1, e.mode = .fg → e ∈ plan := by
  have go : ∀ (l : List (VoiceNo × SourceIdx)) (acc : List Entry × List VoiceNo × List VoiceNo),
      (∀ e ∈ acc.1, e.mode = .fg → e ∈ plan) →
        ∀ e ∈ (l.foldl (addPair .bg) acc).1, e.mode = .fg → e ∈ plan := by
    intro l
    induction l with
    | nil => exact fun _ h => h
    | cons x l ih =>
      intro acc h
      refine ih _ ?_
      obtain ⟨plan', added, upgraded⟩ := acc
      unfold addPair
      simp only
      split
      · intro e he hm
        rcases List.mem_append.1 he with he | he
        · exact h e he hm
        · obtain rfl := List.mem_singleton.1 he
          cases hm
      · rw [if_neg (by simp)]
        exact h
  exact go l _ fun e he _ => he

/-- The claims of a list of voices: each is foreground-tuning after them, and no other voice changes. -/
theorem claimAll_status (l : List VoiceNo) (s : State) : ∀ w,
    (w ∈ l → ((claimAll l s).status w).isFgTuning = true) ∧ (w ∉ l → (claimAll l s).status w = s.status w) := by
  induction l generalizing s with
  | nil => exact fun w => ⟨fun h => (nomatch h), fun _ => rfl⟩
  | cons v l ih =>
    intro w
    have first : ∀ x, x ≠ v →
        (if (s.status v).isFgTuning then s else claimVoice v true s).status x = s.status x := by
      intro x hx
      split
      · rfl
      · rw [claimVoice_status, if_neg hx]
    have own : ((if (s.status v).isFgTuning then s else claimVoice v true s).status v).isFgTuning = true := by
      split
      · assumption
      · rw [claimVoice_status, if_pos rfl]; rfl
    have rest := ih (if (s.status v).isFgTuning then s else claimVoice v true s) w
    refine ⟨fun hw => ?_, fun hw => ?_⟩
    · by_cases hl : w ∈ l
      · exact rest.1 hl
      · obtain rfl : w = v := (List.mem_cons.1 hw).resolve_right hl
        have e := rest.2 hl
        rw [← e] at own
        exact own
    · rw [List.mem_cons, not_or] at hw
      exact (rest.2 hw.2).trans (first w hw.1)

/-- Of the engine, claims reach the failed-in-lending set alone, and only to make it smaller. -/
theorem claimAll_rests (l : List VoiceNo) (s : State) : EngineRests s (claimAll l s) ∧
    (claimAll l s).tne.plan = s.tne.plan ∧
    ∀ w, inSet (claimAll l s).tne.failed w = true → inSet s.tne.failed w = true := by
  induction l generalizing s with
  | nil => exact ⟨.refl s, rfl, fun _ h => h⟩
  | cons v l ih =>
    have first : EngineRests s (if (s.status v).isFgTuning then s else claimVoice v true s) ∧
        (if (s.status v).isFgTuning then s else claimVoice v true s).tne.plan = s.tne.plan ∧
        ∀ w, inSet (if (s.status v).isFgTuning then s else claimVoice v true s).tne.failed w = true →
          inSet s.tne.failed w = true := by
      split
      · exact ⟨.refl s, rfl, fun _ h => h⟩
      · refine ⟨claimVoice_rests .., ?_, fun w hw => ?_⟩
        · obtain ⟨-, -, -, -, tne, -⟩ := claimVoice_blocks v true s
          exact (congrArg Tne.plan tne :)
        · rw [claimVoice_failed] at hw
          split at hw
          · exact (failed_drop w hw).1
          · exact hw
    obtain ⟨rests, plan, failed⟩ := first
    obtain ⟨rests', plan', failed'⟩ := ih (if (s.status v).isFgTuning then s else claimVoice v true s)
    exact ⟨rests.trans rests', plan'.trans plan, fun w hw => failed w (failed' w hw)⟩

/-- An added plan with the touched voices claimed for the foreground meets the law of the plan (R82). -/
theorem claimAll_planned {s : State} (h : PlannedAll s) {plan : List Entry} {added upgraded : List VoiceNo}
    (a : Added s.tne.plan (plan, added, upgraded)) {l : List VoiceNo}
    (hl : ∀ v, v ∈ l ↔ v ∈ added ∨ v ∈ upgraded) : PlannedAll (claimAll l (s.setPlan plan)) := by
  obtain ⟨nodup, mono, fg, touched⟩ := a
  obtain ⟨rests, hplan, failed⟩ := claimAll_rests l (s.setPlan plan)
  have status := claimAll_status l (s.setPlan plan)
  have hplan : (claimAll l (s.setPlan plan)).tne.plan = plan := hplan
  have mono' : ∀ e ∈ s.tne.plan, ∃ x ∈ (claimAll l (s.setPlan plan)).tne.plan,
      x.voice = e.voice ∧ x.src = e.src := by rw [hplan]; exact mono
  have tuning : ∀ w, (s.status w).isTuning = true →
      ((claimAll l (s.setPlan plan)).status w).isTuning = true := by
    intro w hw
    by_cases hl : w ∈ l
    · exact isFgTuning_isTuning ((status w).1 hl)
    · rw [(status w).2 hl]; exact hw
  have bg : ∀ w, ((claimAll l (s.setPlan plan)).status w).isBgTuning = true →
      (s.status w).isBgTuning = true := by
    intro w hw
    by_cases hl : w ∈ l
    · have := isBgTuning_notFg hw
      rw [(status w).1 hl] at this
      cases this
    · rw [(status w).2 hl] at hw; exact hw
  refine ⟨by rw [hplan]; exact nodup, by rw [hplan]; exact length_le_of_pairs nodup, fun w hw => .inl ?_,
    fun v w hv hw => h.oneBg v w (bg v hv) (bg w hw), fun e he hm => ?_, fun c hc => ?_, fun w hw => ?_⟩
  · by_cases hwl : w ∈ l
    · obtain ⟨x, hx, hxv⟩ := touched w ((hl w).1 hwl)
      refine List.any_eq_true.2 ⟨x, by rw [hplan]; exact hx, by simp [hxv]⟩
    · rw [(status w).2 hwl] at hw
      exact voiceInPlan_mono mono' ((h.tuning w hw).resolve_right id)
  · rw [hplan] at he
    by_cases hel : e.voice ∈ l
    · exact (status _).1 hel
    · rw [(status _).2 hel]
      exact h.fg e ((fg e he hm).resolve_right fun ht => hel ((hl _).2 ht)) hm
  · rw [rests.current] at hc
    obtain ⟨hin, ht⟩ := h.current c hc
    exact ⟨inPlan_mono mono' hin, tuning _ ht⟩
  · exact tuning w (h.failed w (failed w hw))

theorem tuneAdd_kept (voices : VoiceSet) (sources mode : Byte) {s : State} (run : s.run = .running) :
    EngineKept s (tuneAdd voices sources mode s).1 := by
  unfold tuneAdd
  split
  · exact .refl s
  · rename_i m _
    split
    · exact .refl s
    · simp only [ok_fst]
      have pairs := fun h => addPairs_added (plan := s.tne.plan) h m (pairsOf voices sources)
      have bg := addPairs_bg s.tne.plan (pairsOf voices sources)
      revert pairs bg
      cases m with
      | bg =>
        intro pairs bg
        rw [if_neg (by simp)]
        refine .kick (fun h => ?_) (setPlan_rests _ _).steady run
        obtain ⟨planned, busy⟩ := (planLaw_iff s).1 h.1
        have a := pairs planned.nodup
        exact ⟨(planLaw_iff _).2 ⟨planned.grow a.nodup a.mono fun e he hm => planned.fg e (bg e he hm) hm,
          (setPlan_rests _ _).busy busy⟩, (setPlan_rests _ _).busLaw h.2⟩
      | fg =>
        intro pairs _
        rw [if_pos rfl]
        have rests := (setPlan_rests s _).trans (claimAll_rests
          ((List.finRange 16).filter fun v =>
            v ∈ ((pairsOf voices sources).foldl (addPair .fg) (s.tne.plan, [], [])).2.1 ∨
            v ∈ ((pairsOf voices sources).foldl (addPair .fg) (s.tne.plan, [], [])).2.2)
          (s.setPlan ((pairsOf voices sources).foldl (addPair .fg) (s.tne.plan, [], [])).1)).1
        refine .kick (fun h => ?_) rests.steady (rests.run.trans run)
        obtain ⟨planned, busy⟩ := (planLaw_iff s).1 h.1
        exact ⟨(planLaw_iff _).2 ⟨claimAll_planned planned (pairs planned.nodup) fun v => by simp,
          rests.busy busy⟩, rests.busLaw h.2⟩

/-! ## The control modes (R86 to R89) -/

theorem setMode_laws {s : State} (h : PlanLaw s ∧ BusLaw s) (m : TuneMode) :
    PlanLaw (s.setMode m) ∧ BusLaw (s.setMode m) := by
  obtain ⟨planned, busy⟩ := (planLaw_iff s).1 h.1
  exact ⟨(planLaw_iff _).2 ⟨planned.congr rfl rfl rfl fun _ => .refl _, busy⟩,
    h.2.congr rfl rfl (.of_eq rfl)⟩

theorem setMode_steady (s : State) (m : TuneMode) : Steady s (s.setMode m) := .of_same rfl rfl rfl

theorem tuneRun_kept (a : Byte) {s : State} (run : s.run = .running) : EngineKept s (tuneRun a s).1 := by
  unfold tuneRun
  split
  · exact .kick (fun h => setMode_laws h _) (setMode_steady s _) run
  · exact .refl s

theorem tuneHalt_kept (s : State) : EngineKept s (tuneHalt s).1 :=
  ⟨fun h => setMode_laws h .halt, setMode_steady s .halt, fun _ hm => absurd rfl hm⟩

theorem tuneStep_kept {s : State} (run : s.run = .running) : EngineKept s (tuneStep s).1 := by
  unfold tuneStep
  split
  · exact .kick (fun h => setMode_laws h _) (setMode_steady s _) run
  · exact .refl s

theorem cancelVoice_status (s : State) (v w : VoiceNo) :
    (w ≠ v → (cancelVoice s v).status w = s.status w) ∧ ((cancelVoice s v).status v).isTuning = false := by
  unfold cancelVoice
  split
  · refine ⟨fun hw => by rw [parkVoice_status, if_neg hw], ?_⟩
    rw [parkVoice_status, if_pos rfl]; rfl
  · refine ⟨fun hw => by rw [freeVoice_status, if_neg hw], ?_⟩
    rw [freeVoice_status, if_pos rfl]; rfl
  · rename_i h1 h2
    refine ⟨fun _ => rfl, ?_⟩
    cases hs : s.status v with
    | tuning fg r => cases r with
      | none => exact absurd hs (h2 fg)
      | some r => exact absurd hs (h1 fg r)
    | _ => rfl

theorem cancelVoice_rests (s : State) (v : VoiceNo) : EngineRests s (cancelVoice s v) ∧
    (cancelVoice s v).tne.plan = s.tne.plan := by
  unfold cancelVoice
  split
  · exact ⟨parkVoice_rests .., rfl⟩
  · exact ⟨freeVoice_rests .., rfl⟩
  · exact ⟨.refl s, rfl⟩

/-- All voices of a list cancelled: none of them is TUNING, and no other voice becomes it. -/
theorem cancelAll_spec (l : List VoiceNo) (s : State) : EngineRests s (l.foldl cancelVoice s) ∧
    (l.foldl cancelVoice s).tne.plan = s.tne.plan ∧
    ∀ v, ((l.foldl cancelVoice s).status v).isTuning = true → v ∉ l ∧ (s.status v).isTuning = true := by
  induction l generalizing s with
  | nil => exact ⟨.refl s, rfl, fun v hv => ⟨List.not_mem_nil, hv⟩⟩
  | cons w l ih =>
    obtain ⟨rests, plan, tuning⟩ := ih (cancelVoice s w)
    obtain ⟨rests', plan'⟩ := cancelVoice_rests s w
    refine ⟨rests'.trans rests, plan.trans plan', fun v hv => ?_⟩
    obtain ⟨hl, ht⟩ := tuning v hv
    have hne : v ≠ w := by
      rintro rfl
      rw [(cancelVoice_status s v v).2] at ht
      cases ht
    rw [(cancelVoice_status s w v).1 hne] at ht
    exact ⟨by simp [hne, hl], ht⟩

/-- What a CANCEL leaves: no entry, no current entry, no measurement and no TUNING voice. -/
theorem cancelled_laws {u : State} (plan : u.tne.plan = []) (current : u.tne.current = none)
    (idle : u.tne.activity = .idle) (away : ∀ v, (u.status v).isTuning = false) :
    PlanLaw (((u.setFailed 0).setLastM none).setMode .halt) where
  nodup := by change u.tne.plan.Pairwise _; rw [plan]; exact .nil
  length := by change u.tne.plan.length ≤ 48; rw [plan]; exact Nat.zero_le _
  tuning v hv := by
    change (u.status v).isTuning = true at hv
    rw [away] at hv
    cases hv
  oneBg v w hv _ := by
    have := isBgTuning_isTuning hv
    change (u.status v).isTuning = true at this
    rw [away] at this
    cases this
  fg e he := by
    change e ∈ u.tne.plan at he
    rw [plan] at he
    cases he
  current c hc := by
    change u.tne.current = some c at hc
    rw [current] at hc
    cases hc
  busy hn := absurd idle hn
  failed v hv := by
    change inSet 0 v = true at hv
    rw [inSet_zero] at hv
    cases hv

theorem tuneCancel_kept (s : State) : EngineKept s (tuneCancel s).1 := by
  obtain ⟨after, plan, tuning⟩ := cancelAll_spec (List.finRange 16) ((abandonCurrent s).setPlan [])
  have rests := (setPlan_rests (abandonCurrent s) []).trans after
  unfold tuneCancel
  rw [ok_fst]
  revert after rests plan tuning
  generalize (List.finRange 16).foldl cancelVoice ((abandonCurrent s).setPlan []) = u
  intro after plan tuning rests
  have away : ∀ v, (u.status v).isTuning = false := fun v => by
    rw [Bool.eq_false_iff]
    exact fun hv => (tuning v hv).1 (List.mem_finRange v)
  refine ⟨fun h => ⟨cancelled_laws plan rests.current
    (rests.activity.trans (abandonCurrent_activity s)) away, ?_⟩, ?_, fun _ hm => absurd rfl hm⟩
  · exact (rests.busLaw (abandonCurrent_busLaw h.2)).congr rfl rfl (.of_eq rfl)
  · exact ((abandonCurrent_steady s).trans rests.steady).trans (.of_same rfl rfl rfl)

end Sys2Proof.Machine
end

