-- ==== Sys2Proof/Proofs/EngineKept.lean ====
section
/-! The events of a measurement, the sweep, the resets and the clock keep the engine's laws, and so does every
step. -/

namespace Sys2Proof.Machine

/-! ## The events of a measurement (R91 to R93) -/

/-- The activity changes between two that hold the bus. -/
theorem setActivity_laws {s : State} {a : Activity} (h : PlanLaw s ∧ BusLaw s)
    (hold : s.tne.activity.holdsBus = true) (ha : a.holdsBus = true) :
    PlanLaw (s.setActivity a) ∧ BusLaw (s.setActivity a) := by
  obtain ⟨planned, busy⟩ := (planLaw_iff s).1 h.1
  have run := h.2.running (holdsBus_notIdle hold)
  obtain ⟨e, c, ew, sw, nw, last⟩ := h.2.held
  have noWait : ∀ b : Activity, b.holdsBus = true → b ≠ .busWait := by
    rintro _ hb rfl
    cases hb
  refine ⟨(planLaw_iff _).2 ⟨planned.congr rfl rfl rfl fun _ => .refl _,
    fun _ => busy (holdsBus_notIdle hold)⟩, h.2.of_engineSide
      ⟨(iff_of_true ha (e.1 hold)), c, iff_of_false ?_ (noWait a ha), sw, nw, last⟩ rfl run rfl .rfl rfl rfl⟩
  exact fun hw => noWait _ hold (ew.1 hw)

theorem settlingExpiry_kept (s : State) : EngineKept s (settlingExpiry s) := by
  unfold settlingExpiry
  split
  · rename_i ha _
    refine ⟨fun h => setActivity_laws h (by rw [ha]; rfl) rfl, ⟨fun h => h.congr rfl rfl, fun _ => ?_⟩,
      fun _ _ hn => by cases hn⟩
    rintro e w x ⟨⟩
    exact ⟨Nat.le_refl _, fun x hx => by cases hx⟩
  · exact .refl s

theorem firstProbeEdge_kept (edge : Edge) (s : State) : EngineKept s (firstProbeEdge edge s) := by
  unfold firstProbeEdge
  split
  · rename_i ha
    split
    · refine ⟨fun h => setActivity_laws h (by rw [ha]; rfl) rfl, ⟨fun h => h.congr rfl rfl, fun h => ?_⟩,
        fun _ _ hn => by cases hn⟩
      rintro e w x ⟨⟩
      refine ⟨(h _ _ _ ha).1, ?_⟩
      rintro x ⟨⟩
      exact ⟨Nat.zero_le _, fun c _ => Nat.two_pow_pos _⟩
    · exact .refl s
  · exact .refl s

theorem gateClose_kept (edge : Edge) (ticks : Nat) (s : State) : EngineKept s (gateClose edge ticks s) := by
  unfold gateClose
  split
  · rename_i kept window x c ha hc
    have hold : s.tne.activity.holdsBus = true := by rw [ha]; rfl
    split
    · exact .refl s
    · split
      · exact endMeasurement_kept hold _
      · split
        · rename_i more
          refine ⟨fun h => setActivity_laws h hold rfl, ⟨fun h => h.congr rfl rfl, fun h => ?_⟩,
            fun _ _ hn => by cases hn⟩
          rintro e w y ⟨⟩
          obtain ⟨hw, hx⟩ := h _ _ _ ha
          refine ⟨hw, ?_⟩
          rintro y ⟨⟩
          refine ⟨(hx _ rfl).1, fun d hd => ?_⟩
          have hd : s.tne.current = some d := hd
          rw [hc] at hd
          cases hd
          exact more
        · exact endMeasurement_kept hold _
  · exact .refl s

theorem gateWindowExpiry_kept (s : State) : EngineKept s (gateWindowExpiry s) := by
  unfold gateWindowExpiry
  split
  · rename_i ha
    exact endMeasurement_kept (by rw [ha]; rfl) _
  · rename_i ha
    exact endMeasurement_kept (by rw [ha]; rfl) _
  · exact .refl s

/-! ## The sweep and its samples (R111, R112) -/

/-- A bus operation by which the engine may gain the bus it waits for, and no more. -/
theorem EngineKept.of_bus {s t : State} (only : BusOnly s t)
    (activity : t.tne.activity = s.tne.activity ∨ (∃ n, t.tne.activity = .settling n) ∧
      (BusLaw s → s.tne.activity = .busWait))
    (bus : BusLaw s → BusLaw t) : EngineKept s t := by
  obtain ⟨plan, mode, current, -, failed⟩ := only.engine
  obtain ⟨-, -, -, val, -, -, -, -, cvo, -⟩ := only.blocks
  have status : ∀ v, t.status v = s.status v := fun v => by
    unfold State.status State.voice; rw [val]
  refine ⟨fun h => ?_, ⟨fun h => h.congr (by rw [cvo]) current, fun h => ?_⟩, fun h hm hn => ?_⟩
  · obtain ⟨planned, busy⟩ := (planLaw_iff s).1 h.1
    refine ⟨(planLaw_iff t).2 ⟨planned.congr plan current failed fun v => by rw [status]; exact .refl _,
      fun hn => ?_⟩, bus h.2⟩
    rw [current]
    refine busy ?_
    rcases activity with e | ⟨-, wait⟩
    · rwa [← e]
    · rw [wait h.2]; simp
  · rcases activity with e | ⟨⟨n, e⟩, -⟩
    · exact h.congr e current
    · exact gateLaw_of_notGating (by rw [e]; rfl)
  · rcases activity with e | ⟨⟨n, e⟩, -⟩
    · rw [mode] at hm
      rw [e] at hn
      obtain ⟨hc, none⟩ := h hm hn
      rw [current]
      refine ⟨hc, ?_⟩
      rw [choose_none_iff] at none ⊢
      rw [plan]
      simpa only [status] using none
    · rw [e] at hn
      cases hn

theorem requestScanner_activity (s : State) :
    (requestBus .scanner s).tne.activity = s.tne.activity := by
  cases hh : s.psc.holder with
  | none => rw [requestBus_free hh]; rfl
  | some x => rw [requestBus_held_scanner hh]; rfl

theorem startSweep_activity (s : State) : (startSweep s).tne.activity = s.tne.activity := by
  rw [startSweep_eq]
  split
  · rfl
  · exact requestScanner_activity _

theorem sweepTimerExpiry_kept {s : State} (run : s.run = .running) :
    EngineKept s (sweepTimerExpiry s) := by
  refine .of_bus ?_ (.inl ?_) fun h => sweepTimerExpiry_busLaw h run
  · unfold sweepTimerExpiry
    simp only
    split
    · exact (setPsc_only s _).trans (startSweep_only _)
    · exact rfl
  · unfold sweepTimerExpiry
    simp only
    split
    · exact startSweep_activity _
    · rfl

theorem releaseScanner_activity (s : State) : (releaseBus .scanner s).tne.activity = s.tne.activity ∨
    (∃ n, (releaseBus .scanner s).tne.activity = .settling n) ∧ (BusLaw s → s.tne.activity = .busWait) := by
  by_cases hold : s.psc.holder = some .scanner
  · cases hw : s.psc.engineWaits with
    | false => rw [releaseBus_scanner_unwaited hold hw]; exact .inl rfl
    | true =>
      rw [releaseBus_scanner_waited hold hw]
      exact .inr ⟨⟨_, rfl⟩, fun h => h.engineWaits.1 hw⟩
  · rw [releaseBus_other hold]; exact .inl rfl

theorem endGroup_kept {s : State} (run : s.run = .running) (scanning : s.psc.phase.holdsBus = true) :
    EngineKept s (endGroup s) := by
  refine .of_bus ?_ ?_ fun h => endGroup_busLaw h run scanning
  · have rested : BusOnly s ((releaseBus .scanner s).setPsc { (releaseBus .scanner s).psc with
        groups := (releaseBus .scanner s).psc.groups.drop 1, phase := .resting }) :=
      (releaseBus_only .scanner s).trans (setPsc_only _ _)
    unfold endGroup
    simp only
    split
    · split
      · exact rested.trans (startSweep_only _)
      · exact rested
    · exact rested.trans (requestBus_only .scanner _)
  · have e : (endGroup s).tne.activity = (releaseBus .scanner s).tne.activity := by
      unfold endGroup
      simp only
      split
      · split
        · exact startSweep_activity _
        · rfl
      · exact requestScanner_activity _
    rw [e]
    exact releaseScanner_activity s

/-- The choice of work leaves the sweep. -/
theorem kick_sweep (s : State) : (kick s).psc.phase = s.psc.phase := by
  unfold kick
  split
  · cases hc : s.tne.current with
    | some c => rw [startNext_current hc]; exact (beginMeasurement_sweep s).1
    | none =>
      cases he : choose s with
      | some e =>
        rw [startNext_chosen hc he]
        refine (beginMeasurement_sweep _).1.trans ?_
        exact congrArg Psc.phase (lentFor_rests e s).psc
      | none => rw [startNext_none hc he]; rfl
  · rfl

/-- The next address of a group is driven: the bus stays with the scanner. -/
theorem nextAddress_kept {s : State} (scanning : s.psc.phase.holdsBus = true) (run : s.run = .running)
    (addr : Fin 16) (n : Nat) :
    EngineKept s (s.setPsc { s.psc with addr := addr, phase := .scanning n }) := by
  refine .of_bus (setPsc_only s _) (.inl rfl) fun h => ?_
  obtain ⟨e, c, ew, sw, nw, last⟩ := h.held
  have notRest : s.psc.phase ≠ .resting := by
    intro hp
    rw [hp] at scanning
    cases scanning
  have notWait : s.psc.phase ≠ .busWait := by
    intro hp
    rw [hp] at scanning
    cases scanning
  refine .of_held
    ⟨e, iff_of_true rfl (c.1 scanning), ew,
      iff_of_false (fun hw => notWait (sw.1 hw)) (by simp [State.setPsc]), nw, last⟩
    run (iff_of_false (fun hg => notRest (h.groups.1 hg)) (by simp [State.setPsc]))
    (fun _ => by simp [State.setPsc]) (h.timer run)

theorem EngineKept.of_freed {s t : State} (run : s.run = .running) (h : Freed s t) : EngineKept s t := by
  obtain h | ⟨u, h, rfl⟩ := h
  · exact .of_moves h
  · have st := h.stands (by simp)
    exact .kick st.plan st.steady (st.same.run.trans run)

theorem scanSample_kept (padc : BitVec 12) (swin : Bool) {s : State} (run : s.run = .running) :
    EngineKept s (scanSample padc swin s) := by
  unfold scanSample
  split
  · rename_i n group rest hp _
    have read := readItem_moves (r := .freeing) (by simp) group s.psc.addr padc swin s
    have st := read.stands (by simp)
    have sampled := EngineKept.of_freed run (.inr ⟨_, read, rfl⟩)
    have scanning : (kick (readItem group s.psc.addr padc swin s)).psc.phase.holdsBus = true := by
      rw [kick_sweep, st.same.bus.phase, hp]; rfl
    have run' : (kick (readItem group s.psc.addr padc swin s)).run = .running := by
      rw [(kick_blocks _).2.1]; exact st.same.run.trans run
    simp only
    split
    · exact sampled.trans (nextAddress_kept scanning run' _ _)
    · exact sampled.trans (endGroup_kept run' scanning)
  · exact .refl s

/-! ## The resets (R195) -/

theorem planLaw_of_reset {s : State} (val : s.val = Val.reset) (tne : s.tne = Tne.reset) : PlanLaw s where
  nodup := by rw [tne]; exact .nil
  length := by rw [tne]; exact Nat.zero_le _
  tuning v hv := by rw [status_of_reset val] at hv; cases hv
  oneBg v w hv := by rw [status_of_reset val] at hv; cases hv
  fg e he := by rw [tne] at he; cases he
  current c hc := by rw [tne] at hc; cases hc
  busy hn := by rw [tne] at hn; exact absurd rfl hn
  failed v hv := by
    rw [tne] at hv
    change inSet 0 v = true at hv
    rw [inSet_zero] at hv
    cases hv

theorem busLaw_of_reset {s : State} (tne : s.tne = Tne.reset) (psc : s.psc = Psc.reset)
    (run : s.run ≠ .running) : BusLaw s := by
  constructor <;> rw [psc] <;> try rw [tne]
  all_goals simp [Psc.reset, Tne.reset, Activity.holdsBus, ScanPhase.holdsBus, run]

theorem trialLaw_of_reset {s : State} (tne : s.tne = Tne.reset) (cvo : s.cvo = Cvo.reset) : TrialLaw s := by
  unfold TrialLaw
  rw [tne, cvo]
  rfl

theorem gateLaw_of_reset {s : State} (tne : s.tne = Tne.reset) : GateLaw s :=
  gateLaw_of_notGating (by rw [tne]; rfl)

theorem eagerLaw_of_reset {s : State} (tne : s.tne = Tne.reset) : EagerLaw s := by
  intro hm
  rw [tne] at hm
  exact absurd rfl hm

theorem enterReset_kept {kind : Running} (frozen : Bool) (s : State) (run : kind ≠ .running) :
    EngineKept s (enterReset kind frozen s) :=
  ⟨fun _ => ⟨planLaw_of_reset rfl rfl, busLaw_of_reset rfl rfl run⟩,
    ⟨fun _ => trialLaw_of_reset rfl rfl, fun _ => gateLaw_of_reset rfl⟩, fun _ => eagerLaw_of_reset rfl⟩

/-- The load at reset does not reach the engine or the voices. -/
theorem loadSystem_blocks (s : State) : (loadSystem s).tne = s.tne ∧ (loadSystem s).psc = s.psc ∧
    (loadSystem s).cvo = s.cvo ∧ (loadSystem s).val = s.val ∧ (loadSystem s).run = s.run := by
  unfold loadSystem
  split <;> exact ⟨rfl, rfl, rfl, rfl, rfl⟩

theorem leaveReset_kept {s : State} (run : s.run ≠ .running) : EngineKept s (leaveReset s) := by
  obtain ⟨tne, psc, cvo, val, run'⟩ := loadSystem_blocks { s with run := .running }
  have only := startSweep_only (recomputeAll (loadSystem { s with run := .running }))
  obtain ⟨plan, mode, current, -, failed⟩ := only.engine
  obtain ⟨-, -, -, val', -, -, -, -, cvo', -⟩ := only.blocks
  have tne : (recomputeAll (loadSystem { s with run := .running })).tne = s.tne := tne
  have activity : (leaveReset s).tne.activity = s.tne.activity :=
    (startSweep_activity _).trans (by rw [tne])
  have plan : (leaveReset s).tne.plan = s.tne.plan := plan.trans (by rw [tne])
  have mode : (leaveReset s).tne.mode = s.tne.mode := mode.trans (by rw [tne])
  have current : (leaveReset s).tne.current = s.tne.current := current.trans (by rw [tne])
  have failed : (leaveReset s).tne.failed = s.tne.failed := failed.trans (by rw [tne])
  have trial : (leaveReset s).cvo.trial = s.cvo.trial := by
    have : (leaveReset s).cvo = s.cvo := cvo'.trans cvo
    rw [this]
  have status : ∀ v, (leaveReset s).status v = s.status v := by
    intro v
    have e : (leaveReset s).status v = (recomputeAll (loadSystem { s with run := .running })).status v := by
      unfold State.status State.voice
      rw [← val']
      rfl
    rw [e]
    unfold recomputeAll
    rw [recompute_status]
    unfold State.status State.voice
    rw [val]
  refine ⟨fun h => ?_, .of_same activity current trial, fun h hm hn => ?_⟩
  · obtain ⟨planned, busy⟩ := (planLaw_iff s).1 h.1
    refine ⟨(planLaw_iff _).2 ⟨planned.congr plan current failed fun v => by rw [status]; exact .refl _, ?_⟩,
      startSweep_busLaw_of_reset h.2 run psc (by rw [tne]) run'⟩
    unfold Busy
    rw [activity, current]
    exact busy
  · rw [mode] at hm
    rw [activity] at hn
    obtain ⟨hc, none⟩ := h hm hn
    rw [current]
    refine ⟨hc, ?_⟩
    rw [choose_none_iff] at none ⊢
    rw [plan]
    simpa only [status] using none

/-! ## The clock -/

theorem elapse_sameTuning (x : VoiceStatus) : SameTuning x x.elapse := by
  obtain h | ⟨n, t, ⟨rfl, h⟩ | ⟨rfl, h⟩⟩ := elapse_cases x <;> rw [h] <;> exact ⟨rfl, rfl, rfl⟩

theorem activity_elapse_holdsBus (a : Activity) : a.elapse.holdsBus = a.holdsBus := by cases a <;> rfl

theorem activity_elapse_idle (a : Activity) : a.elapse = .idle ↔ a = .idle := by
  cases a <;> simp [Activity.elapse]

theorem activity_elapse_busWait (a : Activity) : a.elapse = .busWait ↔ a = .busWait := by
  cases a <;> simp [Activity.elapse]

theorem phase_elapse (x : ScanPhase) : (x.elapse.holdsBus = x.holdsBus) ∧
    (x.elapse = .resting ↔ x = .resting) ∧ (x.elapse = .busWait ↔ x = .busWait) := by
  cases x <;> simp [ScanPhase.elapse, ScanPhase.holdsBus]

theorem elapse_busLaw {s : State} (h : BusLaw s) : BusLaw (elapse s) := by
  obtain ⟨hb, hr, hw⟩ := phase_elapse s.psc.phase
  refine ⟨fun run => ?_, ?_, ?_, ?_, ?_, h.noWaitOnFree, h.last, ?_, ?_, fun run => ?_⟩
  · obtain ⟨a, b, c⟩ := h.reset run
    exact ⟨hr.2 a, (activity_elapse_idle _).2 b, c⟩
  · change s.tne.activity.elapse.holdsBus = true ↔ _
    rw [activity_elapse_holdsBus]
    exact h.engine
  · change s.psc.phase.elapse.holdsBus = true ↔ _
    rw [hb]
    exact h.scanner
  · exact h.engineWaits.trans (activity_elapse_busWait _).symm
  · exact h.scannerWaits.trans hw.symm
  · exact h.groups.trans hr.symm
  · exact fun hp hn => h.pending hp (hr.1 hn)
  · change (fall s.psc.sweepTimer).isSome = true ∨ _
    unfold fall
    rw [Option.isSome_map]
    exact h.timer run

theorem elapse_planLaw {s : State} (h : PlanLaw s) : PlanLaw (elapse s) := by
  obtain ⟨planned, busy⟩ := (planLaw_iff s).1 h
  refine (planLaw_iff _).2 ⟨planned.congr rfl rfl rfl fun v => ?_, fun hn => busy fun hi => hn ?_⟩
  · rw [elapse_status]; exact elapse_sameTuning _
  · exact (activity_elapse_idle _).2 hi

theorem elapse_eagerLaw {s : State} (h : EagerLaw s) : EagerLaw (elapse s) := by
  intro hm hn
  obtain ⟨hc, none⟩ := h hm ((activity_elapse_idle _).1 hn)
  refine ⟨hc, ?_⟩
  rw [choose_none_iff] at none ⊢
  intro e he
  have st := elapse_sameTuning (s.status e.voice)
  rw [elapse_status, st.1, st.2.1, elapse_isFree]
  exact none e he

theorem elapse_gateLaw {s : State} (h : GateLaw s) : GateLaw (elapse s) := by
  intro e w x ha
  change s.tne.activity.elapse = .gating e w x at ha
  cases hs : s.tne.activity with
  | gating e' w' x' =>
    rw [hs] at ha
    simp only [Activity.elapse, Activity.gating.injEq] at ha
    obtain ⟨rfl, rfl, rfl⟩ := ha
    obtain ⟨hw, hx⟩ := h _ _ _ hs
    refine ⟨(Nat.sub_le _ _).trans hw, fun y hy => ?_⟩
    obtain ⟨z, hz, rfl⟩ := Option.map_eq_some_iff.1 hy
    exact ⟨Nat.min_le_left _ _, (hx z hz).2⟩
  | _ => rw [hs] at ha; cases ha

/-! ## Every step -/

theorem engineKept_follows : Follows EngineKept where
  quiet h q := h.trans (.of_moves q.moves)
  sounding h := .of_moves h
  freed run h := .of_freed run h
  noteStart part key vel _ run := noteStart_kept part key vel run
  serviceOff v x _ run := serviceOff_kept v x run
  serviceOn v _ run := serviceOn_kept v run
  minute _ run := minuteEvent_kept run
  tuneAdd voices sources mode _ run := tuneAdd_kept voices sources mode run
  tuneRun a _ run := tuneRun_kept a run
  tuneHalt s _ := tuneHalt_kept s
  tuneStep _ run := tuneStep_kept run
  tuneCancel s _ := tuneCancel_kept s
  settling s _ := settlingExpiry_kept s
  firstEdge e s _ := firstProbeEdge_kept e s
  gateClose e n s _ := gateClose_kept e n s
  window s _ := gateWindowExpiry_kept s
  sweep _ run := sweepTimerExpiry_kept run
  sample x y _ run := scanSample_kept x y run
  reset _ frozen s run := enterReset_kept frozen s run
  exit _ run := leaveReset_kept run

/-- A new queue leaves the engine's laws. -/
theorem pending_engine (s : State) (l : List Instr) : EngineKept s { s with pending := l } :=
  .of_moves (setPending_quiet s l).moves

/-- Settles O57: each function that reaches the plan, the engine or the bus keeps their laws; a voice set
free, or an entry added, is followed by the choice of work. -/
theorem stepsKeepThePlanAndItsVoices : Obligations.StepsKeepThePlanAndItsVoices :=
  ⟨engineKept_follows.kept EngineKept.plan fun _ =>
      tick_keeps (law := fun s => PlanLaw s ∧ BusLaw s)
        (fun _ h => ⟨elapse_planLaw h.1, elapse_busLaw h.2⟩) fun s l => (pending_engine s l).plan,
    engineKept_follows.kept (fun h => h.steady.trial) fun _ =>
      tick_keeps (law := TrialLaw) (fun _ h => h.congr rfl rfl) fun s l => (pending_engine s l).steady.trial,
    engineKept_follows.kept EngineKept.eager fun _ =>
      tick_keeps (law := EagerLaw) (fun _ => elapse_eagerLaw) fun s l => (pending_engine s l).eager,
    engineKept_follows.kept (fun h => h.steady.gate) fun _ =>
      tick_keeps (law := GateLaw) (fun _ => elapse_gateLaw) fun s l => (pending_engine s l).steady.gate⟩

end Sys2Proof.Machine
end

