-- ==== Sys2Proof/Proofs/Resets.lean ====
section
/-! The resets, the slop source, and the form in which a command's outcome is stated. -/

namespace Sys2Proof.Machine

/-! ## The outcome of a command -/

/-- A command that the part hears is taken: its frame, its answer and the turnaround byte (R183, R185). -/
theorem hostCommand_taken {c : Instr} {s : State} {f : State → Answered} (h : hears s = true) :
    hostCommand c s f = .next (taken c (f s).2 (f s).1) := hostCommand_heard h

/-! ## The slop source -/

/-- Settles O23: a command's outcome, the Galois step read bit by bit, and the draw's range. -/
theorem slopSourceAdvancesAndLoads : Obligations.SlopSourceAdvancesAndLoads :=
  ⟨fun _ w h => hostCommand_taken (f := seed w) h, advanceSeed_eq, fun _ => advanceSeed_ne_zero,
    fun l d => ⟨(slopOf_range l d).1, (slopOf_range l d).2, rfl⟩, rfl⟩

/-! ## The resets -/

theorem abortWrite_of_none {s : State} (h : s.smc.write = none) : abortWrite s = s := by
  unfold abortWrite
  rw [h]

theorem enterReset_resetLaw (kind : Running) (frozen : Bool) (s : State) :
    ResetLaw (enterReset kind frozen s) :=
  fun _ => ⟨rfl, rfl, rfl, rfl, rfl, rfl, rfl, rfl, rfl, rfl, rfl⟩

/-- Slots and system area stand where no write was in flight (R168). -/
theorem enterReset_memory {kind : Running} {frozen : Bool} {s : State} (h : s.smc.write = none) :
    (enterReset kind frozen s).smc.slots = s.smc.slots ∧ (enterReset kind frozen s).smc.sys = s.smc.sys := by
  unfold enterReset
  rw [abortWrite_of_none h]
  exact ⟨rfl, rfl⟩

/-- Settles O5: both resets are one function of the kind and of the frozen flag that is kept. -/
theorem resetsGiveEveryBlockItsResetValues : Obligations.ResetsGiveEveryBlockItsResetValues := fun s =>
  ⟨enterReset .inPowerOnReset false s, enterReset .inPinReset s.smc.frozen s, rfl, rfl, rfl, rfl, rfl,
    enterReset_resetLaw _ _ s, rfl, rfl, enterReset_memory⟩

end Sys2Proof.Machine
end

