-- ==== Sys2Proof/Proofs/ResetState.lean ====
section
/-! The state after reset: the values of the spec's tables, and the laws that every step keeps. -/

namespace Sys2Proof.Machine

/-! ## The laws of pitch and calibration at reset -/

theorem reset_codesLaw : CodesLaw State.reset := by
  unfold CodesLaw
  decide +kernel

theorem reset_glide (v : VoiceNo) : State.reset.glide v = Glide.reset := look_replicate _ v

theorem reset_glideLaw : GlideLaw State.reset := by
  intro v
  rw [reset_glide]
  decide +kernel

theorem reset_glideTimerLaw : GlideTimerLaw State.reset := by
  intro v
  rw [reset_glide]
  exact iff_of_false (by decide) (by decide)

theorem reset_overrideLaw : OverrideLaw State.reset :=
  ⟨Nat.zero_le _, .nil, fun _ h => nomatch h⟩

theorem reset_pitchRanges : PitchRanges State.reset := by
  unfold PitchRanges
  decide +kernel

theorem reset_record (n : SourceNo) : State.reset.record n = SourceRec.nominal := look_replicate _ n

theorem nominal_rising : Rising SourceRec.nominal.codes := by
  unfold Rising
  decide +kernel

theorem reset_recordsLaw : RecordsLaw State.reset where
  committed n := by rw [reset_record]; exact nominal_rising
  current _ h := nomatch h
  stored _ h := nomatch h
  staged _ _ h := nomatch h

theorem reset_calRanges : CalRanges State.reset := by
  unfold CalRanges
  decide +kernel

/-! ## The laws of the engine and the bus at reset -/

theorem reset_busLaw : BusLaw State.reset := by
  constructor <;> decide

theorem reset_scanLaw : ScanLaw State.reset := by
  unfold ScanLaw
  decide

/-! ## The laws of the panel, the buffers, the memory and the output at reset -/

theorem reset_pot (q : PotNo) : State.reset.pot q = { acc := 0, stable := none, slot := 0 } :=
  look_replicate _ q

theorem reset_panelRanges : PanelRanges State.reset := by
  refine ⟨fun q => ?_, by decide +kernel, by decide +kernel⟩
  rw [reset_pot]
  exact ⟨Nat.zero_le _, fun _ h => nomatch h⟩

theorem reset_takeover (q : PotNo) (p : Part) : State.reset.takeover q p = .jumpPending := by
  cases p <;> exact look_replicate _ q

theorem reset_caughtLaw : CaughtLaw State.reset := by
  intro q p h
  rw [reset_takeover] at h
  cases h

theorem reset_slotLaw : SlotLaw State.reset := by
  unfold SlotLaw
  decide +kernel

theorem reset_routeLaw : RouteLaw State.reset := by
  unfold RouteLaw
  decide +kernel

theorem reset_codeRange : CodeRange State.reset := by
  unfold CodeRange
  decide +kernel

theorem reset_presented (c : ChannelNo) :
    look State.reset.cvo.presented c = 0 ∧ look State.reset.cvo.trialMark c = false :=
  ⟨look_replicate _ c, look_replicate _ c⟩

theorem reset_presentedLaw : PresentedLaw State.reset := by
  intro c
  obtain ⟨h1, h2⟩ := reset_presented c
  rw [h1, h2]
  exact ⟨Nat.zero_le _, fun h => nomatch h⟩

/-! ## The tabled values -/

theorem reset_codes : ∀ n, look State.reset.ptu.codes n = if n.val % 3 = 2 then 56474 else 24896 :=
  fun n => look_tabulate _ n

theorem reset_routes : (∀ c : ChannelNo, c.val < 80 → (look State.reset.cvo.route c).number = c.val) ∧
    ∀ c : ChannelNo, 80 ≤ c.val → look State.reset.cvo.route c = .zero := by
  decide +kernel

theorem reset_potMap : ∀ q : PotNo, (State.reset.potEntry q).link.isSome = decide (q.val < 80) := by
  decide +kernel

theorem reset_parts (p : Part) : State.reset.val.startOrder.get p = [] ∧
    (State.reset.part p).pool = 0xFFFF ∧ (State.reset.part p).cursor = 15 ∧
    (State.reset.part p).heldKeys = [] ∧ (State.reset.part p).solo = none ∧
    (State.reset.part p).sustain = false := by
  rw [part_of_reset rfl]
  exact ⟨startOrder_of_reset rfl p, rfl, rfl, rfl, rfl, rfl⟩

theorem reset_statusByte : statusByte State.reset = 0x09 := by decide +kernel

/-- Settles O8: each value read off the reset state, each law by the lemma for its block. -/
theorem resetStateHoldsTheTabledValues : Obligations.ResetStateHoldsTheTabledValues :=
  ⟨voice_of_reset rfl, rfl, rfl, reset_parts,
    fun v => by rw [reset_glide]; exact ⟨rfl, rfl, rfl, rfl⟩,
    reset_codes, rfl, rfl, rfl, rfl, rfl, reset_pot, reset_potMap, reset_routes.1, reset_routes.2,
    fun c => (reset_presented c).1, rfl, rfl, reset_statusByte,
    voiceLaw_of_reset rfl, soloLaw_of_reset rfl, heldKeysLaw_of_reset rfl, gapLaw_of_reset rfl,
    allocatorRanges_of_reset rfl, reset_codesLaw, reset_glideLaw, reset_glideTimerLaw, reset_overrideLaw,
    reset_pitchRanges, reset_recordsLaw, reset_calRanges, planLaw_of_reset rfl rfl,
    trialLaw_of_reset rfl rfl, gateLaw_of_reset rfl, eagerLaw_of_reset rfl, reset_busLaw, reset_scanLaw,
    reset_panelRanges, bufferLaw_of_reset rfl, reset_caughtLaw, reset_slotLaw, rfl, fun _ h => (nomatch h),
    reset_routeLaw, reset_codeRange, reset_presentedLaw, fun h => absurd rfl h⟩

end Sys2Proof.Machine
end

