-- ==== Sys2Proof/Proofs/SentVoices.lean ====
section
/-! One voice after another sent to a new state: what the voice records, the lists, the part records and the
gaps become (R3, R18, R19, R21, R31, R38). -/

namespace Sys2Proof.Machine

/-! ## What the note path reaches -/

/-- Only voices, lists, part records and gaps differ, and L is the same. -/
def NotesOnly (s t : State) : Prop :=
  { t with val := s.val, cvo := { t.cvo with gaps := s.cvo.gaps } } = s ∧ t.val.seed = s.val.seed

theorem NotesOnly.refl (s : State) : NotesOnly s s := ⟨rfl, rfl⟩

theorem NotesOnly.trans {s t u : State} (a : NotesOnly s t) (b : NotesOnly t u) : NotesOnly s u := by
  refine ⟨?_, b.2.trans a.2⟩
  have ha := a.1
  rw [← b.1] at ha
  exact ha

theorem NotesOnly.foldl {α : Type} {f : State → α → State} (h : ∀ s x, NotesOnly s (f s x)) (l : List α)
    (s : State) : NotesOnly s (l.foldl f s) := by
  induction l generalizing s with
  | nil => exact .refl s
  | cons x l ih => exact (h s x).trans (ih _)

section
variable {s t : State}

theorem NotesOnly.frame (h : NotesOnly s t) : NoteFrame s t := by
  obtain ⟨h, -⟩ := h
  rw [← h]
  constructor <;> first | rfl | exact ⟨rfl, rfl⟩ | exact ⟨rfl, rfl, rfl⟩

/-- The blocks beside the Voice Allocator's that stand. -/
theorem NotesOnly.stands (h : NotesOnly s t) :
    t.tne = s.tne ∧ t.psc = s.psc ∧ t.cvo.trial = s.cvo.trial ∧ t.ptu = s.ptu ∧ t.val.seed = s.val.seed := by
  obtain ⟨h, seed⟩ := h
  refine ⟨?_, ?_, ?_, ?_, seed⟩ <;> rw [← h]

theorem NotesOnly.ebu (h : NotesOnly s t) : t.ebu = s.ebu := h.frame.ebu

end

/-! ## Voices dropped from a solo group (R31) -/

/-- A group without the voices of a list; with its last member it becomes absent. -/
def soloDrops (l : List VoiceNo) (g : Option VoiceSet) : Option VoiceSet :=
  l.foldl (fun g v => soloDrop v g) g

/-- The voice is a member of a group that is present. -/
def memberOf (g : Option VoiceSet) (v : VoiceNo) : Prop := ∃ m, g = some m ∧ inSet m v = true

theorem memberOf_soloDrop (v w : VoiceNo) (g : Option VoiceSet) :
    memberOf (soloDrop v g) w ↔ w ≠ v ∧ memberOf g w := by
  constructor
  · rintro ⟨m, hm, hw⟩
    obtain ⟨m₀, rfl, rfl, -⟩ := soloDrop_eq_some hm
    rw [inSet_setDrop, Bool.and_eq_true, bne_iff_ne] at hw
    exact ⟨hw.2, m₀, rfl, hw.1⟩
  · rintro ⟨hne, m, rfl, hw⟩
    have hin : inSet (setDrop m v) w = true := by
      rw [inSet_setDrop, Bool.and_eq_true, bne_iff_ne]; exact ⟨hw, hne⟩
    refine ⟨setDrop m v, ?_, hin⟩
    unfold soloDrop
    simp only
    rw [if_neg]
    intro h0
    rw [h0, inSet_zero] at hin
    cases hin

theorem memberOf_soloDrops (l : List VoiceNo) (g : Option VoiceSet) (w : VoiceNo) :
    memberOf (soloDrops l g) w ↔ w ∉ l ∧ memberOf g w := by
  induction l generalizing g with
  | nil => simp [soloDrops]
  | cons v l ih =>
    have := ih (soloDrop v g)
    rw [memberOf_soloDrop] at this
    rw [List.mem_cons, not_or]
    exact this.trans ⟨fun ⟨h1, h2, h3⟩ => ⟨⟨h2, h1⟩, h3⟩, fun ⟨⟨h2, h1⟩, h3⟩ => ⟨h1, h2, h3⟩⟩

theorem soloDrops_ne_zero {l : List VoiceNo} {g : Option VoiceSet} (hg : ∀ m, g = some m → m ≠ 0) :
    ∀ h, soloDrops l g = some h → h ≠ 0 := by
  induction l generalizing g with
  | nil => exact hg
  | cons v l ih =>
    refine ih fun m hm => ?_
    obtain ⟨-, -, -, h0⟩ := soloDrop_eq_some hm
    exact h0

theorem setDrop_eq_self {m : VoiceSet} {v : VoiceNo} (h : inSet m v = false) : setDrop m v = m := by
  apply BitVec.eq_of_getLsbD_eq
  intro i hi
  have := inSet_setDrop m v ⟨i, hi⟩
  have own : inSet m ⟨i, hi⟩ = true → (⟨i, hi⟩ : VoiceNo) ≠ v := by
    rintro hm rfl
    rw [h] at hm
    cases hm
  unfold inSet at this own
  rw [this]
  cases hm : m.getLsbD i with
  | false => rfl
  | true => simpa using own hm

/-- A group that has a member, and none of the list, stays as it is. -/
theorem soloDrops_eq_self {l : List VoiceNo} {g : Option VoiceSet} (hg : ∀ m, g = some m → m ≠ 0)
    (hl : ∀ v ∈ l, ¬ memberOf g v) : soloDrops l g = g := by
  induction l with
  | nil => rfl
  | cons v l ih =>
    have own : soloDrop v g = g := by
      cases g with
      | none => rfl
      | some m =>
        have hv : inSet m v = false := by
          rw [Bool.eq_false_iff]
          exact fun h => hl v List.mem_cons_self ⟨m, rfl, h⟩
        unfold soloDrop
        simp only
        rw [setDrop_eq_self hv, if_neg (hg m rfl)]
    have e : soloDrops (v :: l) g = soloDrops l (soloDrop v g) := rfl
    rw [e, own]
    exact ih fun w hw => hl w (List.mem_cons_of_mem v hw)

/-! ## A voice is sent to a state -/

/-- The voice leaves the lists of bound and FREE voices: it is FREE anew, TUNING or PARKED. -/
def VoiceStatus.leaves : VoiceStatus → Bool
  | .bound _ _ => false
  | _ => true

/-- A voice goes to a state: FREE at the free-list tail, RELEASING at the release-order tail, TUNING or PARKED
off every list, or bound in another phase. -/
def State.send (s : State) (v : VoiceNo) (x : VoiceStatus) : State :=
  match x with
  | .free => s.enterFree v
  | .bound n (.releasing t) =>
    let s := (s.setStatus v (.bound n (.releasing t))).setGap v none
    s.setReleaseOrder (without v s.val.releaseOrder ++ [v])
  | .bound n ph => s.setStatus v (.bound n ph)
  | x => (s.detach v).setStatus v x

theorem enterReleasing_send {s : State} {v : VoiceNo} {n : Note} {ph : BoundPhase} (tail : Nat)
    (h : s.status v = .bound n ph) : s.enterReleasing v tail = s.send v (.bound n (.releasing tail)) := by
  unfold State.enterReleasing
  rw [h]
  rfl

section
variable (s : State) (v : VoiceNo) (x : VoiceStatus)

theorem send_only : NotesOnly s (s.send v x) := by
  rcases x with _ | ⟨n, _ | _ | _ | _⟩ | _ | _ <;> exact ⟨rfl, rfl⟩

theorem send_voice (w : VoiceNo) :
    (s.send v x).voice w = if w = v then { s.voice v with status := x } else s.voice w := by
  rcases x with _ | ⟨n, _ | _ | _ | _⟩ | _ | _ <;> exact look_put ..

theorem send_gap (w : VoiceNo) : look (s.send v x).cvo.gaps w =
    if w = v ∧ (x.leaves = true ∨ x.isReleasing = true) then none else look s.cvo.gaps w := by
  have gone : look (put s.cvo.gaps v none) w = if w = v then none else look s.cvo.gaps w := look_put ..
  rcases x with _ | ⟨n, _ | _ | _ | _⟩ | _ | _
  case bound.held => exact (if_neg (by simp [VoiceStatus.leaves, VoiceStatus.isReleasing])).symm
  case bound.sustained => exact (if_neg (by simp [VoiceStatus.leaves, VoiceStatus.isReleasing])).symm
  case bound.muting => exact (if_neg (by simp [VoiceStatus.leaves, VoiceStatus.isReleasing])).symm
  all_goals
    refine gone.trans ?_
    simp [VoiceStatus.leaves, VoiceStatus.isReleasing]

theorem send_freeList : (s.send v x).val.freeList =
    (if x.leaves then without v s.val.freeList else s.val.freeList) ++ if x.isFree then [v] else [] := by
  rcases x with _ | ⟨n, _ | _ | _ | _⟩ | _ | _ <;>
    simp [State.send, VoiceStatus.leaves, VoiceStatus.isFree, State.enterFree, State.setFreeList,
      State.setStatus, State.setVoice, State.detach, State.setGap, State.setReleaseOrder]

theorem send_releaseOrder : (s.send v x).val.releaseOrder =
    (if x.leaves || x.isReleasing then without v s.val.releaseOrder else s.val.releaseOrder) ++
      if x.isReleasing then [v] else [] := by
  rcases x with _ | ⟨n, _ | _ | _ | _⟩ | _ | _ <;>
    simp [State.send, VoiceStatus.leaves, VoiceStatus.isReleasing, State.enterFree, State.setFreeList,
      State.setStatus, State.setVoice, State.detach, State.setGap, State.setReleaseOrder]

theorem send_startOrder (q : Part) : (s.send v x).val.startOrder.get q =
    if x.leaves then without v (s.val.startOrder.get q) else s.val.startOrder.get q := by
  rcases x with _ | ⟨n, _ | _ | _ | _⟩ | _ | _ <;> cases q <;> rfl

theorem send_part (q : Part) : (s.send v x).part q =
    if x.leaves then { s.part q with solo := soloDrop v (s.part q).solo } else s.part q := by
  rcases x with _ | ⟨n, _ | _ | _ | _⟩ | _ | _ <;> cases q <;> rfl

theorem send_status (w : VoiceNo) : (s.send v x).status w = if w = v then x else s.status w := by
  unfold State.status
  rw [send_voice]
  split <;> rfl

end

/-! ## Voices sent one after another -/

/-- Each voice of a list goes to its state. -/
def State.sendAll (s : State) (F : VoiceNo → VoiceStatus) (l : List VoiceNo) : State :=
  l.foldl (fun s v => s.send v (F v)) s

section
variable (s : State) (F : VoiceNo → VoiceStatus) (l : List VoiceNo)

theorem sendAll_cons (v : VoiceNo) : s.sendAll F (v :: l) = (s.send v (F v)).sendAll F l := rfl

theorem sendAll_only : NotesOnly s (s.sendAll F l) := NotesOnly.foldl (fun s v => send_only s v (F v)) l s

theorem sendAll_voice (w : VoiceNo) :
    (s.sendAll F l).voice w = if w ∈ l then { s.voice w with status := F w } else s.voice w := by
  induction l generalizing s with
  | nil => rfl
  | cons v l ih =>
    rw [sendAll_cons, ih, send_voice]
    by_cases hw : w = v
    · subst hw
      simp
    · simp [hw]

theorem sendAll_gap (w : VoiceNo) : look (s.sendAll F l).cvo.gaps w =
    if w ∈ l ∧ ((F w).leaves = true ∨ (F w).isReleasing = true) then none else look s.cvo.gaps w := by
  induction l generalizing s with
  | nil => simp [State.sendAll]
  | cons v l ih =>
    rw [sendAll_cons, ih, send_gap]
    by_cases hw : w = v
    · subst hw
      by_cases hx : (F w).leaves = true ∨ (F w).isReleasing = true <;> simp [hx]
    · simp [hw]

/-- Voices taken off a list one after another, and put at its tail where they belong there. -/
def listAfter (off on : VoiceNo → Bool) (l : List VoiceNo) (m : List VoiceNo) : List VoiceNo :=
  m.filter (fun w => !(decide (w ∈ l) && off w)) ++ l.filter on

theorem listAfter_cons {off on : VoiceNo → Bool} {v : VoiceNo} {l m : List VoiceNo} (hv : v ∉ l) :
    listAfter off on l ((if off v then without v m else m) ++ if on v then [v] else []) =
      listAfter off on (v :: l) m := by
  unfold listAfter
  have tail : (if on v then [v] else []).filter (fun w => !(decide (w ∈ l) && off w)) =
      if on v then [v] else [] := by
    split
    · simp [hv]
    · rfl
  have body : (if off v then without v m else m).filter (fun w => !(decide (w ∈ l) && off w)) =
      m.filter fun w => !(decide (w ∈ v :: l) && off w) := by
    split
    · rename_i hoff
      unfold without
      rw [List.filter_filter]
      refine List.filter_congr fun w _ => ?_
      by_cases hw : w = v
      · subst hw; simp [hoff]
      · simp [hw]
    · rename_i hoff
      refine List.filter_congr fun w _ => ?_
      by_cases hw : w = v
      · subst hw; simp [hoff]
      · simp [hw]
  rw [List.filter_append, tail, body, List.append_assoc]
  congr 1
  rw [List.filter_cons]
  split <;> rfl

theorem listAfter_nil (off on : VoiceNo → Bool) (m : List VoiceNo) : listAfter off on [] m = m := by
  simp [listAfter]

variable {l}

theorem sendAll_freeList (nd : l.Nodup) : (s.sendAll F l).val.freeList =
    listAfter (fun w => (F w).leaves) (fun w => (F w).isFree) l s.val.freeList := by
  induction l generalizing s with
  | nil => exact (listAfter_nil _ _ _).symm
  | cons v l ih =>
    obtain ⟨hv, nd⟩ := List.nodup_cons.1 nd
    rw [sendAll_cons, ih _ nd, send_freeList]
    exact listAfter_cons hv

theorem sendAll_releaseOrder (nd : l.Nodup) : (s.sendAll F l).val.releaseOrder =
    listAfter (fun w => (F w).leaves || (F w).isReleasing) (fun w => (F w).isReleasing) l
      s.val.releaseOrder := by
  induction l generalizing s with
  | nil => exact (listAfter_nil _ _ _).symm
  | cons v l ih =>
    obtain ⟨hv, nd⟩ := List.nodup_cons.1 nd
    rw [sendAll_cons, ih _ nd, send_releaseOrder]
    exact listAfter_cons hv

theorem sendAll_startOrder (nd : l.Nodup) (q : Part) : (s.sendAll F l).val.startOrder.get q =
    (s.val.startOrder.get q).filter fun w => !(decide (w ∈ l) && (F w).leaves) := by
  have all : (s.sendAll F l).val.startOrder.get q =
      listAfter (fun w => (F w).leaves) (fun _ => false) l (s.val.startOrder.get q) := by
    induction l generalizing s with
    | nil => exact (listAfter_nil _ _ _).symm
    | cons v l ih =>
      obtain ⟨hv, nd⟩ := List.nodup_cons.1 nd
      rw [sendAll_cons, ih _ nd, send_startOrder]
      have := listAfter_cons (off := fun w => (F w).leaves) (on := fun _ => false)
        (m := s.val.startOrder.get q) hv
      simpa using this
  rw [all]
  simp [listAfter]

theorem sendAll_part (q : Part) : (s.sendAll F l).part q = { s.part q with
    solo := soloDrops (l.filter fun w => (F w).leaves) (s.part q).solo } := by
  induction l generalizing s with
  | nil => rfl
  | cons v l ih =>
    rw [sendAll_cons, ih, send_part, List.filter_cons]
    split <;> rfl

end

/-! ## Folds that send -/

/-- What the operations that send a voice read of a state: the voice's state, the patches and the sustain
settings. -/
structure Agrees (s t : State) (v : VoiceNo) : Prop where
  status : t.status v = s.status v
  ebu : t.ebu = s.ebu
  sustain : ∀ q, (t.part q).sustain = (s.part q).sustain

theorem Agrees.patch {s t : State} {v : VoiceNo} (h : Agrees s t v) (p : Part) : t.patch p = s.patch p := by
  unfold State.patch
  rw [h.ebu]

/-- Operations that send each voice of a list to a state told by the state before them all. -/
theorem foldl_eq_sendAll {s : State} {f : State → VoiceNo → State} {F : VoiceNo → VoiceStatus}
    {l : List VoiceNo} (nd : l.Nodup) (h : ∀ t v, v ∈ l → Agrees s t v → f t v = t.send v (F v)) :
    l.foldl f s = s.sendAll F l := by
  suffices go : ∀ (m : List VoiceNo) (t : State), m.Nodup → m ⊆ l → (∀ v ∈ m, Agrees s t v) →
      m.foldl f t = t.sendAll F m from
    go l s nd (fun _ h => h) fun v _ => ⟨rfl, rfl, fun _ => rfl⟩
  intro m
  induction m with
  | nil => exact fun _ _ _ _ => rfl
  | cons v m ih =>
    intro t nd hm ha
    obtain ⟨hv, nd⟩ := List.nodup_cons.1 nd
    obtain ⟨hvl, hml⟩ := List.cons_subset.1 hm
    rw [List.foldl_cons, h t v hvl (ha v List.mem_cons_self), sendAll_cons]
    refine ih _ nd hml fun w hw => ?_
    obtain ⟨status, ebu, sustain⟩ := ha w (List.mem_cons_of_mem v hw)
    refine ⟨?_, (send_only t v (F v)).ebu.trans ebu, fun q => ?_⟩
    · rw [send_status, if_neg (fun e : w = v => hv (e ▸ hw))]
      exact status
    · rw [send_part]
      split <;> exact sustain q

end Sys2Proof.Machine
end

