-- ==== Sys2Proof/Proofs/Expiries.lean ====
section
/-! The expiries of a voice's times, note pressure and sustain (R17, R19, R20, R38, R39). -/

namespace Sys2Proof.Machine

/-! ## Lists that voices leave -/

theorem listAfter_of_disjoint {off on : VoiceNo → Bool} {l m : List VoiceNo}
    (h : ∀ w ∈ m, w ∈ l → off w = false) : listAfter off on l m = m ++ l.filter on := by
  unfold listAfter
  congr 1
  refine List.filter_eq_self.2 fun w hw => ?_
  by_cases hl : w ∈ l
  · simp [h w hw hl]
  · simp [hl]

theorem without_eq (v : VoiceNo) (l : List VoiceNo) : without v l = l.filter fun w => w ≠ v :=
  List.filter_congr fun w _ => by rw [Bool.eq_iff_iff]; simp

/-- FREE is none of the phases of a bound voice. -/
theorem onPart_not_free {x : VoiceStatus} {p : Part} (h : x.onPart p = true) : x.isFree = false := by
  cases x <;> first | rfl | cases h

theorem isReleasing_bound {x : VoiceStatus} (h : x.isReleasing = true) :
    ∃ n t, x = .bound n (.releasing t) := by
  unfold VoiceStatus.isReleasing at h
  split at h
  · exact ⟨_, _, rfl⟩
  · cases h

theorem isMuting_bound {x : VoiceStatus} (h : x.isMuting = true) : ∃ n t, x = .bound n (.muting t) := by
  unfold VoiceStatus.isMuting at h
  split at h
  · exact ⟨_, _, rfl⟩
  · cases h

theorem isHeld_bound {x : VoiceStatus} (h : x.isHeld = true) : ∃ n, x = .bound n .held := by
  unfold VoiceStatus.isHeld at h
  split at h
  · exact ⟨_, rfl⟩
  · cases h

theorem isSustained_bound {x : VoiceStatus} (h : x.isSustained = true) : ∃ n, x = .bound n .sustained := by
  unfold VoiceStatus.isSustained at h
  split at h
  · exact ⟨_, rfl⟩
  · cases h

/-! ## Expiries -/

section
variable {s : State} {v : VoiceNo}

theorem dampExpiry_muting {n : Note} {d : Nat} (h : s.status v = .bound n (.muting d)) :
    dampExpiry v s = s.setVoice v { s.voice v with status := .bound n .held } := by
  unfold dampExpiry State.setPhase
  rw [h]
  rfl

theorem dampExpiry_else (h : (s.status v).isMuting = false) : dampExpiry v s = s :=
  if_neg (by rw [h]; exact Bool.false_ne_true)

theorem tailExpiry_releasing {n : Note} {d : Nat} (h : s.status v = .bound n (.releasing d)) :
    tailExpiry v s = kick (s.send v .free) :=
  if_pos (by rw [h]; rfl)

theorem tailExpiry_else (h : (s.status v).isReleasing = false) : tailExpiry v s = s :=
  if_neg (by rw [h]; exact Bool.false_ne_true)

/-- A gap that no restart has overtaken ends, and one that is absent stays so. -/
theorem gapExpiry_ends (h : ∀ x, look s.cvo.gaps v = some x → x.late = false) :
    gapExpiry v s = s.setGap v none := by
  unfold gapExpiry
  cases hx : look s.cvo.gaps v with
  | none => rfl
  | some x =>
    have own : x.expire = none := by simp [Countdown.expire, h x hx]
    rw [Option.bind_some, own]

theorem gapExpiry_overtaken {x : Countdown} (hx : look s.cvo.gaps v = some x) (h : x.late = true) :
    gapExpiry v s = s.setGap v (some { x with late := false }) := by
  unfold gapExpiry
  rw [hx, Option.bind_some, Countdown.expire, if_pos h]

theorem restart_late (old : Option Countdown) (ticks : Nat) :
    (restart old ticks).late = true ↔ ∃ x, old = some x ∧ (x.left = 0 ∨ x.late = true) := by
  cases old with
  | none => exact ⟨fun h => (nomatch h), fun ⟨_, h, _⟩ => (nomatch h)⟩
  | some x => simp [restart, or_comm]

/-- A voice sent to FREE is a member of no solo group. -/
theorem send_free_solo {p : Part} {g : VoiceSet} (hg : ((s.send v .free).part p).solo = some g) :
    inSet g v = false := by
  rw [Bool.eq_false_iff]
  intro hv
  have hm : memberOf ((s.send v .free).part p).solo v := ⟨g, hg, hv⟩
  rw [send_part] at hm
  exact ((memberOf_soloDrop v v _).1 hm).1 rfl

end

/-- Settles O26: an expiry that finds its state moves the voice by one operation, any other does nothing;
the tail expiry's lists are read with the law of the lists, which has a RELEASING voice off the free list. -/
theorem expiriesMoveTheVoiceOn : Obligations.ExpiriesMoveTheVoiceOn := by
  intro s v run
  have ran (f : State → State) : event s f = .next (f s) := event_running run
  refine ⟨fun n d h => ?_, fun h => ?_, fun n d h lists => ⟨s.send v .free, ?_, (send_only s v _).frame, ?_⟩,
    fun h => ?_, fun h => ?_, fun x hx h => ?_, fun old ticks => ⟨rfl, restart_late old ticks⟩⟩
  · exact (ran _).trans (congrArg _ (dampExpiry_muting h))
  · exact (ran _).trans (congrArg _ (dampExpiry_else h))
  · exact (ran _).trans (congrArg _ (tailExpiry_releasing h))
  · obtain ⟨tne, psc, trial, ptu, seed⟩ := (send_only s v .free).stands
    have notFree : v ∉ s.val.freeList := by
      rw [lists.free, h]
      exact Bool.false_ne_true
    refine ⟨tne, psc, trial, ptu, seed, ?_, fun w hw => ⟨?_, ?_⟩, ?_, ?_, fun p => ?_, fun p => ⟨?_, ?_⟩⟩
    · exact (send_voice ..).trans (if_pos rfl)
    · exact (send_voice ..).trans (if_neg hw)
    · exact (send_gap ..).trans (if_neg fun h => hw h.1)
    · rw [send_freeList]
      exact congrArg (· ++ [v]) (without_eq_self notFree)
    · rw [send_releaseOrder]
      exact (List.append_nil _).trans (without_eq v _)
    · exact (send_startOrder ..).trans (without_eq v _)
    · rw [send_part]
      rfl
    · exact fun g => send_free_solo
  · exact (ran _).trans (congrArg _ (tailExpiry_else h))
  · exact (ran _).trans (congrArg _ (gapExpiry_ends h))
  · exact (ran _).trans (congrArg _ (gapExpiry_overtaken hx h))

end Sys2Proof.Machine
end

