-- ==== Sys2Proof/Proofs/PressureAndSustain.lean ====
section
/-! Note pressure and sustain (R20, R38, R19). -/

namespace Sys2Proof.Machine

/-! ## Note pressure -/

/-- Notes rewritten one after another: the voice records differ and nothing else. -/
theorem modNotes_only (f : Note → Note) (l : List VoiceNo) (s : State) :
    { l.foldl (fun s v => s.modNote v f) s with
      val := { (l.foldl (fun s v => s.modNote v f) s).val with voices := s.val.voices } } = s := by
  induction l generalizing s with
  | nil => rfl
  | cons v l ih =>
    rw [List.foldl_cons, modNote_eq]
    have rest := congrArg (fun t : State => { t with val := { t.val with voices := s.val.voices } })
      (ih (s.setStatus v ((s.status v).withNote f)))
    exact rest

theorem modNotes_voice (f : Note → Note) {l : List VoiceNo} (nd : l.Nodup) (s : State) (w : VoiceNo) :
    (l.foldl (fun s v => s.modNote v f) s).voice w =
      if w ∈ l then { s.voice w with status := (s.status w).withNote f } else s.voice w := by
  induction l generalizing s with
  | nil => rfl
  | cons v l ih =>
    obtain ⟨hv, nd⟩ := List.nodup_cons.1 nd
    rw [List.foldl_cons, ih nd, modNote_eq, setStatus_status, setStatus_voice]
    by_cases hw : w = v
    · subst hw
      simp [hv]
    · simp [hw]

section
variable {s : State} {p : Part} {k : Nat}

/-- The voices on a key of a part that sound, off the start-order list (R3). -/
theorem soundingOn_iff (h : VoiceLaw s) (v : VoiceNo) : v ∈ soundingOn s p k ↔
    ((s.status v).onKey p k && (s.status v).isSounding) = true := by
  rw [soundingOn_mem, Bool.and_eq_true, h.start]
  exact ⟨And.right, fun hv => ⟨onKey_onPart hv.1, hv⟩⟩

theorem soundingOn_nodup (h : VoiceLaw s) : (soundingOn s p k).Nodup :=
  byUnison_nodup ((h.startNodup p).filter _)

theorem notePressure_none (hk : k ≤ 127) (x : Byte) (h : soundingOn s p k = []) :
    notePressure (partByte p) (b1 k) x s = refuse s .unknownNote 0 := by
  unfold notePressure
  rw [part?_partByte, key?_b1 hk]
  simp only [h]

theorem notePressure_some (hk : k ≤ 127) (x : Byte) (h : soundingOn s p k ≠ []) :
    notePressure (partByte p) (b1 k) x s = ok ((soundingOn s p k).foldl
      (fun s v => s.modNote v fun n => { n with pressure := min 127 x.toNat }) s) [] := by
  unfold notePressure
  rw [part?_partByte, key?_b1 hk]
  cases hl : soundingOn s p k with
  | nil => exact absurd hl h
  | cons v l => simp only [hl]

end

/-- R20: the sounding voices of the key take the pressure, or the answer is UNKNOWN NOTE. -/
theorem notePressure_writes {s : State} {p : Part} {k : Nat} (x : Byte) (hears : hears s = true)
    (lists : VoiceLaw s) (hk : k ≤ 127) :
    let c : Instr := .notePressure (partByte p) (b1 k) x
    let reached := fun v => (s.status v).onKey p k && (s.status v).isSounding
    ((∀ v, reached v = false) → exec c s = .next (taken c [0x02] s)) ∧
    ((∃ v, reached v = true) → ∃ voices : Vector Voice 16,
      exec c s = .next (taken c [0x00] { s with val := { s.val with voices := voices } }) ∧
      (∀ v, reached v = false → look voices v = s.voice v) ∧
      (∀ v n ph, reached v = true → s.status v = .bound n ph → look voices v =
        { s.voice v with status := .bound { n with pressure := min 127 x.toNat } ph })) := by
  intro c reached
  have out : exec c s = .next (taken c (notePressure (partByte p) (b1 k) x s).2
    (notePressure (partByte p) (b1 k) x s).1) := hostCommand_taken hears
  have mem : ∀ v, v ∈ soundingOn s p k ↔ reached v = true := soundingOn_iff lists
  refine ⟨fun none => ?_, fun ⟨v, hv⟩ => ?_⟩
  · have empty : soundingOn s p k = [] := List.eq_nil_iff_forall_not_mem.2 fun v hv => by
      have := (mem v).1 hv
      rw [none v] at this
      cases this
    rw [out, notePressure_none hk x empty]
    rfl
  · have voice := modNotes_voice (fun n => { n with pressure := min 127 x.toNat })
      (soundingOn_nodup (p := p) (k := k) lists) s
    have only := modNotes_only (fun n => { n with pressure := min 127 x.toNat }) (soundingOn s p k) s
    rw [out, notePressure_some hk x (List.ne_nil_of_mem ((mem v).2 hv))]
    revert voice only
    generalize (soundingOn s p k).foldl _ s = t
    intro voice only
    have same : t = { s with val := { s.val with voices := t.val.voices } } :=
      congrArg (fun u : State => { u with val := { u.val with voices := t.val.voices } }) only
    refine ⟨t.val.voices, congrArg (fun t => Host.Outcome.next (taken c [0x00] t)) same, fun w hw => ?_,
      fun w n ph hw hs => ?_⟩
    · exact (voice w).trans (if_neg fun h => by rw [(mem w).1 h] at hw; cases hw)
    · refine (voice w).trans ((if_pos ((mem w).2 hw)).trans ?_)
      rw [hs]
      rfl

/-! ## Sustain -/

/-- Voices sent to states that leave no list of bound or FREE voices: those lists and the part records
stand. -/
theorem sendAll_bound {s : State} {F : VoiceNo → VoiceStatus} {l : List VoiceNo} (nd : l.Nodup)
    (h : ∀ v ∈ l, (F v).leaves = false) : (s.sendAll F l).val.freeList = s.val.freeList ∧
      (s.sendAll F l).val.startOrder = s.val.startOrder ∧ ∀ q, (s.sendAll F l).part q = s.part q := by
  have none : l.filter (fun v => (F v).leaves) = [] :=
    List.filter_eq_nil_iff.2 fun v hv => by rw [h v hv]; exact Bool.false_ne_true
  have noneFree : l.filter (fun v => (F v).isFree) = [] :=
    List.filter_eq_nil_iff.2 fun v hv hf => by
      have := h v hv
      revert hf this
      cases F v <;> simp [VoiceStatus.isFree, VoiceStatus.leaves]
  have order : ∀ q, (s.sendAll F l).val.startOrder.get q = s.val.startOrder.get q := fun q => by
    rw [sendAll_startOrder s F nd]
    refine List.filter_eq_self.2 fun w _ => ?_
    by_cases hw : w ∈ l
    · simp [h w hw]
    · simp [hw]
  refine ⟨?_, ?_, fun q => ?_⟩
  · rw [sendAll_freeList s F nd, listAfter_of_disjoint fun w _ => h w, noneFree, List.append_nil]
  · exact congrArg₂ ByPart.mk (order .A) (order .B)
  · rw [sendAll_part s F, none]
    rfl

/-- Where a release leaves a voice of a part: a bound one RELEASING with this tail. -/
def releasedTo (s : State) (tail : Nat) (v : VoiceNo) : VoiceStatus := (s.status v).inPhase (.releasing tail)

/-- The release of SUSTAINED voices sends each to RELEASING (R38). -/
theorem releaseSustained_eq {s : State} (lists : VoiceLaw s) (p : Part) : releaseSustained p s =
    s.sendAll (releasedTo s (s.patch p).releaseTicks)
      ((s.val.startOrder.get p).filter fun v => (s.status v).isSustained) := by
  refine foldl_eq_sendAll ((lists.startNodup p).filter _) fun t v hv agree => ?_
  obtain ⟨n, hn⟩ := isSustained_bound (List.mem_filter.1 hv).2
  rw [agree.patch, enterReleasing_send _ (agree.status.trans hn)]
  unfold releasedTo
  rw [hn]
  rfl

section
variable {s : State} {p : Part}

theorem sustain_eq (b : Bool) : sustain (partByte p) (flag b) s =
    if (s.part p).sustain = b then ok s []
    else
      let s := s.modPart p fun r => { r with sustain := b }
      ok (if b then s else releaseSustained p s) [] := by
  unfold sustain
  rw [part?_partByte, onOff?_flag]

theorem modPart_self {f : PartRec → PartRec} (h : f (s.part p) = s.part p) : s.modPart p f = s := by
  have parts : s.val.parts.modify p f = s.val.parts := by
    unfold State.part at h
    cases p
    · exact congrArg (fun x => ({ s.val.parts with a := x } : ByPart PartRec)) h
    · exact congrArg (fun x => ({ s.val.parts with b := x } : ByPart PartRec)) h
  unfold State.modPart
  rw [parts]

theorem VoiceLaw.modPart (h : VoiceLaw s) (f : PartRec → PartRec) : VoiceLaw (s.modPart p f) :=
  ⟨h.freeNodup, h.free, h.startNodup, h.start, h.releaseNodup, h.release⟩

end

/-- R38: SUSTAIN on changes the setting; off releases the SUSTAINED voices, in start order. -/
theorem sustain_reaches (s : State) (p : Part) (hears : hears s = true) (lists : VoiceLaw s) :
    let up : Instr := .sustain (partByte p) 1
    let off : Instr := .sustain (partByte p) 0
    (exec up s = .next (taken up [0x00] (s.modPart p fun r => { r with sustain := true }))) ∧
    ((s.part p).sustain = false → exec off s = .next (taken off [0x00] s)) ∧
    ((s.part p).sustain = true → ∃ t, exec off s = .next (taken off [0x00] t) ∧
      NoteFrame s t ∧ t.tne = s.tne ∧ t.psc = s.psc ∧ t.cvo.trial = s.cvo.trial ∧ t.ptu = s.ptu ∧
      t.val.freeList = s.val.freeList ∧ t.val.startOrder = s.val.startOrder ∧
      t.val.seed = s.val.seed ∧
      (∀ q, t.part q = if q = p then { s.part p with sustain := false } else s.part q) ∧
      t.val.releaseOrder = s.val.releaseOrder ++
        (s.val.startOrder.get p).filter (fun v => (s.status v).isSustained) ∧
      (∀ v, ((s.status v).onPart p && (s.status v).isSustained) = false →
        t.voice v = s.voice v ∧ look t.cvo.gaps v = look s.cvo.gaps v) ∧
      (∀ v n, s.status v = .bound n .sustained → n.part = p →
        t.voice v = { s.voice v with
          status := .bound n (.releasing ((s.patch p).releaseMs * 8000)) } ∧
        look t.cvo.gaps v = none)) := by
  intro up off
  have out (b : Bool) : exec (.sustain (partByte p) (flag b)) s =
      .next (taken (.sustain (partByte p) (flag b)) (sustain (partByte p) (flag b) s).2
        (sustain (partByte p) (flag b) s).1) := hostCommand_taken hears
  refine ⟨?_, fun hs => ?_, fun hs => ?_⟩
  · refine (out true).trans ?_
    rw [sustain_eq]
    split
    · rename_i hs
      rw [modPart_self (by rw [← hs])]
      rfl
    · rfl
  · refine (out false).trans ?_
    rw [sustain_eq, if_pos hs]
    rfl
  · set s₁ := s.modPart p fun r => { r with sustain := false } with hs₁
    set l := (s.val.startOrder.get p).filter fun v => (s.status v).isSustained with hl
    have lists₁ : VoiceLaw s₁ := lists.modPart _
    have mem : ∀ v, v ∈ l ↔ ((s.status v).onPart p && (s.status v).isSustained) = true := fun v => by
      rw [hl, List.mem_filter, lists.start, Bool.and_eq_true]
    have nd : l.Nodup := (lists.startNodup p).filter _
    set t := s₁.sendAll (releasedTo s (s.patch p).releaseTicks) l with ht
    have target : ∀ v ∈ l, ∃ n, s.status v = .bound n .sustained := fun v hv =>
      isSustained_bound (Bool.and_eq_true_iff.1 ((mem v).1 hv)).2
    have bound : ∀ v ∈ l, (releasedTo s (s.patch p).releaseTicks v).leaves = false ∧
        (releasedTo s (s.patch p).releaseTicks v).isReleasing = true := fun v hv => by
      obtain ⟨n, hn⟩ := target v hv
      unfold releasedTo
      rw [hn]
      exact ⟨rfl, rfl⟩
    obtain ⟨free, start, part⟩ := sendAll_bound (s := s₁) nd fun v hv => (bound v hv).1
    have only : NotesOnly s t := (show NotesOnly s s₁ from ⟨rfl, rfl⟩).trans (sendAll_only ..)
    obtain ⟨tne, psc, trial, ptu, seed⟩ := only.stands
    refine ⟨t, ?_, only.frame, tne, psc, trial, ptu, free, start, seed, fun q => ?_, ?_, fun v hv => ?_,
      fun v n hn hp => ?_⟩
    · refine (out false).trans ?_
      rw [sustain_eq, if_neg (by rw [hs]; exact Bool.noConfusion)]
      exact congrArg (fun t => Host.Outcome.next (taken off [0x00] t)) (releaseSustained_eq lists₁ p)
    · exact (part q).trans (modPart_part ..)
    · rw [ht, sendAll_releaseOrder _ _ nd, listAfter_of_disjoint]
      · rw [List.filter_eq_self.2 fun v hv => (bound v hv).2]
        rfl
      · intro w hw hwl
        obtain ⟨n, hn⟩ := target w hwl
        rw [lists₁.release, show s₁.status w = s.status w from rfl, hn] at hw
        cases hw
    · have hvl : v ∉ l := fun h => by
        rw [mem, hv] at h
        cases h
      exact ⟨(sendAll_voice ..).trans (if_neg hvl), (sendAll_gap ..).trans (if_neg fun h => hvl h.1)⟩
    · have hvl : v ∈ l := (mem v).2 (by rw [hn]; simp [VoiceStatus.onPart, VoiceStatus.isSustained, hp])
      refine ⟨(sendAll_voice ..).trans ((if_pos hvl).trans ?_),
        (sendAll_gap ..).trans (if_pos ⟨hvl, .inr (bound v hvl).2⟩)⟩
      unfold releasedTo
      rw [hn]
      rfl

/-- Settles O21: the commands' effects, from the rule for rewritten notes and the one for voices sent. -/
theorem pressureAndSustainReachTheirVoices : Obligations.PressureAndSustainReachTheirVoices :=
  ⟨fun _ _ _ x h lists hk => notePressure_writes x h lists hk, sustain_reaches⟩

end Sys2Proof.Machine
end

