-- ==== Sys2Proof/Proofs/NotesCleared.lean ====
section
/-! ALL NOTES CLEAR (R21): one part cleared, then the other. -/

namespace Sys2Proof.Machine

/-! ## One part -/

/-- The voices bound to a part, where it is named, in ascending number. -/
def clearedOf (s : State) (p : Part) (named : Bool) : List VoiceNo :=
  (List.finRange 16).filter fun v => named && (s.status v).onPart p

/-- The part is cleared where it is named. -/
def clearNamed (s : State) (p : Part) (named : Bool) : State := if named then clearPart s p else s

section
variable {s : State} {p : Part} {named : Bool}

theorem mem_clearedOf {v : VoiceNo} :
    v ∈ clearedOf s p named ↔ named = true ∧ (s.status v).onPart p = true := by
  simp [clearedOf]

theorem clearedOf_nodup : (clearedOf s p named).Nodup := (List.nodup_finRange 16).filter _

theorem clearedOf_unnamed : clearedOf s p false = [] := by simp [clearedOf]

end

/-- What clearing a part, where it is named, makes of a state. -/
structure PartCleared (s t : State) (p : Part) (named : Bool) : Prop where
  only : NotesOnly s t
  freeList : t.val.freeList = s.val.freeList ++ clearedOf s p named
  releaseOrder : t.val.releaseOrder = s.val.releaseOrder.filter fun v => v ∉ clearedOf s p named
  startOrder : ∀ q, t.val.startOrder.get q = if named = true ∧ q = p then [] else s.val.startOrder.get q
  part : ∀ q, t.part q =
    if named = true ∧ q = p then { s.part p with heldKeys := [], sustain := false, solo := none }
    else { s.part q with solo := soloDrops (clearedOf s p named) (s.part q).solo }
  voice : ∀ v, t.voice v =
    if v ∈ clearedOf s p named then { s.voice v with status := .free } else s.voice v
  gap : ∀ v, look t.cvo.gaps v = if v ∈ clearedOf s p named then none else look s.cvo.gaps v

theorem clearPart_eq (s : State) (p : Part) : clearPart s p =
    (s.sendAll (fun _ => .free) (clearedOf s p true)).modPart p
      fun r => { r with heldKeys := [], sustain := false, solo := none } := rfl

theorem clearPart_cleared {s : State} (lists : VoiceLaw s) (p : Part) :
    PartCleared s (clearPart s p) p true where
  only := (sendAll_only s (fun _ => .free) (clearedOf s p true)).trans ⟨rfl, rfl⟩
  freeList := by
    refine (sendAll_freeList s (fun _ => .free) (clearedOf_nodup (s := s) (p := p) (named := true))).trans ?_
    rw [listAfter_of_disjoint]
    · exact congrArg _ (List.filter_eq_self.2 fun _ _ => rfl)
    · intro v hv hb
      rw [lists.free, onPart_not_free (mem_clearedOf.1 hb).2] at hv
      cases hv
  releaseOrder := by
    refine (sendAll_releaseOrder s (fun _ => .free) (clearedOf_nodup (s := s) (p := p) (named := true))).trans ?_
    simp [listAfter, VoiceStatus.leaves, VoiceStatus.isReleasing]
  startOrder q := by
    refine (sendAll_startOrder s (fun _ => .free)
      (clearedOf_nodup (s := s) (p := p) (named := true)) q).trans ?_
    split
    · rename_i hq
      refine List.filter_eq_nil_iff.2 fun v hv => ?_
      have on : v ∈ clearedOf s p true := mem_clearedOf.2 ⟨rfl, hq.2 ▸ (lists.start q v).1 hv⟩
      simp [on, VoiceStatus.leaves]
    · rename_i hq
      refine List.filter_eq_self.2 fun v hv => ?_
      have off : v ∉ clearedOf s p true := fun h =>
        hq ⟨rfl, onPart_unique ((lists.start q v).1 hv) (mem_clearedOf.1 h).2⟩
      simp [off]
  part q := by
    rw [clearPart_eq, modPart_part, sendAll_part, sendAll_part,
      List.filter_eq_self.2 fun _ _ => (rfl : VoiceStatus.free.leaves = true)]
    simp only [true_and]
  voice v := sendAll_voice s (fun _ => .free) (clearedOf s p true) v
  gap v := by
    refine (sendAll_gap s (fun _ => .free) (clearedOf s p true) v).trans ?_
    simp [VoiceStatus.leaves]

theorem clearNamed_cleared {s : State} (lists : VoiceLaw s) (p : Part) (named : Bool) :
    PartCleared s (clearNamed s p named) p named := by
  cases named with
  | true => exact clearPart_cleared lists p
  | false =>
    constructor
    case only => exact .refl s
    all_goals
      intros
      simp [clearNamed, clearedOf_unnamed, soloDrops]

section
variable {s t : State} {p : Part} {named : Bool} (h : PartCleared s t p named)
include h

theorem PartCleared.status (v : VoiceNo) :
    t.status v = if v ∈ clearedOf s p named then .free else s.status v := by
  unfold State.status
  rw [h.voice]
  split <;> rfl

/-- A part cleared leaves lawful lists. -/
theorem PartCleared.lists (lists : VoiceLaw s) : VoiceLaw t := by
  have away : ∀ v, v ∈ clearedOf s p named → (s.status v).isFree = false := fun v hv =>
    onPart_not_free (mem_clearedOf.1 hv).2
  constructor
  case freeNodup =>
    rw [h.freeList]
    refine List.nodup_append'.2 ⟨lists.freeNodup, clearedOf_nodup, fun v hv hc => ?_⟩
    rw [lists.free, away v hc] at hv
    cases hv
  case free =>
    intro v
    rw [h.freeList, h.status, List.mem_append, lists.free]
    split <;> simp_all [VoiceStatus.isFree]
  case startNodup =>
    intro q
    rw [h.startOrder]
    split
    · exact .nil
    · exact lists.startNodup q
  case start =>
    intro q v
    rw [h.startOrder, h.status]
    split
    · rename_i hq
      obtain ⟨rfl, rfl⟩ := hq
      split
      · simp [VoiceStatus.onPart]
      · rename_i off
        have : (s.status v).onPart q ≠ true := fun on => off (mem_clearedOf.2 ⟨rfl, on⟩)
        simp [this]
    · rename_i hq
      rw [lists.start]
      split
      · rename_i on
        obtain ⟨hn, on⟩ := mem_clearedOf.1 on
        exact ⟨fun onq => absurd ⟨hn, onPart_unique onq on⟩ hq, fun x => (nomatch x)⟩
      · rfl
  case releaseNodup =>
    rw [h.releaseOrder]
    exact lists.releaseNodup.filter _
  case release =>
    intro v
    rw [h.releaseOrder, h.status, List.mem_filter, lists.release]
    split <;> simp_all [VoiceStatus.isReleasing]

/-- The voices of the other part are the same after as before. -/
theorem PartCleared.clearedOf_other {q : Part} (hq : q ≠ p) (b : Bool) :
    clearedOf t q b = clearedOf s q b := by
  refine List.filter_congr fun v _ => ?_
  rw [h.status]
  split
  · rename_i on
    have : (s.status v).onPart q ≠ true := fun onq => hq (onPart_unique onq (mem_clearedOf.1 on).2)
    rw [Bool.eq_false_iff.2 this]
    rfl
  · rfl

end

/-! ## Both parts -/

theorem soloDrops_none (l : List VoiceNo) : soloDrops l none = none := by
  induction l with
  | nil => rfl
  | cons v l ih => exact ih

/-- A lawful solo group keeps its members when voices of the other part are cleared. -/
theorem SoloLaw.dropped {s : State} (h : SoloLaw s) {p q : Part} (hq : q ≠ p) (b : Bool) :
    soloDrops (clearedOf s p b) (s.part q).solo = (s.part q).solo := by
  refine soloDrops_eq_self (fun m hm => (h q m hm).1) fun v hv ⟨m, hm, hin⟩ => ?_
  obtain ⟨-, on, -⟩ := h q m hm
  exact hq (onPart_unique (on v hin) (mem_clearedOf.1 hv).2)

/-- Which parts a target of ALL NOTES CLEAR names. -/
def namesPart (target : Fin 3) : Part → Bool
  | .A => decide (target.val = 0 ∨ target.val = 2)
  | .B => decide (target.val = 1 ∨ target.val = 2)

theorem allNotesClear_eq (target : Fin 3) (s : State) : allNotesClear (b1 target.val) s =
    ok (kick (clearNamed (clearNamed s .A (namesPart target .A)) .B (namesPart target .B))) [] := by
  fin_cases target <;> rfl

section
variable {s t u : State} {a b : Bool} (x : PartCleared s t .A a) (y : PartCleared t u .B b)
include x y

theorem cleared_part : (a = true →
      u.part .A = { s.part .A with heldKeys := [], sustain := false, solo := none }) ∧
    (b = true → u.part .B = { s.part .B with heldKeys := [], sustain := false, solo := none }) ∧
    (a = false → u.part .A = { s.part .A with solo := soloDrops (clearedOf s .B b) (s.part .A).solo }) ∧
    (b = false → u.part .B = { s.part .B with solo := soloDrops (clearedOf s .A a) (s.part .B).solo }) := by
  have uA := y.part .A
  have uB := y.part .B
  have tA := x.part .A
  have tB := x.part .B
  rw [if_neg (by simp)] at uA tB
  rw [x.clearedOf_other (by simp)] at uA uB
  refine ⟨fun ha => ?_, fun hb => ?_, fun ha => ?_, fun hb => ?_⟩
  · rw [if_pos ⟨ha, rfl⟩] at tA
    rw [uA, tA]
    exact congrArg (fun g => ({ s.part .A with heldKeys := [], sustain := false, solo := g } : PartRec))
      (soloDrops_none _)
  · rw [if_pos ⟨hb, rfl⟩] at uB
    rw [uB, tB]
  · rw [if_neg (by simp [ha])] at tA
    rw [ha, clearedOf_unnamed] at tA
    rw [uA, tA]
    rfl
  · rw [if_neg (by simp [hb])] at uB
    rw [hb, clearedOf_unnamed] at uB
    rw [uB, tB]
    rfl

end

/-- Settles O24: the parts named are cleared one after the other, part B's voices being the same before
part A is cleared as after. -/
theorem allNotesClearFreesTheNamedParts : Obligations.AllNotesClearFreesTheNamedParts := by
  intro s target hears lists c named voices
  have name : named = namesPart target := by funext p; cases p <;> rfl
  have x := clearNamed_cleared lists .A (named .A)
  have y := clearNamed_cleared (x.lists lists) .B (named .B)
  have other : clearedOf (clearNamed s .A (named .A)) .B (named .B) = voices .B :=
    x.clearedOf_other (by simp) _
  have first : clearedOf s .A (named .A) = voices .A := rfl
  obtain ⟨partA, partB, keptA, keptB⟩ := cleared_part x y
  obtain ⟨tne, psc, trial, ptu, seed⟩ := (x.only.trans y.only).stands
  refine ⟨clearNamed (clearNamed s .A (named .A)) .B (named .B), ?_, (x.only.trans y.only).frame, tne, psc,
    trial, ptu, seed, ?_, ?_, fun p => ?_, fun p hp => ?_, fun p hp => ?_, fun v hv => ?_, fun v hv => ?_⟩
  · refine (hostCommand_taken hears).trans ?_
    rw [allNotesClear_eq, name]
    rfl
  · rw [y.freeList, x.freeList, other, first]
  · rw [y.releaseOrder, x.releaseOrder, other, first, List.filter_filter]
    exact List.filter_congr fun v _ => by simp [Bool.and_comm]
  · rw [y.startOrder, x.startOrder]
    cases p <;> simp
  · cases p
    · exact partA hp
    · exact partB hp
  · cases p
    · rw [keptA hp]
      exact ⟨rfl, fun solo => by rw [solo.dropped (by simp)]⟩
    · rw [keptB hp]
      exact ⟨rfl, fun solo => by rw [solo.dropped (by simp)]⟩
  · obtain ⟨hA, hB⟩ := not_or.1 (mt List.mem_append.2 hv)
    exact ⟨(y.voice v).trans ((if_neg (other ▸ hB)).trans ((x.voice v).trans (if_neg hA))),
      (y.gap v).trans ((if_neg (other ▸ hB)).trans ((x.gap v).trans (if_neg hA)))⟩
  · rw [y.voice, y.gap, x.voice, x.gap, other, first]
    rcases List.mem_append.1 hv with hA | hB
    · simp [hA]
    · by_cases hA : v ∈ voices .A <;> simp [hA, hB]

end Sys2Proof.Machine
end

