-- ==== Sys2Proof/Proofs/PolyEnds.lean ====
section
/-! The end of a POLY note (R18, R19). -/

namespace Sys2Proof.Machine

/-! ## Where a key let go sends a voice -/

theorem isSounding_and_not_isSustained (x : VoiceStatus) :
    (x.isSounding && !x.isSustained) = (x.isHeld || x.isMuting) := by
  rcases x with _ | ⟨n, _ | _ | _ | _⟩ | _ | _ <;> rfl

/-- A voice whose key was let go: a HELD one to SUSTAINED or RELEASING, a MUTING one to FREE (R18). -/
def endedTo (s : State) (p : Part) (v : VoiceNo) : VoiceStatus :=
  match s.status v with
  | .bound n .held =>
    if (s.part p).sustain then .bound n .sustained else .bound n (.releasing (s.patch p).releaseTicks)
  | .bound _ (.muting _) => .free
  | x => x

section
variable {s : State} {p : Part} {v : VoiceNo}

theorem endedTo_held {n : Note} (h : s.status v = .bound n .held) : endedTo s p v =
    if (s.part p).sustain then .bound n .sustained else .bound n (.releasing (s.patch p).releaseTicks) := by
  unfold endedTo
  rw [h]

theorem endedTo_muting {n : Note} {d : Nat} (h : s.status v = .bound n (.muting d)) :
    endedTo s p v = .free := by
  unfold endedTo
  rw [h]

/-- A voice's end sends it where its state and the sustain setting say. -/
theorem endVoice_send {t : State} (agree : Agrees s t v)
    (h : (s.status v).isHeld = true ∨ (s.status v).isMuting = true) :
    endVoice p t v = t.send v (endedTo s p v) := by
  unfold endVoice
  rw [agree.status, agree.sustain, agree.patch]
  rcases h with h | h
  · obtain ⟨n, hn⟩ := isHeld_bound h
    have ht := agree.status.trans hn
    rw [endedTo_held hn, hn]
    cases (s.part p).sustain
    · exact enterReleasing_send _ ht
    · exact setPhase_bound _ ht
  · obtain ⟨n, d, hn⟩ := isMuting_bound h
    rw [endedTo_muting hn, hn]
    rfl

/-- The end frees just the MUTING voices and releases just the HELD ones that sustain does not hold. -/
theorem endedTo_lists (h : (s.status v).isHeld = true ∨ (s.status v).isMuting = true) :
    (endedTo s p v).isFree = (s.status v).isMuting ∧ (endedTo s p v).leaves = (s.status v).isMuting ∧
      (endedTo s p v).isReleasing = ((s.status v).isHeld && !(s.part p).sustain) := by
  rcases h with h | h
  · obtain ⟨n, hn⟩ := isHeld_bound h
    rw [endedTo_held hn, hn]
    cases (s.part p).sustain <;> exact ⟨rfl, rfl, rfl⟩
  · obtain ⟨n, d, hn⟩ := isMuting_bound h
    rw [endedTo_muting hn, hn]
    exact ⟨rfl, rfl, rfl⟩

end

/-! ## The command -/

section
variable {s : State} {p : Part} {k : Nat}

/-- The voices that the end of a key reaches, in ascending unison index. -/
def endingOn (s : State) (p : Part) (k : Nat) : List VoiceNo :=
  (soundingOn s p k).filter fun v => !(s.status v).isSustained

theorem endingOn_iff (lists : VoiceLaw s) (v : VoiceNo) : v ∈ endingOn s p k ↔
    (s.status v).onKey p k = true ∧ ((s.status v).isHeld = true ∨ (s.status v).isMuting = true) := by
  rw [endingOn, List.mem_filter, soundingOn_iff lists, Bool.and_eq_true, and_assoc, ← Bool.and_eq_true,
    isSounding_and_not_isSustained, Bool.or_eq_true]

theorem endingOn_nodup (lists : VoiceLaw s) : (endingOn s p k).Nodup := (soundingOn_nodup lists).filter _

theorem endingOn_sorted : (endingOn s p k).Pairwise fun v w =>
    (s.voice v).unisonIndex ≤ (s.voice w).unisonIndex := (byUnison_sorted s _).filter _

theorem leaveKey_eq (l : List Nat) : leaveKey k l = l.filter fun q => q ≠ k :=
  List.filter_congr fun q _ => by rw [Bool.eq_iff_iff]; simp

theorem setKeys_sustain (q : Part) (l : List Nat) :
    ((s.setKeys p l).part q).sustain = (s.part q).sustain := by
  rw [setKeys_part]
  split
  · rename_i hq
    rw [hq]
  · rfl

theorem noteEnd_poly (hk : k ≤ 127) (poly : (s.patch p).keyMode = .poly) :
    noteEnd (partByte p) (b1 k) s = polyEnd p k s := by
  unfold noteEnd
  rw [part?_partByte, key?_b1 hk]
  simp only [poly]

theorem polyEnd_none (h : endingOn (s.setKeys p (leaveKey k (s.part p).heldKeys)) p k = []) :
    polyEnd p k s = refuse (s.setKeys p (leaveKey k (s.part p).heldKeys)) .unknownNote 0 := by
  unfold endingOn at h
  unfold polyEnd
  simp only [h]

theorem polyEnd_some (h : endingOn (s.setKeys p (leaveKey k (s.part p).heldKeys)) p k ≠ []) :
    polyEnd p k s = ok (kick ((endingOn (s.setKeys p (leaveKey k (s.part p).heldKeys)) p k).foldl
      (endVoice p) (s.setKeys p (leaveKey k (s.part p).heldKeys)))) [] := by
  unfold polyEnd
  simp only
  split
  · exact absurd ‹_› h
  · rfl

end

/-- What the end of a key makes of the state that its key has left. -/
structure VoicesEnded (s t : State) (p : Part) (vs : List VoiceNo) : Prop where
  only : NotesOnly s t
  freeList : t.val.freeList = s.val.freeList ++ vs.filter fun v => (s.status v).isMuting
  releaseOrder : t.val.releaseOrder = s.val.releaseOrder ++
    vs.filter fun v => (s.status v).isHeld && !(s.part p).sustain
  startOrder : ∀ q, t.val.startOrder.get q =
    (s.val.startOrder.get q).filter fun v => v ∉ vs.filter fun v => (s.status v).isMuting
  part : ∀ q, t.part q = { s.part q with
    solo := soloDrops (vs.filter fun v => (s.status v).isMuting) (s.part q).solo }
  voice : ∀ v, t.voice v = if v ∈ vs then { s.voice v with status := endedTo s p v } else s.voice v
  gap : ∀ v, look t.cvo.gaps v =
    if v ∈ vs ∧ ((s.status v).isMuting || (s.status v).isHeld && !(s.part p).sustain) = true then none
    else look s.cvo.gaps v

theorem endVoices_ended {s : State} (lists : VoiceLaw s) {p : Part} {vs : List VoiceNo} (nd : vs.Nodup)
    (ends : ∀ v ∈ vs, (s.status v).isHeld = true ∨ (s.status v).isMuting = true) :
    VoicesEnded s (vs.foldl (endVoice p) s) p vs := by
  have same : vs.foldl (endVoice p) s = s.sendAll (endedTo s p) vs :=
    foldl_eq_sendAll nd fun t v hv agree => endVoice_send agree (ends v hv)
  have free : vs.filter (fun v => (endedTo s p v).isFree) = vs.filter fun v => (s.status v).isMuting :=
    List.filter_congr fun v hv => (endedTo_lists (ends v hv)).1
  have leave : vs.filter (fun v => (endedTo s p v).leaves) = vs.filter fun v => (s.status v).isMuting :=
    List.filter_congr fun v hv => (endedTo_lists (ends v hv)).2.1
  have release : vs.filter (fun v => (endedTo s p v).isReleasing) =
      vs.filter fun v => (s.status v).isHeld && !(s.part p).sustain :=
    List.filter_congr fun v hv => (endedTo_lists (ends v hv)).2.2
  rw [same]
  constructor
  case only => exact sendAll_only ..
  case freeList =>
    rw [sendAll_freeList _ _ nd, listAfter_of_disjoint, free]
    intro v hv hvs
    rw [lists.free] at hv
    rcases ends v hvs with h | h
    · obtain ⟨n, hn⟩ := isHeld_bound h
      rw [hn] at hv
      cases hv
    · obtain ⟨n, d, hn⟩ := isMuting_bound h
      rw [hn] at hv
      cases hv
  case releaseOrder =>
    rw [sendAll_releaseOrder _ _ nd, listAfter_of_disjoint, release]
    intro v hv hvs
    rw [lists.release] at hv
    obtain ⟨n, d, hn⟩ := isReleasing_bound hv
    have := ends v hvs
    rw [hn] at this
    rcases this with h | h <;> cases h
  case startOrder =>
    intro q
    rw [sendAll_startOrder _ _ nd]
    refine List.filter_congr fun v _ => ?_
    rw [← leave]
    simp [List.mem_filter]
  case part => exact fun q => leave ▸ sendAll_part s _ q
  case voice => exact sendAll_voice s (endedTo s p) vs
  case gap =>
    intro v
    rw [sendAll_gap]
    refine if_congr (and_congr_right fun hv => ?_) rfl rfl
    obtain ⟨-, hl, hr⟩ := endedTo_lists (p := p) (ends v hv)
    rw [hl, hr, Bool.or_eq_true]

/-- Settles O19: the key leaves its list, the voices found on it are sent on one after another. -/
theorem polyEndSendsTheKeysVoicesOn : Obligations.PolyEndSendsTheKeysVoicesOn := by
  intro s p k hears lists hk poly c ends
  have out : exec c s = .next (taken c (polyEnd p k s).2 (polyEnd p k s).1) := by
    rw [← noteEnd_poly hk poly]
    exact hostCommand_taken hears
  set s₁ := s.setKeys p (leaveKey k (s.part p).heldKeys) with hs₁
  have lists₁ : VoiceLaw s₁ := lists.modPart _
  have mem : ∀ v, v ∈ endingOn s₁ p k ↔ ends v := endingOn_iff lists₁
  refine ⟨fun none => ?_, fun ⟨v, hv⟩ => ?_⟩
  · rw [out, ← leaveKey_eq, polyEnd_none (List.eq_nil_iff_forall_not_mem.2 fun v hv => none v ((mem v).1 hv))]
    rfl
  · have e := endVoices_ended (p := p) lists₁ (endingOn_nodup lists₁) fun v hv => ((mem v).1 hv).2
    have only : NotesOnly s ((endingOn s₁ p k).foldl (endVoice p) s₁) :=
      (show NotesOnly s s₁ from ⟨rfl, rfl⟩).trans e.only
    obtain ⟨tne, psc, trial, ptu, seed⟩ := only.stands
    have sustain : (s₁.part p).sustain = (s.part p).sustain := setKeys_sustain ..
    refine ⟨endingOn s₁ p k, (endingOn s₁ p k).foldl (endVoice p) s₁, mem, endingOn_nodup lists₁,
      endingOn_sorted, ?_, only.frame, tne, psc, trial, ptu, seed, e.freeList, ?_, e.startOrder, fun q => ?_,
      fun q v => ?_, fun solo q h hq => ?_, fun v hv => ?_, fun v n ph hv hn => ?_⟩
    · rw [out, polyEnd_some (List.ne_nil_of_mem ((mem v).2 hv))]
      rfl
    · rw [e.releaseOrder, sustain]
      rfl
    · rw [e.part, hs₁, setKeys_part, leaveKey_eq]
      split
      · rename_i hq
        subst hq
        rfl
      · rfl
    · show memberOf _ v ↔ _ ∧ memberOf _ v
      rw [e.part, memberOf_soloDrops, hs₁, setKeys_solo]
      rfl
    · rw [e.part] at hq
      refine soloDrops_ne_zero (fun m hm => ?_) h hq
      rw [hs₁, setKeys_solo] at hm
      exact (solo q m hm).1
    · exact ⟨(e.voice v).trans (if_neg hv), (e.gap v).trans (if_neg fun h => hv h.1)⟩
    · rw [e.voice, if_pos hv, e.gap, sustain]
      have hn₁ : s₁.status v = .bound n ph := hn
      have heldOrMuting := ((mem v).1 hv).2
      rw [hn] at heldOrMuting
      cases ph with
      | held =>
        rw [endedTo_held hn₁, sustain, hn₁]
        cases (s.part p).sustain
        · exact ⟨rfl, if_pos ⟨hv, rfl⟩⟩
        · exact ⟨rfl, if_neg fun h => (nomatch h.2)⟩
      | muting d =>
        rw [endedTo_muting hn₁, hn₁]
        exact ⟨rfl, if_pos ⟨hv, rfl⟩⟩
      | sustained => rcases heldOrMuting with h | h <;> cases h
      | releasing d => rcases heldOrMuting with h | h <;> cases h

end Sys2Proof.Machine
end

