-- ==== Sys2Proof/Proofs/PolyRetriggers.lean ====
section
/-! The retrigger of a sounding POLY key (R9, R39). -/

namespace Sys2Proof.Machine

/-! ## One voice -/

/-- A sounding voice's state after its key is struck again: the new velocity, and HELD but for a MUTING
voice (R9). -/
def VoiceStatus.struck (x : VoiceStatus) (velocity : Nat) : VoiceStatus :=
  match x with
  | .bound n (.muting d) => .bound { n with velocity } (.muting d)
  | .bound n _ => .bound { n with velocity } .held
  | x => x

/-- The retrigger gap of a voice whose key is struck again, from the gap that runs (R39). -/
def struckGap (x : VoiceStatus) (gap : Option Countdown) : Option Countdown :=
  if x.isMuting then gap else some (restart gap Config.gapTicks)

theorem setStatus_again (s : State) (v : VoiceNo) (x y : VoiceStatus) :
    (s.setStatus v x).setStatus v y = s.setStatus v y := by
  have voice : (s.setStatus v x).voice v = { s.voice v with status := x } := by
    rw [setStatus_voice, if_pos rfl]
  unfold State.setStatus at voice ⊢
  rw [voice]
  simp [State.setVoice, put, Vector.set_set]

theorem setGap_self (s : State) (v : VoiceNo) : s.setGap v (look s.cvo.gaps v) = s := by
  have same : put s.cvo.gaps v (look s.cvo.gaps v) = s.cvo.gaps := table_ext fun w => by
    rw [look_put]
    split
    · rename_i hw
      rw [hw]
    · rfl
  unfold State.setGap
  rw [same]

section
variable (s : State) (p : Part) (vel : Nat) (v : VoiceNo)

/-- A HELD or SUSTAINED voice whose note is rewritten and whose gate is retriggered. -/
theorem retriggerGate_open {n : Note} {ph : BoundPhase} (h : ph = .held ∨ ph = .sustained) :
    retriggerGate v (s.setStatus v (.bound n ph)) =
      (s.setStatus v (.bound n .held)).setGap v (some (restart (look s.cvo.gaps v) Config.gapTicks)) := by
  have status : (s.setStatus v (.bound n ph)).status v = .bound n ph := by
    rw [setStatus_status, if_pos rfl]
  unfold retriggerGate
  rw [if_pos (by rw [status]; rcases h with rfl | rfl <;> rfl), setPhase_bound _ status, setStatus_again]
  rfl

theorem retriggerGate_muting {n : Note} {d : Nat} :
    retriggerGate v (s.setStatus v (.bound n (.muting d))) = s.setStatus v (.bound n (.muting d)) :=
  if_neg (by rw [setStatus_status, if_pos rfl]; exact Bool.false_ne_true)

/-- A sounding voice struck again: one new state, one gap, one place in the start-order list. -/
theorem retriggerOne_eq {s : State} {v : VoiceNo} (h : (s.status v).isSounding = true) :
    retriggerOne p vel s v = ((s.setStatus v ((s.status v).struck vel)).setGap v
      (struckGap (s.status v) (look s.cvo.gaps v))).toStartTail p v := by
  unfold retriggerOne
  rw [modNote_eq]
  congr 1
  rcases hs : s.status v with _ | ⟨n, _ | _ | t | d⟩ | _ | _
  case bound.held => exact retriggerGate_open s v (.inl rfl)
  case bound.sustained => exact retriggerGate_open s v (.inr rfl)
  case bound.muting =>
    refine (retriggerGate_muting s v).trans ?_
    exact (setGap_self (s.setStatus v (.bound { n with velocity := vel } (.muting d))) v).symm
  all_goals
    rw [hs] at h
    cases h

end

/-! ## The voices of a key -/

/-- What the retrigger of a part's voices makes of a state. -/
structure Retriggered (s t : State) (p : Part) (vel : Nat) (l : List VoiceNo) : Prop where
  only : NotesOnly s t
  freeList : t.val.freeList = s.val.freeList
  releaseOrder : t.val.releaseOrder = s.val.releaseOrder
  part : ∀ q, t.part q = s.part q
  startOrder : ∀ q, t.val.startOrder.get q =
    if q = p then (s.val.startOrder.get p).filter (fun v => v ∉ l) ++ l else s.val.startOrder.get q
  voice : ∀ v, t.voice v =
    if v ∈ l then { s.voice v with status := (s.status v).struck vel } else s.voice v
  gap : ∀ v, look t.cvo.gaps v =
    if v ∈ l then struckGap (s.status v) (look s.cvo.gaps v) else look s.cvo.gaps v

theorem retriggered_nil (s : State) (p : Part) (vel : Nat) : Retriggered s s p vel [] where
  only := .refl s
  freeList := rfl
  releaseOrder := rfl
  part _ := rfl
  startOrder q := by
    split
    · rename_i hq
      simp [hq]
    · rfl
  voice _ := rfl
  gap _ := rfl

theorem retriggerOne_retriggered {s : State} {v : VoiceNo} (p : Part) (vel : Nat)
    (h : (s.status v).isSounding = true) : Retriggered s (retriggerOne p vel s v) p vel [v] := by
  rw [retriggerOne_eq p vel h]
  constructor
  case only => exact ⟨rfl, rfl⟩
  case startOrder =>
    intro q
    rw [toStartTail_startOrder]
    simp only [List.mem_singleton]
    rw [← without_eq]
    rfl
  case voice =>
    intro w
    simp only [List.mem_singleton]
    refine (setStatus_voice ..).trans ?_
    split
    · rename_i hw
      rw [hw]
    · rfl
  case gap =>
    intro w
    simp only [List.mem_singleton]
    refine (setGap_gap ..).trans ?_
    split
    · rename_i hw
      rw [hw]
    · rfl
  all_goals
    intros
    rfl

theorem Retriggered.cons {s t u : State} {p : Part} {vel : Nat} {v : VoiceNo} {l : List VoiceNo}
    (hv : v ∉ l) (a : Retriggered s t p vel [v]) (b : Retriggered t u p vel l) :
    Retriggered s u p vel (v :: l) := by
  have voice : ∀ w, w ≠ v → t.voice w = s.voice w := fun w hw => (a.voice w).trans (if_neg (by simpa using hw))
  have gap : ∀ w, w ≠ v → look t.cvo.gaps w = look s.cvo.gaps w := fun w hw =>
    (a.gap w).trans (if_neg (by simpa using hw))
  constructor
  case only => exact a.only.trans b.only
  case freeList => exact b.freeList.trans a.freeList
  case releaseOrder => exact b.releaseOrder.trans a.releaseOrder
  case part => exact fun q => (b.part q).trans (a.part q)
  case startOrder =>
    intro q
    rw [b.startOrder, a.startOrder, a.startOrder, if_pos rfl]
    split
    · rw [List.filter_append, List.filter_filter]
      simp [hv, Bool.and_comm]
    · rfl
  case voice =>
    intro w
    rw [b.voice]
    by_cases hw : w = v
    · subst hw
      rw [if_neg hv, a.voice]
      simp
    · unfold State.status
      simp [hw, voice w hw]
  case gap =>
    intro w
    rw [b.gap]
    by_cases hw : w = v
    · subst hw
      rw [if_neg hv, a.gap]
      simp
    · unfold State.status
      simp [hw, voice w hw, gap w hw]

theorem retrigger_retriggered (p : Part) (vel : Nat) {l : List VoiceNo} (nd : l.Nodup) {s : State}
    (h : ∀ v ∈ l, (s.status v).isSounding = true) :
    Retriggered s (l.foldl (retriggerOne p vel) s) p vel l := by
  induction l generalizing s with
  | nil => exact retriggered_nil s p vel
  | cons v l ih =>
    obtain ⟨hv, nd⟩ := List.nodup_cons.1 nd
    have first := retriggerOne_retriggered p vel (h v List.mem_cons_self)
    refine first.cons hv (ih nd fun w hw => ?_)
    have other : (retriggerOne p vel s v).voice w = s.voice w :=
      (first.voice w).trans (if_neg (by simpa using fun e : w = v => hv (e ▸ hw)))
    unfold State.status
    rw [other]
    exact h w (List.mem_cons_of_mem v hw)

/-! ## The command -/

section
variable {s : State} {p : Part} {k : Nat}

theorem noteStart_poly (hk : k ≤ 127) (vel : Byte) (poly : (s.patch p).keyMode = .poly) :
    noteStart (partByte p) (b1 k) vel s =
      polyStart p k (max 1 (min 127 vel.toNat)) (s.setKeys p (enterKey k (s.part p).heldKeys)) := by
  have mode : ((s.setKeys p (enterKey k (s.part p).heldKeys)).patch p).keyMode = .poly := poly
  unfold noteStart
  rw [part?_partByte, key?_b1 hk]
  simp only [mode]
  rfl

theorem polyStart_sounding (vel : Nat) (h : soundingOn s p k ≠ []) : polyStart p k vel s =
    noteAnswer ((soundingOn s p k).foldl (retriggerOne p vel) s) .ok (soundingOn s p k) [] := by
  unfold polyStart
  split
  · exact absurd ‹_› h
  · rfl

end

/-- Settles O15: the key enters its list, the voices that sound on it are struck again one after another. -/
theorem polyStartOfASoundingKeyRetriggers : Obligations.PolyStartOfASoundingKeyRetriggers := by
  intro s p k vel hears lists hk poly ⟨v₀, key₀, sounds₀⟩
  have out := hostCommand_taken (c := .noteStart (partByte p) (b1 k) vel)
    (f := noteStart (partByte p) (b1 k) vel) hears
  set s₁ := s.setKeys p (enterKey k (s.part p).heldKeys) with hs₁
  have lists₁ : VoiceLaw s₁ := lists.modPart _
  have mem : ∀ v, v ∈ soundingOn s₁ p k ↔ (s.status v).onKey p k = true ∧ (s.status v).isSounding = true :=
    fun v => (soundingOn_iff lists₁ v).trans Bool.and_eq_true_iff
  have some₀ : soundingOn s₁ p k ≠ [] := List.ne_nil_of_mem ((mem v₀).2 ⟨key₀, sounds₀⟩)
  have r := retrigger_retriggered p (max 1 (min 127 vel.toNat)) (soundingOn_nodup (k := k) lists₁)
    (s := s₁) fun v hv => ((mem v).1 hv).2
  rw [noteStart_poly hk vel poly, ← hs₁, polyStart_sounding _ some₀] at out
  revert out r
  generalize (soundingOn s₁ p k).foldl (retriggerOne p (max 1 (min 127 vel.toNat))) s₁ = t
  intro out r
  have only : NotesOnly s t := (show NotesOnly s s₁ from ⟨rfl, rfl⟩).trans r.only
  obtain ⟨tne, psc, trial, ptu, seed⟩ := only.stands
  obtain ⟨first, rest, cons⟩ := List.exists_cons_of_ne_nil some₀
  refine ⟨soundingOn s₁ p k, first, t, mem, soundingOn_nodup lists₁, by rw [cons]; rfl, byUnison_sorted ..,
    out.trans ?_, only.frame, ptu, tne, psc, trial, r.freeList, r.releaseOrder, seed, r.startOrder,
    fun q => ?_, fun v hv => ?_, fun v n ph hv hn => ?_⟩
  · rw [cons]
    rfl
  · exact (r.part q).trans (setKeys_part ..)
  · exact ⟨(r.voice v).trans (if_neg hv), (r.gap v).trans (if_neg hv)⟩
  · have hn₁ : s₁.status v = .bound n ph := hn
    have sounds := ((mem v).1 hv).2
    rw [r.voice, r.gap, if_pos hv, if_pos hv, hn₁]
    rw [hn] at sounds
    cases ph with
    | releasing d => cases sounds
    | _ => exact ⟨rfl, rfl⟩

end Sys2Proof.Machine
end

