-- ==== Sys2Proof/Proofs/PartControls.lean ====
section
/-! PERFORMANCE SET and PART SETTINGS (R5, R6, R44). -/

namespace Sys2Proof.Machine

/-! ## Performance controls -/

section
variable {s : State} {p : Part}

theorem performanceSet_eq {b : Byte} {c : Control} (hc : control? b = some c) (value : BitVec 16) :
    performanceSet (partByte p) b value s = ok
      (if c = .bend ∧ c.clamp value.toInt ≠ (s.part p).control c then
        recomputePart p (s.modPart p fun r => r.setControl c (c.clamp value.toInt))
      else s.modPart p fun r => r.setControl c (c.clamp value.toInt)) [] := by
  unfold performanceSet
  rw [part?_partByte, hc]

/-- A control that is not the BEND is stored and nothing more. -/
theorem performanceSet_stores (hears : hears s = true) {b : Byte} {c : Control} (hc : control? b = some c)
    (hb : c ≠ .bend) (value : BitVec 16) : exec (.performanceSet (partByte p) b value) s =
      .next (taken (.performanceSet (partByte p) b value) [0x00]
        (s.modPart p fun r => r.setControl c (c.clamp value.toInt))) := by
  refine (hostCommand_taken hears).trans ?_
  rw [performanceSet_eq hc, if_neg fun h => hb h.1]
  rfl

/-- A BEND is stored; where it is new, the part's voices are recomputed. -/
theorem performanceSet_bends (hears : hears s = true) (value : BitVec 16) :
    exec (.performanceSet (partByte p) 0 value) s =
      .next (taken (.performanceSet (partByte p) 0 value) [0x00]
        (if (s.part p).bend = Control.bend.clamp value.toInt then
          s.modPart p fun r => { r with bend := Control.bend.clamp value.toInt }
        else recomputePart p (s.modPart p fun r => { r with bend := Control.bend.clamp value.toInt }))) := by
  refine (hostCommand_taken hears).trans ?_
  rw [performanceSet_eq (c := .bend) rfl]
  by_cases h : (s.part p).bend = Control.bend.clamp value.toInt
  · rw [if_pos h, if_neg fun x => x.2 h.symm]
    rfl
  · rw [if_neg h, if_pos ⟨rfl, fun x => h x.symm⟩]
    rfl

end

/-! ## Voices that move with their note pitches -/

/-- A recomputation that passes a voice by leaves its record as it is. -/
theorem recompute_voice_unchosen {s : State} {sel : SourceNo → Bool} {v : VoiceNo}
    (h : ∀ i, sel (sourceNo v i) = false) : (recompute sel s).voice v = s.voice v := by
  rw [recompute_voice]
  have same : (tabulate fun i =>
      if sel (sourceNo v i) then (chain s (sourceNo v i)).2 else look (s.voice v).clamp i) =
      (s.voice v).clamp := table_ext fun i => by
    rw [look_tabulate, h i]
    rfl
  rw [same]

section
variable {s t : State}

theorem moveNotes_pitch (p : Part) (k : Nat) : notePitch (moveNotes s t) p k = notePitch t p k :=
  notePitch_congr p k rfl rfl rfl rfl

theorem moveNotes_pitchMove (v : VoiceNo) :
    pitchMove s (moveNotes s t) v = noteMove s t v := by
  unfold pitchMove noteMove
  rw [moveNotes_pitch]

/-- Where the new state differs from the old in what note pitches are formed of, and in no voice, glide or
list, the voices whose note pitches it changes move with them (R44). -/
theorem moveNotes_moved (ptu : t.ptu = s.ptu) (voices : t.val.voices = s.val.voices)
    (lists : t.val.freeList = s.val.freeList ∧ t.val.startOrder = s.val.startOrder ∧
      t.val.releaseOrder = s.val.releaseOrder ∧ t.val.seed = s.val.seed) :
    NotesMoved s (moveNotes s t) where
  glide v := by
    rw [moveNotes_pitchMove, moveNotes_glide]
    unfold State.glide
    rw [ptu]
  voice v := by
    have same : t.voice v = s.voice v := congrArg (fun x => look x v) voices
    unfold moveNotes
    rw [recompute_voice]
    show ({ t.voice v with clamp := (s.voice v).clamp } : Voice) = s.voice v
    rw [same]
  still n h := by
    rw [moveNotes_pitchMove] at h
    constructor
    · unfold moveNotes
      rw [recompute_voice_unchosen fun i => by rw [sourceVoice_sourceNo, h]; rfl]
      exact congrArg (fun x => look x (sourceVoice n)) voices
    · unfold moveNotes
      rw [recompute_code, if_neg (by rw [h]; exact Bool.false_ne_true)]
      exact congrArg (fun x => look x.codes n) ptu
  moved n h := by
    rw [moveNotes_pitchMove] at h
    exact recompute_current _ _ (bne_iff_ne.2 h)
  unison := (show (moveNotes s t).ptu.unison = t.ptu.unison from rfl).trans (congrArg Ptu.unison ptu)
  lists := lists

/-- The move of note pitches reaches glides, source codes and clamp flags alone. -/
theorem moveNotes_frame (old : State) (h : NoteFrame s t) : NoteFrame s (moveNotes old t) := by
  obtain ⟨pending, run, free, cal, ebu, smc, lnk, master, scales, overrides, pots, switches, profiles,
    schedules, route, presented, refresh, plan, lastM⟩ := h
  exact ⟨pending, run, free, cal, ebu, smc, lnk, master, scales, overrides, pots, switches, profiles,
    schedules, route, presented, refresh, plan, lastM⟩

end

/-! ## Part settings -/

section
variable {s : State} {p : Part}

theorem partSettings_eq (pool : BitVec 16) (sc : Fin 2) : partSettings (partByte p) pool (b1 sc.val) s =
    ok (moveNotes s (s.modPart p fun r => { r with pool, scale := sc })) [] := by
  unfold partSettings
  rw [part?_partByte, fin?_b1 sc (by decide)]

/-- The note pitches of the other part do not read a part's settings. -/
theorem partSettings_other {pool : BitVec 16} {sc : Fin 2} {q : Part} (hq : q ≠ p) (k : Nat) :
    notePitch (s.modPart p fun r => { r with pool, scale := sc }) q k = notePitch s q k :=
  notePitch_congr q k rfl rfl (by rw [modPart_part, if_neg hq]) rfl

end

/-- Settles O22: each control by the clamp of its range; the settings by the move of note pitches. -/
theorem partControlsAreStoredAndFollowed : Obligations.PartControlsAreStoredAndFollowed := by
  refine ⟨fun s p value hears => ⟨performanceSet_bends hears value,
    performanceSet_stores (c := .mod) hears rfl (by decide) value,
    performanceSet_stores (c := .pressure) hears rfl (by decide) value,
    performanceSet_stores (c := .expression) hears rfl (by decide) value⟩, fun s p pool sc hears => ?_⟩
  set new := s.modPart p fun r => { r with pool, scale := sc } with hnew
  have frame : NoteFrame s new := NotesOnly.frame ⟨rfl, rfl⟩
  refine ⟨moveNotes s new, ?_, moveNotes_moved rfl rfl ⟨rfl, rfl, rfl, rfl⟩, moveNotes_frame s frame, rfl, rfl, rfl,
    fun q => modPart_part .., fun v hv => ?_⟩
  · refine (hostCommand_taken hears).trans ?_
    rw [partSettings_eq]
    rfl
  · rw [moveNotes_pitchMove]
    unfold noteMove
    simp only
    rw [hnew, partSettings_other hv, Int.sub_self]

end Sys2Proof.Machine
end

