-- ==== Sys2Proof/Proofs/Reads.lean ====
section
/-! The reads: what each answers, field by field (R26, R74, R104, R122, R131, R167, R175, R190, R191). -/

namespace Sys2Proof.Machine

/-- A read that the part hears: the state as it was, but for the frame. -/
theorem read_taken {c : Instr} {s : State} {f : State → Answered} {l : List Byte} (h : hears s = true)
    (e : f s = ok s l) : hostCommand c s f = .next (taken c (0x00 :: l) s) := by
  rw [hostCommand_taken h, e]
  rfl

/-! ## VOICE READ -/

/-- Five bits in one byte, read back. -/
theorem bits_read (a b c d e : Bool) :
    let f := bit 0 a ||| bit 1 b ||| bit 2 c ||| bit 3 d ||| bit 4 e
    f.getLsbD 0 = a ∧ f.getLsbD 1 = b ∧ f.getLsbD 2 = c ∧ f.getLsbD 3 = d ∧ f.getLsbD 4 = e ∧
      f.toNat < 32 := by
  revert a b c d e
  decide

section
variable (x : Voice)

theorem flags_clamp (i : Fin 3) : x.flags.getLsbD i.val = look x.clamp i := by
  obtain ⟨h0, h1, h2, -⟩ := bits_read (look x.clamp 0) (look x.clamp 1) (look x.clamp 2)
    (x.status.isTuning && x.status.reason?.isSome) x.status.isFgTuning
  fin_cases i
  · exact h0
  · exact h1
  · exact h2

theorem flags_tunedWhileParked :
    x.flags.getLsbD 3 = true ↔ ∃ f r, x.status = .tuning f (some r) := by
  have h := (bits_read (look x.clamp 0) (look x.clamp 1) (look x.clamp 2)
    (x.status.isTuning && x.status.reason?.isSome) x.status.isFgTuning).2.2.2.1
  rw [show x.flags.getLsbD 3 = _ from h]
  cases x.status with
  | tuning f r => cases r <;> simp [VoiceStatus.isTuning, VoiceStatus.reason?]
  | _ => simp [VoiceStatus.isTuning]

theorem flags_foreground : x.flags.getLsbD 4 = true ↔ ∃ r, x.status = .tuning true r := by
  have h := (bits_read (look x.clamp 0) (look x.clamp 1) (look x.clamp 2)
    (x.status.isTuning && x.status.reason?.isSome) x.status.isFgTuning).2.2.2.2.1
  rw [show x.flags.getLsbD 4 = _ from h]
  cases x.status with
  | tuning f r => cases f <;> simp [VoiceStatus.isFgTuning]
  | _ => simp [VoiceStatus.isFgTuning]

theorem flags_lt : x.flags.toNat < 32 := (bits_read _ _ _ _ _).2.2.2.2.2

end

/-- The presence byte: 1 for the note, 2 a tail, 4 a damp time, 8 a park reason. -/
theorem presence_eq (x : VoiceStatus) : x.presence = match x with
    | .free => 0
    | .bound _ .held => 1
    | .bound _ .sustained => 1
    | .bound _ (.releasing _) => 3
    | .bound _ (.muting _) => 5
    | .tuning _ r => if r.isSome then 8 else 0
    | .parked _ => 8 := by
  rcases x with _ | ⟨n, _ | _ | _ | _⟩ | ⟨f, _ | _⟩ | _ <;>
    simp [VoiceStatus.presence, bit, VoiceStatus.note?, VoiceStatus.isReleasing, VoiceStatus.isMuting,
      VoiceStatus.reason?]

/-- The first six bytes, the time and the reason of VOICE READ, state by state. -/
theorem voiceRead_state (x : VoiceStatus) :
    let head := [x.byte, x.presence] ++ x.noteBytes
    match x with
    | .free => head = [0, 0, 0, 0, 0, 0] ∧ x.remainingMs = 0 ∧ x.reasonByte = 0
    | .bound n ph => x.reasonByte = 0 ∧ ∃ code presence : Byte,
      head = [code, presence, partByte n.part, b1 n.key, b1 n.velocity, b1 n.pressure] ∧
      (match ph with
      | .held => code = 1 ∧ presence = 1 ∧ x.remainingMs = 0
      | .sustained => code = 2 ∧ presence = 1 ∧ x.remainingMs = 0
      | .releasing t => code = 3 ∧ presence = 3 ∧ x.remainingMs = (t + 7999) / 8000
      | .muting t => code = 4 ∧ presence = 5 ∧ x.remainingMs = (t + 7999) / 8000)
    | .tuning _ r => head = [5, if r.isSome then 8 else 0, 0, 0, 0, 0] ∧ x.remainingMs = 0 ∧
      x.reasonByte = if r = some .host then 1 else 0
    | .parked r => head = [6, 8, 0, 0, 0, 0] ∧ x.remainingMs = 0 ∧
      x.reasonByte = if r = .host then 1 else 0 := by
  rw [presence_eq]
  cases x with
  | free => exact ⟨rfl, rfl, rfl⟩
  | bound n ph =>
    cases ph with
    | held => exact ⟨rfl, 1, 1, rfl, rfl, rfl, rfl⟩
    | sustained => exact ⟨rfl, 2, 1, rfl, rfl, rfl, rfl⟩
    | releasing t => exact ⟨rfl, 3, 3, rfl, rfl, rfl, rfl⟩
    | muting t => exact ⟨rfl, 4, 5, rfl, rfl, rfl, rfl⟩
  | tuning f r => rcases r with _ | _ | _ <;> exact ⟨rfl, rfl, rfl⟩
  | parked r => cases r <;> exact ⟨rfl, rfl, rfl⟩

theorem voiceRead_taken {s : State} (h : hears s = true) (v : VoiceNo) : exec (.voiceRead (b1 v.val)) s =
    .next (taken (.voiceRead (b1 v.val)) (0x00 :: voiceData (s.voice v)) s) :=
  read_taken h (by unfold voiceRead; rw [voice?_b1])

/-! ## CAL READ -/

theorem calRead_taken {s : State} (h : hears s = true) (n : SourceNo) : exec (.calRead (b1 n.val)) s =
    .next (taken (.calRead (b1 n.val)) (0x00 :: (s.record n).bytes) s) :=
  read_taken h (by unfold calRead; rw [fin?_b1 n (by decide)])

/-- A table's entries in order, by their places. -/
theorem toList_flatMap_look {α β : Type} {n : Nat} (t : Vector α n) (f : α → List β) :
    t.toList.flatMap f = (List.finRange n).flatMap fun k => f (look t k) := by
  have entries : t.toList = (List.finRange n).map (look t) := by
    apply List.ext_getElem
    · simp
    · intro i h h'
      simp [look]
  rw [entries, List.flatMap_map]

theorem calStatus_bytes (x : CalStatus) : match x with
    | .nominal => x.byte = 0 ∧ x.reasonByte = 0
    | .tuned => x.byte = 1 ∧ x.reasonByte = 0
    | .failed r => x.byte = 2 ∧ x.reasonByte = match r with
      | .noSignal => 1
      | .notConverged => 2
      | .outOfRange => 3
      | .nonMonotonic => 4 := by
  rcases x with _ | _ | r
  · exact ⟨rfl, rfl⟩
  · exact ⟨rfl, rfl⟩
  · cases r <;> exact ⟨rfl, rfl⟩

/-! ## TUNE READ -/

/-- No pair is in the plan twice. -/
theorem PlanLaw.unique {s : State} (h : PlanLaw s) {e e' : Entry} (he : e ∈ s.tne.plan)
    (he' : e' ∈ s.tne.plan) (voice : e.voice = e'.voice) (src : e.src = e'.src) : e = e' := by
  by_contra hne
  have off : s.tne.plan.Pairwise fun x y => x ≠ y → ¬ (x.voice = y.voice ∧ x.src = y.src) :=
    h.nodup.imp fun {x y} (hxy : ¬ (x.voice = y.voice ∧ x.src = y.src)) (_ : x ≠ y) => hxy
  have back : s.tne.plan.Pairwise fun x y => y ≠ x → ¬ (y.voice = x.voice ∧ y.src = x.src) :=
    h.nodup.imp fun hxy _ hyx => hxy ⟨hyx.1.symm, hyx.2.symm⟩
  have other := List.Pairwise.forall_of_forall_of_flip (fun x _ hx => absurd rfl hx) off back
  exact other he he' hne ⟨voice, src⟩

/-- The current entry's mode is that of the plan entry of its pair. -/
theorem currentMode_eq {s : State} (h : PlanLaw s) {c : Current} {e : Entry} (he : e ∈ s.tne.plan)
    (voice : e.voice = c.voice) (src : e.src = c.src) : currentMode s c = e.mode := by
  have pair : e.isPair c.voice c.src = true := (isPair_iff ..).2 ⟨voice, src⟩
  unfold currentMode
  cases hf : s.tne.plan.find? fun e => e.isPair c.voice c.src with
  | none => exact absurd pair (List.find?_eq_none.1 hf e he)
  | some e' =>
    have pair' : e'.isPair c.voice c.src = true :=
      List.find?_some (p := fun e : Entry => e.isPair c.voice c.src) hf
    obtain ⟨voice', src'⟩ := (isPair_iff ..).1 pair'
    rw [h.unique (List.mem_of_find?_eq_some hf) he (voice'.trans voice.symm) (src'.trans src.symm)]

/-- The bytes that TUNE READ gives of the current entry. -/
def currentBytes (s : State) : List Byte :=
  match s.tne.current with
  | some c => [1, b1 c.voice.val, b1 c.src.val, (currentMode s c).byte, b1 c.k.val, b1 c.iter] ++ b2 c.trial
  | none => List.replicate 8 0

/-- The bytes that TUNE READ gives of the last result. -/
def lastBytes (s : State) : List Byte :=
  match s.tne.lastM with
  | some m => 1 :: b3 m
  | none => List.replicate 4 0

theorem currentBytes_some {s : State} (h : PlanLaw s) {c : Current} {e : Entry}
    (hc : s.tne.current = some c) (he : e ∈ s.tne.plan) (voice : e.voice = c.voice) (src : e.src = c.src) :
    currentBytes s = [1, b1 c.voice.val, b1 c.src.val, if e.mode = .fg then 0 else 1, b1 c.k.val,
      b1 c.iter] ++ Frame.two (BitVec.ofNat 16 c.trial) := by
  unfold currentBytes
  rw [hc]
  simp only
  rw [currentMode_eq h he voice src]
  cases e.mode <;> rfl

/-! ## The other reads -/

section
variable {s : State} (h : hears s = true)
include h

theorem tuneRead_taken : exec .tuneRead s = .next (taken .tuneRead ([0x00, s.tne.mode.byte,
    s.tne.activity.byte] ++ currentBytes s ++ lastBytes s ++ [b1 s.tne.plan.length]) s) :=
  read_taken (f := fun s => ok s (tuneData s)) h rfl

theorem guardRead_taken : exec .guardRead s = .next (taken .guardRead [0x00, b1 s.smc.guard.extent,
    flag s.smc.guard.high, flag s.smc.guard.invert, flag s.smc.frozen, flag (guardSetInFlight s)] s) :=
  read_taken (f := fun s => ok s (guardData s)) h rfl

theorem potRead_taken (q : PotNo) : exec (.potRead (b1 q.val)) s =
    .next (taken (.potRead (b1 q.val)) (0x00 :: (s.pot q).bytes) s) :=
  read_taken h (by unfold potRead; rw [fin?_b1 q (by decide)])

theorem paramRead_taken (p : Part) (n : ParamNo) : exec (.paramRead (partByte p) (b1 n.val)) s =
    .next (taken (.paramRead (partByte p) (b1 n.val)) (0x00 :: b2 ((s.patch p).param n)) s) := by
  have item : fin? 81 (b1 n.val).toNat = some ⟨n.val, by omega⟩ := by
    rw [b1_toNat (by omega), fin?_of_lt]
  refine read_taken h ?_
  unfold paramRead
  rw [part?_partByte, item]
  exact dif_pos n.isLt

theorem nameRead_taken (p : Part) : exec (.paramRead (partByte p) 80) s =
    .next (taken (.paramRead (partByte p) 80) (0x00 :: (s.patch p).name.toList ++
      [b1 (s.patch p).category, if (s.buffer p).modified then 1 else 0]) s) := by
  refine read_taken h ?_
  unfold paramRead
  rw [part?_partByte]
  rfl

theorem routeRead_taken (c : ChannelNo) : exec (.routeRead (b1 c.val)) s =
    .next (taken (.routeRead (b1 c.val)) (0x00 :: b1 (look s.cvo.route c).number ::
      Frame.two (BitVec.ofNat 16 (look s.cvo.presented c)) ++ [flag (look s.cvo.trialMark c)]) s) :=
  read_taken h (by unfold routeRead; rw [fin?_b1 c (by decide)]; rfl)

end

theorem guardSetInFlight_iff (s : State) :
    guardSetInFlight s = true ↔ ∃ w r, s.smc.write = some w ∧ w.job = .guardSet r := by
  unfold guardSetInFlight
  cases s.smc.write with
  | none => exact ⟨fun h => (nomatch h), fun ⟨_, _, h, _⟩ => (nomatch h)⟩
  | some w =>
    have job : (w.job.op == .guardSet) = true ↔ ∃ r, w.job = .guardSet r := by
      rcases w.job with _ | _ | _ | _ | _ <;> simp [Job.op]
    simp [job]

/-- Settles O34: what each read's data is, and the bytes of it that the statement names. -/
theorem readsAnswerWhatTheStateHolds : Obligations.ReadsAnswerWhatTheStateHolds := by
  intro s h
  refine ⟨fun v => ?_, fun n => ?_, ?_, potRead_taken h, paramRead_taken h, nameRead_taken h, ?_,
    routeRead_taken h⟩
  · have state := voiceRead_state (s.voice v).status
    refine ⟨[(s.voice v).status.byte, (s.voice v).status.presence] ++ (s.voice v).status.noteBytes,
      (s.voice v).status.remainingMs, (s.voice v).status.reasonByte, (s.voice v).flags,
      voiceRead_taken h v, state, flags_clamp _, flags_tunedWhileParked _, flags_foreground _, flags_lt _⟩
  · refine ⟨(s.record n).status.byte, (s.record n).status.reasonByte, ?_, calStatus_bytes _⟩
    rw [calRead_taken h, SourceRec.bytes, toList_flatMap_look]
    rfl
  · refine ⟨s.tne.mode.byte, s.tne.activity.byte, currentBytes s, lastBytes s, tuneRead_taken h, ?_, ?_,
      fun hc => ?_, fun c e hc law he voice src => currentBytes_some law hc he voice src, fun hm => ?_,
      fun m hm => ?_⟩
    · cases s.tne.mode <;> rfl
    · cases s.tne.activity <;> rfl
    · unfold currentBytes
      rw [hc]
      rfl
    · unfold lastBytes
      rw [hm]
      rfl
    · unfold lastBytes
      rw [hm]
      rfl
  · exact ⟨guardSetInFlight s, guardRead_taken h, guardSetInFlight_iff s⟩

end Sys2Proof.Machine
end

