-- ==== Sys2Proof/Proofs/Outputs.lean ====
section
/-! What the part shows outside: the voice lines, the strobes and the refresh writes (R1, R91, R106, R175 to
R182). -/

namespace Sys2Proof.Machine

/-! ## Voice lines -/

theorem lines_eq (s : State) (v : VoiceNo) :
    (gateOpen s v, muteAsserted s v, tuneAsserted s v) = (match s.status v with
      | .free => (false, false, false)
      | .bound _ .held => (decide (look s.cvo.gaps v = none), false, false)
      | .bound _ .sustained => (decide (look s.cvo.gaps v = none), false, false)
      | .bound _ (.releasing _) => (false, false, false)
      | .bound _ (.muting _) => (false, true, false)
      | .tuning _ _ => (false, true, true)
      | .parked _ => (false, true, false)) := by
  have gap : (look s.cvo.gaps v).isNone = decide (look s.cvo.gaps v = none) := by
    cases look s.cvo.gaps v <;> rfl
  unfold gateOpen muteAsserted tuneAsserted
  rcases s.status v with _ | ⟨n, _ | _ | _ | _⟩ | _ | _
  case bound.held => exact congrArg (fun x => (x, false, false)) gap
  case bound.sustained => exact congrArg (fun x => (x, false, false)) gap
  all_goals rfl

theorem lines_in_reset {s : State} (h : s.run ≠ .running) (law : ResetLaw s) (v : VoiceNo) :
    gateOpen s v = false ∧ muteAsserted s v = false ∧ tuneAsserted s v = false ∧ strobe s = none ∧
      attn s = false := by
  obtain ⟨val, -, -, -, psc, -⟩ := law h
  have lines := lines_eq s v
  rw [status_of_reset val] at lines
  simp only [Prod.mk.injEq] at lines
  obtain ⟨gate, mute, tune⟩ := lines
  refine ⟨gate, mute, tune, ?_, ?_⟩
  · unfold strobe
    rw [psc]
    rfl
  · unfold attn
    rw [beq_false_of_ne h]
    rfl

/-! ## Strobes -/

section
variable {s : State}

theorem strobe_free (h : s.psc.holder = none) : strobe s = none := by
  unfold strobe
  rw [h]

/-- The scanner strobes the group that its sweep has reached. -/
theorem strobe_scanner (bus : BusLaw s) (scan : ScanLaw s) (h : s.psc.holder = some .scanner) :
    ∃ g rest, s.psc.groups = g :: rest ∧ strobe s = some g ∧ g ∉ ([6, 7, 8] : List (Fin 11)) := by
  have holds : s.psc.phase.holdsBus = true := bus.scanner.2 h
  cases hg : s.psc.groups with
  | nil =>
    rw [bus.groups.1 hg] at holds
    cases holds
  | cons g rest =>
    refine ⟨g, rest, rfl, ?_, ?_⟩
    · unfold strobe
      rw [h, hg]
      rfl
    · obtain ⟨h6, h7, h8⟩ := scan g (by rw [hg]; exact List.mem_cons_self)
      simp [h6, h7, h8]

/-- The engine strobes the probe group of its current entry's source. -/
theorem strobe_engine (bus : BusLaw s) (plan : PlanLaw s) (h : s.psc.holder = some .engine) :
    ∃ c g, s.tne.current = some c ∧ strobe s = some g ∧ g.val = 6 + c.src.val := by
  have holds : s.tne.activity.holdsBus = true := bus.engine.2 h
  obtain ⟨c, hc⟩ := Option.isSome_iff_exists.1 (plan.busy fun idle => by rw [idle] at holds; cases holds)
  refine ⟨c, ⟨6 + c.src.val, by omega⟩, hc, ?_, rfl⟩
  unfold strobe
  rw [h, hc]
  rfl

/-! ## Codes presented -/

theorem trialFor_of_trial {n : SourceNo} {x : Nat} (h : s.cvo.trial = some { source := n, code := x }) :
    trialFor s n = some x := by
  unfold trialFor
  rw [h]
  exact if_pos rfl

theorem trialFor_of_other {n : SourceNo} (h : ∀ x, s.cvo.trial ≠ some { source := n, code := x }) :
    trialFor s n = none := by
  unfold trialFor
  cases ht : s.cvo.trial with
  | none => rfl
  | some t => exact if_neg fun hn => h t.code (by rw [ht, ← hn])

theorem noteField_bound {v : VoiceNo} {n : Note} {ph : BoundPhase} (f : Note → Nat)
    (h : s.status v = .bound n ph) : noteField (s.status v) f = f n := by
  rw [h]
  rfl

theorem noteField_unbound {v : VoiceNo} (f : Note → Nat) (h : ∀ n ph, s.status v ≠ .bound n ph) :
    noteField (s.status v) f = 0 := by
  cases hs : s.status v with
  | bound n ph => exact absurd hs (h n ph)
  | _ => rfl

/-- What a channel presents and whether it is a trial code, by the kind of its source. -/
theorem sourceCode_cases (s : State) (src : CvSource) : match src with
    | .pitch n =>
      (∀ x, s.cvo.trial = some { source := n, code := x } →
        sourceCode s src = x ∧ carriesTrial s src = true) ∧
      ((∀ x, s.cvo.trial ≠ some { source := n, code := x }) →
        sourceCode s src = look s.ptu.codes n ∧ carriesTrial s src = false)
    | .velocity v => carriesTrial s src = false ∧
      (∀ n ph, s.status v = .bound n ph → sourceCode s src = 32 * n.velocity + n.velocity / 4) ∧
      ((∀ n ph, s.status v ≠ .bound n ph) → sourceCode s src = 0)
    | .pressure v => carriesTrial s src = false ∧
      (∀ n ph, s.status v = .bound n ph → sourceCode s src = 32 * n.pressure + n.pressure / 4) ∧
      ((∀ n ph, s.status v ≠ .bound n ph) → sourceCode s src = 0)
    | .param p n => carriesTrial s src = false ∧
      ∀ m : ParamNo, m.val = n.val → sourceCode s src = 4 * (s.patch p).param m + (s.patch p).param m / 256
    | .control p .bend => carriesTrial s src = false ∧ sourceCode s src = (((s.part p).bend + 8192) / 4).toNat
    | .control p .mod => carriesTrial s src = false ∧
      sourceCode s src = 4 * (s.part p).mod + (s.part p).mod / 256
    | .control p .pressure => carriesTrial s src = false ∧
      sourceCode s src = 32 * (s.part p).pressure + (s.part p).pressure / 4
    | .control p .expression => carriesTrial s src = false ∧
      sourceCode s src = 4 * (s.part p).expression + (s.part p).expression / 256
    | .zero => sourceCode s src = 0 ∧ carriesTrial s src = false := by
  rcases src with n | v | v | ⟨p, n⟩ | ⟨p, _ | _ | _ | _⟩ | _
  case pitch =>
    refine ⟨fun x hx => ?_, fun none => ?_⟩
    · simp [sourceCode, carriesTrial, trialFor_of_trial hx]
    · simp [sourceCode, carriesTrial, trialFor_of_other none]
  case velocity =>
    exact ⟨rfl, fun n ph h => congrArg code7 (noteField_bound Note.velocity h),
      fun h => congrArg code7 (noteField_unbound Note.velocity h)⟩
  case pressure =>
    exact ⟨rfl, fun n ph h => congrArg code7 (noteField_bound Note.pressure h),
      fun h => congrArg code7 (noteField_unbound Note.pressure h)⟩
  case param =>
    refine ⟨rfl, fun m hm => ?_⟩
    rw [← show (⟨n.val, by omega⟩ : ParamNo) = m from Fin.ext hm.symm]
    rfl
  all_goals exact ⟨rfl, rfl⟩

end

/-- Settles O51: the lines state by state, the strobe by the holder of the bus, the code by the kind of the
channel's source. -/
theorem refreshWritePresentsTheNextChannel : Obligations.RefreshWritePresentsTheNextChannel := by
  refine ⟨fun s v => ⟨lines_eq s v, fun h law => lines_in_reset h law v⟩, fun s bus plan scan =>
    ⟨strobe_free, strobe_scanner bus scan, strobe_engine bus plan⟩, fun s run => ?_⟩
  refine ⟨sourceCode s (look s.cvo.route s.cvo.next), carriesTrial s (look s.cvo.route s.cvo.next), ?_, ?_⟩
  · refine (event_running run).trans ?_
    unfold refreshWrite dacWord precision
    simp only [decide_eq_true_eq]
    rfl
  · exact sourceCode_cases s _

end Sys2Proof.Machine
end

