-- ==== Sys2Proof/Proofs/SearchStretches.lean ====
section
/-! The candidate search, step by step (R10 to R14). -/

namespace Sys2Proof.Machine

/-! ## Orders of a list -/

/-- Two members of a list stand in it in one order or the other. -/
theorem pair_sublist_or {α : Type} {l : List α} {a b : α} (ha : a ∈ l) (hb : b ∈ l) (hab : a ≠ b) :
    [a, b].Sublist l ∨ [b, a].Sublist l := by
  induction l with
  | nil => cases ha
  | cons x l ih =>
    rcases List.mem_cons.1 ha with rfl | hal
    · exact .inl (.cons_cons _ (List.singleton_sublist.2 ((List.mem_cons.1 hb).resolve_left hab.symm)))
    · rcases List.mem_cons.1 hb with rfl | hbl
      · exact .inr (.cons_cons _ (List.singleton_sublist.2 hal))
      · exact (ih hal hbl).imp (.cons _) (.cons _)

/-- In a list without doubles two members stand in one order only. -/
theorem not_pair_sublist_both {α : Type} {l : List α} {a b : α} (nd : l.Nodup) (h : [a, b].Sublist l)
    (h' : [b, a].Sublist l) : False := by
  induction l with
  | nil => cases h
  | cons x l ih =>
    obtain ⟨hx, nd⟩ := List.nodup_cons.1 nd
    have later : ∀ {c}, [c, x].Sublist (x :: l) → False := fun hc => by
      cases hc with
      | cons _ hc => exact hx (hc.subset (by simp))
      | cons_cons _ hc => exact hx (hc.subset (by simp))
    cases h with
    | cons_cons _ h => exact later h'
    | cons _ h =>
      cases h' with
      | cons_cons _ h' => exact hx (h.subset (by simp))
      | cons _ h' => exact ih nd h h'

/-- A stable sort keeps the order of equals (R14). -/
theorem insertionSort_stable {α : Type} [DecidableEq α] (f : α → Nat) {l : List α} (nd : l.Nodup) :
    (l.insertionSort fun a b => f a ≤ f b).Pairwise fun a b =>
      f a < f b ∨ (f a = f b ∧ [a, b].Sublist l) := by
  have tot : Std.Total fun a b : α => f a ≤ f b := ⟨fun a b => Nat.le_total _ _⟩
  have tr : IsTrans α fun a b => f a ≤ f b := ⟨fun _ _ _ => Nat.le_trans⟩
  have sorted := List.pairwise_insertionSort (fun a b => f a ≤ f b) l
  have nd' : (l.insertionSort fun a b => f a ≤ f b).Nodup := (List.perm_insertionSort _ l).nodup_iff.2 nd
  rw [List.pairwise_iff_forall_sublist] at sorted ⊢
  intro a b hab
  rcases Nat.lt_or_eq_of_le (sorted hab) with lt | eq
  · exact .inl lt
  · refine .inr ⟨eq, ?_⟩
    have mem : ∀ x ∈ [a, b], x ∈ l := fun x hx => (List.mem_insertionSort _).1 (hab.subset hx)
    have ne : a ≠ b := by
      rintro rfl
      exact List.not_nodup_pair a (nd'.sublist hab)
    refine (pair_sublist_or (mem a (by simp)) (mem b (by simp)) ne).resolve_right fun other => ?_
    exact not_pair_sublist_both nd' hab (List.pair_sublist_insertionSort eq.ge other)

/-! ## One step of the search -/

/-- What a step adds to the voices found before it: the first, of those it may take and no earlier step took,
and all of them where the search ends short of the voices wanted. -/
structure Stretch (wanted : Nat) (l before new : List VoiceNo) : Prop where
  first : new <+: l.filter fun v => v ∉ before
  all : before.length + new.length < wanted → new = l.filter fun v => v ∉ before

/-- Voices found, all by one step. -/
abbrev tag (b : FoundBy) (l : List VoiceNo) : Found := l.map fun v => (v, b)

theorem addFound_stretch (wanted : Nat) (b : FoundBy) (l : List VoiceNo) (found : Found) :
    ∃ new, addFound wanted b l found = found ++ tag b new ∧
      Stretch wanted l (found.map Prod.fst) new := by
  obtain ⟨new, e, first, len⟩ := addFound_spec wanted b l found
  have fresh : (l.filter fun v => !(found.any fun x => x.1 == v)) =
      l.filter fun v => v ∉ found.map Prod.fst := by
    refine List.filter_congr fun v _ => ?_
    rw [Bool.eq_iff_iff]
    simp only [Bool.not_eq_true', List.any_eq_false, beq_iff_eq, decide_eq_true_eq, List.mem_map]
    exact ⟨fun h ⟨x, hx, e⟩ => h x hx e, fun h x hx e => h ⟨x, hx, e⟩⟩
  rw [fresh] at first len
  refine ⟨new, e, first, fun short => first.eq_of_length ?_⟩
  rw [List.length_map] at short
  omega

/-! ## The five steps -/

/-- The steps of the search, in turn. -/
def FoundBy.order : List FoundBy := [.reclaim, .free, .releasing, .background, .steal]

/-- How many steps go before a step. -/
def FoundBy.no : FoundBy → Nat
  | .reclaim => 0
  | .free => 1
  | .releasing => 2
  | .background => 3
  | .steal => 4

theorem mem_order_take (b b' : FoundBy) : b' ∈ FoundBy.order.take b.no ↔ b'.no < b.no := by
  cases b <;> cases b' <;> decide

theorem order_take_succ (b : FoundBy) : FoundBy.order.take (b.no + 1) = FoundBy.order.take b.no ++ [b] := by
  cases b <;> rfl

/-- The voices that each step may take, in the order in which it takes them, from the rotate cursor on. -/
def stepList (s : State) (p : Part) (k : Nat) (cursor : VoiceNo) : FoundBy → List VoiceNo
  | .reclaim => searchReclaim s p k
  | .free => searchFree s p cursor
  | .releasing => searchReleasing s p
  | .background => searchBackground s p
  | .steal => searchSteal s p

/-- The voices found by the steps before one. -/
def earlier (n : FoundBy → List VoiceNo) (b : FoundBy) : List VoiceNo := (FoundBy.order.take b.no).flatMap n

/-- The voices found by all steps, each with its step. -/
def allFound (n : FoundBy → List VoiceNo) : Found :=
  FoundBy.order.flatMap fun b => tag b (n b)

section
variable {n : FoundBy → List VoiceNo}

theorem mem_earlier {b : FoundBy} {v : VoiceNo} : v ∈ earlier n b ↔ ∃ b', b'.no < b.no ∧ v ∈ n b' := by
  simp only [earlier, List.mem_flatMap, mem_order_take]

theorem mem_allFound {x : VoiceNo × FoundBy} : x ∈ allFound n ↔ x.1 ∈ n x.2 := by
  obtain ⟨v, b⟩ := x
  have all : ∀ b : FoundBy, b ∈ FoundBy.order := fun b => by cases b <;> decide
  simp only [allFound, List.mem_flatMap, List.mem_map, Prod.mk.injEq]
  exact ⟨fun ⟨b', _, w, hw, e, e'⟩ => e ▸ e' ▸ hw, fun h => ⟨b, all b, v, h, rfl, rfl⟩⟩

theorem allFound_voices : (allFound n).map Prod.fst =
    n .reclaim ++ n .free ++ n .releasing ++ n .background ++ n .steal := by
  simp [allFound, FoundBy.order, Function.comp_def]

/-- The voices found by one step. -/
theorem allFound_filter (b : FoundBy) : ((allFound n).filter fun x => x.2 = b) = tag b (n b) := by
  have own : ∀ b', (tag b' (n b')).filter (fun x => decide (x.2 = b)) =
      if b' = b then tag b' (n b') else [] := fun b' => by
    by_cases h : b' = b
    · rw [if_pos h]
      refine List.filter_eq_self.2 fun x hx => ?_
      obtain ⟨v, -, rfl⟩ := List.mem_map.1 hx
      exact decide_eq_true h
    · rw [if_neg h]
      refine List.filter_eq_nil_iff.2 fun x hx => ?_
      obtain ⟨v, -, rfl⟩ := List.mem_map.1 hx
      simpa using h
  unfold allFound
  rw [List.filter_flatMap]
  simp only [own]
  cases b <;> simp [FoundBy.order]

theorem allFound_by (b : FoundBy) : ((allFound n).filter fun x => x.2 = b).map Prod.fst = n b := by
  rw [allFound_filter]
  simp [Function.comp_def]

/-- What is found up to and with a step is no more than what is found before a later one. -/
theorem earlier_length {b b' : FoundBy} (h : b.no < b'.no) :
    (earlier n b).length + (n b).length ≤ (earlier n b').length := by
  have split : FoundBy.order.take b'.no = FoundBy.order.take (b.no + 1) ++
      (FoundBy.order.take b'.no).drop (b.no + 1) := by
    have front : (FoundBy.order.take b'.no).take (b.no + 1) = FoundBy.order.take (b.no + 1) := by
      rw [List.take_take, Nat.min_eq_left h]
    rw [← front, List.take_append_drop]
  unfold earlier
  rw [split, order_take_succ, List.flatMap_append, List.flatMap_append, List.length_append,
    List.length_append, List.flatMap_singleton]
  exact Nat.le_add_right _ _

theorem earlier_all_length (b : FoundBy) :
    (earlier n b).length + (n b).length ≤ (allFound n).length := by
  have voices := congrArg List.length (allFound_voices (n := n))
  simp only [List.length_map, List.length_append] at voices
  cases b <;> simp [earlier, FoundBy.order, FoundBy.no] <;> omega

end

/-- The search step by step: each step's voices are a stretch, the rotate cursor following the reclaimed
ones (R11). -/
theorem search_stretches (s : State) (p : Part) (k : Nat) : ∃ n : FoundBy → List VoiceNo,
    search s p k = allFound n ∧
      ∀ b, Stretch (s.patch p).unison
        (stepList s p k (cursorAfter (s.part p).cursor (tag .reclaim (n .reclaim))) b)
        (earlier n b) (n b) := by
  obtain ⟨n1, e1, h1⟩ := addFound_stretch (s.patch p).unison .reclaim (searchReclaim s p k) []
  set f1 : Found := [] ++ tag .reclaim n1 with hf1
  obtain ⟨n2, e2, h2⟩ := addFound_stretch (s.patch p).unison .free
    (searchFree s p (cursorAfter (s.part p).cursor f1)) f1
  set f2 : Found := f1 ++ tag .free n2 with hf2
  obtain ⟨n3, e3, h3⟩ := addFound_stretch (s.patch p).unison .releasing (searchReleasing s p) f2
  set f3 : Found := f2 ++ tag .releasing n3 with hf3
  obtain ⟨n4, e4, h4⟩ := addFound_stretch (s.patch p).unison .background (searchBackground s p) f3
  set f4 : Found := f3 ++ tag .background n4 with hf4
  obtain ⟨n5, e5, h5⟩ := addFound_stretch (s.patch p).unison .steal (searchSteal s p) f4
  refine ⟨fun | .reclaim => n1 | .free => n2 | .releasing => n3 | .background => n4 | .steal => n5, ?_,
    fun b => ?_⟩
  · unfold search
    simp only
    rw [e1, e2, e3, e4, e5, hf4, hf3, hf2, hf1]
    simp [allFound, FoundBy.order]
  · simp only [hf1, hf2, hf3, hf4, List.nil_append, List.map_append, List.map_map, Function.comp_def, List.map_id',
      List.append_assoc] at h1 h2 h3 h4 h5
    cases b
    case reclaim => exact h1
    case free => simpa [stepList, earlier, FoundBy.order, FoundBy.no] using h2
    case releasing => simpa [stepList, earlier, FoundBy.order, FoundBy.no] using h3
    case background => simpa [stepList, earlier, FoundBy.order, FoundBy.no] using h4
    case steal => simpa [stepList, earlier, FoundBy.order, FoundBy.no] using h5

end Sys2Proof.Machine
end

