-- ==== Sys2Proof/Proofs/SearchRules.lean ====
section
/-! The candidate search meets its rules (R10 to R14). -/

namespace Sys2Proof.Machine

/-! ## The kinds of voices that the steps take -/

/-- The kind of state a step takes a voice from. -/
def FoundBy.kind : FoundBy → Nat
  | .reclaim => 0
  | .free => 1
  | .releasing => 0
  | .background => 2
  | .steal => 3

/-- The kind of a state: RELEASING, FREE, background-tuning, HELD or SUSTAINED, or none that a step takes. -/
def VoiceStatus.kind : VoiceStatus → Nat
  | .bound _ (.releasing _) => 0
  | .free => 1
  | .tuning false _ => 2
  | .bound _ .held => 3
  | .bound _ .sustained => 3
  | _ => 4

theorem kind_of_isReleasing {x : VoiceStatus} (h : x.isReleasing = true) : x.kind = 0 := by
  obtain ⟨n, t, rfl⟩ := isReleasing_bound h
  rfl

theorem kind_of_isFree {x : VoiceStatus} (h : x.isFree = true) : x.kind = 1 := by
  cases x <;> first | rfl | cases h

theorem kind_of_isBgTuning {x : VoiceStatus} (h : x.isBgTuning = true) : x.kind = 2 := by
  rcases x with _ | _ | ⟨_ | _, _⟩ | _ <;> first | rfl | cases h

theorem kind_of_sounding {x : VoiceStatus} (h : x.isSustained = true ∨ x.isHeld = true) : x.kind = 3 := by
  rcases h with h | h
  · obtain ⟨n, rfl⟩ := isSustained_bound h
    rfl
  · obtain ⟨n, rfl⟩ := isHeld_bound h
    rfl

section
variable {s : State} {p : Part} {k : Nat} {c : VoiceNo}

theorem stepList_kind {b : FoundBy} {v : VoiceNo} (h : v ∈ stepList s p k c b) :
    (s.status v).kind = b.kind := by
  cases b
  case reclaim => exact kind_of_isReleasing ((searchReclaim_mem ..).1 h).2.1
  case free => exact kind_of_isFree (searchFree_free h).1
  case releasing => exact kind_of_isReleasing ((searchReleasing_mem ..).1 h).2.1
  case background => exact kind_of_isBgTuning ((searchBackground_mem ..).1 h).1
  case steal => exact kind_of_sounding ((searchSteal_mem ..).1 h).2.2.1

theorem searchFree_mem (lists : VoiceLaw s) (v : VoiceNo) : v ∈ searchFree s p c ↔
    (s.status v).isFree = true ∧ inSet (s.part p).pool v = true := by
  refine ⟨searchFree_free, fun h => ?_⟩
  unfold searchFree
  simp only
  cases (s.patch p).allocPolicy
  · exact List.mem_filter.2 ⟨mem_countFrom c v, Bool.and_eq_true_iff.2 h⟩
  · exact List.mem_filter.2 ⟨(lists.free v).2 h.1, Bool.and_eq_true_iff.2 h⟩
  · exact List.mem_filter.2 ⟨List.mem_finRange v, Bool.and_eq_true_iff.2 h⟩

end

/-! ## The protected key (R14) -/

theorem foldl_max_spec (l : List Nat) (a : Nat) :
    a ≤ l.foldl max a ∧ (∀ x ∈ l, x ≤ l.foldl max a) ∧ (l.foldl max a = a ∨ l.foldl max a ∈ l) := by
  induction l generalizing a with
  | nil => exact ⟨Nat.le_refl a, fun x hx => (nomatch hx), .inl rfl⟩
  | cons y l ih =>
    obtain ⟨low, all, mem⟩ := ih (max a y)
    rw [List.foldl_cons]
    refine ⟨(Nat.le_max_left a y).trans low, fun x hx => ?_, ?_⟩
    · rcases List.mem_cons.1 hx with rfl | hx
      · exact (Nat.le_max_right a x).trans low
      · exact all x hx
    · rcases mem with e | h
      · rw [e]
        rcases Nat.le_total a y with h | h
        · exact .inr (by rw [Nat.max_eq_right h]; exact List.mem_cons_self)
        · exact .inl (Nat.max_eq_left h)
      · exact .inr (List.mem_cons_of_mem y h)

/-- A key that is the highest of a list, where the list has one. -/
theorem top_iff (l : List Nat) (hl : l ≠ []) (top : Nat) :
    (top ∈ l ∧ ∀ x ∈ l, x ≤ top) ↔ top = l.foldl max 0 := by
  obtain ⟨-, all, mem⟩ := foldl_max_spec l 0
  have isMem : l.foldl max 0 ∈ l := by
    rcases mem with e | h
    · obtain ⟨x, hx⟩ := List.exists_mem_of_ne_nil l hl
      have := all x hx
      rwa [e, ← show x = 0 by omega]
    · exact h
  constructor
  · rintro ⟨h, most⟩
    exact Nat.le_antisymm (all top h) (most _ isMem)
  · rintro rfl
    exact ⟨isMem, all⟩

theorem topKeyProtected_eq (s : State) (p : Part) (keys : List Nat) (v : VoiceNo) :
    topKeyProtected s p keys v = keys.any fun top => keys.all (fun x => decide (x ≤ top)) &&
      keys.any (fun x => x != top) && (s.status v).onKey p top := by
  rcases eq_or_ne keys [] with rfl | hk
  · rfl
  · rw [Bool.eq_iff_iff]
    unfold topKeyProtected holdsOther
    simp only [Bool.and_eq_true, List.any_eq_true, List.all_eq_true, decide_eq_true_eq]
    constructor
    · rintro ⟨other, on⟩
      obtain ⟨mem, most⟩ := (top_iff keys hk _).2 rfl
      exact ⟨_, mem, ⟨most, other⟩, on⟩
    · rintro ⟨top, mem, ⟨most, other⟩, on⟩
      obtain rfl := (top_iff keys hk top).1 ⟨mem, most⟩
      exact ⟨other, on⟩

/-! ## Voices stolen (R14) -/

/-- A voice that step 5 may take. -/
def maySteal (s : State) (p : Part) (v : VoiceNo) : Bool :=
  ((s.status v).isHeld || (s.status v).isSustained) && (s.status v).onPart p &&
    !topKeyProtected s p (s.part p).heldKeys v && decide ((s.patch p).stealPolicy ≠ .none)

section
variable {s : State} {p : Part}

theorem searchSteal_iff (lists : VoiceLaw s) (v : VoiceNo) : v ∈ searchSteal s p ↔ maySteal s p v = true := by
  rw [searchSteal_mem, lists.start]
  simp only [maySteal, Bool.and_eq_true, Bool.or_eq_true, Bool.not_eq_true', decide_eq_true_eq]
  tauto

/-- The part's voices of a kind that are not protected are those that step 5 may take. -/
theorem own_filter (lists : VoiceLaw s) (policy : (s.patch p).stealPolicy ≠ .none) {q : VoiceNo → Bool}
    (hq : ∀ v, q v = true → (s.status v).isHeld = true ∨ (s.status v).isSustained = true) :
    ((s.val.startOrder.get p).filter fun v => !topKeyProtected s p (s.part p).heldKeys v).filter q =
      (s.val.startOrder.get p).filter fun v => q v && maySteal s p v := by
  rw [List.filter_filter]
  refine List.filter_congr fun v hv => ?_
  rw [lists.start] at hv
  rw [Bool.eq_iff_iff]
  simp only [maySteal, Bool.and_eq_true, Bool.or_eq_true, Bool.not_eq_true', decide_eq_true_eq]
  have := hq v
  tauto

theorem searchSteal_oldest (lists : VoiceLaw s) (h : (s.patch p).stealPolicy = .oldest) :
    searchSteal s p =
      (s.val.startOrder.get p).filter (fun v => (s.status v).isSustained && maySteal s p v) ++
        (s.val.startOrder.get p).filter fun v => (s.status v).isHeld && maySteal s p v := by
  have policy : (s.patch p).stealPolicy ≠ .none := by rw [h]; decide
  rw [← own_filter lists policy fun v hv => .inr hv, ← own_filter lists policy fun v hv => .inl hv]
  unfold searchSteal
  simp only [h]

theorem searchSteal_quietest (lists : VoiceLaw s) (h : (s.patch p).stealPolicy = .quietest) :
    searchSteal s p = ((s.val.startOrder.get p).filter (maySteal s p)).insertionSort
      fun v w => velocityOf s v ≤ velocityOf s w := by
  have policy : (s.patch p).stealPolicy ≠ .none := by rw [h]; decide
  have own := own_filter lists policy (q := fun v => (s.status v).isSustained || (s.status v).isHeld)
    fun v hv => (Bool.or_eq_true_iff.1 hv).symm
  have all : ((s.val.startOrder.get p).filter fun v =>
      ((s.status v).isSustained || (s.status v).isHeld) && maySteal s p v) =
      (s.val.startOrder.get p).filter (maySteal s p) := by
    refine List.filter_congr fun v _ => ?_
    rw [Bool.eq_iff_iff]
    simp only [maySteal, Bool.and_eq_true, Bool.or_eq_true]
    tauto
  unfold searchSteal
  simp only [h]
  rw [own, all]

theorem searchSteal_none (h : (s.patch p).stealPolicy = .none) : searchSteal s p = [] := by
  unfold searchSteal
  simp only [h]

end

/-! ## What the stretches give -/

section
variable {U : Nat} {l : FoundBy → List VoiceNo} {n : FoundBy → List VoiceNo}
  (h : ∀ b, Stretch U (l b) (earlier n b) (n b))
include h

theorem mem_step {b : FoundBy} {v : VoiceNo} (hv : v ∈ n b) : v ∈ l b :=
  (List.mem_filter.1 ((h b).first.subset hv)).1

/-- A step that ends short of the voices wanted has left out none that it may take. -/
theorem step_all {b : FoundBy} (short : (earlier n b).length + (n b).length < U) {v : VoiceNo} (hv : v ∈ l b) :
    ∃ b', b'.no ≤ b.no ∧ v ∈ n b' := by
  by_cases he : v ∈ earlier n b
  · obtain ⟨b', hb', hv'⟩ := mem_earlier.1 he
    exact ⟨b', hb'.le, hv'⟩
  · refine ⟨b, Nat.le_refl _, ?_⟩
    rw [(h b).all short]
    exact List.mem_filter.2 ⟨hv, by simpa using he⟩

/-- A voice is found by a step only when every voice an earlier step may take has been found. -/
theorem earlier_steps_done (bound : (allFound n).length ≤ U) {b b' : FoundBy} (hb : b.no < b'.no)
    {v w : VoiceNo} (hw : w ∈ n b') (hv : v ∈ l b) : ∃ b'', b''.no ≤ b.no ∧ v ∈ n b'' := by
  have before := earlier_length (n := n) hb
  have total := earlier_all_length (n := n) b'
  have some := List.length_pos_of_mem hw
  exact step_all h (by omega) hv

theorem all_steps_done (short : (allFound n).length < U) {b : FoundBy} {v : VoiceNo} (hv : v ∈ l b) :
    v ∈ (allFound n).map Prod.fst := by
  have total := earlier_all_length (n := n) b
  obtain ⟨b', -, hv'⟩ := step_all h (by omega) hv
  exact List.mem_map.2 ⟨(v, b'), mem_allFound.2 hv', rfl⟩

/-- A step that no earlier step competes with takes the first voices of its list. -/
theorem step_first {b : FoundBy} (own : ∀ v ∈ l b, v ∉ earlier n b) : n b <+: l b := by
  have first := (h b).first
  rwa [List.filter_eq_self.2 fun v hv => by simpa using own v hv] at first

end

/-- The search from lawful lists: its stretches, and the voices each step may take. -/
theorem stepList_apart {s : State} {p : Part} {k : Nat} {c : VoiceNo} {U : Nat}
    {n : FoundBy → List VoiceNo} (h : ∀ b, Stretch U (stepList s p k c b) (earlier n b) (n b))
    {b b' : FoundBy} (hk : b.kind ≠ b'.kind) {v : VoiceNo} (hv : v ∈ stepList s p k c b) : v ∉ n b' :=
  fun hv' => hk ((stepList_kind hv).symm.trans (stepList_kind (mem_step h hv')))

theorem countFrom_eq (c : VoiceNo) : countFrom c = (List.range 16).map fun i =>
    (⟨(c.val + 1 + i) % 16, Nat.mod_lt _ (by decide)⟩ : VoiceNo) := by
  revert c
  decide

/-- The voices that each step may take (R10 to R14). -/
def mayTake (s : State) (p : Part) (k : Nat) : FoundBy → VoiceNo → Bool
  | .reclaim, v => (s.status v).isReleasing && (s.status v).onKey p k
  | .free, v => (s.status v).isFree && inSet (s.part p).pool v
  | .releasing, v => (s.status v).isReleasing && inSet (s.part p).pool v
  | .background, v => (s.status v).isBgTuning && inSet (s.part p).pool v
  | .steal, v => maySteal s p v

theorem mem_stepList {s : State} (lists : VoiceLaw s) {p : Part} {k : Nat} {c : VoiceNo} {b : FoundBy}
    {v : VoiceNo} : v ∈ stepList s p k c b ↔ mayTake s p k b v = true := by
  have released : v ∈ s.val.releaseOrder ↔ (s.status v).isReleasing = true := lists.release v
  cases b
  case reclaim =>
    refine (searchReclaim_mem s p k v).trans ?_
    simp only [mayTake, Bool.and_eq_true]
    tauto
  case free => exact (searchFree_mem lists v).trans Bool.and_eq_true_iff.symm
  case releasing =>
    refine (searchReleasing_mem s p v).trans ?_
    simp only [mayTake, Bool.and_eq_true]
    tauto
  case background => exact (searchBackground_mem s p v).trans Bool.and_eq_true_iff.symm
  case steal => exact searchSteal_iff lists v

/-- Step 3 takes the first of the RELEASING voices in the pool that step 1 left (R12). -/
theorem releasing_first {s : State} {p : Part} {k : Nat} {c : VoiceNo} {U : Nat}
    {n : FoundBy → List VoiceNo} (h : ∀ b, Stretch U (stepList s p k c b) (earlier n b) (n b)) :
    n .releasing <+: s.val.releaseOrder.filter fun v =>
      mayTake s p k .releasing v && decide (v ∉ n .reclaim) := by
  have first := (h .releasing).first
  have same : (stepList s p k c .releasing).filter (fun v => v ∉ earlier n .releasing) =
      (stepList s p k c .releasing).filter fun v => v ∉ n .reclaim := by
    refine List.filter_congr fun v hv => ?_
    have notFree : v ∉ n .free := stepList_apart h (by decide) hv
    simp [earlier, FoundBy.order, FoundBy.no, notFree]
  rw [same, stepList, searchReleasing, List.filter_filter] at first
  have form : (fun v => decide (v ∉ n .reclaim) && ((s.status v).isReleasing && inSet (s.part p).pool v)) =
      fun v => mayTake s p k .releasing v && decide (v ∉ n .reclaim) := funext fun v => Bool.and_comm _ _
  rwa [form] at first

/-- Settles O14: the search as five stretches, each of the voices that its step may take. -/
theorem candidateSearchFollowsItsFiveSteps : Obligations.CandidateSearchFollowsItsFiveSteps := by
  intro s p k lists found voices pool keys guarded steal may stepNo cursor by' start
  obtain ⟨n, foundIs, stretch⟩ := search_stretches s p k
  have stealIs : steal = maySteal s p := by
    funext v
    simp only [steal, maySteal, guarded, topKeyProtected_eq, keys]
  have mayIs : may = mayTake s p k := by
    funext b v
    cases b
    case steal => exact congrFun stealIs v
    all_goals rfl
  have byIs : ∀ b, by' b = n b := fun b => by
    simp only [by', found, foundIs]
    exact allFound_by b
  have stepIs : ∀ b, stepNo b = b.no + 1 := fun b => by cases b <;> rfl
  have cursorIs : cursor = cursorAfter (s.part p).cursor (tag .reclaim (n .reclaim)) := by
    simp only [cursor, found, foundIs, allFound_filter]
    rfl
  have bound : (allFound n).length ≤ (s.patch p).unison := foundIs ▸ search_length s p k
  have first (b : FoundBy) (hb : ∀ b' : FoundBy, b'.no < b.no → b.kind ≠ b'.kind) :
      n b <+: stepList s p k cursor b := by
    rw [cursorIs]
    exact step_first stretch fun v hv he => by
      obtain ⟨b', hb', hv'⟩ := mem_earlier.1 he
      exact stepList_apart stretch (hb b' hb') hv hv'
  have freeFirst : n .free <+: searchFree s p cursor := first .free fun b' => by cases b' <;> decide
  have stealFirst : n .steal <+: searchSteal s p := first .steal fun b' => by cases b' <;> decide
  refine ⟨search_length s p k, search_nodup lists p k, fun x hx => ?_, fun x hx b v hb hv => ?_,
    fun short b v hv => ?_, ?_, ?_, fun hp => ?_, fun hp => ?_, fun hp => ?_, ?_, ?_, fun hp => ?_,
    fun hp => ?_, fun hp => ?_⟩
  · simp only [found, foundIs] at hx
    rw [mayIs, ← mem_stepList lists]
    exact mem_step stretch (mem_allFound.1 hx)
  · simp only [found, foundIs] at hx
    rw [mayIs, ← mem_stepList lists] at hv
    obtain ⟨b', hb', hv'⟩ := earlier_steps_done stretch bound (by rw [stepIs, stepIs] at hb; omega)
      (mem_allFound.1 hx) hv
    refine ⟨(v, b'), ?_, rfl, ?_⟩
    · simp only [found, foundIs]
      exact mem_allFound.2 hv'
    · rw [stepIs, stepIs]
      exact Nat.succ_le_succ hb'
  · simp only [found, foundIs] at short
    rw [mayIs, ← mem_stepList lists] at hv
    simp only [voices, found, foundIs]
    exact all_steps_done stretch short hv
  · simp only [byIs, voices, found, foundIs]
    exact allFound_voices.symm
  · rw [byIs, mayIs]
    exact first .reclaim fun b' => by cases b' <;> decide
  · rw [byIs, mayIs, ← countFrom_eq]
    simp only [searchFree, hp] at freeFirst
    exact freeFirst
  · rw [byIs, mayIs]
    simp only [searchFree, hp] at freeFirst
    exact freeFirst
  · rw [byIs, mayIs]
    simp only [searchFree, hp] at freeFirst
    exact freeFirst
  · rw [byIs, byIs, mayIs]
    exact releasing_first stretch
  · rw [byIs, mayIs]
    exact first .background fun b' => by cases b' <;> decide
  · rw [byIs, stealIs, ← searchSteal_oldest lists hp]
    exact stealFirst
  · rw [byIs, stealIs]
    refine ⟨searchSteal s p, ?_, stealFirst, ?_⟩
    · rw [searchSteal_quietest lists hp]
      exact List.perm_insertionSort _ _
    · rw [searchSteal_quietest lists hp]
      exact (insertionSort_stable (velocityOf s) ((lists.startNodup p).filter _)).imp fun h =>
        h.imp_right fun ⟨e, sub⟩ => ⟨e, sub.trans List.filter_sublist⟩
  · rw [byIs]
    exact List.prefix_nil.1 (searchSteal_none hp ▸ stealFirst)

end Sys2Proof.Machine
end

