-- ==== Sys2Proof/Proofs/EngineLosses.lean ====
section
/-! What the Tune Engine's loss of voices reaches and what it leaves (R102, R103). -/

namespace Sys2Proof.Machine

/-! ## What a measurement given up reaches -/

/-- Only the side of the bus, the engine's mode, activity, current entry and failed set, and the trial code
override differ. -/
def EngineReach (s t : State) : Prop :=
  { t with
    psc := { t.psc with
      holder := s.psc.holder, lastHolder := s.psc.lastHolder, scannerWaits := s.psc.scannerWaits
      engineWaits := s.psc.engineWaits, addr := s.psc.addr, phase := s.psc.phase }
    tne := { t.tne with
      mode := s.tne.mode, activity := s.tne.activity, current := s.tne.current, failed := s.tne.failed }
    cvo := { t.cvo with trial := s.cvo.trial } } = s

theorem EngineReach.refl (s : State) : EngineReach s s := rfl

theorem EngineReach.trans {s t u : State} (a : EngineReach s t) (b : EngineReach t u) : EngineReach s u := by
  unfold EngineReach at *
  rw [← b] at a
  exact a

section
variable {s t : State} (h : EngineReach s t)
include h

theorem EngineReach.frame : NoteFrame s t := by
  unfold EngineReach at h
  rw [← h]
  constructor <;> first | rfl | exact ⟨rfl, rfl⟩ | exact ⟨rfl, rfl, rfl⟩

theorem EngineReach.notes : t.val = s.val ∧ t.ptu = s.ptu ∧ t.cvo.gaps = s.cvo.gaps ∧ t.run = s.run := by
  unfold EngineReach at h
  rw [← h]
  exact ⟨rfl, rfl, rfl, rfl⟩

end

theorem grantBus_scanner_reach (s : State) : EngineReach s (grantBus .scanner s) := rfl

theorem releaseBus_reach (s : State) : EngineReach s (releaseBus .engine s) := by
  unfold releaseBus
  split
  · simp only
    split
    · exact EngineReach.trans (t := s.setPsc { s.psc with holder := none }) rfl (grantBus_scanner_reach _)
    · rfl
  · rfl

theorem stopMeasurement_reach (s : State) : EngineReach s (stopMeasurement s) := by
  have used (t : State) : EngineReach t (stopMeasurement.stepUsed t) := by
    unfold stopMeasurement.stepUsed
    split <;> rfl
  unfold stopMeasurement
  split
  · rfl
  · exact EngineReach.trans (t := (withdrawEngine s).setActivity .idle) rfl (used _)
  · exact ((releaseBus_reach s).trans
      (EngineReach.trans (t := (releaseBus .engine s).setActivity .idle) rfl (used _)))

theorem abandonCurrent_reach (s : State) : EngineReach s (abandonCurrent s) :=
  (stopMeasurement_reach s).trans rfl

theorem engineLoses_reach (v : VoiceNo) (s : State) : EngineReach s (engineLoses v s) := by
  rw [engineLoses_eq]
  refine EngineReach.trans (t := engineStops v s) ?_ rfl
  rcases engineStops_cases v s with e | ⟨e, -⟩ <;> rw [e]
  · exact abandonCurrent_reach s
  · exact .refl s

/-! ## What the loss of voices leaves -/

/-- The engine as its loss of voices leaves it: as it was, but for the failed set, where the current entry's
voice is none of them, and with nothing current and the bus let go where it is. -/
structure EngineLost (s t : State) (lost : List VoiceNo) : Prop where
  run : t.run = s.run
  stands : (∀ c, s.tne.current = some c → c.voice ∉ lost) →
    { t.tne with failed := s.tne.failed } = s.tne ∧ t.psc = s.psc ∧ t.cvo.trial = s.cvo.trial
  gone : ∀ c, s.tne.current = some c → c.voice ∈ lost → BusLaw s →
    t.tne.current = none ∧ t.cvo.trial = none ∧ t.tne.activity = .idle ∧ t.psc.holder ≠ some .engine ∧
      t.psc.engineWaits = false
  failed : ∀ v, inSet t.tne.failed v = (inSet s.tne.failed v && decide (v ∉ lost))

theorem EngineLost.of_eq {s t : State} (run : t.run = s.run) (tne : t.tne = s.tne) (psc : t.psc = s.psc)
    (trial : t.cvo.trial = s.cvo.trial) : EngineLost s t [] where
  run := run
  stands _ := ⟨by rw [tne], psc, trial⟩
  gone _ _ h := nomatch h
  failed v := by rw [tne]; simp

theorem EngineLost.trans {s t u : State} {l m : List VoiceNo} (a : EngineLost s t l) (b : EngineLost t u m) :
    EngineLost s u (l ++ m) where
  run := b.run.trans a.run
  stands h := by
    obtain ⟨tne, psc, trial⟩ := a.stands fun c hc hl => h c hc (List.mem_append_left m hl)
    have current : t.tne.current = s.tne.current := by rw [← tne]
    obtain ⟨tne', psc', trial'⟩ := b.stands fun c hc hm => h c (current ▸ hc) (List.mem_append_right l hm)
    refine ⟨?_, psc'.trans psc, trial'.trans trial⟩
    rw [← tne, ← tne']
  gone c hc hlm bus := by
    by_cases hl : c.voice ∈ l
    · obtain ⟨current, trial, idle, holder, waits⟩ := a.gone c hc hl bus
      obtain ⟨tne, psc, trial'⟩ := b.stands fun c hc => by rw [current] at hc; cases hc
      refine ⟨?_, trial'.trans trial, ?_, psc ▸ holder, psc ▸ waits⟩
      · rw [← tne] at current
        exact current
      · rw [← tne] at idle
        exact idle
    · obtain ⟨tne, psc, trial⟩ := a.stands fun c' hc' => by
        rw [hc] at hc'
        cases hc'
        exact hl
      have current : t.tne.current = s.tne.current := by rw [← tne]
      have activity : t.tne.activity = s.tne.activity := by rw [← tne]
      exact b.gone c (current ▸ hc) ((List.mem_append.1 hlm).resolve_left hl)
        (bus.congr a.run activity (.of_eq psc))
  failed v := by
    rw [b.failed, a.failed]
    simp [Bool.and_assoc]

theorem engineStops_current_voice {v : VoiceNo} {s : State} {c : Current} (hc : s.tne.current = some c)
    (hv : c.voice = v) : engineStops v s = abandonCurrent s := by
  unfold engineStops
  rw [hc]
  exact if_pos hv

theorem engineStops_other_voice {v : VoiceNo} {s : State}
    (h : ∀ c, s.tne.current = some c → c.voice ≠ v) : engineStops v s = s := by
  unfold engineStops
  cases hc : s.tne.current with
  | none => rfl
  | some c => exact if_neg (h c hc)

theorem engineStops_failed (v : VoiceNo) (s : State) : (engineStops v s).tne.failed = s.tne.failed := by
  rcases engineStops_cases v s with e | ⟨e, -⟩ <;> rw [e]
  exact (stopMeasurement_tne s).2.2.1

theorem engineLoses_lost (v : VoiceNo) (s : State) : EngineLost s (engineLoses v s) [v] where
  run := (engineLoses_plan v s).2
  stands h := by
    rw [engineLoses_eq, engineStops_other_voice fun c hc => by simpa using h c hc]
    exact ⟨rfl, rfl, rfl⟩
  gone c hc hv bus := by
    have law := abandonCurrent_busLaw bus
    have idle := abandonCurrent_activity s
    rw [engineLoses_eq, engineStops_current_voice hc (List.mem_singleton.1 hv)]
    refine ⟨rfl, rfl, idle, fun holder => ?_, Bool.eq_false_iff.2 fun waits => ?_⟩
    · have := law.engine.2 holder
      rw [idle] at this
      cases this
    · have := law.engineWaits.1 waits
      rw [idle] at this
      cases this
  failed w := by
    rw [engineLoses_eq]
    refine (inSet_setDrop _ v w).trans ?_
    rw [engineStops_failed]
    simp only [List.mem_singleton, bne, decide_not]
    rfl

end Sys2Proof.Machine
end

