-- ==== Sys2Proof/Proofs/Placement.lean ====
section
/-! The placement of the voices found, one after another (R15, R16, R102). -/

namespace Sys2Proof.Machine

/-! ## Frames of note commands -/

theorem NoteFrame.trans {s t u : State} (a : NoteFrame s t) (b : NoteFrame t u) : NoteFrame s u where
  pending := b.pending.trans a.pending
  run := b.run.trans a.run
  free := b.free.trans a.free
  cal := b.cal.trans a.cal
  ebu := b.ebu.trans a.ebu
  smc := b.smc.trans a.smc
  lnk := b.lnk.trans a.lnk
  master := b.master.trans a.master
  scales := b.scales.trans a.scales
  overrides := b.overrides.trans a.overrides
  pots := b.pots.trans a.pots
  switches := b.switches.trans a.switches
  profiles := b.profiles.trans a.profiles
  schedules := ⟨b.schedules.1.trans a.schedules.1, b.schedules.2.trans a.schedules.2⟩
  route := b.route.trans a.route
  presented := ⟨b.presented.1.trans a.presented.1, b.presented.2.trans a.presented.2⟩
  refresh := ⟨b.refresh.1.trans a.refresh.1, b.refresh.2.1.trans a.refresh.2.1,
    b.refresh.2.2.trans a.refresh.2.2⟩
  plan := b.plan.trans a.plan
  lastM := b.lastM.trans a.lastM

/-! ## Placement of a list of voices -/

/-- The record of a voice that a placement binds (R15, R16). -/
def placedVoice (x : Patch) (p : Part) (k vel size : Nat) (b : FoundBy) (j : Nat) (seed : BitVec 16)
    (old : Voice) : Voice :=
  { old with
    status := .bound (placedNote p k vel) (placedPhase x b)
    unisonIndex := j, unisonSize := size, slop := slopOf seed x.slopDepth }

/-- The voices of a list of found ones. -/
abbrev Found.voices (l : Found) : List VoiceNo := l.map Prod.fst

/-- The voices that step 4 found. -/
def Found.background (l : Found) : List VoiceNo := (l.filter fun x => x.2 = .background).map Prod.fst

/-- What the placement of found voices makes of a state, their unison indices counting from n. -/
structure PlacedAll (s t : State) (p : Part) (k vel size : Nat) (l : Found) (n : Nat) : Prop where
  frame : NoteFrame s t
  ptu : t.ptu = s.ptu
  engine : EngineLost s t l.background
  freeList : t.val.freeList = s.val.freeList.filter fun v => v ∉ l.voices
  releaseOrder : t.val.releaseOrder = s.val.releaseOrder.filter fun v => v ∉ l.voices
  startOrder : ∀ q, t.val.startOrder.get q = (s.val.startOrder.get q).filter (fun v => v ∉ l.voices) ++
    if q = p then l.voices else []
  seed : t.val.seed = advanceSeed^[l.length] s.val.seed
  part : ∀ q, t.part q = { s.part q with solo := soloDrops l.voices (s.part q).solo }
  other : ∀ v, v ∉ l.voices → t.voice v = s.voice v ∧ look t.cvo.gaps v = look s.cvo.gaps v
  placed : ∀ (j : Nat) (v : VoiceNo) (b : FoundBy), l[j]? = some (v, b) →
    t.voice v = placedVoice (s.patch p) p k vel size b (n + j) (advanceSeed^[j + 1] s.val.seed) (s.voice v) ∧
      look t.cvo.gaps v = none

section
variable {s t u : State} {p : Part} {k vel size : Nat}

theorem placedAll_nil (n : Nat) : PlacedAll s s p k vel size [] n where
  frame := NotesOnly.frame (.refl s)
  ptu := rfl
  engine := .of_eq rfl rfl rfl rfl
  freeList := by simp
  releaseOrder := by simp
  startOrder q := by simp
  seed := rfl
  part _ := rfl
  other _ _ := ⟨rfl, rfl⟩
  placed j v b h := nomatch h

theorem filter_not_mem_singleton (v : VoiceNo) (l : List VoiceNo) :
    (l.filter fun w => w ∉ [v]) = without v l := by
  rw [without_eq]
  simp

/-- The placement of a voice not found by step 4. -/
theorem placeOne_placedAll (s : State) (v : VoiceNo) {b : FoundBy} (j : Nat) (hb : b ≠ .background) :
    PlacedAll s (placeOne p k vel size s ((v, b), j)) p k vel size [(v, b)] j where
  frame := by
    rw [placeOne_eq p k vel size s v j hb]
    constructor <;> first | rfl | exact ⟨rfl, rfl⟩ | exact ⟨rfl, rfl, rfl⟩
  ptu := by rw [placeOne_eq p k vel size s v j hb]; rfl
  engine := by
    have none : Found.background [(v, b)] = [] := by simp [Found.background, hb]
    rw [none, placeOne_eq p k vel size s v j hb]
    exact .of_eq rfl rfl rfl rfl
  freeList := by
    rw [placeOne_freeList p k vel size s v j hb]
    exact (filter_not_mem_singleton v _).symm
  releaseOrder := by
    rw [placeOne_releaseOrder p k vel size s v j hb]
    exact (filter_not_mem_singleton v _).symm
  startOrder q := by
    rw [placeOne_startOrder p k vel size s v j hb]
    exact congrArg (· ++ _) (filter_not_mem_singleton v _).symm
  seed := placeOne_seed p k vel size s v j hb
  part q := placeOne_part p k vel size s v j hb q
  other w hw := by
    have hw : w ≠ v := by simpa using hw
    rw [placeOne_voice p k vel size s v j hb, if_neg hw, placeOne_gaps p k vel size s v j hb, look_put,
      if_neg hw]
    exact ⟨rfl, rfl⟩
  placed i w c h := by
    obtain ⟨rfl, rfl, rfl⟩ : i = 0 ∧ v = w ∧ b = c := by
      cases i with
      | zero => simpa using h
      | succ i => simp at h
    rw [placeOne_voice p k vel size s v j hb, if_pos rfl, placeOne_gaps p k vel size s v j hb, look_put,
      if_pos rfl]
    exact ⟨rfl, rfl⟩

/-- A voice found by step 4 is placed once the engine has lost it. -/
theorem PlacedAll.after_loss {v : VoiceNo} {j : Nat}
    (h : PlacedAll (engineLoses v s) t p k vel size [(v, .free)] j) :
    PlacedAll s t p k vel size [(v, .background)] j := by
  have reach := engineLoses_reach v s
  obtain ⟨val, ptu, gaps, -⟩ := reach.notes
  have voice : ∀ w, (engineLoses v s).voice w = s.voice w := fun w => engineLoses_voice v w s
  have part : ∀ q, (engineLoses v s).part q = s.part q := fun q => by unfold State.part; rw [val]
  have patch : (engineLoses v s).patch p = s.patch p := by unfold State.patch; rw [engineLoses_ebu]
  constructor
  case frame => exact reach.frame.trans h.frame
  case ptu => exact h.ptu.trans ptu
  case engine => exact (engineLoses_lost v s).trans h.engine
  case freeList => exact h.freeList.trans (by rw [val]; rfl)
  case releaseOrder => exact h.releaseOrder.trans (by rw [val]; rfl)
  case startOrder => exact fun q => (h.startOrder q).trans (by rw [val]; rfl)
  case seed => exact h.seed.trans (by rw [val]; rfl)
  case part => exact fun q => (h.part q).trans (by rw [part]; rfl)
  case other =>
    intro w hw
    obtain ⟨a, b⟩ := h.other w hw
    exact ⟨a.trans (voice w), b.trans (by rw [gaps])⟩
  case placed =>
    intro i w c hi
    obtain ⟨rfl, rfl, rfl⟩ : i = 0 ∧ v = w ∧ FoundBy.background = c := by
      cases i with
      | zero => simpa using hi
      | succ i => simp at hi
    obtain ⟨a, b⟩ := h.placed 0 v .free rfl
    rw [voice, patch, val] at a
    exact ⟨a, b⟩

theorem placeOne_placedAll' (s : State) (v : VoiceNo) (b : FoundBy) (j : Nat) :
    PlacedAll s (placeOne p k vel size s ((v, b), j)) p k vel size [(v, b)] j := by
  by_cases hb : b = .background
  · subst hb
    rw [placeOne_background]
    exact (placeOne_placedAll _ v j (by decide)).after_loss
  · exact placeOne_placedAll s v j hb

theorem PlacedAll.cons {v : VoiceNo} {b : FoundBy} {l : Found} {n : Nat} (hv : v ∉ l.voices)
    (a : PlacedAll s t p k vel size [(v, b)] n) (c : PlacedAll t u p k vel size l (n + 1)) :
    PlacedAll s u p k vel size ((v, b) :: l) n := by
  have lists (m : List VoiceNo) : (m.filter fun w => w ∉ Found.voices [(v, b)]).filter
      (fun w => w ∉ l.voices) = m.filter fun w => w ∉ Found.voices ((v, b) :: l) := by
    rw [List.filter_filter]
    refine List.filter_congr fun w _ => ?_
    rw [Bool.eq_iff_iff]
    simp only [Bool.and_eq_true, decide_eq_true_eq, List.map_cons, List.map_nil, List.mem_cons,
      not_or]
    tauto
  have patch : t.patch p = s.patch p := by unfold State.patch; rw [a.frame.ebu]
  constructor
  case frame => exact a.frame.trans c.frame
  case ptu => exact c.ptu.trans a.ptu
  case engine =>
    have split : Found.background ((v, b) :: l) = Found.background [(v, b)] ++ l.background := by
      unfold Found.background
      rw [← List.map_append, ← List.filter_append]
      rfl
    rw [split]
    exact a.engine.trans c.engine
  case freeList => rw [c.freeList, a.freeList, lists]
  case releaseOrder => rw [c.releaseOrder, a.releaseOrder, lists]
  case startOrder =>
    intro q
    rw [c.startOrder, a.startOrder, List.filter_append, lists, List.append_assoc]
    congr 1
    split
    · have own : (Found.voices [(v, b)]).filter (fun w => w ∉ l.voices) = [v] :=
        List.filter_eq_self.2 fun w hw => by
          rw [List.mem_singleton.1 hw]
          exact decide_eq_true hv
      rw [own]
      rfl
    · rfl
  case seed =>
    rw [c.seed, a.seed]
    rfl
  case part =>
    intro q
    rw [c.part, a.part]
    rfl
  case other =>
    intro w hw
    simp only [List.map_cons, List.mem_cons, not_or] at hw
    obtain ⟨e1, e2⟩ := c.other w hw.2
    obtain ⟨e3, e4⟩ := a.other w (by simpa using hw.1)
    exact ⟨e1.trans e3, e2.trans e4⟩
  case placed =>
    intro j w d hj
    cases j with
    | zero =>
      obtain ⟨rfl, rfl⟩ : v = w ∧ b = d := by simpa using hj
      obtain ⟨e1, e2⟩ := c.other v hv
      obtain ⟨e3, e4⟩ := a.placed 0 v b rfl
      exact ⟨e1.trans e3, e2.trans e4⟩
    | succ j =>
      have hj : l[j]? = some (w, d) := by simpa using hj
      have hw : w ∈ l.voices := List.mem_map.2 ⟨_, List.mem_of_getElem? hj, rfl⟩
      have ne : w ∉ Found.voices [(v, b)] := by
        simp only [List.map_cons, List.map_nil, List.mem_singleton]
        rintro rfl
        exact hv hw
      obtain ⟨e1, e2⟩ := c.placed j w d hj
      rw [patch, (a.other w ne).1, a.seed] at e1
      refine ⟨e1.trans ?_, e2⟩
      rw [Nat.add_assoc, Nat.add_comm 1 j]
      rfl

theorem placeAll_placedAll {l : Found} (nd : l.voices.Nodup) (n : Nat) (s : State) :
    PlacedAll s ((l.zipIdx n).foldl (placeOne p k vel size) s) p k vel size l n := by
  induction l generalizing n s with
  | nil => exact placedAll_nil n
  | cons x l ih =>
    obtain ⟨v, b⟩ := x
    obtain ⟨hv, nd⟩ := List.nodup_cons.1 nd
    rw [List.zipIdx_cons, List.foldl_cons]
    exact (placeOne_placedAll' s v b n).cons hv (ih nd (n + 1) _)

end

end Sys2Proof.Machine
end

