-- ==== Sys2Proof/Proofs/SearchedStarts.lean ====
section
/-! The hand-over of placed voices to the Pitch Unit, and the NOTE START that searches (R15, R41, R54). -/

namespace Sys2Proof.Machine

/-! ## Hand-overs -/

/-- Only source codes, clamp flags, glide records and unison offsets differ. -/
def HandOnly (s t : State) : Prop :=
  { t with
    ptu := { t.ptu with codes := s.ptu.codes, glide := s.ptu.glide, unison := s.ptu.unison }
    val := { t.val with voices := s.val.voices } } = s

theorem HandOnly.trans {s t u : State} (a : HandOnly s t) (b : HandOnly t u) : HandOnly s u := by
  unfold HandOnly at *
  rw [← b] at a
  exact a

section
variable {s t : State} (h : HandOnly s t)
include h

theorem HandOnly.frame : NoteFrame s t := by
  unfold HandOnly at h
  rw [← h]
  constructor <;> first | rfl | exact ⟨rfl, rfl⟩ | exact ⟨rfl, rfl, rfl⟩

theorem HandOnly.stands : t.tne = s.tne ∧ t.psc = s.psc ∧ t.cvo = s.cvo ∧ t.val.freeList = s.val.freeList ∧
    t.val.releaseOrder = s.val.releaseOrder ∧ t.val.startOrder = s.val.startOrder ∧
    t.val.parts = s.val.parts ∧ t.val.seed = s.val.seed := by
  unfold HandOnly at h
  rw [← h]
  exact ⟨rfl, rfl, rfl, rfl, rfl, rfl, rfl, rfl⟩

theorem HandOnly.part (q : Part) : t.part q = s.part q := by
  unfold State.part
  rw [h.stands.2.2.2.2.2.2.1]

theorem HandOnly.notePitch (p : Part) (k : Nat) : notePitch t p k = notePitch s p k :=
  notePitch_congr p k h.frame.overrides h.frame.scales (by rw [h.part])
    (by unfold State.patch; rw [h.frame.ebu])

end

/-- Where a hand-over puts the glide position (R41). -/
def handedPos (s : State) (p : Part) (k : Nat) (another : Bool) (old : Int) : Int :=
  if (s.patch p).param 69 = 0 then notePitch s p k
  else if (s.patch p).legatoOnly && !another then notePitch s p k else old

/-- What the hand-over of placed voices makes of a state. -/
structure HandedAll (s t : State) (p : Part) (k : Nat) (another : Bool) (vs : List VoiceNo) : Prop where
  only : HandOnly s t
  voice : ∀ v, SameVoice (s.voice v) (t.voice v)
  other : ∀ v, v ∉ vs → t.voice v = s.voice v ∧ t.glide v = s.glide v ∧
    look t.ptu.unison v = look s.ptu.unison v
  unison : ∀ v, v ∈ vs → look t.ptu.unison v =
    unisonOffset (s.patch p).spread (s.voice v).unisonSize (s.voice v).unisonIndex
  glide : ∀ v, v ∈ vs → (t.glide v).part = p ∧ (t.glide v).key = k ∧
    (t.glide v).target = notePitch s p k ∧ (t.glide v).pos = handedPos s p k another (s.glide v).pos

section
variable {s t u : State} {p : Part} {k : Nat} {another : Bool}

theorem handedAll_nil : HandedAll s s p k another [] where
  only := rfl
  voice _ := .refl _
  other _ _ := ⟨rfl, rfl, rfl⟩
  unison _ h := nomatch h
  glide _ h := nomatch h

theorem handOver_handedAll (v : VoiceNo) :
    HandedAll s (handOver v p k another (setUnison v p s)) p k another [v] where
  only := rfl
  voice w := by
    unfold handOver recomputeVoice
    rw [recompute_voice]
    exact ⟨rfl, rfl, rfl, rfl⟩
  other w hw := by
    have hw : w ≠ v := by simpa using hw
    refine ⟨?_, ?_, look_put_ne _ _ hw⟩
    · unfold handOver recomputeVoice
      exact recompute_voice_unchosen fun i => by
        rw [sourceVoice_sourceNo]
        exact beq_false_of_ne hw
    · rw [handOver_glide, if_neg hw]
      rfl
  unison w hw := by
    obtain rfl := List.mem_singleton.1 hw
    exact look_put_same ..
  glide w hw := by
    obtain rfl := List.mem_singleton.1 hw
    rw [handOver_glide, if_pos rfl]
    exact ⟨rfl, rfl, rfl, rfl⟩

theorem HandedAll.cons {v : VoiceNo} {l : List VoiceNo} (hv : v ∉ l) (a : HandedAll s t p k another [v])
    (b : HandedAll t u p k another l) : HandedAll s u p k another (v :: l) := by
  have patch : t.patch p = s.patch p := by unfold State.patch; rw [a.only.frame.ebu]
  constructor
  case only => exact a.only.trans b.only
  case voice => exact fun w => (a.voice w).trans (b.voice w)
  case other =>
    intro w hw
    simp only [List.mem_cons, not_or] at hw
    obtain ⟨e1, e2, e3⟩ := a.other w (by simpa using hw.1)
    obtain ⟨e4, e5, e6⟩ := b.other w hw.2
    exact ⟨e4.trans e1, e5.trans e2, e6.trans e3⟩
  case unison =>
    intro w hw
    rcases List.mem_cons.1 hw with rfl | hw
    · exact (b.other w hv).2.2.trans (a.unison w (List.mem_singleton.2 rfl))
    · obtain ⟨-, index, size, -⟩ := a.voice w
      rw [b.unison w hw, patch, index, size]
  case glide =>
    intro w hw
    rcases List.mem_cons.1 hw with rfl | hw
    · rw [(b.other w hv).2.1]
      exact a.glide w (List.mem_singleton.2 rfl)
    · have ne : w ∉ [v] := fun h => hv (List.mem_singleton.1 h ▸ hw)
      obtain ⟨part, key, target, pos⟩ := b.glide w hw
      refine ⟨part, key, target.trans (a.only.notePitch p k), pos.trans ?_⟩
      unfold handedPos
      rw [patch, a.only.notePitch, (a.other w ne).2.1]

theorem handAll_handedAll {l : Found} (nd : l.voices.Nodup) (s : State) :
    HandedAll s (handAll p k another l s) p k another l.voices := by
  induction l generalizing s with
  | nil => exact handedAll_nil
  | cons x l ih =>
    obtain ⟨hv, nd⟩ := List.nodup_cons.1 nd
    exact (handOver_handedAll x.1).cons hv (ih nd _)

end

/-! ## The command -/

section
variable {s : State} {p : Part} {k : Nat}

theorem noteStart_solo (hk : k ≤ 127) (vel : Byte) (solo : (s.patch p).keyMode = .solo) :
    noteStart (partByte p) (b1 k) vel s =
      soloStart p k (max 1 (min 127 vel.toNat)) (s.setKeys p (enterKey k (s.part p).heldKeys)) := by
  have mode : ((s.setKeys p (enterKey k (s.part p).heldKeys)).patch p).keyMode = .solo := solo
  unfold noteStart
  rw [part?_partByte, key?_b1 hk]
  simp only [mode]
  rfl

theorem polyStart_silent (vel : Nat) (h : soundingOn s p k = []) :
    polyStart p k vel s = searchAndPlace p k vel false s := by
  unfold polyStart
  simp only [h]

theorem soloStart_absent (vel : Nat) (h : (s.part p).solo = none) :
    soloStart p k vel s = searchAndPlace p k vel true s := by
  unfold soloStart
  simp only [h]

/-- A NOTE START searches where, in POLY, the key does not sound and, in SOLO, the group is absent. -/
theorem noteStart_searches (hk : k ≤ 127) (vel : Byte)
    (h : (s.patch p).keyMode = .poly ∧
      (∀ v ∈ s.val.startOrder.get p, (s.status v).onKey p k = true → (s.status v).isSounding = false) ∨
      (s.patch p).keyMode = .solo ∧ (s.part p).solo = none) :
    noteStart (partByte p) (b1 k) vel s = searchAndPlace p k (max 1 (min 127 vel.toNat))
      (decide ((s.patch p).keyMode = .solo)) (s.setKeys p (enterKey k (s.part p).heldKeys)) := by
  rcases h with ⟨poly, silent⟩ | ⟨solo, absent⟩
  · have none : soundingOn (s.setKeys p (enterKey k (s.part p).heldKeys)) p k = [] :=
      List.eq_nil_iff_forall_not_mem.2 fun v hv => by
        obtain ⟨listed, key, sounds⟩ := (soundingOn_mem ..).1 hv
        have quiet := silent v listed key
        exact Bool.false_ne_true (quiet.symm.trans sounds)
    rw [noteStart_poly hk vel poly, polyStart_silent _ none, poly]
    rfl
  · rw [noteStart_solo hk vel solo, soloStart_absent _ ((setKeys_solo ..).trans absent), solo]
    rfl

theorem searchAndPlace_none (vel : Nat) (solo : Bool) (h : search s p k = []) :
    searchAndPlace p k vel solo s = noteAnswer s .notPlaced [] [] := by
  unfold searchAndPlace
  simp only [h, List.isEmpty_nil, if_true]

/-- A placement, and in SOLO key mode the group that it forms. -/
def placeGroup (p : Part) (k vel : Nat) (solo : Bool) (s : State) : State :=
  let t := place p k vel (search s p k) s
  if solo then t.setSolo p (some (setOf (search s p k).voices)) else t

theorem searchAndPlace_some (vel : Nat) (solo : Bool) (h : search s p k ≠ []) :
    searchAndPlace p k vel solo s = noteAnswer (kick (placeGroup p k vel solo s)) .ok (search s p k).voices
      (((search s p k).filter fun x => x.2.stolen).map Prod.fst) := by
  unfold searchAndPlace
  simp only [List.isEmpty_iff, h, if_false]
  rfl

end

/-! ## What the placement makes of a state -/

theorem voiceSet_ext {a b : VoiceSet} (h : ∀ v, inSet a v = inSet b v) : a = b :=
  BitVec.eq_of_getLsbD_eq fun i hi => h ⟨i, hi⟩

/-- The voices found have been placed and handed over; the cursor follows the last. -/
structure NotePlaced (s t : State) (p : Part) (k vel : Nat) (solo : Bool) (found : Found) : Prop where
  frame : NoteFrame s t
  engine : EngineLost s t found.background
  freeList : t.val.freeList = s.val.freeList.filter fun v => v ∉ found.voices
  releaseOrder : t.val.releaseOrder = s.val.releaseOrder.filter fun v => v ∉ found.voices
  startOrder : ∀ q, t.val.startOrder.get q =
    (s.val.startOrder.get q).filter (fun v => v ∉ found.voices) ++ if q = p then found.voices else []
  seed : t.val.seed = advanceSeed^[found.length] s.val.seed
  part : t.part p = { s.part p with
    cursor := cursorAfter (s.part p).cursor found
    solo := if solo then some (setOf found.voices) else soloDrops found.voices (s.part p).solo }
  otherPart : ∀ q, q ≠ p → t.part q = { s.part q with solo := soloDrops found.voices (s.part q).solo }
  other : ∀ v, v ∉ found.voices → t.voice v = s.voice v ∧ look t.cvo.gaps v = look s.cvo.gaps v ∧
    t.glide v = s.glide v ∧ look t.ptu.unison v = look s.ptu.unison v
  placed : ∀ (j : Nat) (v : VoiceNo) (b : FoundBy), found[j]? = some (v, b) →
    SameVoice (placedVoice (s.patch p) p k vel (s.patch p).unison b j (advanceSeed^[j + 1] s.val.seed)
      (s.voice v)) (t.voice v) ∧
    look t.cvo.gaps v = none ∧
    look t.ptu.unison v = unisonOffset (s.patch p).spread (s.patch p).unison j ∧
    (t.glide v).part = p ∧ (t.glide v).key = k ∧ (t.glide v).target = notePitch s p k ∧
    (t.glide v).pos = handedPos s p k (holdsOther k (s.part p).heldKeys) (s.glide v).pos

theorem PlacedAll.notePitch {s t : State} {p : Part} {k vel size n : Nat} {l : Found}
    (h : PlacedAll s t p k vel size l n) (q : Part) (i : Nat) : notePitch t q i = notePitch s q i :=
  notePitch_congr q i h.frame.overrides h.frame.scales (by rw [h.part])
    (by unfold State.patch; rw [h.frame.ebu])

theorem place_notePlaced {s : State} (lists : VoiceLaw s) (p : Part) (k vel : Nat) :
    NotePlaced s (place p k vel (search s p k) s) p k vel false (search s p k) := by
  have nd := search_nodup lists p k
  rw [place_eq]
  have a : PlacedAll s (placeAll p k vel (search s p k) s) p k vel (s.patch p).unison (search s p k) 0 :=
    placeAll_placedAll nd 0 s
  generalize search s p k = found at a nd ⊢
  generalize placeAll p k vel found s = t at a ⊢
  set t' := t.modPart p fun x => { x with cursor := cursorAfter x.cursor found } with ht'
  have part' (q : Part) : t'.part q =
      if q = p then { t.part p with cursor := cursorAfter (t.part p).cursor found } else t.part q :=
    modPart_part ..
  have pitch : notePitch t' p k = notePitch s p k := by
    rw [← a.notePitch]
    exact notePitch_congr p k rfl rfl (by rw [part', if_pos rfl]) rfl
  have patch : t'.patch p = s.patch p := by
    unfold State.patch
    exact congrArg (fun x : Ebu => (x.buffers.get p).patch) a.frame.ebu
  have h := handAll_handedAll (p := p) (k := k) (another := holdsOther k (s.part p).heldKeys) nd t'
  generalize handAll p k (holdsOther k (s.part p).heldKeys) found t' = u at h ⊢
  obtain ⟨tne, psc, cvo, freeList, releaseOrder, startOrder, parts, seed⟩ := h.only.stands
  have moved : NoteFrame t t' := NotesOnly.frame ⟨rfl, rfl⟩
  have glide (v : VoiceNo) : t'.glide v = s.glide v := congrArg (fun x : Ptu => look x.glide v) a.ptu
  constructor
  case frame => exact a.frame.trans (moved.trans h.only.frame)
  case engine =>
    have e := a.engine.trans (EngineLost.of_eq (s := t) (t := u) h.only.frame.run tne psc (by rw [cvo]; rfl))
    rwa [List.append_nil] at e
  case freeList => exact freeList.trans a.freeList
  case releaseOrder => exact releaseOrder.trans a.releaseOrder
  case startOrder => exact fun q => (congrArg (ByPart.get · q) startOrder).trans (a.startOrder q)
  case seed => exact seed.trans a.seed
  case part =>
    rw [h.only.part, part', if_pos rfl, a.part]
    rfl
  case otherPart => exact fun q hq => by rw [h.only.part, part', if_neg hq, a.part]
  case other =>
    intro v hv
    obtain ⟨e1, e2, e3⟩ := h.other v hv
    obtain ⟨e4, e5⟩ := a.other v hv
    exact ⟨e1.trans e4, (congrArg (fun x : Cvo => look x.gaps v) cvo).trans e5, e2.trans (glide v),
      e3.trans (congrArg (fun x : Ptu => look x.unison v) a.ptu)⟩
  case placed =>
    intro j v b hj
    have hv : v ∈ found.voices := List.mem_map.2 ⟨_, List.mem_of_getElem? hj, rfl⟩
    obtain ⟨voice, gap⟩ := a.placed j v b hj
    rw [Nat.zero_add] at voice
    have voice' : t'.voice v = _ := voice
    obtain ⟨part, key, target, pos⟩ := h.glide v hv
    refine ⟨voice' ▸ h.voice v, (congrArg (fun x : Cvo => look x.gaps v) cvo).trans gap, ?_, part, key,
      target.trans pitch, pos.trans ?_⟩
    · rw [h.unison v hv, patch, voice']
      rfl
    · unfold handedPos
      rw [patch, pitch, glide]

/-- In SOLO key mode the placed voices become the group (R32). -/
theorem placeGroup_notePlaced {s : State} (lists : VoiceLaw s) (p : Part) (k vel : Nat) (solo : Bool) :
    NotePlaced s (placeGroup p k vel solo s) p k vel solo (search s p k) := by
  have h := place_notePlaced lists p k vel
  unfold placeGroup
  cases solo with
  | false => exact h
  | true =>
    simp only [if_true]
    have moved : ∀ (u : State) (g : Option VoiceSet), NoteFrame u (u.setSolo p g) := fun _ _ =>
      NotesOnly.frame ⟨rfl, rfl⟩
    constructor
    case frame => exact h.frame.trans (moved _ _)
    case engine => exact ⟨h.engine.run, h.engine.stands, h.engine.gone, h.engine.failed⟩
    case freeList => exact h.freeList
    case releaseOrder => exact h.releaseOrder
    case startOrder => exact h.startOrder
    case seed => exact h.seed
    case part =>
      rw [setSolo_part, if_pos rfl, h.part]
      rfl
    case otherPart => exact fun q hq => by rw [setSolo_part, if_neg hq, h.otherPart q hq]
    case other => exact h.other
    case placed => exact h.placed

/-- Where a hand-over at a placement leaves the glide position, said of the held keys (R41). -/
theorem handedPos_eq (s : State) (p : Part) (k : Nat) (keys : List Nat) (old : Int) :
    handedPos s p k (holdsOther k keys) old =
      if (s.patch p).param 69 = 0 ∨ (512 ≤ (s.patch p).param 70 ∧ ∀ q ∈ keys, q = k) then notePitch s p k
      else old := by
  have legato : ((s.patch p).legatoOnly && !holdsOther k keys) = true ↔
      512 ≤ (s.patch p).param 70 ∧ ∀ q ∈ keys, q = k := by
    simp [Patch.legatoOnly, holdsOther]
  unfold handedPos
  by_cases off : (s.patch p).param 69 = 0
  · rw [if_pos off, if_pos (.inl off)]
  · rw [if_neg off]
    exact if_congr (legato.trans (or_iff_right off).symm) rfl rfl

theorem cursorAfter_last (c : VoiceNo) {l : Found} (h : l ≠ []) :
    some (cursorAfter c l) = l.voices.getLast? := by
  unfold cursorAfter
  rw [List.getLast?_map, List.getLast?_eq_some_getLast h]
  rfl

theorem placedPhase_eq (x : Patch) (b : FoundBy) : placedPhase x b =
    if (b = .releasing ∨ b = .steal) ∧ 0 < x.dampMs then .muting (x.dampMs * 8000) else .held :=
  if_congr (and_congr_left fun _ => by cases b <;> decide) rfl rfl

/-- The engine that has lost no voice is as it was. -/
theorem EngineLost.of_none {s t : State} (h : EngineLost s t []) :
    t.tne = s.tne ∧ t.psc = s.psc ∧ t.cvo.trial = s.cvo.trial := by
  obtain ⟨tne, psc, trial⟩ := h.stands fun _ _ hc => nomatch hc
  have failed : t.tne.failed = s.tne.failed := voiceSet_ext fun v => (h.failed v).trans (by simp)
  rw [← failed] at tne
  exact ⟨tne, psc, trial⟩

/-- Settles O16: where the search finds voices, by what their placement makes of the state that the key has
entered; where it finds none, that state is the outcome. -/
theorem searchedNoteStartPlacesTheFoundVoices : Obligations.SearchedNoteStartPlacesTheFoundVoices := by
  constructor
  · intro s p k vel hears lists hk mode keys found vs stolen x ne
    have out := hostCommand_taken (c := .noteStart (partByte p) (b1 k) vel)
      (f := noteStart (partByte p) (b1 k) vel) hears
    rw [noteStart_searches hk vel (mode.imp_left fun h => ⟨h.1, fun v _ => h.2 v⟩),
      searchAndPlace_some _ _ ne] at out
    have lists₁ : VoiceLaw (s.setKeys p keys) := lists.modPart _
    have h := placeGroup_notePlaced lists₁ p k (max 1 (min 127 vel.toNat))
      (decide ((s.patch p).keyMode = .solo))
    have part₁ (q : Part) : (s.setKeys p keys).part q =
      if q = p then { s.part p with heldKeys := keys } else s.part q := setKeys_part ..
    have entered : NoteFrame s (s.setKeys p keys) := NotesOnly.frame ⟨rfl, rfl⟩
    obtain ⟨first, rest, cons⟩ := List.exists_cons_of_ne_nil ne
    have stolenIs : (found.filter fun x => x.2.stolen).map Prod.fst = stolen :=
      congrArg (List.map Prod.fst) (List.filter_congr fun y _ => by
        obtain ⟨v, b⟩ := y
        cases b <;> rfl)
    refine ⟨first.1, placeGroup p k (max 1 (min 127 vel.toNat)) (decide ((s.patch p).keyMode = .solo))
      (s.setKeys p keys), by simp [vs, found, cons], out.trans ?_,
      entered.trans h.frame, h.freeList, h.releaseOrder, h.startOrder, ?_, ?_,
      ?_, fun solo => ?_, fun q => ?_, h.other, fun j v b hj => ?_, fun noBg => ?_, fun v c hv hc hcv bus => ?_⟩
    · rw [stolenIs]
      unfold noteAnswer
      simp only [answer_snd, answer_fst]
      rw [show found.voices.head? = some first.1 by rw [cons]; rfl]
      rfl
    · rw [h.seed]
      simp [vs, found]
    · rw [h.part, part₁, if_pos rfl]
    · rw [h.part]
      exact cursorAfter_last _ ne
    · rw [h.part]
      exact if_pos (decide_eq_true solo)
    · by_cases hq : q = p
      · subst hq
        rw [h.part, part₁, if_pos rfl]
        exact ⟨⟨rfl, rfl, rfl, rfl, rfl, rfl⟩, rfl, fun h => absurd rfl h⟩
      · rw [h.otherPart q hq, part₁, if_neg hq]
        exact ⟨⟨rfl, rfl, rfl, rfl, rfl, rfl⟩, rfl, fun _ => ⟨rfl, rfl⟩⟩
    · obtain ⟨⟨status, index, size, slop⟩, gap, unison, part, key, target, pos⟩ := h.placed j v b hj
      have held : ((s.setKeys p keys).part p).heldKeys = keys := by rw [part₁, if_pos rfl]
      have pitch : notePitch (s.setKeys p keys) p k = notePitch s p k :=
        notePitch_congr p k rfl rfl (by rw [part₁, if_pos rfl]) rfl
      rw [held, handedPos_eq] at pos
      exact ⟨status.trans (congrArg _ (placedPhase_eq x b)), index, size, slop, gap, unison, part, key,
        target.trans pitch, by rw [← pitch]; exact pos⟩
    · have lost : Found.background found = [] := by
        simpa [Found.background] using fun v b hv => noBg (v, b) hv
      have engine := h.engine
      rw [show search (s.setKeys p keys) p k = found from rfl, lost] at engine
      exact engine.of_none
    · have lost : c.voice ∈ Found.background found :=
        hcv ▸ List.mem_map.2 ⟨(v, .background), List.mem_filter.2 ⟨hv, rfl⟩, rfl⟩
      obtain ⟨current, trial, idle, holder, waits⟩ := h.engine.gone c hc lost
        (bus.congr rfl rfl (.of_eq rfl))
      refine ⟨current, trial, idle, ?_, holder, waits⟩
      rw [h.engine.failed, ← hcv, decide_eq_false (not_not.2 lost), Bool.and_false]
  · intro s p k vel hears hk mode none
    refine (hostCommand_taken hears).trans ?_
    rw [noteStart_searches hk vel mode, searchAndPlace_none _ _ none]
    rfl

end Sys2Proof.Machine
end

