-- ==== Sys2Proof/Proofs/VoiceService.lean ====
section
/-! VOICE SERVICE: a voice parked and a voice returned to FREE (R22, R23, R65, R103). -/

namespace Sys2Proof.Machine

/-! ## A voice sent to a state and recomputed -/

section
variable (s : State) (v : VoiceNo)

theorem freeVoice_eq : freeVoice v s =
    (recomputeVoice v (s.send v .free)).setFailed (setDrop s.tne.failed v) := rfl

/-- A recomputation of a voice leaves every other voice's record. -/
theorem recomputeVoice_other {w : VoiceNo} (hw : w ≠ v) : (recomputeVoice v s).voice w = s.voice w :=
  recompute_voice_unchosen fun i => by rw [sourceVoice_sourceNo]; exact beq_false_of_ne hw

theorem recomputeVoice_code {n : SourceNo} (hn : sourceVoice n = v) :
    look (recomputeVoice v s).ptu.codes n = (chain s n).1 :=
  (recompute_code ..).trans (if_pos (beq_iff_eq.2 hn))

theorem recompute_handOnly (sel : SourceNo → Bool) : HandOnly s (recompute sel s) := rfl

theorem parkVoice_freeList (r : ParkReason) : (parkVoice v r s).val.freeList = without v s.val.freeList :=
  (send_freeList s v (.parked r)).trans (List.append_nil _)

theorem parkVoice_releaseOrder (r : ParkReason) :
    (parkVoice v r s).val.releaseOrder = without v s.val.releaseOrder :=
  (send_releaseOrder s v (.parked r)).trans (List.append_nil _)

theorem parkVoice_startOrder (r : ParkReason) (q : Part) :
    (parkVoice v r s).val.startOrder.get q = without v (s.val.startOrder.get q) :=
  send_startOrder s v (.parked r) q

end

/-- A voice sent off the lists is a member of no solo group. -/
theorem send_leaves_solo {s : State} {v : VoiceNo} {x : VoiceStatus} (hx : x.leaves = true) {p : Part}
    {g : VoiceSet} (hg : ((s.send v x).part p).solo = some g) : inSet g v = false := by
  rw [Bool.eq_false_iff]
  intro hv
  have hm : memberOf ((s.send v x).part p).solo v := ⟨g, hg, hv⟩
  rw [send_part, if_pos hx] at hm
  exact ((memberOf_soloDrop v v _).1 hm).1 rfl

/-! ## The engine's side of VOICE SERVICE off (R103) -/

theorem stopMeasurement_mode {s : State} (h : s.tne.mode ≠ .step) :
    (stopMeasurement s).tne.mode = s.tne.mode := by
  have used {t : State} (ht : t.tne.mode = s.tne.mode) :
      (stopMeasurement.stepUsed t).tne.mode = s.tne.mode := by
    unfold stopMeasurement.stepUsed
    rw [if_neg (by rw [ht]; exact h), ht]
  unfold stopMeasurement
  split
  · rfl
  · exact used rfl
  · exact used (releaseBus_only .engine s).engine.2.1

theorem engineLoses_mode (v : VoiceNo) {s : State} (h : s.tne.mode ≠ .step) :
    (engineLoses v s).tne.mode = s.tne.mode := by
  rw [engineLoses_eq]
  rcases engineStops_cases v s with e | ⟨e, -⟩ <;> rw [e]
  · exact stopMeasurement_mode h
  · rfl

/-- The engine's side of a voice's leaving service: the plan, the measurement and the mark. -/
structure Unplanned (s t : State) (v : VoiceNo) : Prop where
  val : t.val = s.val
  gaps : t.cvo.gaps = s.cvo.gaps
  cal : t.cal = s.cal
  ebu : t.ebu = s.ebu
  smc : t.smc = s.smc
  plan : t.tne.plan =
    if (s.status v).isTuning then s.tne.plan.filter (fun e => e.voice ≠ v) else s.tne.plan
  stands : (∀ c, s.tne.current = some c → c.voice ≠ v) →
    t.tne.current = s.tne.current ∧ t.tne.activity = s.tne.activity ∧ t.psc = s.psc
  gone : ∀ c, s.tne.current = some c → c.voice = v → BusLaw s →
    t.tne.current = none ∧ t.cvo.trial = none ∧ t.tne.activity = .idle ∧ t.psc.holder ≠ some .engine
  mode : s.tne.mode ≠ .step → t.tne.mode = s.tne.mode
  notices : t.lnk.notices = if (s.status v).isTuning = true ∧ (∀ e ∈ s.tne.plan, e.voice = v)
    then s.lnk.notices.set .tuneDone else s.lnk.notices

theorem removeEntries_unplanned {s : State} {v : VoiceNo} (plan : PlanLaw s)
    (h : (s.status v).isTuning = true) : Unplanned s (removeEntries v s) v := by
  have reach := engineLoses_reach v s
  have frame := reach.frame
  obtain ⟨val, -, gaps, -⟩ := reach.notes
  have lost := engineLoses_lost v s
  set t := (engineLoses v s).setPlan ((engineLoses v s).tne.plan.filter fun e => e.voice != v) with ht
  have left : t.tne.plan = s.tne.plan.filter fun e => e.voice ≠ v := by
    refine (congrArg (List.filter fun e => e.voice != v) frame.plan).trans ?_
    exact List.filter_congr fun e _ => by rw [Bool.eq_iff_iff]; simp
  have done : removeEntries v s = if t.tne.plan.isEmpty then t.mark .tuneDone else t := by
    unfold removeEntries
    simp only [plan.tuning v h, if_true]
    rfl
  have empty : t.tne.plan.isEmpty = true ↔ ∀ e ∈ s.tne.plan, e.voice = v := by
    rw [left, List.isEmpty_iff, List.filter_eq_nil_iff]
    simp
  have mark : ∀ u : State, (if t.tne.plan.isEmpty then t.mark .tuneDone else t) = u →
      u.val = t.val ∧ u.cvo = t.cvo ∧ u.cal = t.cal ∧ u.ebu = t.ebu ∧ u.smc = t.smc ∧ u.tne = t.tne ∧
        u.psc = t.psc ∧ u.lnk.notices =
          if ∀ e ∈ s.tne.plan, e.voice = v then t.lnk.notices.set .tuneDone else t.lnk.notices := by
    rintro u rfl
    by_cases he : ∀ e ∈ s.tne.plan, e.voice = v
    · rw [if_pos (empty.2 he), if_pos he]
      exact ⟨rfl, rfl, rfl, rfl, rfl, rfl, rfl, rfl⟩
    · rw [if_neg (mt empty.1 he), if_neg he]
      exact ⟨rfl, rfl, rfl, rfl, rfl, rfl, rfl, rfl⟩
  obtain ⟨uval, ucvo, ucal, uebu, usmc, utne, upsc, unotices⟩ := mark _ done.symm
  constructor
  case val => exact uval.trans val
  case gaps => exact (congrArg Cvo.gaps ucvo).trans gaps
  case cal => exact ucal.trans frame.cal
  case ebu => exact uebu.trans frame.ebu
  case smc => exact usmc.trans frame.smc
  case plan => rw [utne, if_pos h, left]
  case stands =>
    intro hc
    obtain ⟨tne, psc, -⟩ := lost.stands fun c h => by simpa using hc c h
    have current : (engineLoses v s).tne.current = s.tne.current := by rw [← tne]
    have activity : (engineLoses v s).tne.activity = s.tne.activity := by rw [← tne]
    rw [utne, upsc]
    exact ⟨current, activity, psc⟩
  case gone =>
    intro c hc hv bus
    obtain ⟨current, trial, idle, holder, -⟩ := lost.gone c hc (List.mem_singleton.2 hv) bus
    rw [utne, upsc, ucvo]
    exact ⟨current, trial, idle, holder⟩
  case mode => exact fun hm => (congrArg Tne.mode utne).trans (engineLoses_mode v hm)
  case notices =>
    have stood : t.lnk.notices = s.lnk.notices := congrArg Lnk.notices frame.lnk
    rw [unotices, stood]
    simp only [h, true_and]

theorem removal_unplanned {s : State} {v : VoiceNo} (plan : PlanLaw s) :
    Unplanned s (if (s.status v).isTuning then removeEntries v s else s) v := by
  cases h : (s.status v).isTuning with
  | true => exact removeEntries_unplanned plan h
  | false =>
    constructor
    case gone =>
      intro c hc hv
      have tuning := (plan.current c hc).2
      rw [hv, h] at tuning
      cases tuning
    all_goals simp [h]

/-! ## The commands -/

section
variable {s : State} {v : VoiceNo}

theorem serviceOff_eq (v : VoiceNo) (s : State) : serviceOff (b1 v.val) 0 s =
    ok (kick (parkVoice v .host (if (s.status v).isTuning then removeEntries v s else s))) [] := by
  unfold serviceOff
  rw [voice?_b1]
  rfl

theorem serviceOn_parked {r : ParkReason} (h : s.status v = .parked r) :
    serviceOn (b1 v.val) s = ok (kick (freeVoice v s)) [] := by
  unfold serviceOn
  rw [voice?_b1]
  simp only [h]

theorem serviceOn_other (h : ∀ r, s.status v ≠ .parked r) : serviceOn (b1 v.val) s = ok s [] := by
  unfold serviceOn
  rw [voice?_b1]
  cases hs : s.status v with
  | parked r => exact absurd hs (h r)
  | _ => simp only

/-- A voice that is not TUNING is not among those whose measurements failed. -/
theorem PlanLaw.setDrop_failed (h : PlanLaw s) (hv : (s.status v).isTuning = false) :
    setDrop s.tne.failed v = s.tne.failed :=
  setDrop_eq_self (Bool.eq_false_iff.2 fun hf => by rw [h.failed v hf] at hv; cases hv)

end

/-- Settles O25: off, the engine's side first, then the voice sent to PARKED; on, the voice sent to FREE. -/
theorem voiceServiceParksAndReturns : Obligations.VoiceServiceParksAndReturns := by
  intro s v hears lists plan bus off back
  refine ⟨?_, fun ⟨r, hr⟩ => ?_, fun other => ?_⟩
  · have h := removal_unplanned (v := v) plan
    have out : exec off s = _ := hostCommand_taken (f := serviceOff (b1 v.val) 0) hears
    rw [serviceOff_eq] at out
    revert out h
    generalize (if (s.status v).isTuning then removeEntries v s else s) = u
    intro h out
    refine ⟨parkVoice v .host u, out, ?_, ?_, ?_, fun p => ⟨?_, ?_, fun g hg => ?_⟩, ?_, ?_, fun w hw => ?_,
      h.plan, fun c hc hv => h.gone c hc hv bus, h.stands, h.notices, h.mode, h.cal, h.ebu, h.smc,
      fun n hn => ?_⟩
    · exact (parkVoice_status ..).trans (if_pos rfl)
    · exact fun hv => ((mem_without ..).1 (parkVoice_freeList .. ▸ hv)).2 rfl
    · exact fun hv => ((mem_without ..).1 (parkVoice_releaseOrder .. ▸ hv)).2 rfl
    · exact fun hv => ((mem_without ..).1 (parkVoice_startOrder .. ▸ hv)).2 rfl
    · refine (congrArg PartRec.heldKeys (send_part u v (.parked .host) p)).trans ?_
      exact congrArg (fun x : Val => (x.parts.get p).heldKeys) h.val
    · exact send_leaves_solo (s := u) (x := .parked .host) rfl hg
    · exact (send_gap u v (.parked .host) v).trans (if_pos ⟨rfl, .inl rfl⟩)
    · refine (inSet_setDrop ..).trans ?_
      simp
    · refine (recomputeVoice_other (u.send v (.parked .host)) v hw).trans
        ((send_voice ..).trans ((if_neg hw).trans ?_))
      exact congrArg (fun x : Val => look x.voices w) h.val
    · refine (recomputeVoice_code (u.send v (.parked .host)) v hn).trans ?_
      have parked : (u.send v (.parked .host)).status (sourceVoice n) = .parked .host :=
        (send_status ..).trans (if_pos hn)
      unfold chain
      rw [sourcePitch_parked parked]
      exact congrArg (fun x : Cal => (toCode (look x.records n).codes 60000).1) h.cal
  · have notTuning : (s.status v).isTuning = false := by rw [hr]; rfl
    have same : freeVoice v s = recomputeVoice v (s.send v .free) := by
      rw [freeVoice_eq, plan.setDrop_failed notTuning]
      rfl
    have out : exec back s = _ := hostCommand_taken (f := serviceOn (b1 v.val)) hears
    rw [serviceOn_parked hr, same] at out
    have off (p : Part) : (s.send v .free).val.startOrder.get p = s.val.startOrder.get p :=
      (send_startOrder s v .free p).trans (without_eq_self fun hv => by
        rw [lists.start, hr] at hv
        cases hv)
    refine ⟨recomputeVoice v (s.send v .free), out, ?_, ?_, ?_, ?_, ?_, fun p => ?_, fun w hw => ?_, rfl, rfl,
      fun n hn => ?_⟩
    · exact (send_only s v .free).frame.trans (recompute_handOnly _ _).frame
    · exact (recompute_status ..).trans ((send_status ..).trans (if_pos rfl))
    · refine (send_freeList s v .free).trans (congrArg (· ++ [v]) (without_eq_self fun hv => ?_))
      rw [lists.free, hr] at hv
      cases hv
    · refine congrArg₂ ByPart.mk (off .A) (off .B)
    · refine (send_releaseOrder s v .free).trans ((List.append_nil _).trans (without_eq_self fun hv => ?_))
      rw [lists.release, hr] at hv
      cases hv
    · exact (congrArg PartRec.heldKeys (send_part s v .free p) :)
    · exact (recomputeVoice_other _ v hw).trans ((send_voice ..).trans (if_neg hw))
    · rw [recomputeVoice_code _ v hn]
      exact congrArg Prod.fst (recompute_chain ..).symm
  · refine (hostCommand_taken (f := serviceOn (b1 v.val)) hears).trans ?_
    rw [serviceOn_other other]
    rfl

end Sys2Proof.Machine
end

