-- ==== Sys2Proof/Proofs/PairsAdded.lean ====
section
/-! TUNE ADD: the pairs that join the plan and the entries that are raised (R81, R82). -/

namespace Sys2Proof.Machine

/-! ## Pairs added one after another -/

/-- The entry of a pair. -/
def entryOf (m : EntryMode) (x : VoiceNo × SourceIdx) : Entry := { voice := x.1, src := x.2, mode := m }

/-- An entry of the plan after the pairs of a list have been added: an FG one where it is asked as FG. -/
def raisedBy (m : EntryMode) (l : List (VoiceNo × SourceIdx)) (e : Entry) : Entry :=
  if m = .fg ∧ (e.voice, e.src) ∈ l then { e with mode := .fg } else e

/-- The pair is not in the plan. -/
def joins (plan : List Entry) (x : VoiceNo × SourceIdx) : Bool := !plan.any fun e => e.isPair x.1 x.2

/-- The pair is asked as FG and its entry in the plan is a BG one. -/
def raises (m : EntryMode) (plan : List Entry) (x : VoiceNo × SourceIdx) : Bool :=
  m == .fg && plan.any fun e => e.isPair x.1 x.2 && e.mode == .bg

section
variable {m : EntryMode} {plan : List Entry} {l : List (VoiceNo × SourceIdx)} {x : VoiceNo × SourceIdx}

theorem joins_iff : joins plan x = true ↔ ∀ e ∈ plan, ¬(e.voice = x.1 ∧ e.src = x.2) := by
  simp only [joins, Bool.not_eq_true', List.any_eq_false, isPair_iff]

theorem raises_iff :
    raises m plan x = true ↔ m = .fg ∧ ∃ e ∈ plan, (e.voice = x.1 ∧ e.src = x.2) ∧ e.mode = .bg := by
  simp only [raises, Bool.and_eq_true, beq_iff_eq, List.any_eq_true, isPair_iff]

theorem raisedBy_pair (e : Entry) : (raisedBy m l e).voice = e.voice ∧ (raisedBy m l e).src = e.src := by
  unfold raisedBy
  split <;> exact ⟨rfl, rfl⟩

/-- A pair that no entry of the plan has leaves the entries raised as they are. -/
theorem raisedBy_append_of_ne {e : Entry} (h : ¬(e.voice = x.1 ∧ e.src = x.2)) :
    raisedBy m (l ++ [x]) e = raisedBy m l e := by
  have other : (e.voice, e.src) ≠ x := fun h' => h ⟨congrArg Prod.fst h', congrArg Prod.snd h'⟩
  unfold raisedBy
  simp [other]

theorem raisedBy_of_not_mem {e : Entry} (h : (e.voice, e.src) ∉ l) : raisedBy m l e = e :=
  if_neg fun h' => h h'.2

/-- The plan, the voices added and the voices upgraded, after the pairs of a list have been added. -/
def added (m : EntryMode) (plan : List Entry) (l : List (VoiceNo × SourceIdx)) :
    List Entry × List VoiceNo × List VoiceNo :=
  (plan.map (raisedBy m l) ++ (l.filter (joins plan)).map (entryOf m),
    (l.filter (joins plan)).map Prod.fst, (l.filter (raises m plan)).map Prod.fst)

/-- A pair new to the plan and to the pairs added before joins at the tail. -/
theorem addPair_joins (hx : x ∉ l) (h : joins plan x = true) :
    addPair m (added m plan l) x = added m plan (l ++ [x]) := by
  rw [joins_iff] at h
  have absent : (plan.map (raisedBy m l) ++ (l.filter (joins plan)).map (entryOf m)).find?
      (fun e => e.isPair x.1 x.2) = none := by
    rw [List.find?_eq_none]
    intro e he
    rw [isPair_iff]
    rcases List.mem_append.1 he with he | he
    · obtain ⟨e', he', rfl⟩ := List.mem_map.1 he
      rw [(raisedBy_pair e').1, (raisedBy_pair e').2]
      exact h e' he'
    · obtain ⟨y, hy, rfl⟩ := List.mem_map.1 he
      intro pair
      exact hx (Prod.ext pair.1 pair.2 ▸ (List.mem_filter.1 hy).1)
  have stay : plan.map (raisedBy m (l ++ [x])) = plan.map (raisedBy m l) :=
    List.map_congr_left fun e he => raisedBy_append_of_ne (h e he)
  have notRaised : raises m plan x = false := by
    rw [Bool.eq_false_iff, Ne, raises_iff]
    rintro ⟨-, e, he, pair, -⟩
    exact h e he pair
  unfold addPair added
  simp only [absent, stay, List.filter_append, List.map_append, List.filter_cons, joins_iff.2 h, notRaised,
    if_true, List.filter_nil, List.map_cons, List.map_nil, List.append_assoc, Bool.false_eq_true, if_false,
    List.append_nil]
  rfl

/-- Setting one pair's entry to FG, where it was not asked before, is what asking the pair too does. -/
theorem raise_raisedBy (e : Entry) :
    (if (raisedBy .fg l e).isPair x.1 x.2 then { raisedBy .fg l e with mode := .fg } else raisedBy .fg l e) =
      raisedBy .fg (l ++ [x]) e := by
  by_cases pair : e.voice = x.1 ∧ e.src = x.2
  · have asked : (e.voice, e.src) ∈ l ++ [x] :=
      List.mem_append_right _ (List.mem_singleton.2 (Prod.ext pair.1 pair.2))
    rw [if_pos ((isPair_iff ..).2 ⟨(raisedBy_pair e).1.trans pair.1, (raisedBy_pair e).2.trans pair.2⟩)]
    rw [show raisedBy .fg (l ++ [x]) e = { e with mode := .fg } from if_pos ⟨rfl, asked⟩]
    unfold raisedBy
    split <;> rfl
  · rw [if_neg fun h => pair ?_, raisedBy_append_of_ne pair]
    rw [isPair_iff, (raisedBy_pair e).1, (raisedBy_pair e).2] at h
    exact h

/-- The entry found for a pair in the plan that was not asked before is the plan's own. -/
theorem find_added {s : State} (law : PlanLaw s) (hx : x ∉ l) {e : Entry} (he : e ∈ s.tne.plan)
    (pair : e.voice = x.1 ∧ e.src = x.2) :
    (added m s.tne.plan l).1.find? (fun y => y.isPair x.1 x.2) = some e := by
  have same : raisedBy m l e = e := raisedBy_of_not_mem fun h => hx (by
    rw [show x = (e.voice, e.src) from Prod.ext pair.1.symm pair.2.symm]; exact h)
  have here : e ∈ (added m s.tne.plan l).1 :=
    List.mem_append_left _ (List.mem_map.2 ⟨e, he, same⟩)
  cases h : (added m s.tne.plan l).1.find? (fun y => y.isPair x.1 x.2) with
  | none => exact absurd ((isPair_iff ..).2 pair) (List.find?_eq_none.1 h e here)
  | some y =>
    have pairY : y.isPair x.1 x.2 = true := List.find?_some (p := fun y : Entry => y.isPair x.1 x.2) h
    rw [isPair_iff] at pairY
    rcases List.mem_append.1 (List.mem_of_find?_eq_some h) with hy | hy
    · obtain ⟨e', he', rfl⟩ := List.mem_map.1 hy
      rw [(raisedBy_pair e').1, (raisedBy_pair e').2] at pairY
      rw [law.unique he' he (pairY.1.trans pair.1.symm) (pairY.2.trans pair.2.symm), same]
    · obtain ⟨z, hz, rfl⟩ := List.mem_map.1 hy
      exact absurd (Prod.ext pairY.1 pairY.2 ▸ (List.mem_filter.1 hz).1) hx

/-- A pair in the plan has its entry raised, or leaves all as it is. -/
theorem addPair_raises {s : State} (law : PlanLaw s) (hx : x ∉ l) (h : joins s.tne.plan x = false) :
    addPair m (added m s.tne.plan l) x = added m s.tne.plan (l ++ [x]) := by
  obtain ⟨e, he, pair⟩ : ∃ e ∈ s.tne.plan, e.voice = x.1 ∧ e.src = x.2 := by
    simpa only [joins, Bool.not_eq_false', List.any_eq_true, isPair_iff] using h
  have found := find_added (m := m) law hx he pair
  have raises_x : raises m s.tne.plan x = true ↔ e.mode = .bg ∧ m = .fg := by
    rw [raises_iff]
    refine ⟨fun ⟨fg, e', he', pair', bg⟩ => ?_, fun ⟨bg, fg⟩ => ⟨fg, e, he, pair, bg⟩⟩
    rw [law.unique he he' (pair.1.trans pair'.1.symm) (pair.2.trans pair'.2.symm)]
    exact ⟨bg, fg⟩
  have joined : (l ++ [x]).filter (joins s.tne.plan) = l.filter (joins s.tne.plan) := by
    rw [List.filter_append, List.filter_cons, h]
    exact List.append_nil _
  unfold addPair
  dsimp only
  rw [found]
  dsimp only
  by_cases up : e.mode = .bg ∧ m = .fg
  · obtain ⟨-, rfl⟩ := id up
    have raised : (l ++ [x]).filter (raises .fg s.tne.plan) = l.filter (raises .fg s.tne.plan) ++ [x] := by
      rw [List.filter_append, List.filter_cons, if_pos (raises_x.2 up)]
      rfl
    have news : ((l.filter (joins s.tne.plan)).map (entryOf .fg)).map
        (fun y => if y.isPair x.1 x.2 then { y with mode := .fg } else y) =
          (l.filter (joins s.tne.plan)).map (entryOf .fg) := by
      rw [List.map_map]
      refine List.map_congr_left fun z _ => ?_
      rw [Function.comp_apply]
      split <;> rfl
    have olds : (s.tne.plan.map (raisedBy .fg l)).map
        (fun y => if y.isPair x.1 x.2 then { y with mode := .fg } else y) =
          s.tne.plan.map (raisedBy .fg (l ++ [x])) := by
      rw [List.map_map]
      exact List.map_congr_left fun z _ => raise_raisedBy z
    rw [if_pos up]
    simp only [added, joined, raised, List.map_append, news, olds]
    rfl
  · have unraised : (l ++ [x]).filter (raises m s.tne.plan) = l.filter (raises m s.tne.plan) := by
      rw [List.filter_append, List.filter_cons, if_neg fun h => up (raises_x.1 h)]
      exact List.append_nil _
    have olds : s.tne.plan.map (raisedBy m (l ++ [x])) = s.tne.plan.map (raisedBy m l) := by
      refine List.map_congr_left fun z hz => ?_
      by_cases pairZ : z.voice = x.1 ∧ z.src = x.2
      · obtain rfl := law.unique hz he (pairZ.1.trans pair.1.symm) (pairZ.2.trans pair.2.symm)
        unfold raisedBy
        cases m with
        | bg => simp
        | fg =>
          have fg : z.mode = .fg := by
            cases hm : z.mode with
            | fg => rfl
            | bg => exact absurd ⟨hm, rfl⟩ up
          have self : { z with mode := EntryMode.fg } = z := by rw [← fg]
          simp only [self, ite_self]
      · exact raisedBy_append_of_ne pairZ
    rw [if_neg up]
    simp only [added, joined, unraised, olds]

theorem addPairs_eq {s : State} (law : PlanLaw s) (nd : l.Nodup) :
    l.foldl (addPair m) (s.tne.plan, [], []) = added m s.tne.plan l := by
  induction l using List.reverseRecOn with
  | nil =>
    have same : s.tne.plan.map (raisedBy m []) = s.tne.plan :=
      (List.map_congr_left fun e _ => raisedBy_of_not_mem List.not_mem_nil).trans (List.map_id _)
    simp [added, same]
  | append_singleton l x ih =>
    obtain ⟨nd, -, apart⟩ := List.nodup_append.1 nd
    have hx : x ∉ l := fun h => apart x h x (List.mem_singleton_self x) rfl
    rw [List.foldl_append, ih nd, List.foldl_cons, List.foldl_nil]
    cases h : joins s.tne.plan x with
    | true => exact addPair_joins hx h
    | false => exact addPair_raises law hx h

end

/-! ## The pairs a command asks for -/

/-- The command's voice set and source mask name the pair. -/
def asks (voices : VoiceSet) (sources : Byte) (v : VoiceNo) (i : SourceIdx) : Bool :=
  voices.getLsbD v.val && sources.getLsbD i.val

section
variable {voices : VoiceSet} {sources : Byte} {m : EntryMode}

theorem mem_pairsOf {x : VoiceNo × SourceIdx} :
    x ∈ pairsOf voices sources ↔ asks voices sources x.1 x.2 = true := by
  simp only [pairsOf, List.mem_flatMap, mem_setList, List.mem_map, List.mem_filter, List.mem_finRange, true_and,
    asks, Bool.and_eq_true]
  constructor
  · rintro ⟨v, hv, i, hi, rfl⟩
    exact ⟨hv, hi⟩
  · exact fun ⟨hv, hi⟩ => ⟨x.1, hv, x.2, hi, rfl⟩

theorem pairsOf_nodup : (pairsOf voices sources).Nodup := by
  unfold pairsOf
  rw [List.nodup_flatMap]
  refine ⟨fun v _ => ((List.nodup_finRange 3).filter _).map fun i j h => congrArg Prod.snd h,
    (setList_nodup voices).imp fun {v w} hne => ?_⟩
  intro x hv hw
  obtain ⟨i, -, rfl⟩ := List.mem_map.1 hv
  obtain ⟨j, -, h⟩ := List.mem_map.1 hw
  exact hne (congrArg Prod.fst h).symm

theorem flatMap_filter_eq {α β : Type} (p : α → Bool) (f : α → List β) (l : List α) :
    (l.filter p).flatMap f = l.flatMap fun a => if p a then f a else [] := by
  induction l with
  | nil => rfl
  | cons a l ih => cases h : p a <;> simp [h, ih]

/-- The entries asked for, voice by voice and source by source, are those of the pairs. -/
theorem entries_eq :
    ((List.finRange 16).flatMap fun v =>
      ((List.finRange 3).filter (asks voices sources v)).map fun i => ({ voice := v, src := i, mode := m } : Entry)) =
      (pairsOf voices sources).map (entryOf m) := by
  unfold pairsOf setList
  rw [flatMap_filter_eq, List.map_flatMap]
  refine congrArg (List.flatMap · _) (funext fun v => ?_)
  cases hv : inSet voices v with
  | true =>
    have same : asks voices sources v = fun i => sources.getLsbD i.val := funext fun i => by
      unfold asks
      rw [show voices.getLsbD v.val = true from hv, Bool.true_and]
    rw [same, if_pos rfl, List.map_map]
    rfl
  | false =>
    have none : asks voices sources v = fun _ => false := funext fun i => by
      unfold asks
      rw [show voices.getLsbD v.val = false from hv, Bool.false_and]
    simp [none]

/-- The entries asked for whose pairs are not in the plan. -/
theorem newEntries_eq (s : State) :
    ((pairsOf voices sources).map (entryOf m)).filter (fun e => !inPlan s e.voice e.src) =
      ((pairsOf voices sources).filter (joins s.tne.plan)).map (entryOf m) := by
  rw [List.filter_map]
  rfl

/-- The pairs asked as FG of BG entries are those of the plan's BG entries asked as FG. -/
theorem raises_perm {s : State} (law : PlanLaw s) :
    ((s.tne.plan.filter fun e => m == .fg && e.mode == .bg && asks voices sources e.voice e.src).map
      fun e => (e.voice, e.src)).Perm ((pairsOf voices sources).filter (raises m s.tne.plan)) := by
  have nd : ((s.tne.plan.filter fun e => m == .fg && e.mode == .bg && asks voices sources e.voice e.src).map
      fun e => (e.voice, e.src)).Nodup := by
    unfold List.Nodup
    rw [List.pairwise_map]
    exact (law.nodup.filter _).imp fun h h' => h ⟨congrArg Prod.fst h', congrArg Prod.snd h'⟩
  refine (List.perm_ext_iff_of_nodup nd (pairsOf_nodup.filter _)).2 fun x => ?_
  simp only [List.mem_map, List.mem_filter, Bool.and_eq_true, beq_iff_eq, mem_pairsOf, raises_iff]
  constructor
  · rintro ⟨e, ⟨he, ⟨fg, bg⟩, asked⟩, rfl⟩
    exact ⟨asked, fg, e, he, ⟨rfl, rfl⟩, bg⟩
  · rintro ⟨asked, fg, e, he, ⟨hv, hi⟩, bg⟩
    exact ⟨e, ⟨he, ⟨fg, bg⟩, by rw [hv, hi]; exact asked⟩, Prod.ext hv hi⟩

/-- The plan after the pairs asked for have been added. -/
theorem addPairs_plan {s : State} (law : PlanLaw s) :
    ((pairsOf voices sources).foldl (addPair m) (s.tne.plan, [], [])).1 =
      (s.tne.plan.map fun e =>
        if m = .fg ∧ asks voices sources e.voice e.src = true then { e with mode := .fg } else e) ++
        ((pairsOf voices sources).filter (joins s.tne.plan)).map (entryOf m) := by
  rw [addPairs_eq law pairsOf_nodup]
  refine congrArg (· ++ _) (List.map_congr_left fun e _ => ?_)
  unfold raisedBy
  simp only [mem_pairsOf]

/-- How many entries join and how many are raised. -/
theorem addPairs_counts {s : State} (law : PlanLaw s) :
    ((pairsOf voices sources).foldl (addPair m) (s.tne.plan, [], [])).2.1.length =
        (((pairsOf voices sources).filter (joins s.tne.plan)).map (entryOf m)).length ∧
      ((pairsOf voices sources).foldl (addPair m) (s.tne.plan, [], [])).2.2.length =
        (s.tne.plan.filter fun e => m == .fg && e.mode == .bg && asks voices sources e.voice e.src).length := by
  rw [addPairs_eq law pairsOf_nodup]
  have perm := (raises_perm (voices := voices) (sources := sources) (m := m) law).length_eq
  rw [List.length_map] at perm
  exact ⟨by rw [List.length_map]; exact List.length_map .., (List.length_map ..).trans perm.symm⟩

/-- A voice is touched when an entry of it joins or is raised. -/
theorem addPairs_touched {s : State} (law : PlanLaw s) (v : VoiceNo) :
    (v ∈ ((pairsOf voices sources).foldl (addPair m) (s.tne.plan, [], [])).2.1 ∨
        v ∈ ((pairsOf voices sources).foldl (addPair m) (s.tne.plan, [], [])).2.2) ↔
      ((((pairsOf voices sources).filter (joins s.tne.plan)).map (entryOf m) ++
        s.tne.plan.filter fun e => m == .fg && e.mode == .bg && asks voices sources e.voice e.src).any
          fun e => e.voice == v) = true := by
  have raised : v ∈ ((pairsOf voices sources).filter (raises m s.tne.plan)).map Prod.fst ↔
      ∃ e ∈ s.tne.plan.filter (fun e => m == .fg && e.mode == .bg && asks voices sources e.voice e.src),
        e.voice = v := by
    rw [((raises_perm law).map Prod.fst).symm.mem_iff, List.map_map, List.mem_map]
    rfl
  rw [addPairs_eq law pairsOf_nodup, List.any_append, Bool.or_eq_true, List.any_eq_true, List.any_eq_true]
  refine or_congr ?_ (raised.trans (by simp only [beq_iff_eq]))
  simp only [added, List.mem_map, beq_iff_eq]
  constructor
  · rintro ⟨x, hx, rfl⟩
    exact ⟨entryOf m x, ⟨x, hx, rfl⟩, rfl⟩
  · rintro ⟨-, ⟨x, hx, rfl⟩, rfl⟩
    exact ⟨x, hx, rfl⟩

/-- The plan stays within its 48 entries. -/
theorem addPairs_length {s : State} (law : PlanLaw s) :
    ((pairsOf voices sources).foldl (addPair m) (s.tne.plan, [], [])).1.length ≤ 48 :=
  length_le_of_pairs (addPairs_added law.nodup m _).nodup

end

end Sys2Proof.Machine
end

