-- ==== Sys2Proof/Proofs/Claims.lean ====
section
/-! Foreground claims one after another, and TUNE ADD (R24, R81 to R83). -/

namespace Sys2Proof.Machine

/-! ## What a claim reaches -/

/-- Only voice records and lists, gaps, source codes and the failed-in-lending set differ. -/
def ClaimsOnly (s t : State) : Prop :=
  { t with
    val := s.val
    cvo := { t.cvo with gaps := s.cvo.gaps }
    ptu := { t.ptu with codes := s.ptu.codes }
    tne := { t.tne with failed := s.tne.failed } } = s ∧ t.val.seed = s.val.seed

theorem ClaimsOnly.refl (s : State) : ClaimsOnly s s := ⟨rfl, rfl⟩

theorem ClaimsOnly.trans {s t u : State} (a : ClaimsOnly s t) (b : ClaimsOnly t u) : ClaimsOnly s u := by
  refine ⟨?_, b.2.trans a.2⟩
  have ha := a.1
  rw [← b.1] at ha
  exact ha

/-- The blocks that claims leave alone. -/
theorem ClaimsOnly.stands {s t : State} (h : ClaimsOnly s t) :
    t.cal = s.cal ∧ t.psc = s.psc ∧ t.cvo.trial = s.cvo.trial ∧
      { t.ptu with codes := s.ptu.codes } = s.ptu ∧ { t.tne with failed := s.tne.failed } = s.tne :=
  ⟨(congrArg State.cal h.1 :), (congrArg State.psc h.1 :), (congrArg (fun x : State => x.cvo.trial) h.1 :),
    (congrArg State.ptu h.1 :), (congrArg State.tne h.1 :)⟩

theorem ClaimsOnly.frame {s t : State} (h : ClaimsOnly s t) : NoteFrame { s with tne := t.tne } t := by
  obtain ⟨h, -⟩ := h
  have cvo := congrArg State.cvo h
  have ptu := congrArg State.ptu h
  have psc := congrArg State.psc h
  constructor
  case pending => exact (congrArg State.pending h :)
  case run => exact (congrArg State.run h :)
  case free => exact (congrArg State.free h :)
  case cal => exact (congrArg State.cal h :)
  case ebu => exact (congrArg State.ebu h :)
  case smc => exact (congrArg State.smc h :)
  case lnk => exact (congrArg State.lnk h :)
  case master => exact (congrArg Ptu.master ptu :)
  case scales => exact (congrArg Ptu.scales ptu :)
  case overrides => exact (congrArg Ptu.overrides ptu :)
  case pots => exact (congrArg Psc.pots psc :)
  case switches => exact (congrArg Psc.switches psc :)
  case profiles => exact (congrArg Psc.profiles psc :)
  case schedules => exact ⟨(congrArg Psc.normal psc :), (congrArg Psc.tune psc :)⟩
  case route => exact (congrArg Cvo.route cvo :)
  case presented => exact ⟨(congrArg Cvo.presented cvo :), (congrArg Cvo.trialMark cvo :)⟩
  case refresh => exact ⟨(congrArg Cvo.next cvo :), (congrArg Cvo.refresh cvo :), (congrArg Cvo.shifted cvo :)⟩
  case plan => rfl
  case lastM => rfl

/-- Voices claimed: TUNING and foreground with their park reasons kept, off every list, group and gap, their
sources at 69000 dc, out of the failed-in-lending set; nothing else differs. -/
structure ClaimedAll (s t : State) (l : List VoiceNo) : Prop where
  only : ClaimsOnly s t
  failed : ∀ w, inSet t.tne.failed w = (inSet s.tne.failed w && decide (w ∉ l))
  gap : ∀ w, look t.cvo.gaps w = if w ∈ l then none else look s.cvo.gaps w
  voice : ∀ w, t.voice w = if w ∈ l then
    { s.voice w with status := .tuning true (s.status w).reason?, clamp := (t.voice w).clamp } else s.voice w
  freeList : t.val.freeList = s.val.freeList.filter fun v => v ∉ l
  releaseOrder : t.val.releaseOrder = s.val.releaseOrder.filter fun v => v ∉ l
  startOrder : ∀ p, t.val.startOrder.get p = (s.val.startOrder.get p).filter fun v => v ∉ l
  part : ∀ p, t.part p = { s.part p with solo := soloDrops l (s.part p).solo }
  claimed : ∀ n, sourceVoice n ∈ l →
    look t.ptu.codes n = (toCode (look s.cal.records n).codes 69000).1 ∧
      look (t.voice (sourceVoice n)).clamp (sourceIdx n) = (toCode (look s.cal.records n).codes 69000).2
  others : ∀ n, sourceVoice n ∉ l → look t.ptu.codes n = look s.ptu.codes n

theorem ClaimedAll.none (s : State) : ClaimedAll s s [] where
  only := .refl s
  failed w := by simp
  gap w := rfl
  voice w := rfl
  freeList := (List.filter_eq_self.2 fun _ _ => rfl).symm
  releaseOrder := (List.filter_eq_self.2 fun _ _ => rfl).symm
  startOrder p := (List.filter_eq_self.2 fun _ _ => rfl).symm
  part p := rfl
  claimed n h := absurd h List.not_mem_nil
  others n _ := rfl

section
variable {s t u : State} {k l : List VoiceNo}

theorem ClaimedAll.status (h : ClaimedAll s t l) (w : VoiceNo) :
    t.status w = if w ∈ l then .tuning true (s.status w).reason? else s.status w := by
  unfold State.status
  rw [h.voice w]
  split <;> rfl

theorem filter_absent_append (m : List VoiceNo) :
    (m.filter fun v => v ∉ k).filter (fun v => v ∉ l) = m.filter fun v => v ∉ k ++ l := by
  rw [List.filter_filter]
  exact List.filter_congr fun v _ => by simp [Bool.and_comm]

theorem ClaimedAll.trans (a : ClaimedAll s t k) (b : ClaimedAll t u l) : ClaimedAll s u (k ++ l) := by
  have cal : t.cal = s.cal := a.only.stands.1
  constructor
  case only => exact a.only.trans b.only
  case failed =>
    intro w
    rw [b.failed, a.failed]
    by_cases hk : w ∈ k <;> by_cases hl : w ∈ l <;> simp [hk, hl]
  case gap =>
    intro w
    rw [b.gap, a.gap]
    by_cases hk : w ∈ k <;> by_cases hl : w ∈ l <;> simp [hk, hl]
  case voice =>
    intro w
    have hb := b.voice w
    have ha := a.voice w
    by_cases hl : w ∈ l
    · rw [if_pos (List.mem_append_right k hl)]
      rw [if_pos hl, a.status w] at hb
      by_cases hk : w ∈ k
      · rw [if_pos hk] at ha hb
        rw [hb, ha]
        rfl
      · rw [if_neg hk] at ha hb
        rw [hb, ha]
    · rw [if_neg hl] at hb
      by_cases hk : w ∈ k
      · rw [if_pos (List.mem_append_left l hk), hb]
        exact ha.trans (if_pos hk)
      · rw [if_neg (by simp [hk, hl]), hb]
        exact ha.trans (if_neg hk)
  case freeList => rw [b.freeList, a.freeList, filter_absent_append]
  case releaseOrder => rw [b.releaseOrder, a.releaseOrder, filter_absent_append]
  case startOrder =>
    intro p
    rw [b.startOrder, a.startOrder, filter_absent_append]
  case part =>
    intro p
    rw [b.part, a.part]
    unfold soloDrops
    rw [List.foldl_append]
  case claimed =>
    intro n hn
    by_cases hl : sourceVoice n ∈ l
    · rw [← cal]
      exact b.claimed n hl
    · have own := a.claimed n ((List.mem_append.1 hn).resolve_right hl)
      rw [b.others n hl, b.voice, if_neg hl]
      exact own
  case others =>
    intro n hn
    rw [List.mem_append, not_or] at hn
    rw [b.others n hn.2, a.others n hn.1]

end

/-! ## One claim -/

/-- What the claims lean on: voices on exactly the lists of their states, and only TUNING voices failed. -/
structure Claimable (s : State) : Prop where
  lists : VoiceLaw s
  solo : SoloLaw s
  gaps : GapLaw s
  failed : ∀ v, inSet s.tne.failed v = true → (s.status v).isTuning = true

section
variable {s : State} {v : VoiceNo}

theorem claimVoice_claimable (fg : Bool) (h : Claimable s) : Claimable (claimVoice v fg s) := by
  have kept := NotesKept.of_moves (claimVoice_moves v fg s)
  obtain ⟨lists, solo⟩ := kept.lists ⟨h.lists, h.solo⟩
  refine ⟨lists, solo, kept.gaps h.gaps, fun w hw => ?_⟩
  rw [claimVoice_status]
  split
  · rfl
  · refine h.failed w ?_
    rw [claimVoice_failed] at hw
    split at hw
    · rw [inSet_setDrop, Bool.and_eq_true] at hw
      exact hw.1
    · exact hw

/-- A TUNING or PARKED voice is on no list and in no group: it has a gap at most to leave. -/
theorem detach_away (lists : VoiceLaw s) (solo : SoloLaw s) (hv : (s.status v).isAway = true) :
    s.detach v = s.setGap v none := by
  have away : (s.status v).isFree = false ∧ (∀ p, (s.status v).onPart p = false) ∧
      (s.status v).isReleasing = false := by
    revert hv
    cases s.status v <;> simp [VoiceStatus.isAway, VoiceStatus.isFree, VoiceStatus.onPart,
      VoiceStatus.isReleasing]
  obtain ⟨free, bound, releasing⟩ := away
  have offFree : without v s.val.freeList = s.val.freeList :=
    without_eq_self fun hm => by rw [lists.free, free] at hm; cases hm
  have offRelease : without v s.val.releaseOrder = s.val.releaseOrder :=
    without_eq_self fun hm => by rw [lists.release, releasing] at hm; cases hm
  have offStart (p : Part) : without v (s.val.startOrder.get p) = s.val.startOrder.get p :=
    without_eq_self fun hm => by rw [lists.start, bound] at hm; cases hm
  have offSolo (p : Part) : soloDrop v (s.part p).solo = (s.part p).solo :=
    soloDrops_eq_self (l := [v]) (fun m hm => (solo p m hm).1) fun w hw ⟨m, hm, hin⟩ => by
      obtain ⟨-, on, -⟩ := solo p m hm
      have := on w hin
      rw [List.mem_singleton.1 hw, bound] at this
      cases this
  have startA := offStart .A
  have startB := offStart .B
  have soloA := offSolo .A
  have soloB := offSolo .B
  unfold State.detach State.setGap
  simp only [ByPart.get, State.part] at startA startB soloA soloB
  rw [offFree, offRelease, startA, startB, soloA, soloB]

/-- A TUNING or PARKED voice has no gap, and so nothing to leave. -/
theorem Claimable.detach_eq (h : Claimable s) (hv : (s.status v).isAway = true) : s.detach v = s := by
  have noGap : look s.cvo.gaps v = none := by
    cases hg : look s.cvo.gaps v with
    | none => rfl
    | some g =>
      have := h.gaps v (by rw [hg]; rfl)
      revert hv this
      cases s.status v <;> simp [VoiceStatus.isAway, VoiceStatus.isHeld, VoiceStatus.isSustained]
  rw [detach_away h.lists h.solo hv, ← noGap]
  exact setGap_self s v

/-- A claim sends the voice to TUNING, recomputes it, and clears its failure. -/
theorem claimVoice_eq (h : Claimable s) : claimVoice v true s =
    (recomputeVoice v (s.send v (.tuning true (s.status v).reason?))).setFailed (setDrop s.tne.failed v) := by
  have stands (hv : (s.status v).isTuning = false) : setDrop s.tne.failed v = s.tne.failed :=
    setDrop_eq_self (Bool.eq_false_iff.2 fun hf => by rw [h.failed v hf] at hv; cases hv)
  unfold claimVoice State.send
  cases hs : s.status v with
  | tuning f r =>
    dsimp only [VoiceStatus.reason?]
    rw [h.detach_eq (by rw [hs]; rfl)]
    rfl
  | parked r =>
    dsimp only [VoiceStatus.reason?]
    rw [h.detach_eq (by rw [hs]; rfl), stands (by rw [hs]; rfl)]
    rfl
  | free =>
    dsimp only [VoiceStatus.reason?]
    rw [stands (by rw [hs]; rfl)]
    rfl
  | bound n ph =>
    dsimp only [VoiceStatus.reason?]
    rw [stands (by rw [hs]; rfl)]
    rfl

/-- A recomputation changes no field of a voice but its clamp flags. -/
theorem recompute_but_clamp (s : State) (sel : SourceNo → Bool) (v : VoiceNo) :
    (recompute sel s).voice v = { s.voice v with clamp := ((recompute sel s).voice v).clamp } := by
  rw [recompute_voice]

/-- The sources of a recomputed TUNING voice are at 69000 dc. -/
theorem recompute_tuning {s : State} {v : VoiceNo} {f : Bool} {r : Option ParkReason}
    (h : s.status v = .tuning f r) {n : SourceNo} (hn : sourceVoice n = v) :
    look (recomputeVoice v s).ptu.codes n = (toCode (look s.cal.records n).codes 69000).1 ∧
      look ((recomputeVoice v s).voice (sourceVoice n)).clamp (sourceIdx n) =
        (toCode (look s.cal.records n).codes 69000).2 := by
  have pitch : chain s n = toCode (look s.cal.records n).codes 69000 := by
    unfold chain
    rw [sourcePitch_tuning (by rw [hn]; exact h)]
  rw [← pitch]
  exact ⟨recomputeVoice_code s v hn, (recompute_clamp ..).trans (if_pos (beq_iff_eq.2 hn))⟩

theorem recompute_others (s : State) {v : VoiceNo} {n : SourceNo} (hn : sourceVoice n ≠ v) :
    look (recomputeVoice v s).ptu.codes n = look s.ptu.codes n :=
  (recompute_code ..).trans (if_neg fun h => hn (beq_iff_eq.1 h))

theorem claimVoice_claimed (h : Claimable s) : ClaimedAll s (claimVoice v true s) [v] := by
  rw [claimVoice_eq h]
  have only := send_only s v (.tuning true (s.status v).reason?)
  have voices := send_voice s v (.tuning true (s.status v).reason?)
  have gaps := send_gap s v (.tuning true (s.status v).reason?)
  have free := send_freeList s v (.tuning true (s.status v).reason?)
  have release := send_releaseOrder s v (.tuning true (s.status v).reason?)
  have start := send_startOrder s v (.tuning true (s.status v).reason?)
  have parts := send_part s v (.tuning true (s.status v).reason?)
  have status := send_status s v (.tuning true (s.status v).reason?) v
  revert only voices gaps free release start parts status
  generalize s.send v (.tuning true (s.status v).reason?) = t
  intro only voices gaps free release start parts status
  rw [if_pos rfl] at status
  have others : ∀ w, w ≠ v → (recomputeVoice v t).voice w = t.voice w := fun w hw => recomputeVoice_other t v hw
  have cal : t.cal = s.cal := (congrArg State.cal only.1 :)
  have ptu : t.ptu = s.ptu := (congrArg State.ptu only.1 :)
  have filtered (m : List VoiceNo) : without v m = m.filter fun w => w ∉ [v] :=
    List.filter_congr fun w _ => by rw [Bool.eq_iff_iff]; simp
  constructor
  case only =>
    refine ⟨?_, only.2⟩
    rw [← only.1]
    rfl
  case failed =>
    intro w
    refine (inSet_setDrop ..).trans ?_
    rw [Bool.eq_iff_iff]
    simp
  case gap =>
    intro w
    refine (gaps w).trans ?_
    simp [VoiceStatus.leaves]
  case voice =>
    intro w
    by_cases hw : w = v
    · subst hw
      have own := recompute_but_clamp t (fun n => sourceVoice n == w) w
      have before := voices w
      rw [if_pos rfl] at before
      rw [before] at own
      rw [if_pos (List.mem_singleton_self w)]
      exact own
    · rw [if_neg (mt List.mem_singleton.1 hw)]
      exact (others w hw).trans ((voices w).trans (if_neg hw))
  case freeList => exact (free.trans (List.append_nil _)).trans (filtered _)
  case releaseOrder => exact (release.trans (List.append_nil _)).trans (filtered _)
  case startOrder => exact fun p => (start p).trans (filtered _)
  case part => exact parts
  case claimed =>
    intro n hn
    rw [List.mem_singleton] at hn
    rw [← cal]
    exact recompute_tuning status hn
  case others =>
    intro n hn
    rw [← ptu]
    exact recompute_others t (mt List.mem_singleton.2 hn)

end

/-! ## The claims of a command -/

/-- The voices claimed are those not yet foreground-tuning. -/
theorem claimAll_claimed {l : List VoiceNo} (nd : l.Nodup) {s : State} (h : Claimable s) :
    ClaimedAll s (claimAll l s) (l.filter fun v => !(s.status v).isFgTuning) := by
  induction l generalizing s with
  | nil => exact .none s
  | cons v l ih =>
    obtain ⟨hv, nd⟩ := List.nodup_cons.1 nd
    unfold claimAll
    rw [List.foldl_cons, List.filter_cons]
    cases fg : (s.status v).isFgTuning with
    | true => exact ih nd h
    | false =>
      have rest := ih nd (claimVoice_claimable (v := v) true h)
      have same : (l.filter fun w => !((claimVoice v true s).status w).isFgTuning) =
          l.filter fun w => !(s.status w).isFgTuning :=
        List.filter_congr fun w hw => by
          rw [claimVoice_status, if_neg fun e : w = v => hv (e ▸ hw)]
      rw [same] at rest
      exact (claimVoice_claimed h).trans rest

/-- The voices that a TUNE ADD's joins and raises touch. -/
def touchedBy (m : EntryMode) (voices : VoiceSet) (sources : Byte) (s : State) : List VoiceNo :=
  (List.finRange 16).filter fun v =>
    v ∈ ((pairsOf voices sources).foldl (addPair m) (s.tne.plan, [], [])).2.1 ∨
      v ∈ ((pairsOf voices sources).foldl (addPair m) (s.tne.plan, [], [])).2.2

/-- The state of a TUNE ADD before runnable work is begun. -/
def tuneAdded (m : EntryMode) (voices : VoiceSet) (sources : Byte) (s : State) : State :=
  let planned := s.setPlan ((pairsOf voices sources).foldl (addPair m) (s.tne.plan, [], [])).1
  if m = .fg then claimAll (touchedBy m voices sources s) planned else planned

section
variable {s : State} {voices : VoiceSet} {m : EntryMode}

theorem tuneAdd_eq (sources : Fin 8) :
    tuneAdd voices (b1 sources.val) (if m = .fg then 0 else 1) s =
      ok (kick (tuneAdded m voices (b1 sources.val) s))
        [b1 ((pairsOf voices (b1 sources.val)).foldl (addPair m) (s.tne.plan, [], [])).2.1.length,
          b1 ((pairsOf voices (b1 sources.val)).foldl (addPair m) (s.tne.plan, [], [])).2.2.length,
          b1 ((pairsOf voices (b1 sources.val)).foldl (addPair m) (s.tne.plan, [], [])).1.length] := by
  have mode : entryMode? (if m = .fg then 0 else 1) = some m := by cases m <;> rfl
  have range : ¬ 8 ≤ (b1 sources.val).toNat := by revert sources; decide
  unfold tuneAdd
  rw [mode]
  simp only [if_neg range]
  rfl

/-- The claims of a TUNE ADD, after its plan is stored. -/
theorem tuneAdded_claimed (sources : Byte) (h : Claimable s) :
    ClaimedAll (s.setPlan ((pairsOf voices sources).foldl (addPair m) (s.tne.plan, [], [])).1)
      (tuneAdded m voices sources s)
      ((touchedBy m voices sources s).filter fun v => m == .fg && !(s.status v).isFgTuning) := by
  unfold tuneAdded
  cases m with
  | bg =>
    rw [List.filter_eq_nil_iff.2 fun v _ => by simp]
    exact .none _
  | fg =>
    have kept := NotesKept.of_moves (setPlan_moves s
      ((pairsOf voices sources).foldl (addPair .fg) (s.tne.plan, [], [])).1)
    obtain ⟨lists, solo⟩ := kept.lists ⟨h.lists, h.solo⟩
    exact claimAll_claimed ((List.nodup_finRange 16).filter _) ⟨lists, solo, kept.gaps h.gaps, h.failed⟩

end

/-- Settles O43: the pairs added at once instead of one after another, then the claims one after another. -/
theorem tuneAddJoinsAndClaims : Obligations.TuneAddJoinsAndClaims := by
  intro s voices sources mode hears lists solo gaps plan c asked pairs new raised planned claimed
  have hnew : new = ((pairsOf voices (b1 sources.val)).filter (joins s.tne.plan)).map (entryOf mode) :=
    (congrArg (List.filter _) entries_eq).trans (newEntries_eq s)
  have hplan : planned = ((pairsOf voices (b1 sources.val)).foldl (addPair mode) (s.tne.plan, [], [])).1 :=
    (congrArg (_ ++ ·) hnew).trans (addPairs_plan plan).symm
  have counts := addPairs_counts (voices := voices) (sources := b1 sources.val) (m := mode) plan
  have hclaimed : claimed = (touchedBy mode voices (b1 sources.val) s).filter
      fun v => mode == .fg && !(s.status v).isFgTuning := by
    unfold touchedBy
    rw [List.filter_filter]
    refine List.filter_congr fun v _ => ?_
    refine congrArg (and (mode == .fg && !(s.status v).isFgTuning)) ?_
    rw [Bool.eq_iff_iff, decide_eq_true_iff, addPairs_touched plan v, hnew]
    rfl
  have claims := tuneAdded_claimed (voices := voices) (m := mode) (b1 sources.val)
    ⟨lists, solo, gaps, plan.failed⟩
  rw [← hclaimed, ← hplan] at claims
  have out : exec c s = _ := hostCommand_taken (f := tuneAdd voices (b1 sources.val) _) hears
  rw [tuneAdd_eq, ← hplan, counts.1, counts.2, ← hnew] at out
  obtain ⟨cal, psc, trial, ptu, tne⟩ := claims.only.stands
  refine ⟨tuneAdded mode voices (b1 sources.val) s, out, tne, ?_, claims.failed, claims.only.frame, psc, trial,
    fun v hv => ?_, fun v hv => ?_, fun p v => ?_, fun p => ?_, claims.only.2, ptu, claims.freeList,
    claims.releaseOrder, claims.startOrder, fun p => ?_, fun n hn => ?_, claims.others⟩
  · rw [hplan]
    exact addPairs_length plan
  · exact ⟨(claims.voice v).trans (if_neg hv), (claims.gap v).trans (if_neg hv)⟩
  · exact ⟨(claims.gap v).trans (if_pos hv), (claims.voice v).trans (if_pos hv)⟩
  · rw [claims.part p]
    exact memberOf_soloDrops claimed _ v
  · rw [claims.part p]
    exact soloDrops_ne_zero fun m hm => (solo p m hm).1
  · rw [claims.part p]
    rfl
  · have tuning := (claims.status (sourceVoice n)).trans (if_pos hn)
    unfold chain
    rw [sourcePitch_tuning tuning, cal]
    exact claims.claimed n hn

end Sys2Proof.Machine
end

