-- ==== Sys2Proof/Proofs/GateWindow.lean ====
section
/-! A gate's window: the edge looked for, the gate that counts, and NO SIGNAL (R91 to R94, R100, R101). -/

namespace Sys2Proof.Machine

/-! ## A TUNING voice left in a state -/

/-- A voice is left in a state: only its record, its gap, its source codes, the free list's tail and the
failed-in-lending set differ. -/
structure LeftTo (s t : State) (v : VoiceNo) (x : VoiceStatus) : Prop where
  only : { t with
    val := { t.val with voices := s.val.voices, freeList := s.val.freeList }
    cvo := { t.cvo with gaps := s.cvo.gaps }
    ptu := { t.ptu with codes := s.ptu.codes }
    tne := { t.tne with failed := s.tne.failed } } = s
  voice : t.voice v = { s.voice v with status := x, clamp := (t.voice v).clamp }
  others : ∀ w, w ≠ v → t.voice w = s.voice w ∧ look t.cvo.gaps w = look s.cvo.gaps w
  freeList : t.val.freeList = s.val.freeList ++ if x = .free then [v] else []
  codes : ∀ n, sourceVoice n ≠ v → look t.ptu.codes n = look s.ptu.codes n

section
variable {s t : State} {v : VoiceNo} {x : VoiceStatus}

theorem LeftTo.stays (h : (s.status v).isTuning = true) : LeftTo s s v (s.status v) where
  only := rfl
  voice := rfl
  others _ _ := ⟨rfl, rfl⟩
  freeList := by
    rw [if_neg fun e => by rw [e] at h; cases h]
    exact (List.append_nil _).symm
  codes _ _ := rfl

theorem voice_but_clamp (h : t.voice v = { s.voice v with status := x }) :
    t.voice v = { s.voice v with status := x, clamp := (t.voice v).clamp } := by
  rw [h]

/-- Recomputing the voice, and its leaving the failed-in-lending set, leave it where it was left. -/
theorem LeftTo.recompute (h : LeftTo s t v x) (m : VoiceSet) :
    LeftTo s ((recomputeVoice v t).setFailed m) v x where
  only := h.only
  voice := by
    have own := recompute_but_clamp t (fun n => sourceVoice n == v) v
    rw [h.voice] at own
    exact own
  others w hw := by
    obtain ⟨voice, gap⟩ := h.others w hw
    exact ⟨(recomputeVoice_other t v hw).trans voice, gap⟩
  freeList := h.freeList
  codes n hn := (recompute_others t hn).trans (h.codes n hn)

theorem parkVoice_left (lists : VoiceLaw s) (solo : SoloLaw s) (h : (s.status v).isAway = true)
    (r : ParkReason) : LeftTo s (parkVoice v r s) v (.parked r) := by
  unfold parkVoice
  rw [detach_away lists solo h]
  refine LeftTo.recompute ?_ _
  constructor
  case only => rfl
  case voice => exact voice_but_clamp (look_put_same ..)
  case others => exact fun w hw => ⟨look_put_ne _ _ hw, look_put_ne _ _ hw⟩
  case freeList => exact (List.append_nil _).symm
  case codes => exact fun _ _ => rfl

theorem freeVoice_left (lists : VoiceLaw s) (solo : SoloLaw s) (h : (s.status v).isAway = true) :
    LeftTo s (freeVoice v s) v .free := by
  unfold freeVoice State.enterFree
  rw [detach_away lists solo h]
  refine LeftTo.recompute ?_ _
  constructor
  case only => rfl
  case voice => exact voice_but_clamp (look_put_same ..)
  case others => exact fun w hw => ⟨look_put_ne _ _ hw, look_put_ne _ _ hw⟩
  case freeList => rfl
  case codes => exact fun _ _ => rfl

/-- Where the end of an entry leaves its TUNING voice (R100). -/
theorem returnIfDone_left (lists : VoiceLaw s) (solo : SoloLaw s) (h : (s.status v).isTuning = true) :
    LeftTo s (returnIfDone v s) v (returnedTo (s.status v) (voiceInPlan s v) (inSet s.tne.failed v)) ∧
      (returnIfDone v s).tne.failed =
        if voiceInPlan s v then s.tne.failed else setDrop s.tne.failed v := by
  unfold returnIfDone
  cases left : voiceInPlan s v with
  | true => exact ⟨.stays h, rfl⟩
  | false =>
    have away : (s.status v).isAway = true := by
      revert h
      cases s.status v <;> simp [VoiceStatus.isTuning, VoiceStatus.isAway]
    have parked := parkVoice_left lists solo away
    have freed := freeVoice_left lists solo away
    unfold returnVoice returnedTo
    cases hs : s.status v with
    | tuning f r =>
      cases r with
      | none => exact ⟨freed, rfl⟩
      | some r =>
        cases failed : inSet s.tne.failed v with
        | true => exact ⟨parked r, rfl⟩
        | false => exact ⟨freed, rfl⟩
    | _ => rw [hs] at h; cases h

end

/-! ## An entry fails -/

/-- The entry has left the plan with the current one, its source's record and its voice's failure are
written, and the marks are set; its voice has not been left yet. -/
def entryFailed (c : Current) (r : FailReason) (rest : List Entry) (marks : List Mark) (s : State) : State :=
  { s with
    cal := (s.setRecord c.source { s.record c.source with status := .failed r }).cal
    tne := { s.tne with plan := rest, current := none, failed := setAdd s.tne.failed c.voice }
    cvo := { s.cvo with trial := none }
    lnk := { s.lnk with notices := marks.foldl Notices.set s.lnk.notices } }

section
variable (c : Current) (r : FailReason) (s : State)

/-- The entry and its record first, then the voice. -/
theorem entryFails_eq : entryFails c r s =
    (let f := entryFailed c r (s.tne.plan.filter fun e => !e.isPair c.voice c.src) [.tuneFailed c.source] s
    if r = .noSignal ∧ s.cal.settings.autoPark then
      doneIfEmpty ((parkVoice c.voice .noSignal
        (f.setPlan (f.tne.plan.filter fun e => e.voice != c.voice))).mark (.voiceParked c.voice))
    else doneIfEmpty (returnIfDone c.voice f)) := rfl

/-- A failure that does not park: the voice is returned if it has no entry left. -/
theorem entryFails_returns (h : ¬(r = .noSignal ∧ s.cal.settings.autoPark = true)) :
    entryFails c r s = doneIfEmpty (returnIfDone c.voice
      (entryFailed c r (s.tne.plan.filter fun e => !e.isPair c.voice c.src) [.tuneFailed c.source] s)) :=
  (entryFails_eq c r s).trans (if_neg h)

theorem parkVoice_mark (v : VoiceNo) (r : ParkReason) (m : Mark) (s : State) :
    (parkVoice v r s).mark m = parkVoice v r (s.mark m) := rfl

/-- A failure for NO SIGNAL with auto-park: the voice is parked and its entries leave the plan. -/
theorem entryFails_parks (h : s.cal.settings.autoPark = true) :
    entryFails c .noSignal s = doneIfEmpty (parkVoice c.voice .noSignal
      (entryFailed c .noSignal (s.tne.plan.filter fun e => e.voice ≠ c.voice)
        [.tuneFailed c.source, .voiceParked c.voice] s)) := by
  have plans : (s.tne.plan.filter fun e => !e.isPair c.voice c.src).filter (fun e => e.voice != c.voice) =
      s.tne.plan.filter fun e => e.voice ≠ c.voice := by
    rw [List.filter_filter]
    refine List.filter_congr fun e _ => ?_
    unfold Entry.isPair
    by_cases he : e.voice = c.voice <;> simp [he]
  refine (entryFails_eq c .noSignal s).trans ((if_pos ⟨rfl, h⟩).trans ?_)
  rw [parkVoice_mark, ← plans]
  rfl

end

/-! ## The measurement is over -/

/-- What the end of a measurement leaves before the Tune Engine goes on: IDLE, and STEP used up. -/
def measured (s : State) : State :=
  (s.setMode (if s.tne.mode = .step then .halt else s.tne.mode)).setActivity .idle

/-- The choice of work does not depend on the activity it replaces. -/
theorem startNext_setActivity (s : State) (a : Activity) : startNext (s.setActivity a) = startNext s := by
  have claim (v : VoiceNo) : claimVoice v false (s.setActivity a) = (claimVoice v false s).setActivity a := by
    unfold claimVoice
    have same : (s.setActivity a).status v = s.status v := rfl
    rw [same]
    cases s.status v <;> rfl
  have begin (t : State) (e : Entry) : beginMeasurement (makeCurrent e (t.setActivity a)) =
      beginMeasurement (makeCurrent e t) := rfl
  unfold startNext
  have current : (s.setActivity a).tne.current = s.tne.current := rfl
  have chosen : choose (s.setActivity a) = choose s := rfl
  have free (v : VoiceNo) : (s.setActivity a).status v = s.status v := rfl
  rw [current, chosen]
  cases s.tne.current with
  | some c => rfl
  | none =>
    cases choose s with
    | none => rfl
    | some e =>
      dsimp only
      rw [free, claim]
      split <;> exact begin _ e

theorem measured_of_ne_step {s : State} (h : s.tne.mode ≠ .step) : measured s = s.setActivity .idle := by
  unfold measured
  rw [if_neg h]
  rfl

/-- After a measurement the Tune Engine goes on as it does whenever it is idle. -/
theorem afterMeasurement_eq (s : State) : afterMeasurement s = kick (measured s) := by
  have mode : (measured s).tne.mode = if s.tne.mode = .step then .halt else s.tne.mode := rfl
  unfold afterMeasurement kick
  cases hm : s.tne.mode with
  | run =>
    have go : (measured s).tne.mode ≠ .halt ∧ (measured s).tne.activity = .idle :=
      ⟨by rw [mode, hm]; decide, rfl⟩
    rw [if_pos go, measured_of_ne_step (by rw [hm]; decide), startNext_setActivity]
  | step =>
    rw [if_neg fun go => go.1 (by rw [mode, hm]; rfl)]
    unfold measured
    rw [hm, if_pos rfl]
  | halt =>
    rw [if_neg fun go => go.1 (by rw [mode, hm]; rfl), measured_of_ne_step (by rw [hm]; decide)]

/-- A bus held by the Tune Engine goes to the scanner where it waits, and else is free. -/
theorem releaseBus_engine_held {s : State} (h : s.psc.holder = some .engine) :
    releaseBus .engine s = s.setPsc (if s.psc.scannerWaits then
      { s.psc with
        holder := some .scanner, lastHolder := some .scanner, scannerWaits := false, addr := 0,
        phase := .scanning 160 }
      else { s.psc with holder := none }) := by
  cases w : s.psc.scannerWaits with
  | true => exact releaseBus_engine_waited h w
  | false => exact releaseBus_engine_unwaited h w

theorem measured_doneIfEmpty (t : State) : measured (doneIfEmpty t) = { t with
    tne := { t.tne with activity := .idle, mode := if t.tne.mode = .step then .halt else t.tne.mode }
    lnk := { t.lnk with
      notices := if t.tne.plan.isEmpty then t.lnk.notices.set .tuneDone else t.lnk.notices } } := by
  unfold doneIfEmpty
  cases t.tne.plan.isEmpty <;> rfl

/-- A gate without a first edge has ended: the bus is released and there is no count. -/
def silent (s : State) : State := (releaseBus .engine s).setLastM none

section
variable {s t : State} {c : Current} {r : FailReason} {rest : List Entry} {x : VoiceStatus} {marks : List Mark}

/-- What a failed entry reaches stands or is tabled, once its voice has been left. -/
theorem measurementOver_of_left (held : s.psc.holder = some .engine)
    (left : LeftTo (entryFailed c r rest marks (silent s)) t c.voice x) :
    MeasurementOver s (measured (doneIfEmpty t)) none := by
  have only := left.only
  unfold silent at only
  rw [releaseBus_engine_held held] at only
  have lnk : { t.lnk with notices := s.lnk.notices } = s.lnk :=
    congrArg (fun y : State => { y.lnk with notices := s.lnk.notices }) only
  have cal : { t.cal with records := s.cal.records } = s.cal :=
    congrArg (fun y : State => { y.cal with records := s.cal.records }) only
  have mode : t.tne.mode = s.tne.mode := (congrArg (fun y : State => y.tne.mode) only :)
  rw [measured_doneIfEmpty]
  constructor
  case activity => rfl
  case mode => rw [mode]
  case lastM => exact (congrArg (fun y : State => y.tne.lastM) only :)
  case bus => exact (congrArg State.psc only :)
  case trial =>
    have trial : t.cvo.trial = none := (congrArg (fun y : State => y.cvo.trial) only :)
    have current : t.tne.current = none := (congrArg (fun y : State => y.tne.current) only :)
    unfold TrialLaw
    dsimp only
    rw [trial, current]
    rfl
  case queue =>
    exact ⟨(congrArg State.pending only :), (congrArg State.run only :), (congrArg State.free only :)⟩
  case blocks => exact ⟨(congrArg State.ebu only :), (congrArg State.smc only :)⟩
  case link => exact lnk
  case cal => exact cal
  case output =>
    exact (congrArg (fun y : State => { y.cvo with trial := s.cvo.trial, gaps := s.cvo.gaps }) only :)
  case pitch => exact (congrArg State.ptu only :)
  case notes => exact (congrArg State.val only :)

/-- The entry's end, once its voice has been left. -/
theorem entryEnds_of_left (held : s.psc.holder = some .engine)
    (left : LeftTo (entryFailed c r rest marks (silent s)) t c.voice x) :
    EntryEnds s (measured (doneIfEmpty t)) c rest x marks ∧
      (measured (doneIfEmpty t)).record c.source = { s.record c.source with status := .failed r } := by
  unfold silent at left
  rw [releaseBus_engine_held held] at left
  have only := left.only
  have plan : t.tne.plan = rest := (congrArg (fun y : State => y.tne.plan) only :)
  have cal : t.cal = (s.setRecord c.source { s.record c.source with status := .failed r }).cal :=
    (congrArg State.cal only :)
  have notices : t.lnk.notices = marks.foldl Notices.set s.lnk.notices :=
    (congrArg (fun y : State => y.lnk.notices) only :)
  have records (n : SourceNo) : t.record n =
      if n = c.source then { s.record c.source with status := .failed r } else s.record n :=
    (congrArg (fun y : Cal => look y.records n) cal).trans (look_put ..)
  rw [measured_doneIfEmpty]
  refine ⟨?_, (records c.source).trans (if_pos rfl)⟩
  constructor
  case plan => exact plan
  case current => exact (congrArg (fun y : State => y.tne.current) only :)
  case voice => exact left.voice
  case others => exact left.others
  case freeList => exact left.freeList
  case codes => exact left.codes
  case records => exact fun n hn => (records n).trans (if_neg hn)
  case marks =>
    dsimp only
    rw [List.foldl_append, plan, notices]
    cases rest <;> rfl

end

/-- Leaving a set after entering it is leaving it. -/
theorem setDrop_setAdd (m : VoiceSet) (v : VoiceNo) : setDrop (setAdd m v) v = setDrop m v := by
  refine voiceSet_ext fun w => ?_
  rw [inSet_setDrop, inSet_setAdd, inSet_setDrop]
  unfold bne
  cases w == v <;> simp

section
variable {s : State} {c : Current} {r : FailReason} {rest : List Entry} {marks : List Mark}

/-- A failure reported touches no voice, and adds its own to the failed ones. -/
theorem entryFailed_laws (held : s.psc.holder = some .engine) (lists : VoiceLaw s) (solo : SoloLaw s) :
    VoiceLaw (entryFailed c r rest marks (silent s)) ∧ SoloLaw (entryFailed c r rest marks (silent s)) ∧
      (∀ v, (entryFailed c r rest marks (silent s)).status v = s.status v) ∧
      (entryFailed c r rest marks (silent s)).tne.failed = setAdd s.tne.failed c.voice := by
  unfold silent
  rw [releaseBus_engine_held held]
  exact ⟨⟨lists.freeNodup, lists.free, lists.startNodup, lists.start, lists.releaseNodup, lists.release⟩, solo,
    fun _ => rfl, rfl⟩

theorem silent_plan (s : State) : (silent s).tne.plan = s.tne.plan :=
  (releaseBus_only .engine s).engine.1

theorem silent_autoPark (s : State) : (silent s).cal.settings.autoPark = s.cal.settings.autoPark :=
  congrArg (fun x : Cal => x.settings.autoPark) (releaseBus_only .engine s).blocks.2.2.2.2.2.1

theorem measured_failed (t : State) : (measured (doneIfEmpty t)).tne.failed = t.tne.failed := by
  rw [measured_doneIfEmpty]

/-- NO SIGNAL without auto-park: the entry fails and its voice is returned if it was the last. -/
theorem silent_returns (held : s.psc.holder = some .engine) (lists : VoiceLaw s) (solo : SoloLaw s)
    (tuning : (s.status c.voice).isTuning = true) (park : s.cal.settings.autoPark = false) :
    MeasurementOver s (measured (entryFails c .noSignal (silent s))) none ∧
      EntryFails s (measured (entryFails c .noSignal (silent s))) c .noSignal := by
  rw [entryFails_returns c .noSignal (silent s) (by rw [silent_autoPark, park]; simp), silent_plan]
  obtain ⟨lists', solo', status, failed⟩ := entryFailed_laws (c := c) (r := .noSignal)
    (rest := s.tne.plan.filter fun e => !e.isPair c.voice c.src) (marks := [.tuneFailed c.source]) held lists solo
  obtain ⟨left, gone⟩ := returnIfDone_left lists' solo' (by rw [status]; exact tuning)
  have member : inSet (setAdd s.tne.failed c.voice) c.voice = true := by
    rw [inSet_setAdd]
    simp
  rw [status, failed, member] at left
  rw [failed, setDrop_setAdd] at gone
  obtain ⟨ends, record⟩ := entryEnds_of_left held left
  exact ⟨measurementOver_of_left held left, ends, record, (measured_failed _).trans gone⟩

/-- NO SIGNAL with auto-park: the voice is parked and all its entries leave the plan. -/
theorem silent_parks (held : s.psc.holder = some .engine) (lists : VoiceLaw s) (solo : SoloLaw s)
    (tuning : (s.status c.voice).isTuning = true) (park : s.cal.settings.autoPark = true) :
    MeasurementOver s (measured (entryFails c .noSignal (silent s))) none ∧
      EntryEnds s (measured (entryFails c .noSignal (silent s))) c
        (s.tne.plan.filter fun x => x.voice ≠ c.voice) (.parked .noSignal)
        [.tuneFailed c.source, .voiceParked c.voice] ∧
      (measured (entryFails c .noSignal (silent s))).record c.source =
        { s.record c.source with status := .failed .noSignal } ∧
      (measured (entryFails c .noSignal (silent s))).tne.failed = setDrop s.tne.failed c.voice := by
  rw [entryFails_parks c (silent s) ((silent_autoPark s).trans park), silent_plan]
  obtain ⟨lists', solo', status, failed⟩ := entryFailed_laws (c := c) (r := .noSignal)
    (rest := s.tne.plan.filter fun e => e.voice ≠ c.voice)
    (marks := [.tuneFailed c.source, .voiceParked c.voice]) held lists solo
  have away : (s.status c.voice).isAway = true := by
    revert tuning
    cases s.status c.voice <;> simp [VoiceStatus.isTuning, VoiceStatus.isAway]
  have left := parkVoice_left lists' solo' (by rw [status]; exact away) .noSignal
  obtain ⟨ends, record⟩ := entryEnds_of_left held left
  refine ⟨measurementOver_of_left held left, ends, record, (measured_failed _).trans ?_⟩
  rw [← setDrop_setAdd, ← failed]
  rfl

end

/-- A gate without a first edge fails the entry for NO SIGNAL. -/
theorem gateWindowExpiry_silent {s : State} {c : Current} {e : Edge} {w : Nat}
    (current : s.tne.current = some c) (ha : s.tne.activity = .gating e w none) :
    gateWindowExpiry s = kick (measured (entryFails c .noSignal (silent s))) := by
  unfold gateWindowExpiry
  rw [ha]
  refine (afterMeasurement_eq _).trans (congrArg (fun y => kick (measured y)) ?_)
  have stands : (silent s).tne.current = some c :=
    ((releaseBus_only .engine s).engine.2.2.1).trans current
  unfold applyNoSignal
  dsimp only
  rw [show ((releaseBus .engine s).setLastM none).tne.current = some c from stands]
  rfl

/-! ## The events of a gate -/

/-- Settles O46: each event by the branch it takes; a gate without a first edge by where its voice is left. -/
theorem gateWindowJudgesTheSignal : Obligations.GateWindowJudgesTheSignal := by
  intro s c run current
  have ran (f : State → State) : event s f = .next (f s) := event_running run
  refine ⟨fun x hx => ?_, fun e w ha => ⟨?_, fun x hx => ?_, fun x ticks => ?_⟩,
    fun e w n ha => ⟨fun x => ?_, fun x ticks hx => ?_, fun ticks hw hn => ?_, fun ticks hw => ?_⟩,
    fun e w ha lists solo plan bus => ?_, fun ha => ⟨?_, ?_, fun x => ?_, fun x ticks => ?_⟩⟩
  · refine (ran settlingExpiry).trans (congrArg Host.Outcome.next ?_)
    unfold settlingExpiry
    rw [hx, current]
    rfl
  · refine (ran (firstProbeEdge e)).trans (congrArg Host.Outcome.next ?_)
    unfold firstProbeEdge
    rw [ha]
    exact if_pos rfl
  · refine (ran (firstProbeEdge x)).trans (congrArg Host.Outcome.next ?_)
    unfold firstProbeEdge
    rw [ha]
    exact if_neg hx
  · refine (ran (gateClose x ticks)).trans (congrArg Host.Outcome.next ?_)
    unfold gateClose
    rw [ha]
  · refine (ran (firstProbeEdge x)).trans (congrArg Host.Outcome.next ?_)
    unfold firstProbeEdge
    rw [ha]
  · refine (ran (gateClose x ticks)).trans (congrArg Host.Outcome.next ?_)
    unfold gateClose
    rw [ha, current]
    exact if_pos hx
  · refine (ran (gateClose e ticks)).trans (congrArg Host.Outcome.next ?_)
    unfold gateClose
    rw [ha, current]
    dsimp only
    rw [if_neg (not_not_intro rfl), if_neg (Nat.not_lt.2 hw)]
    exact if_pos hn
  · refine (ran gateWindowExpiry).trans (Eq.trans ?_ (ran (gateClose e ticks)).symm)
    unfold gateWindowExpiry gateClose
    rw [ha, current]
    dsimp only
    rw [if_neg (not_not_intro rfl), if_pos hw]
  · have held : s.psc.holder = some .engine := bus.engine.1 (by rw [ha]; rfl)
    have out : exec .gateWindowExpiry s = _ := ran gateWindowExpiry
    rw [gateWindowExpiry_silent current ha] at out
    obtain ⟨-, tuning⟩ := plan.current c current
    refine ⟨_, out, ?_⟩
    cases park : s.cal.settings.autoPark with
    | false =>
      obtain ⟨ended, fails⟩ := silent_returns held lists solo tuning park
      exact ⟨ended, fun _ => fails, fun h => nomatch h⟩
    | true =>
      obtain ⟨ended, parks⟩ := silent_parks held lists solo tuning park
      exact ⟨ended, fun h => (nomatch h), fun _ => parks⟩
  · refine (ran settlingExpiry).trans (congrArg Host.Outcome.next ?_)
    unfold settlingExpiry
    rcases ha with ha | ha <;> rw [ha]
  · refine (ran gateWindowExpiry).trans (congrArg Host.Outcome.next ?_)
    unfold gateWindowExpiry
    rcases ha with ha | ha <;> rw [ha]
  · refine (ran (firstProbeEdge x)).trans (congrArg Host.Outcome.next ?_)
    unfold firstProbeEdge
    rcases ha with ha | ha <;> rw [ha]
  · refine (ran (gateClose x ticks)).trans (congrArg Host.Outcome.next ?_)
    unfold gateClose
    rcases ha with ha | ha <;> rw [ha]

end Sys2Proof.Machine
end

