-- ==== Sys2Proof/Proofs/PitchView.lean ====
section
/-! What the laws of glides and pitch maps read of a state, and the functions that leave all of it alone. -/

namespace Sys2Proof.Machine

/-- What the laws of glides and pitch maps read: the Pitch Unit but for unison offsets and codes, and of each
part its scale select and transposition. -/
structure PitchView where
  glide : Vector Glide 16
  overrides : List Override
  scales : Vector (Vector Int 12) 2
  master : Int
  select : ByPart (Fin 2)
  transpose : ByPart Int

def pitchView (s : State) : PitchView where
  glide := s.ptu.glide
  overrides := s.ptu.overrides
  scales := s.ptu.scales
  master := s.ptu.master
  select := ⟨(s.part .A).scale, (s.part .B).scale⟩
  transpose := ⟨(s.patch .A).transpose, (s.patch .B).transpose⟩

/-! ## What agrees on the view -/

section
variable {s t : State} (h : pitchView t = pitchView s)
include h

theorem pitchView_glide (v : VoiceNo) : t.glide v = s.glide v := congrArg (fun x : PitchView => look x.glide v) h

theorem pitchView_notePitch (p : Part) (k : Nat) : notePitch t p k = notePitch s p k := by
  refine notePitch_congr p k (congrArg PitchView.overrides h) (congrArg PitchView.scales h) ?_ ?_
  · have select := congrArg (fun x => x.select.get p) h
    cases p <;> exact select
  · have transpose := congrArg (fun x => x.transpose.get p) h
    cases p <;> exact transpose

end

/-- Part records that agree on scale selects, with patches that agree on transpositions, over one Pitch Unit
but for unison offsets and codes. -/
theorem pitchView_eq {s t : State}
    (ptu : { t.ptu with unison := s.ptu.unison, codes := s.ptu.codes } = s.ptu)
    (select : ∀ p, (t.part p).scale = (s.part p).scale)
    (transpose : ∀ p, (t.patch p).transpose = (s.patch p).transpose) : pitchView t = pitchView s := by
  unfold pitchView
  rw [← ptu, select, select, transpose, transpose]

/-! ## Updates of the state -/

section
variable (s : State)

@[simp] theorem setVoice_pitchView (v : VoiceNo) (x : Voice) :
    pitchView (s.setVoice v x) = pitchView s := rfl
@[simp] theorem setStatus_pitchView (v : VoiceNo) (x : VoiceStatus) :
    pitchView (s.setStatus v x) = pitchView s := rfl
@[simp] theorem setFreeList_pitchView (l : List VoiceNo) :
    pitchView (s.setFreeList l) = pitchView s := rfl
@[simp] theorem toStartTail_pitchView (p : Part) (v : VoiceNo) :
    pitchView (s.toStartTail p v) = pitchView s := rfl
@[simp] theorem setReleaseOrder_pitchView (l : List VoiceNo) :
    pitchView (s.setReleaseOrder l) = pitchView s := rfl
@[simp] theorem setGap_pitchView (v : VoiceNo) (x : Option Countdown) :
    pitchView (s.setGap v x) = pitchView s := rfl
@[simp] theorem detach_pitchView (v : VoiceNo) : pitchView (s.detach v) = pitchView s := rfl
@[simp] theorem mark_pitchView (m : Mark) : pitchView (s.mark m) = pitchView s := rfl
@[simp] theorem setPlan_pitchView (l : List Entry) : pitchView (s.setPlan l) = pitchView s := rfl
@[simp] theorem setMode_pitchView (m : TuneMode) : pitchView (s.setMode m) = pitchView s := rfl
@[simp] theorem setLastM_pitchView (m : Option Nat) : pitchView (s.setLastM m) = pitchView s := rfl
@[simp] theorem setFailed_pitchView (m : VoiceSet) : pitchView (s.setFailed m) = pitchView s := rfl
@[simp] theorem setActivity_pitchView (a : Activity) : pitchView (s.setActivity a) = pitchView s := rfl
@[simp] theorem setCurrent_pitchView (c : Option Current) : pitchView (s.setCurrent c) = pitchView s := rfl
@[simp] theorem setRecord_pitchView (n : SourceNo) (r : SourceRec) :
    pitchView (s.setRecord n r) = pitchView s := rfl
@[simp] theorem setPsc_pitchView (x : Psc) : pitchView (s.setPsc x) = pitchView s := rfl
@[simp] theorem setPot_pitchView (q : PotNo) (x : Pot) : pitchView (s.setPot q x) = pitchView s := rfl
@[simp] theorem setSwitch_pitchView (n : SwitchNo) (x : Switch) :
    pitchView (s.setSwitch n x) = pitchView s := rfl
@[simp] theorem setTakeover_pitchView (q : PotNo) (p : Part) (x : Takeover) :
    pitchView (s.setTakeover q p x) = pitchView s := rfl
@[simp] theorem setFocus_pitchView (f : Focus) : pitchView (s.setFocus f) = pitchView s := rfl
@[simp] theorem reArm_pitchView (sel : PotNo → Bool) (p : Part) :
    pitchView (reArm sel p s) = pitchView s := rfl
@[simp] theorem setSmc_pitchView (x : Smc) : pitchView (s.setSmc x) = pitchView s := rfl
@[simp] theorem setLnk_pitchView (x : Lnk) : pitchView (s.setLnk x) = pitchView s := rfl
@[simp] theorem setUnison_pitchView (v : VoiceNo) (p : Part) :
    pitchView (setUnison v p s) = pitchView s := rfl
@[simp] theorem recompute_pitchView (sel : SourceNo → Bool) :
    pitchView (recompute sel s) = pitchView s := rfl
@[simp] theorem recomputeVoice_pitchView (v : VoiceNo) :
    pitchView (recomputeVoice v s) = pitchView s := rfl
@[simp] theorem recomputePart_pitchView (p : Part) : pitchView (recomputePart p s) = pitchView s := rfl
@[simp] theorem recomputeAll_pitchView : pitchView (recomputeAll s) = pitchView s := rfl

/-- A change of a part record that keeps its scale select. -/
theorem modPart_pitchView (p : Part) {f : PartRec → PartRec} (h : ∀ x, (f x).scale = x.scale) :
    pitchView (s.modPart p f) = pitchView s :=
  pitchView_eq rfl (fun q => by rw [modPart_part]; split <;> simp [*]) fun _ => rfl

@[simp] theorem setKeys_pitchView (p : Part) (l : List Nat) : pitchView (s.setKeys p l) = pitchView s :=
  modPart_pitchView s p fun _ => rfl
@[simp] theorem setSolo_pitchView (p : Part) (g : Option VoiceSet) :
    pitchView (s.setSolo p g) = pitchView s := modPart_pitchView s p fun _ => rfl

/-- A change of an edit buffer that keeps the transposition. -/
theorem setBuffer_pitchView (p : Part) {b : EditBuffer}
    (h : b.patch.transpose = (s.patch p).transpose) : pitchView (s.setBuffer p b) = pitchView s :=
  pitchView_eq rfl (fun _ => rfl) fun q => by
    rw [setBuffer_patch]
    split
    · rename_i hq
      rw [h, hq]
    · rfl

/-! ## Folds -/

/-- What every step of a fold leaves of the view, the fold leaves. -/
theorem foldl_pitchView {α : Type} {f : State → α → State}
    (h : ∀ s x, pitchView (f s x) = pitchView s) (l : List α) :
    pitchView (l.foldl f s) = pitchView s := by
  induction l generalizing s with
  | nil => rfl
  | cons x l ih => rw [List.foldl_cons, ih, h]

/-! ## The note path -/

@[simp] theorem setPhase_pitchView (v : VoiceNo) (ph : BoundPhase) :
    pitchView (s.setPhase v ph) = pitchView s := by rw [setPhase_eq]; rfl

@[simp] theorem modNote_pitchView (v : VoiceNo) (f : Note → Note) :
    pitchView (s.modNote v f) = pitchView s := by rw [modNote_eq]; rfl

@[simp] theorem enterFree_pitchView (v : VoiceNo) : pitchView (s.enterFree v) = pitchView s := rfl

@[simp] theorem enterReleasing_pitchView (v : VoiceNo) (t : Nat) :
    pitchView (s.enterReleasing v t) = pitchView s := by
  unfold State.enterReleasing
  split <;> rfl

@[simp] theorem retriggerGate_pitchView (v : VoiceNo) : pitchView (retriggerGate v s) = pitchView s := by
  unfold retriggerGate startGap
  split <;> simp

@[simp] theorem retriggerOne_pitchView (p : Part) (vel : Nat) (v : VoiceNo) :
    pitchView (retriggerOne p vel s v) = pitchView s := by
  simp [retriggerOne]

@[simp] theorem soloRegate_pitchView (v : VoiceNo) : pitchView (soloRegate s v) = pitchView s := by
  unfold soloRegate
  split <;> simp

@[simp] theorem endVoice_pitchView (p : Part) (v : VoiceNo) :
    pitchView (endVoice p s v) = pitchView s := by
  unfold endVoice
  split
  · simp
  · split
    · split <;> simp
    · rfl

@[simp] theorem endVoices_pitchView (p : Part) (l : List VoiceNo) :
    pitchView (l.foldl (endVoice p) s) = pitchView s := foldl_pitchView s (by simp) l

@[simp] theorem modeChangeVoice_pitchView (p : Part) (v : VoiceNo) :
    pitchView (modeChangeVoice p s v) = pitchView s := by
  unfold modeChangeVoice
  split
  · simp
  · split <;> simp

@[simp] theorem releasePart_pitchView (p : Part) : pitchView (releasePart p s) = pitchView s := by
  simp [releasePart, foldl_pitchView]

@[simp] theorem releaseSustained_pitchView (p : Part) :
    pitchView (releaseSustained p s) = pitchView s := foldl_pitchView s (by simp) _

@[simp] theorem clearPart_pitchView (p : Part) : pitchView (clearPart s p) = pitchView s := by
  unfold clearPart
  refine (modPart_pitchView _ p ?_).trans (foldl_pitchView s enterFree_pitchView _)
  exact fun _ => rfl

/-! ## The bus and the engine -/

theorem BusOnly.sameView {s t : State} (h : BusOnly s t) : pitchView t = pitchView s :=
  (congrArg pitchView h :)

@[simp] theorem requestBus_pitchView (r : Requester) : pitchView (requestBus r s) = pitchView s :=
  (requestBus_only r s).sameView

@[simp] theorem releaseBus_pitchView (r : Requester) : pitchView (releaseBus r s) = pitchView s :=
  (releaseBus_only r s).sameView

@[simp] theorem withdrawEngine_pitchView : pitchView (withdrawEngine s) = pitchView s := rfl

@[simp] theorem startSweep_pitchView : pitchView (startSweep s) = pitchView s :=
  (startSweep_only s).sameView

@[simp] theorem beginMeasurement_pitchView : pitchView (beginMeasurement s) = pitchView s :=
  (beginMeasurement_only s).sameView

@[simp] theorem sweepTimerExpiry_pitchView : pitchView (sweepTimerExpiry s) = pitchView s := by
  unfold sweepTimerExpiry
  simp only
  split <;> simp

@[simp] theorem endGroup_pitchView : pitchView (endGroup s) = pitchView s := by
  unfold endGroup
  simp only
  split
  · split <;> simp
  · simp

@[simp] theorem claimVoice_pitchView (v : VoiceNo) (fg : Bool) :
    pitchView (claimVoice v fg s) = pitchView s := by
  unfold claimVoice
  split <;> simp

@[simp] theorem parkVoice_pitchView (v : VoiceNo) (r : ParkReason) :
    pitchView (parkVoice v r s) = pitchView s := rfl

@[simp] theorem freeVoice_pitchView (v : VoiceNo) : pitchView (freeVoice v s) = pitchView s := rfl

@[simp] theorem returnVoice_pitchView (v : VoiceNo) : pitchView (returnVoice v s) = pitchView s := by
  unfold returnVoice
  split
  · split <;> simp
  · simp
  · rfl

@[simp] theorem startNext_pitchView : pitchView (startNext s) = pitchView s := by
  unfold startNext
  split
  · simp
  · split
    · simp only [makeCurrent, beginMeasurement_pitchView, setCurrent_pitchView]
      split <;> simp
    · simp

@[simp] theorem kick_pitchView : pitchView (kick s) = pitchView s := by
  unfold kick
  split <;> simp

@[simp] theorem stopMeasurement_pitchView : pitchView (stopMeasurement s) = pitchView s := by
  have used (t : State) : pitchView (stopMeasurement.stepUsed t) = pitchView t := by
    unfold stopMeasurement.stepUsed
    split <;> simp
  unfold stopMeasurement
  split <;> simp [used]

@[simp] theorem abandonCurrent_pitchView : pitchView (abandonCurrent s) = pitchView s := by
  simp [abandonCurrent]

@[simp] theorem engineLoses_pitchView (v : VoiceNo) : pitchView (engineLoses v s) = pitchView s := by
  unfold engineLoses
  simp only [setFailed_pitchView]
  split
  · split <;> simp
  · rfl

@[simp] theorem doneIfEmpty_pitchView : pitchView (doneIfEmpty s) = pitchView s := by
  unfold doneIfEmpty
  split <;> simp

@[simp] theorem dropEntry_pitchView (c : Current) : pitchView (dropEntry c s) = pitchView s := rfl

@[simp] theorem returnIfDone_pitchView (v : VoiceNo) : pitchView (returnIfDone v s) = pitchView s := by
  unfold returnIfDone
  split <;> simp

@[simp] theorem entrySucceeds_pitchView (c : Current) (codes : Vector Nat 9) :
    pitchView (entrySucceeds c codes s) = pitchView s := by
  simp [entrySucceeds, commit]

@[simp] theorem entryFails_pitchView (c : Current) (r : FailReason) :
    pitchView (entryFails c r s) = pitchView s := by
  unfold entryFails
  simp only
  split <;> simp [reportFailure]

@[simp] theorem applyCount_pitchView (m : Nat) : pitchView (applyCount m s) = pitchView s := by
  have converged (c : Current) (t : State) : pitchView (convergeAt c t) = pitchView t := by
    unfold convergeAt
    split
    · simp only
      split <;> simp
    · simp
  have corrected (c : Current) (t : State) : pitchView (correctTrial c m t) = pitchView t := by
    unfold correctTrial
    simp only
    split
    · simp
    · split <;> simp
  unfold applyCount
  simp only
  split
  · split <;> simp [converged, corrected]
  · rfl

@[simp] theorem applyNoSignal_pitchView : pitchView (applyNoSignal s) = pitchView s := by
  unfold applyNoSignal
  simp only
  split <;> simp

@[simp] theorem endMeasurement_pitchView (count : Option Nat) :
    pitchView (endMeasurement count s) = pitchView s := by
  have goesOn (t : State) : pitchView (afterMeasurement t) = pitchView t := by
    unfold afterMeasurement
    split <;> simp
  unfold endMeasurement
  simp only [goesOn]
  split <;> simp

@[simp] theorem settlingExpiry_pitchView : pitchView (settlingExpiry s) = pitchView s := by
  unfold settlingExpiry
  split <;> simp

@[simp] theorem firstProbeEdge_pitchView (e : Edge) : pitchView (firstProbeEdge e s) = pitchView s := by
  unfold firstProbeEdge
  split
  · split <;> simp
  · rfl

@[simp] theorem gateClose_pitchView (e : Edge) (n : Nat) : pitchView (gateClose e n s) = pitchView s := by
  unfold gateClose
  split
  · split
    · rfl
    · split
      · simp
      · split <;> simp
  · rfl

@[simp] theorem gateWindowExpiry_pitchView : pitchView (gateWindowExpiry s) = pitchView s := by
  unfold gateWindowExpiry
  split <;> simp

@[simp] theorem claimAll_pitchView (l : List VoiceNo) : pitchView (claimAll l s) = pitchView s :=
  foldl_pitchView s (fun t v => by split <;> simp) l

@[simp] theorem cancelVoice_pitchView (v : VoiceNo) : pitchView (cancelVoice s v) = pitchView s := by
  unfold cancelVoice
  split <;> simp

@[simp] theorem removeEntries_pitchView (v : VoiceNo) : pitchView (removeEntries v s) = pitchView s := by
  unfold removeEntries
  simp only
  split <;> simp

@[simp] theorem minuteEvent_pitchView : pitchView (minuteEvent s) = pitchView s := by
  unfold minuteEvent
  simp only [kick_pitchView, setPlan_pitchView]
  rfl

/-! ## The slot memory -/

@[simp] theorem setStateByte_pitchView (j : Job) (x : Byte) :
    pitchView (setStateByte j x s) = pitchView s := by
  unfold setStateByte
  split <;> simp

@[simp] theorem accept_pitchView (j : Job) : pitchView (accept j s) = pitchView s := by
  simp [accept]

@[simp] theorem complete_pitchView (j : Job) (good : Bool) : pitchView (complete j good s) = pitchView s := by
  unfold complete
  simp only
  split <;> rfl

@[simp] theorem endErase_pitchView (w : NvWrite) : pitchView (endErase w s) = pitchView s := by
  have erased : pitchView (eraseTarget w.job s) = pitchView s := by
    unfold eraseTarget
    split <;> simp
  unfold endErase
  simp only
  split <;> simp [erased]

@[simp] theorem endProgram_pitchView (w : NvWrite) (stuck : StuckBits) :
    pitchView (endProgram w stuck s) = pitchView s := by
  have slot (j : Job) (n : SlotNo) (img : List Byte) : pitchView (programSlot j n img stuck s) = pitchView s := by
    unfold programSlot
    simp only
    split <;> simp
  have sys (j : Job) (r : SysRecord) : pitchView (programSys j r stuck s) = pitchView s := by
    unfold programSys
    split <;> simp
  unfold endProgram
  split <;> simp [slot, sys]

@[simp] theorem eraseExpiry_pitchView : pitchView (eraseExpiry s) = pitchView s := by
  unfold eraseExpiry
  split
  · split <;> simp
  · rfl

@[simp] theorem programExpiry_pitchView (stuck : StuckBits) :
    pitchView (programExpiry stuck s) = pitchView s := by
  unfold programExpiry
  split
  · split <;> simp
  · rfl

@[simp] theorem resumeExpiry_pitchView (stuck : StuckBits) :
    pitchView (resumeExpiry stuck s) = pitchView s := by
  unfold resumeExpiry
  split
  · split
    · simp only
      split
      · split <;> simp
      · simp
    · rfl
  · rfl

@[simp] theorem suspendFor_pitchView (n : SlotNo) : pitchView (suspendFor n s) = pitchView s := by
  unfold suspendFor
  split
  · split <;> simp
  · rfl

/-! ## The end of reset -/

@[simp] theorem leaveReset_pitchView : pitchView (leaveReset s) = pitchView s := by
  have loaded (t : State) : pitchView (loadSystem t) = pitchView t := by
    unfold loadSystem
    split <;> rfl
  simp only [leaveReset, startSweep_pitchView, recomputeAll_pitchView, loaded]
  rfl

end

end Sys2Proof.Machine
end

