-- ==== Sys2Proof/Proofs/PitchlessCommands.lean ====
section
/-! The commands that leave alone all that the laws of glides and pitch maps read. -/

namespace Sys2Proof.Machine

section
variable (s : State)

theorem notePressure_pitchView (part key value : Byte) :
    pitchView (notePressure part key value s).1 = pitchView s := by
  unfold notePressure
  split
  · split
    · rfl
    · exact foldl_pitchView s (fun _ _ => modNote_pitchView ..) _
  · rfl

theorem sustain_pitchView (part setting : Byte) : pitchView (sustain part setting s).1 = pitchView s := by
  unfold sustain
  split
  · rename_i p x _ _
    have set : pitchView (s.modPart p fun r => { r with sustain := x }) = pitchView s :=
      modPart_pitchView s p fun _ => rfl
    split
    · rfl
    · simp only [ok_fst]
      split
      · exact set
      · exact (releaseSustained_pitchView _ p).trans set
  · rfl

theorem performanceSet_pitchView (part control : Byte) (value : BitVec 16) :
    pitchView (performanceSet part control value s).1 = pitchView s := by
  unfold performanceSet
  split
  · rename_i p c _ _
    have set : pitchView (s.modPart p fun r => r.setControl c (c.clamp value.toInt)) = pitchView s :=
      modPart_pitchView s p fun _ => by cases c <;> rfl
    simp only [ok_fst]
    split
    · exact (recomputePart_pitchView _ p).trans set
    · exact set
  · rfl

theorem allNotesClear_pitchView (target : Byte) : pitchView (allNotesClear target s).1 = pitchView s := by
  unfold allNotesClear
  split
  · exact (kick_pitchView _).trans (foldl_pitchView s clearPart_pitchView _)
  · rfl

theorem seed_pitchView (value : BitVec 16) : pitchView (seed value s).1 = pitchView s := rfl

theorem serviceOff_pitchView (v x : Byte) : pitchView (serviceOff v x s).1 = pitchView s := by
  unfold serviceOff
  split
  · rfl
  · split
    · rfl
    · simp only [ok_fst, kick_pitchView, parkVoice_pitchView]
      split <;> simp

theorem serviceOn_pitchView (v : Byte) : pitchView (serviceOn v s).1 = pitchView s := by
  unfold serviceOn
  split
  · rfl
  · split <;> simp

theorem dampExpiry_pitchView (v : VoiceNo) : pitchView (dampExpiry v s) = pitchView s := by
  unfold dampExpiry
  split <;> simp

theorem tailExpiry_pitchView (v : VoiceNo) : pitchView (tailExpiry v s) = pitchView s := by
  unfold tailExpiry
  split <;> simp

theorem calSave_pitchView : pitchView (calSave s).1 = pitchView s := by
  unfold calSave
  split <;> simp

theorem tuneSettings_pitchView (a b : BitVec 16) (c d x y : Byte) :
    pitchView (tuneSettings a b c d x y s).1 = pitchView s := by
  unfold tuneSettings
  split <;> rfl

theorem tuneAdd_pitchView (voices : VoiceSet) (sources mode : Byte) :
    pitchView (tuneAdd voices sources mode s).1 = pitchView s := by
  unfold tuneAdd
  split
  · rfl
  · split
    · rfl
    · simp only [ok_fst, kick_pitchView]
      split <;> simp

theorem tuneRun_pitchView (a : Byte) : pitchView (tuneRun a s).1 = pitchView s := by
  unfold tuneRun
  split <;> simp

theorem tuneStep_pitchView : pitchView (tuneStep s).1 = pitchView s := by
  unfold tuneStep
  split <;> simp

theorem tuneCancel_pitchView : pitchView (tuneCancel s).1 = pitchView s := by
  simp [tuneCancel, foldl_pitchView]

theorem scheduleSet_pitchView (a b : Byte) (m : BitVec 16) :
    pitchView (scheduleSet a b m s).1 = pitchView s := by
  unfold scheduleSet
  split <;> rfl

theorem profileSet_pitchView (a b c : Byte) : pitchView (profileSet a b c s).1 = pitchView s := by
  unfold profileSet
  split <;> rfl

theorem nameSet_pitchView (part : Byte) (name : Name) (category : Byte) :
    pitchView (nameSet part name category s).1 = pitchView s := by
  unfold nameSet
  split
  · exact setBuffer_pitchView s _ rfl
  · rfl

theorem potMapSet_pitchView (a b c d x : Byte) : pitchView (potMapSet a b c d x s).1 = pitchView s := by
  unfold potMapSet
  split <;> rfl

theorem switchMapSet_pitchView (a b c d x : Byte) :
    pitchView (switchMapSet a b c d x s).1 = pitchView s := by
  unfold switchMapSet
  split <;> rfl

theorem focusSet_pitchView (x : Byte) : pitchView (focusSet x s).1 = pitchView s := by
  unfold focusSet
  split <;> rfl

theorem patchStore_pitchView (part : Byte) (slot : BitVec 16) :
    pitchView (patchStore part slot s).1 = pitchView s := by
  unfold patchStore
  split
  · rename_i p n _ _
    split
    · rfl
    · refine (setBuffer_pitchView _ p ?_).trans (accept_pitchView s _)
      unfold State.patch
      rw [accept_ebu]
      rfl
  · rfl

theorem slotWrite_pitchView (slot : BitVec 16) (name : Name) (category : Byte)
    (params : Vector (BitVec 16) 80) : pitchView (slotWrite slot name category params s).1 = pitchView s := by
  unfold slotWrite
  split
  · split <;> simp
  · rfl

theorem slotClear_pitchView (slot : BitVec 16) : pitchView (slotClear slot s).1 = pitchView s := by
  unfold slotClear
  split
  · split <;> simp
  · rfl

theorem slotRead_pitchView (slot : BitVec 16) : pitchView (slotRead slot s).1 = pitchView s := by
  unfold slotRead
  split <;> simp

theorem guardSet_pitchView (a b c : Byte) : pitchView (guardSet a b c s).1 = pitchView s := by
  unfold guardSet
  split
  · split
    · rfl
    · split <;> simp
  · rfl

theorem routeSet_pitchView (a b : Byte) : pitchView (routeSet a b s).1 = pitchView s := by
  unfold routeSet
  split
  · split <;> rfl
  · rfl

theorem nextNotice_pitchView : pitchView (nextNotice s).1 = pitchView s := by
  unfold nextNotice
  split <;> rfl

end

end Sys2Proof.Machine
end

