-- ==== Sys2Proof/Proofs/OverrideMap.lean ====
section
/-! The key override map: its order, and what an entry set or cleared makes of it (R46 to R48). -/

namespace Sys2Proof.Machine

/-! ## The order of the map -/

/-- An entry that is neither before another nor of its pair comes after it. -/
theorem precedes_of_not_before {o x : Override} (pair : ¬(x.part = o.part ∧ x.key = o.key))
    (before : ¬ Override.before o.part o.key x = true) : x.precedes o := by
  revert pair before
  unfold Override.before Override.precedes
  rcases o.part <;> rcases x.part <;> simp <;> omega

theorem precedes_of_before {o x : Override} (before : Override.before o.part o.key x = true) :
    o.precedes x := by
  revert before
  unfold Override.before Override.precedes
  rcases o.part <;> rcases x.part <;> simp

theorem precedes_trans {x y z : Override} (a : x.precedes y) (b : y.precedes z) : x.precedes z := by
  revert a b
  unfold Override.precedes
  rcases x.part <;> rcases y.part <;> rcases z.part <;> simp <;> omega

/-- Entries of one pair stand alike to any other. -/
theorem precedes_congr {x y : Override} (part : x.part = y.part) (key : x.key = y.key) (z : Override) :
    (x.precedes z ↔ y.precedes z) ∧ (z.precedes x ↔ z.precedes y) := by
  unfold Override.precedes
  rw [part, key]
  exact ⟨.rfl, .rfl⟩

theorem mem_overrideInsert {o x : Override} {l : List Override} (h : x ∈ overrideInsert o l) :
    x = o ∨ x ∈ l := by
  induction l with
  | nil => exact .inl (List.mem_singleton.1 h)
  | cons y l ih =>
    unfold overrideInsert at h
    split at h
    · exact (List.mem_cons.1 h).imp_right (List.mem_cons_of_mem y)
    · split at h
      · exact List.mem_cons.1 h
      · rcases List.mem_cons.1 h with rfl | h
        · exact .inr List.mem_cons_self
        · exact (ih h).imp_right (List.mem_cons_of_mem y)

theorem overrideInsert_sorted (o : Override) {l : List Override} (h : l.Pairwise Override.precedes) :
    (overrideInsert o l).Pairwise Override.precedes := by
  induction l with
  | nil => exact List.pairwise_singleton _ o
  | cons y l ih =>
    obtain ⟨first, rest⟩ := List.pairwise_cons.1 h
    unfold overrideInsert
    split
    · rename_i pair
      exact List.pairwise_cons.2 ⟨fun z hz => ((precedes_congr pair.1 pair.2 z).1).1 (first z hz), rest⟩
    · rename_i pair
      split
      · rename_i before
        have oy := precedes_of_before before
        refine List.pairwise_cons.2 ⟨fun z hz => ?_, h⟩
        rcases List.mem_cons.1 hz with rfl | hz
        · exact oy
        · exact precedes_trans oy (first z hz)
      · rename_i before
        refine List.pairwise_cons.2 ⟨fun z hz => ?_, ih rest⟩
        rcases mem_overrideInsert hz with rfl | hz
        · exact precedes_of_not_before pair before
        · exact first z hz

/-- An entry of a pair that is in the map takes its place; any other adds one. -/
theorem overrideInsert_length (o : Override) (l : List Override) : (overrideInsert o l).length ≤ l.length + 1 ∧
    ((l.find? fun x => x.part == o.part && x.key == o.key).isSome = true →
      l.Pairwise Override.precedes → (overrideInsert o l).length = l.length) := by
  induction l with
  | nil => exact ⟨le_rfl, fun h => nomatch h⟩
  | cons y l ih =>
    unfold overrideInsert
    split
    · exact ⟨Nat.le_succ _, fun _ _ => rfl⟩
    · rename_i pair
      split
      · rename_i before
        refine ⟨le_rfl, fun found sorted => ?_⟩
        exfalso
        obtain ⟨z, hz, same⟩ := List.find?_isSome.1 found
        obtain ⟨part, key⟩ : z.part = o.part ∧ z.key = o.key := by simpa using same
        have oz : o.precedes z := by
          rcases List.mem_cons.1 hz with rfl | hz
          · exact absurd ⟨part, key⟩ pair
          · exact precedes_trans (precedes_of_before before) ((List.pairwise_cons.1 sorted).1 z hz)
        have irreflexive : ¬ o.precedes o := by
          unfold Override.precedes
          rcases o.part <;> simp
        exact irreflexive (((precedes_congr part key o).2).1 oz)
      · refine ⟨Nat.succ_le_succ ih.1, fun found sorted => congrArg Nat.succ (ih.2 ?_ sorted.of_cons)⟩
        rwa [List.find?_cons_of_neg (by simpa using pair)] at found

theorem overrideInsert_law {s : State} {o : Override} (key : o.key ≤ 127) (pitch : o.pitch ≤ 127000)
    (room : ¬((overridePitch s o.part o.key).isNone = true ∧ 32 ≤ s.ptu.overrides.length))
    (h : OverrideLaw s) :
    OverrideLaw { s with ptu := { s.ptu with overrides := overrideInsert o s.ptu.overrides } } := by
  obtain ⟨length, sorted, entries⟩ := h
  refine ⟨?_, overrideInsert_sorted o sorted, fun x hx => ?_⟩
  · obtain ⟨added, replaced⟩ := overrideInsert_length o s.ptu.overrides
    show (overrideInsert o s.ptu.overrides).length ≤ 32
    by_cases found : (s.ptu.overrides.find? fun x => x.part == o.part && x.key == o.key).isSome = true
    · rw [replaced found sorted]
      exact length
    · have absent : (overridePitch s o.part o.key).isNone = true := by
        unfold overridePitch
        rw [Option.isNone_map]
        simpa using found
      have : ¬ 32 ≤ s.ptu.overrides.length := fun full => room ⟨absent, full⟩
      omega
  · rcases mem_overrideInsert hx with rfl | hx
    · exact ⟨key, pitch⟩
    · exact entries x hx

theorem overrideFilter_law {s : State} (keep : Override → Bool) (h : OverrideLaw s) :
    OverrideLaw { s with ptu := { s.ptu with overrides := s.ptu.overrides.filter keep } } := by
  obtain ⟨length, sorted, entries⟩ := h
  exact ⟨(List.length_filter_le ..).trans length, sorted.filter _,
    fun x hx => entries x (List.mem_of_mem_filter hx)⟩

end Sys2Proof.Machine
end

