-- ==== Sys2Proof/Proofs/PitchesKept.lean ====
section
/-! Every step keeps the targets of the glides on their note pitches, the updates due, and the pitch maps in
order and range (R40, R43, R44, R46, R49, R53). -/

namespace Sys2Proof.Machine

/-! ## What carries the laws -/

/-- The laws of glides and pitch maps are carried from one state to another. -/
structure PitchKept (s t : State) : Prop where
  glides : GlideLaw s ∧ GlideTimerLaw s → GlideLaw t ∧ GlideTimerLaw t
  overrides : OverrideLaw s → OverrideLaw t
  ranges : PitchRanges s → PitchRanges t

theorem PitchKept.trans {s t u : State} (a : PitchKept s t) (b : PitchKept t u) : PitchKept s u :=
  ⟨b.glides ∘ a.glides, b.overrides ∘ a.overrides, b.ranges ∘ a.ranges⟩

theorem overrideLaw_congr {s t : State} (h : t.ptu.overrides = s.ptu.overrides) :
    OverrideLaw s → OverrideLaw t := by
  unfold OverrideLaw
  rw [h]
  exact id

theorem pitchRanges_congr {s t : State} (master : t.ptu.master = s.ptu.master)
    (scales : t.ptu.scales = s.ptu.scales) : PitchRanges s → PitchRanges t := by
  unfold PitchRanges
  rw [master, scales]
  exact id

/-- Nothing that the laws read differs. -/
theorem PitchKept.of_view {s t : State} (h : pitchView t = pitchView s) : PitchKept s t where
  glides := by
    rintro ⟨target, timer⟩
    refine ⟨fun v => ?_, fun v => ?_⟩
    · rw [pitchView_glide h, pitchView_notePitch h]
      exact target v
    · rw [pitchView_glide h]
      exact timer v
  overrides := overrideLaw_congr (congrArg PitchView.overrides h)
  ranges := pitchRanges_congr (congrArg PitchView.master h) (congrArg PitchView.scales h)

theorem PitchKept.refl (s : State) : PitchKept s s := .of_view rfl

/-- Steps for each element of a list carry the laws that one step carries. -/
theorem PitchKept.foldl {α : Type} {f : State → α → State} (h : ∀ s x, PitchKept s (f s x)) (l : List α)
    (s : State) : PitchKept s (l.foldl f s) := by
  induction l generalizing s with
  | nil => exact .refl s
  | cons x l ih => exact (h s x).trans (ih _)

/-! ## One glide set anew -/

/-- A glide set on its note pitch with its timer settled, and nothing else that the laws read. -/
theorem setGlide_pitches (s : State) (v : VoiceNo) {g : Glide}
    (target : GlideLaw s → g.target = notePitch s g.part g.key) :
    PitchKept s (s.setGlide v g.settleTimer) where
  glides := by
    rintro ⟨glides, timers⟩
    refine ⟨fun w => ?_, fun w => ?_⟩
    · rw [setGlide_glide]
      split
      · exact target glides
      · exact glides w
    · rw [setGlide_glide]
      split
      · exact settleTimer_due g
      · exact timers w
  overrides := overrideLaw_congr rfl
  ranges := pitchRanges_congr rfl rfl

theorem handOver_pitches (v : VoiceNo) (p : Part) (k : Nat) (another : Bool) (s : State) :
    PitchKept s (handOver v p k another s) := by
  unfold handOver
  exact (setGlide_pitches s v fun _ => rfl).trans (.of_view (recomputeVoice_pitchView ..))

theorem glideUpdate_pitches (v : VoiceNo) (s : State) : PitchKept s (glideUpdate v s) := by
  unfold glideUpdate
  simp only
  split
  · exact .refl s
  · refine (setGlide_pitches s v ?_).trans (.of_view (recomputeVoice_pitchView ..))
    exact fun glides => glides v

/-! ## Note pitches that move -/

/-- After the move of note pitches, from a state with the old one's glides, each target is again the note
pitch of its key, and a position is at its target just where it was (R44). -/
theorem moveNotes_glides {s t : State} (glide : t.ptu.glide = s.ptu.glide)
    (h : GlideLaw s ∧ GlideTimerLaw s) : GlideLaw (moveNotes s t) ∧ GlideTimerLaw (moveNotes s t) := by
  obtain ⟨glides, timers⟩ := h
  have same (v : VoiceNo) : t.glide v = s.glide v := congrArg (fun x => look x v) glide
  refine ⟨fun v => ?_, fun v => ?_⟩
  · rw [moveNotes_pitch, moveNotes_glide, same]
    simp only [noteMove, glides v]
    omega
  · rw [moveNotes_glide, same]
    simp only [timers v, ne_eq, add_left_inj]

/-- A change of what note pitches are formed of, with the voices moved by it. -/
theorem moveNotes_pitches {s t : State} (glide : t.ptu.glide = s.ptu.glide)
    (overrides : OverrideLaw s → OverrideLaw t) (ranges : PitchRanges s → PitchRanges t) :
    PitchKept s (moveNotes s t) where
  glides := moveNotes_glides glide
  overrides h := overrideLaw_congr (s := t) rfl (overrides h)
  ranges h := pitchRanges_congr (s := t) rfl rfl (ranges h)

/-! ## The commands of the Pitch Unit -/

section
variable (s : State)

theorem masterPitch_pitches (x : Int) : PitchKept s (masterPitch x s).1 where
  glides h := h
  overrides := overrideLaw_congr rfl
  ranges h := by
    obtain ⟨low, high⟩ := clampInt_mem (show (-1000 : Int) ≤ 1000 by decide) x
    exact ⟨low, high, h.2.2⟩

theorem scaleSet_pitches (table : Byte) (offsets : Vector (BitVec 16) 12) :
    PitchKept s (scaleSet table offsets s).1 := by
  unfold scaleSet
  split
  · exact .refl s
  · rename_i t _
    refine moveNotes_pitches rfl (overrideLaw_congr rfl) fun ⟨low, high, scales⟩ => ⟨low, high, fun u c => ?_⟩
    show -500 ≤ look (look (put s.ptu.scales t _) u) c ∧ look (look (put s.ptu.scales t _) u) c ≤ 500
    rw [look_put]
    split
    · rw [look_tabulate]
      exact clampInt_mem (by decide) _
    · exact scales u c

theorem overrideSet_pitches (part key : Byte) (pitch : BitVec 24) :
    PitchKept s (overrideSet part key pitch s).1 := by
  unfold overrideSet
  split
  · rename_i p k _ hk
    split
    · exact .refl s
    · rename_i room
      exact moveNotes_pitches rfl (overrideInsert_law (key?_le hk) (clampNat_mem (by decide) _).2 room)
        (pitchRanges_congr rfl rfl)
  · exact .refl s

theorem overrideRemove_pitches (gone : Override → Bool) : PitchKept s (overrideRemove gone s) :=
  moveNotes_pitches rfl (overrideFilter_law _) (pitchRanges_congr rfl rfl)

theorem overrideClear_pitches (selector part key : Byte) :
    PitchKept s (overrideClear selector part key s).1 := by
  unfold overrideClear
  split
  · exact .refl s
  · exact overrideRemove_pitches s _
  · split
    · exact overrideRemove_pitches s _
    · exact .refl s

theorem partSettings_pitches (part : Byte) (pool : BitVec 16) (scale : Byte) :
    PitchKept s (partSettings part pool scale s).1 := by
  unfold partSettings
  split
  · exact moveNotes_pitches rfl (overrideLaw_congr rfl) (pitchRanges_congr rfl rfl)
  · exact .refl s

/-! ## The note path -/

theorem placeOne_pitches (p : Part) (k vel size : Nat) (x : (VoiceNo × FoundBy) × Nat) :
    PitchKept s (placeOne p k vel size s x) := by
  refine .of_view ?_
  show pitchView (if x.1.2 = .background then engineLoses x.1.1 s else s) = _
  split <;> simp

theorem place_pitches (p : Part) (k vel : Nat) (found : Found) : PitchKept s (place p k vel found s) := by
  rw [place_eq]
  have placed : PitchKept s (placeAll p k vel found s) := PitchKept.foldl (fun t x => placeOne_pitches t ..) _ s
  have cursor := PitchKept.of_view (modPart_pitchView (placeAll p k vel found s) p
    (f := fun x => { x with cursor := cursorAfter x.cursor found }) fun _ => rfl)
  exact (placed.trans cursor).trans (PitchKept.foldl (fun t x =>
    (PitchKept.of_view (setUnison_pitchView ..)).trans (handOver_pitches ..)) found _)

theorem searchAndPlace_pitches (p : Part) (k vel : Nat) (solo : Bool) :
    PitchKept s (searchAndPlace p k vel solo s).1 := by
  by_cases h : search s p k = []
  · rw [searchAndPlace_none vel solo h]
    exact .refl s
  · rw [searchAndPlace_some vel solo h]
    have grouped : pitchView (placeGroup p k vel solo s) = pitchView (place p k vel (search s p k) s) := by
      unfold placeGroup
      simp only
      split <;> simp
    exact (place_pitches s ..).trans (.of_view ((kick_pitchView _).trans grouped))

theorem polyStart_pitches (p : Part) (k vel : Nat) : PitchKept s (polyStart p k vel s).1 := by
  unfold polyStart
  split
  · exact searchAndPlace_pitches s ..
  · exact .of_view (foldl_pitchView s (fun t v => retriggerOne_pitchView t p vel v) _)

theorem legatoMove_pitches (p : Part) (k : Nat) (members : List VoiceNo) :
    PitchKept s (legatoMove p k members s) :=
  PitchKept.foldl (fun _ _ => (PitchKept.of_view (modNote_pitchView ..)).trans (handOver_pitches ..)) members s

theorem soloRetrigger_pitches (p : Part) (k vel : Nat) (members : List VoiceNo) :
    PitchKept s (members.foldl (soloRetriggerOne p k vel) s) :=
  PitchKept.foldl (fun t v => by
    rw [soloRetriggerOne_eq]
    exact (PitchKept.of_view (by simp)).trans (handOver_pitches ..)) members s

theorem soloStart_pitches (p : Part) (k vel : Nat) : PitchKept s (soloStart p k vel s).1 := by
  unfold soloStart
  split
  · exact searchAndPlace_pitches s ..
  · simp only [noteAnswer, answer_fst]
    split
    · exact legatoMove_pitches s ..
    · exact soloRetrigger_pitches s ..

theorem noteStart_pitches (part key velocity : Byte) : PitchKept s (noteStart part key velocity s).1 := by
  unfold noteStart
  split
  · rename_i p k _ _
    refine (PitchKept.of_view (setKeys_pitchView s p (enterKey k (s.part p).heldKeys))).trans ?_
    simp only
    split
    · exact polyStart_pitches ..
    · exact soloStart_pitches ..
  · exact .refl s

theorem polyEnd_pitches (p : Part) (k : Nat) : PitchKept s (polyEnd p k s).1 := by
  refine .of_view ?_
  unfold polyEnd
  simp only
  split <;> simp

theorem soloEnd_pitches (p : Part) (k : Nat) : PitchKept s (soloEnd p k s).1 := by
  unfold soloEnd
  simp only
  split
  · refine (PitchKept.of_view (setKeys_pitchView s p (leaveKey k (s.part p).heldKeys))).trans ?_
    split
    · rw [ok_fst]
      split
      · unfold soloKeyUp
        split
        · exact legatoMove_pitches ..
        · exact .of_view (by simp)
      · exact .refl _
    · exact .refl _
  · exact .refl s

theorem noteEnd_pitches (part key : Byte) : PitchKept s (noteEnd part key s).1 := by
  unfold noteEnd
  split
  · split
    · exact polyEnd_pitches s ..
    · exact soloEnd_pitches s ..
  · exact .refl s

/-! ## Parameter writes and image loads -/

/-- A stored value that is not the transposition, or not new, leaves all that note pitches are formed of. -/
theorem storeParam_pitchView (p : Part) {n : ParamNo} {x : Nat}
    (h : n.val ≠ 78 ∨ x = (s.patch p).param n) : pitchView (storeParam p n x s) = pitchView s := by
  refine setBuffer_pitchView s p (congrArg semitones ?_)
  show look (put (s.patch p).params n x) 78 = look (s.patch p).params 78
  rw [look_put]
  split
  · rename_i hn
    subst hn
    exact h.resolve_left fun ne => ne rfl
  · rfl

/-- Patches that change, with the voices moved by what that does to note pitches. -/
theorem moveNotes_of_ptu {t : State} (h : t.ptu = s.ptu) : PitchKept s (moveNotes s t) :=
  moveNotes_pitches (by rw [h]) (overrideLaw_congr (by rw [h])) (pitchRanges_congr (by rw [h]) (by rw [h]))

/-- An effect within a write, from the state that the value was stored in: the transposition moves note
pitches, and its effect moves the voices with them. -/
theorem engineEffect_pitches (p : Part) (n : ParamNo) {t : State} (ptu : t.ptu = s.ptu)
    (view : n.val ≠ 78 → pitchView t = pitchView s) : PitchKept s (engineEffect s p n t) := by
  have stands {u : State} (hn : n.val ≠ 78) (h : pitchView u = pitchView t) : PitchKept s u :=
    .of_view (h.trans (view hn))
  unfold engineEffect
  split
  case h_1 hn =>
    split
    · exact stands (by rw [hn]; decide) rfl
    · exact stands (by rw [hn]; decide) (releasePart_pitchView ..)
  case h_7 => exact (moveNotes_of_ptu s ptu).trans (.of_view (recomputePart_pitchView ..))
  case h_8 hn => exact stands hn rfl
  all_goals
    rename_i hn
    exact stands (by rw [hn]; decide) (recomputePart_pitchView ..)

theorem ite_mark_pitchView (c : Prop) [Decidable c] (m : Mark) :
    pitchView (if c then s.mark m else s) = pitchView s := by
  split <;> rfl

theorem writeParam_pitches (w : Writer) (p : Part) (n : ParamNo) (value : Nat) :
    PitchKept s (writeParam w p n value s) := by
  unfold writeParam
  simp only
  refine PitchKept.trans ?_ (.of_view (ite_mark_pitchView ..))
  split
  · exact engineEffect_pitches s p n rfl fun hn =>
      (reArm_pitchView ..).trans (storeParam_pitchView s p (.inl hn))
  · rename_i same
    exact .of_view ((reArm_pitchView ..).trans (storeParam_pitchView s p (.inr (not_not.1 same))))

theorem releasePart_ptu (p : Part) : (releasePart p s).ptu = s.ptu := by
  refine foldl_keeps State.ptu (modeChangeVoice p) (fun t v => ?_) (s.val.startOrder.get p) s
  unfold modeChangeVoice State.enterReleasing
  split
  · rfl
  · split
    · split <;> rfl
    · rfl

theorem loadImage_pitches (p : Part) (x : Patch) : PitchKept s (loadImage p x s) := by
  unfold loadImage
  simp only
  refine (moveNotes_of_ptu s ?_).trans (.of_view (recomputePart_pitchView ..))
  split
  · rfl
  · exact releasePart_ptu ..

theorem patchRecall_pitches (slot : BitVec 16) (part : Byte) :
    PitchKept s (patchRecall slot part s).1 := by
  unfold patchRecall
  split
  · rename_i n p _ _
    refine (PitchKept.of_view (suspendFor_pitchView s n)).trans ?_
    simp only
    split
    · exact .refl _
    · exact .refl _
    · exact (loadImage_pitches ..).trans (.of_view (kick_pitchView _))
  · exact .refl s

theorem paramWrite_pitches (part param : Byte) (value : BitVec 16) :
    PitchKept s (paramWrite part param value s).1 := by
  unfold paramWrite
  split
  · exact (writeParam_pitches s ..).trans (.of_view (kick_pitchView _))
  · exact .refl s

/-! ## The panel -/

theorem applyTakeover_pitches (q : PotNo) (l : PotLink) (k0 k1 : Nat) (p : Part) :
    PitchKept s (applyTakeover q l k0 k1 p s) := by
  have caught : PitchKept s ((writeParam (.pot q) p l.param k1 s).setTakeover q p .caught) :=
    (writeParam_pitches s ..).trans (.of_view (setTakeover_pitchView ..))
  unfold applyTakeover
  simp only
  split
  · split
    · exact caught
    · split
      · exact .refl s
      · exact writeParam_pitches s ..
  · split
    · exact caught
    · exact .refl s

theorem stableChange_pitches (q : PotNo) (k0 k1 : Nat) : PitchKept s (stableChange q k0 k1 s) := by
  have part (t : State) (p : Part) : PitchKept t (stableChangeAt q k0 k1 t p) := by
    unfold stableChangeAt
    split
    · split
      · exact applyTakeover_pitches ..
      · exact .of_view (reArm_pitchView ..)
    · exact .of_view (reArm_pitchView ..)
  refine ((part s .A).trans (part _ .B)).trans (.of_view ?_)
  unfold stableChange
  simp only
  split
  · exact ite_mark_pitchView ..
  · rfl

theorem readPot_pitches (q : PotNo) (x : Nat) : PitchKept s (readPot q x s) := by
  unfold readPot
  simp only
  split
  · exact .of_view (by simp [firstReading])
  · split
    · exact (PitchKept.of_view (setPot_pitchView s ..)).trans (stableChange_pitches ..)
    · exact .of_view (setPot_pitchView ..)

theorem switchChange_pitches (n : SwitchNo) (pressed : Bool) : PitchKept s (switchChange n pressed s) := by
  have part (t : Target) (i : ParamNo) (count : Nat) (u : State) (p : Part) :
      PitchKept u (stepAt t i count u p) := by
    unfold stepAt
    split
    · exact writeParam_pitches ..
    · exact .refl u
  unfold switchChange
  split
  · exact .of_view (mark_pitchView ..)
  · split
    · exact .of_view (setFocus_pitchView ..)
    · exact .refl s
  · split
    · exact (part ..).trans (part ..)
    · exact .refl s

theorem readSwitch_pitches (n : SwitchNo) (swin : Bool) : PitchKept s (readSwitch n swin s) := by
  unfold readSwitch
  simp only
  split
  · exact .of_view (setSwitch_pitchView ..)
  · split
    · exact .of_view (setSwitch_pitchView ..)
    · exact (PitchKept.of_view (setSwitch_pitchView s ..)).trans (switchChange_pitches ..)

theorem readItem_pitches (group : Fin 11) (addr : Fin 16) (padc : BitVec 12) (swin : Bool) :
    PitchKept s (readItem group addr padc swin s) := by
  unfold readItem
  split
  · exact readPot_pitches s ..
  · split
    · exact readSwitch_pitches s ..
    · split
      · exact readSwitch_pitches s ..
      · exact .refl s

theorem scanSample_pitches (padc : BitVec 12) (swin : Bool) : PitchKept s (scanSample padc swin s) := by
  unfold scanSample
  split
  · rename_i group _ _ _
    refine (readItem_pitches s group s.psc.addr padc swin).trans (.of_view ?_)
    simp only
    split <;> simp
  · exact .refl s

/-! ## Resets and the clock -/

theorem enterReset_pitches (kind : Running) (frozen : Bool) : PitchKept s (enterReset kind frozen s) := by
  have view : pitchView (enterReset kind frozen s) = pitchView State.reset := rfl
  have reset := PitchKept.of_view view
  exact ⟨fun _ => reset.glides ⟨reset_glideLaw, reset_glideTimerLaw⟩,
    fun _ => reset.overrides reset_overrideLaw, fun _ => reset.ranges reset_pitchRanges⟩

theorem elapse_glide (v : VoiceNo) :
    (elapse s).glide v = { s.glide v with timer := fall (s.glide v).timer } := look_tabulate ..

theorem elapse_notePitch (p : Part) (k : Nat) : notePitch (elapse s) p k = notePitch s p k :=
  notePitch_congr p k rfl rfl rfl rfl

theorem tick_pitches : PitchKept s (tick s) where
  glides := tick_keeps (law := fun s => GlideLaw s ∧ GlideTimerLaw s) (fun t h => by
    obtain ⟨glides, timers⟩ := h
    refine ⟨fun v => ?_, fun v => ?_⟩
    · rw [elapse_notePitch, elapse_glide]
      exact glides v
    · rw [elapse_glide]
      unfold fall
      rw [Option.isSome_map]
      exact timers v) fun _ _ h => h
  overrides := tick_keeps (law := OverrideLaw) (fun _ h => h) fun _ _ h => h
  ranges := tick_keeps (law := PitchRanges) (fun _ h => h) fun _ _ h => h

end

/-! ## Every command -/

section
variable {s t : State}

theorem hostCommand_pitches {c : Instr} {f : State → Answered} (h : PitchKept s (f s).1)
    (e : hostCommand c s f = .next t) : PitchKept s t := by
  unfold hostCommand at e
  split at e
  · cases e
    exact h.trans (.of_view rfl)
  · cases e
    exact .refl s

theorem event_pitches {f : State → State} (h : PitchKept s (f s)) (e : event s f = .next t) :
    PitchKept s t := by
  unfold event at e
  split at e
  · cases e
    exact h
  · cases e
    exact .refl s

theorem frameCut_pitches {bits : Nat} (e : execFrameCut bits s = .next t) : PitchKept s t := by
  unfold execFrameCut at e
  split at e
  · simp only at e
    split at e <;> cases e <;> exact .of_view rfl
  · cases e
    exact .of_view rfl

theorem frameStart_pitches {sckHigh : Bool} (e : execFrameStart sckHigh s = .next t) : PitchKept s t := by
  unfold execFrameStart at e
  split at e <;> cases e <;> exact .of_view rfl

theorem voidFrame_pitches {code : Byte} (e : execVoidFrame code s = .next t) : PitchKept s t := by
  unfold execVoidFrame at e
  split at e <;> cases e <;> exact .of_view rfl

theorem resetExit_pitches (e : execResetExit s = .next t) : PitchKept s t := by
  unfold execResetExit at e
  split at e <;> cases e
  · exact .refl s
  · exact .of_view (leaveReset_pitchView s)

/-- A command whose effect the laws of pitch do not read. -/
theorem unseen_pitches {c : Instr} {f : State → Answered} (h : pitchView (f s).1 = pitchView s)
    (e : hostCommand c s f = .next t) : PitchKept s t := hostCommand_pitches (.of_view h) e

theorem unseenEvent_pitches {f : State → State} (h : pitchView (f s) = pitchView s)
    (e : event s f = .next t) : PitchKept s t := event_pitches (.of_view h) e

/-- A command that leaves the state. -/
theorem read_pitches {c : Instr} {f : State → Answered} (h : (f s).1 = s)
    (e : hostCommand c s f = .next t) : PitchKept s t := unseen_pitches (congrArg pitchView h) e

end

/-- Every command, by its arm of the dispatch. -/
theorem command_pitches {s t : State} (i : Instr) (e : exec i s = .next t) : PitchKept s t := by
  cases i with
  | noteStart part key vel => exact hostCommand_pitches (noteStart_pitches s part key vel) e
  | noteEnd part key => exact hostCommand_pitches (noteEnd_pitches s part key) e
  | notePressure part key x => exact unseen_pitches (notePressure_pitchView s part key x) e
  | sustain part x => exact unseen_pitches (sustain_pitchView s part x) e
  | performanceSet part c x => exact unseen_pitches (performanceSet_pitchView s part c x) e
  | allNotesClear a => exact unseen_pitches (allNotesClear_pitchView s a) e
  | voiceRead v => exact read_pitches (voiceRead_fst v s) e
  | partSettings part pool scale => exact hostCommand_pitches (partSettings_pitches s part pool scale) e
  | seed x => exact unseen_pitches (seed_pitchView s x) e
  | voiceServiceOff v x => exact unseen_pitches (serviceOff_pitchView s v x) e
  | voiceServiceOn v => exact unseen_pitches (serviceOn_pitchView s v) e
  | dampExpiry v => exact unseenEvent_pitches (dampExpiry_pitchView s v) e
  | tailExpiry v => exact unseenEvent_pitches (tailExpiry_pitchView s v) e
  | retriggerGapExpiry v => exact unseenEvent_pitches (setGap_pitchView s v _) e
  | glideUpdate v => exact event_pitches (glideUpdate_pitches v s) e
  | masterPitch x => exact hostCommand_pitches (masterPitch_pitches s x.toInt) e
  | scaleSet t o => exact hostCommand_pitches (scaleSet_pitches s t o) e
  | overrideSet part key x => exact hostCommand_pitches (overrideSet_pitches s part key x) e
  | overrideClear sel part key => exact hostCommand_pitches (overrideClear_pitches s sel part key) e
  | minuteEvent => exact unseenEvent_pitches (minuteEvent_pitchView s) e
  | calRead n => exact read_pitches (calRead_fst n s) e
  | calSave => exact unseen_pitches (calSave_pitchView s) e
  | tuneSettings a b c d x y => exact unseen_pitches (tuneSettings_pitchView s a b c d x y) e
  | tuneAdd voices sources mode => exact unseen_pitches (tuneAdd_pitchView s voices sources mode) e
  | tuneControlRun a => exact unseen_pitches (tuneRun_pitchView s a) e
  | tuneControlHalt => exact unseen_pitches (f := tuneHalt) (setMode_pitchView s .halt) e
  | tuneControlStep => exact unseen_pitches (tuneStep_pitchView s) e
  | tuneControlCancel => exact unseen_pitches (tuneCancel_pitchView s) e
  | tuneRead => exact read_pitches (f := fun s => ok s (tuneData s)) rfl e
  | settlingExpiry => exact unseenEvent_pitches (settlingExpiry_pitchView s) e
  | firstProbeEdge x => exact unseenEvent_pitches (firstProbeEdge_pitchView s x) e
  | gateClose x n => exact unseenEvent_pitches (gateClose_pitchView s x n) e
  | gateWindowExpiry => exact unseenEvent_pitches (gateWindowExpiry_pitchView s) e
  | sweepTimerExpiry => exact unseenEvent_pitches (sweepTimerExpiry_pitchView s) e
  | scanSample x y => exact event_pitches (scanSample_pitches s x y) e
  | scheduleSet a b m => exact unseen_pitches (scheduleSet_pitchView s a b m) e
  | profileSet a b c => exact unseen_pitches (profileSet_pitchView s a b c) e
  | potRead q => exact read_pitches (potRead_fst q s) e
  | paramWrite part n x => exact hostCommand_pitches (paramWrite_pitches s part n x) e
  | paramRead part n => exact read_pitches (paramRead_fst part n s) e
  | nameSet part name cat => exact unseen_pitches (nameSet_pitchView s part name cat) e
  | potMapSet a b c d x => exact unseen_pitches (potMapSet_pitchView s a b c d x) e
  | switchMapSet a b c d x => exact unseen_pitches (switchMapSet_pitchView s a b c d x) e
  | focusSet x => exact unseen_pitches (focusSet_pitchView s x) e
  | patchStore part slot => exact unseen_pitches (patchStore_pitchView s part slot) e
  | slotWrite slot name cat x => exact unseen_pitches (slotWrite_pitchView s slot name cat x) e
  | slotClear slot => exact unseen_pitches (slotClear_pitchView s slot) e
  | patchRecall slot part => exact hostCommand_pitches (patchRecall_pitches s slot part) e
  | slotRead slot => exact unseen_pitches (slotRead_pitchView s slot) e
  | guardSet a b c => exact unseen_pitches (guardSet_pitchView s a b c) e
  | guardFreeze => exact unseen_pitches (f := guardFreeze) (setSmc_pitchView s _) e
  | guardRead => exact read_pitches (f := fun s => ok s (guardData s)) rfl e
  | eraseExpiry => exact unseenEvent_pitches (eraseExpiry_pitchView s) e
  | programExpiry x => exact unseenEvent_pitches (programExpiry_pitchView s x) e
  | resumeExpiry x => exact unseenEvent_pitches (resumeExpiry_pitchView s x) e
  | routeSet a b => exact unseen_pitches (routeSet_pitchView s a b) e
  | routeRead a => exact read_pitches (routeRead_fst a s) e
  | refreshWrite => exact unseenEvent_pitches (f := refreshWrite) rfl e
  | nextNotice => exact unseen_pitches (nextNotice_pitchView s) e
  | noticeEnable m => exact unseen_pitches (f := noticeEnable m) (setLnk_pitchView s _) e
  | voidFrame x => exact voidFrame_pitches e
  | frameCut n => exact frameCut_pitches e
  | powerOnReset => cases e; exact enterReset_pitches s ..
  | pinReset => cases e; exact enterReset_pitches s ..
  | resetExit => exact resetExit_pitches e
  | frameStart x => exact frameStart_pitches e

theorem step_pitches {s t : State} (h : step s = .next t) : PitchKept s t := by
  obtain ⟨i, rest, h⟩ | rfl := step_cases h
  · have queue : PitchKept s { s with pending := rest } := .of_view rfl
    exact queue.trans (command_pitches i h)
  · exact tick_pitches s

/-- Settles O55: hand-overs and glide updates set a glide on its note pitch with its timer settled, moves of
note pitches take targets along, the map's commands keep its order, and nothing else reaches what the laws
read. -/
theorem stepsKeepGlidesAndPitchMaps : Obligations.StepsKeepGlidesAndPitchMaps :=
  ⟨fun _ _ law h => (step_pitches h).glides law, fun _ _ law h => (step_pitches h).overrides law,
    fun _ _ law h => (step_pitches h).ranges law⟩

end Sys2Proof.Machine
end

