-- ==== Sys2Proof/Proofs/HeldKeyList.lean ====
section
/-! The held-key list (R29, R30). -/

namespace Sys2Proof.Machine

/-- A list that holds no key twice loses the key in place, or stays where it does not hold it. -/
theorem filter_key_eq_erase {k : Nat} {l : List Nat} (nd : l.Nodup) : l.filter (· != k) = l.erase k :=
  (nd.erase_eq_filter k).symm

/-- A key is entered at the tail of the list without it, whose head has left where 16 keys are on it. -/
theorem enterKey_eq {k : Nat} {l : List Nat} (nd : l.Nodup) :
    enterKey k l = (if 16 ≤ (l.erase k).length then (l.erase k).tail else l.erase k) ++ [k] := by
  unfold enterKey
  simp only
  rw [filter_key_eq_erase nd, List.drop_one]

/-- Settles O13, by what is left of the list without the key: fewer than 16 keys where it held the key. -/
theorem heldKeyListTakesAndDropsKeys : Obligations.HeldKeyListTakesAndDropsKeys := by
  intro k l nd len
  refine ⟨fun hk => ?_, fun hk short => ?_, fun hk full => ?_, filter_key_eq_erase nd⟩
  · have room : ¬ 16 ≤ (l.erase k).length := by
      have := List.length_pos_of_mem hk
      rw [List.length_erase_of_mem hk]
      omega
    rw [enterKey_eq nd, if_neg room]
  · rw [enterKey_eq nd, List.erase_of_not_mem hk, if_neg (by omega)]
  · rw [enterKey_eq nd, List.erase_of_not_mem hk, if_pos full.ge]

end Sys2Proof.Machine
end

