-- ==== Sys2Proof/Proofs/GlideUpdates.lean ====
section
/-! The glide rate and the glide update (R42, R43). -/

namespace Sys2Proof.Machine

/-! ## The rate (R42) -/

theorem glideRate_antitone {v w : Nat} (h : v ≤ w) : glideRate w ≤ glideRate v :=
  Nat.div_le_div_left (Nat.add_le_add_right (Nat.mul_le_mul h h) 1024) (by omega)

/-- One update of a glide below its target: the rate up, but no further than the target. -/
theorem glideStep_below {v : Nat} {g : Glide} (hv : v ≠ 0) (h : g.pos ≤ g.target) :
    glideStep v g = min g.target (g.pos + glideRate v) := by
  unfold glideStep
  rw [if_neg hv]
  simp only
  split
  · omega
  · split <;> omega

theorem glideStep_iterate {v : Nat} {g : Glide} (hv : v ≠ 0) (h : g.pos ≤ g.target) (k : Nat) :
    (fun x => glideStep v { g with pos := x })^[k] g.pos = min g.target (g.pos + k * glideRate v) := by
  induction k with
  | zero => simp [h]
  | succ k ih =>
    rw [Function.iterate_succ_apply', ih, glideStep_below hv (min_le_left ..)]
    push_cast
    rw [add_mul]
    omega

/-- The step as R43 gives it: onto the target within the rate or with glide off, else the rate toward it. -/
theorem glideStep_eq (v : Nat) (g : Glide) : glideStep v g =
    if v = 0 ∨ (g.target - g.pos ≤ 1048576 / ((v : Int) * v + 1024) ∧
        g.pos - g.target ≤ 1048576 / ((v : Int) * v + 1024)) then g.target
    else if g.pos < g.target then g.pos + 1048576 / ((v : Int) * v + 1024)
    else g.pos - 1048576 / ((v : Int) * v + 1024) := by
  have rate : ((glideRate v : Nat) : Int) = 1048576 / ((v : Int) * v + 1024) := by
    unfold glideRate
    push_cast
    rfl
  unfold glideStep
  rw [rate]
  by_cases hv : v = 0
  · rw [if_pos hv, if_pos (.inl hv)]
  · simp only [hv, if_false, false_or]

/-! ## The update (R43) -/

section
variable {s : State} {v : VoiceNo}

theorem glideUpdate_rests (h : (s.glide v).pos = (s.glide v).target) : glideUpdate v s = s := by
  unfold glideUpdate
  simp only
  rw [if_pos h]

/-- The glide after an update: one step, with the next due unless it is at its target. -/
def Glide.stepped (g : Glide) (v : Nat) : Glide :=
  { g with pos := glideStep v g
           timer := if glideStep v g = g.target then none else some Config.glideTicks }

theorem glideUpdate_moves (h : (s.glide v).pos ≠ (s.glide v).target) : glideUpdate v s =
    recomputeVoice v (s.setGlide v ((s.glide v).stepped ((s.patch (s.glide v).part).param 69))) := by
  unfold glideUpdate
  simp only
  rw [if_neg h]
  rfl

theorem glideUpdate_glide (h : (s.glide v).pos ≠ (s.glide v).target) (w : VoiceNo) :
    (glideUpdate v s).glide w =
      if w = v then (s.glide v).stepped ((s.patch (s.glide v).part).param 69) else s.glide w := by
  rw [glideUpdate_moves h]
  exact setGlide_glide ..

end

/-- Settles O27: the rate by the monotony of its quotient, the octave by the position after k updates. -/
theorem glideRateFallsFrom1023To1 : Obligations.GlideRateFallsFrom1023To1 := by
  refine ⟨fun v => ?_, fun v w h => glideRate_antitone h, fun v low high => ⟨?_, ?_⟩, by decide, fun g => rfl,
    fun v k g low high octave => ?_, fun s v run h => ⟨_, event_running run, ?_⟩⟩
  · rw [pow_two]
    rfl
  · exact glideRate_antitone high
  · exact glideRate_antitone low
  · rw [glideStep_iterate (by omega) (by omega), octave, ← Nat.cast_mul]
    omega
  · rw [glideUpdate_glide h, if_pos rfl]
    rfl

/-- Settles O28: the update is one step of the glide and the recomputation of its voice. -/
theorem glideUpdateMovesTowardTheTarget : Obligations.GlideUpdateMovesTowardTheTarget := by
  intro s v run g rate pos
  have ran : exec (.glideUpdate v) s = .next (glideUpdate v s) := event_running run
  refine ⟨fun rests => ran.trans (congrArg _ (glideUpdate_rests rests)), fun moves => ⟨_, ran, ?_⟩⟩
  have hpos : glideStep ((s.patch g.part).param 69) g = pos := glideStep_eq _ g
  have glide := glideUpdate_glide moves
  rw [glideUpdate_moves moves] at glide ⊢
  refine ⟨?_, fun w hw => ⟨?_, ?_⟩, ?_, fun n hn => ?_, fun n hn => ?_, rfl, rfl, rfl⟩
  · rw [glide, if_pos rfl]
    unfold Glide.stepped
    rw [hpos]
    rfl
  · rw [glide, if_neg hw]
  · exact recompute_voice_unchosen fun i => by rw [sourceVoice_sourceNo]; exact beq_false_of_ne hw
  · unfold recomputeVoice
    rw [recompute_voice]
    rfl
  · exact (recompute_current _ _ (by simpa using hn)).1
  · unfold recomputeVoice
    rw [recompute_code, if_neg (by simpa using hn)]
    rfl

end Sys2Proof.Machine
end

