-- ==== Sys2Proof/Proofs/PitchCommands.lean ====
section
/-! MASTER PITCH, SCALE SET and the override commands (R44, R46 to R49, R53). -/

namespace Sys2Proof.Machine

/-! ## What the override map answers -/

/-- An entry in the map is found under its pair, and every other pair as before. -/
theorem overrideInsert_find (o : Override) (p : Part) (k : Nat) (l : List Override) :
    (overrideInsert o l).find? (fun x => x.part == p && x.key == k) =
      if p = o.part ∧ k = o.key then some o else l.find? fun x => x.part == p && x.key == k := by
  have own : (o.part == p && o.key == k) = decide (p = o.part ∧ k = o.key) := by
    rw [Bool.eq_iff_iff, Bool.and_eq_true, beq_iff_eq, beq_iff_eq, decide_eq_true_iff, eq_comm (b := p),
      eq_comm (b := k)]
  induction l with
  | nil =>
    unfold overrideInsert
    rw [List.find?_singleton, own]
    simp
  | cons y l ih =>
    unfold overrideInsert
    split
    · rename_i pair
      rw [List.find?_cons, List.find?_cons, own, pair.1, pair.2, own]
      by_cases h : p = o.part ∧ k = o.key <;> simp [h]
    · split
      · rw [List.find?_cons, own]
        by_cases h : p = o.part ∧ k = o.key <;> simp [h]
      · rename_i pair _
        rw [List.find?_cons, List.find?_cons, ih]
        by_cases h : p = o.part ∧ k = o.key
        · obtain ⟨rfl, rfl⟩ := h
          have other : (y.part == o.part && y.key == o.key) = false := by simpa using pair
          simp [other]
        · simp only [h, if_false]

/-! ## The commands -/

section
variable {s : State}

/-- Where the new state differs from the old in what note pitches are formed of, but in no glide, unison
offset, code, voice or list, the voices whose note pitches it changes move with them (R44). -/
theorem moveNotes_notesMoved {t : State} (glide : t.ptu.glide = s.ptu.glide)
    (unison : t.ptu.unison = s.ptu.unison) (codes : t.ptu.codes = s.ptu.codes)
    (voices : t.val.voices = s.val.voices)
    (lists : t.val.freeList = s.val.freeList ∧ t.val.startOrder = s.val.startOrder ∧
      t.val.releaseOrder = s.val.releaseOrder ∧ t.val.seed = s.val.seed) :
    NotesMoved s (moveNotes s t) where
  glide v := by
    rw [moveNotes_pitchMove, moveNotes_glide]
    unfold State.glide
    rw [glide]
  voice v := by
    unfold moveNotes
    rw [recompute_voice]
    show ({ look t.val.voices v with clamp := (s.voice v).clamp } : Voice) = s.voice v
    rw [voices]
    rfl
  still n h := by
    rw [moveNotes_pitchMove] at h
    unfold moveNotes
    constructor
    · rw [recompute_voice_unchosen fun i => by rw [sourceVoice_sourceNo, h]; rfl]
      exact congrArg (fun x => look x (sourceVoice n)) voices
    · rw [recompute_code, if_neg (by rw [h]; exact Bool.false_ne_true)]
      exact congrArg (fun x => look x n) codes
  moved n h := by
    rw [moveNotes_pitchMove] at h
    exact recompute_current _ _ (bne_iff_ne.2 h)
  unison := unison
  lists := lists

/-- A change of the pitch maps alone, with the voices moved by it: all that it reaches. -/
theorem moveNotes_maps {x : Ptu} (glide : x.glide = s.ptu.glide) (unison : x.unison = s.ptu.unison)
    (codes : x.codes = s.ptu.codes) : let t := moveNotes s { s with ptu := x }
    NotesMoved s t ∧ NoteFrame { s with ptu := t.ptu } t ∧ t.val.parts = s.val.parts ∧ t.tne = s.tne ∧
      t.psc = s.psc ∧ t.cvo = s.cvo := by
  refine ⟨moveNotes_notesMoved glide unison codes rfl ⟨rfl, rfl, rfl, rfl⟩, ?_, rfl, rfl, rfl, rfl⟩
  constructor <;> first | rfl | exact ⟨rfl, rfl⟩ | exact ⟨rfl, rfl, rfl⟩

theorem masterPitch_taken (hears : hears s = true) (value : BitVec 16) :
    exec (.masterPitch value) s = .next (taken (.masterPitch value) [0x00]
      (recomputeAll { s with ptu := { s.ptu with master := clampInt (-1000) 1000 value.toInt } })) :=
  hostCommand_taken hears

theorem scaleSet_taken (hears : hears s = true) (t : Fin 2) (offs : Vector (BitVec 16) 12) :
    exec (.scaleSet (b1 t.val) offs) s = .next (taken (.scaleSet (b1 t.val) offs) [0x00]
      (moveNotes s { s with ptu := { s.ptu with
        scales := put s.ptu.scales t (tabulate fun c => clampInt (-500) 500 (look offs c).toInt) } })) := by
  refine (hostCommand_taken hears).trans ?_
  unfold scaleSet
  rw [fin?_b1 t (by decide)]
  rfl

theorem overridePitch_insert (o : Override) (q : Part) (j : Nat) :
    overridePitch { s with ptu := { s.ptu with overrides := overrideInsert o s.ptu.overrides } } q j =
      if q = o.part ∧ j = o.key then some o.pitch else overridePitch s q j := by
  unfold overridePitch
  rw [overrideInsert_find]
  split <;> rfl

/-- The entry that OVERRIDE SET's arguments give, its pitch clamped (R47). -/
def sentOverride (p : Part) (k : Nat) (pitch : BitVec 24) : Override :=
  { part := p, key := k, pitch := clampNat 0 127000 pitch.toNat }

theorem overrideSet_eq {p : Part} {k : Nat} (hk : k ≤ 127) (pitch : BitVec 24) :
    overrideSet (partByte p) (b1 k) pitch s =
      if (overridePitch s p k).isNone ∧ 32 ≤ s.ptu.overrides.length then refuse s .mapFull 0
      else ok (moveNotes s { s with ptu := { s.ptu with
        overrides := overrideInsert (sentOverride p k pitch) s.ptu.overrides } }) [] := by
  unfold overrideSet
  rw [part?_partByte, key?_b1 hk]
  rfl

theorem overrideClear_one {p : Part} {k : Nat} (hk : k ≤ 127) : overrideClear 0 (partByte p) (b1 k) s =
    ok (overrideRemove (fun o => o.part == p && o.key == k) s) [] := by
  unfold overrideClear
  rw [part?_partByte, key?_b1 hk]
  rfl

end

/-- Settles O29: the master pitch by the recomputation of every source, the maps by the move of note
pitches. -/
theorem pitchCommandsMoveTheVoicesOnThem : Obligations.PitchCommandsMoveTheVoicesOnThem := by
  refine ⟨fun s value hears => ⟨_, masterPitch_taken hears value, recomputeAll_current _, rfl, fun v => ?_, rfl,
    rfl⟩, fun s hears => ⟨?scale, ?set, ?one, ?all⟩⟩
  · unfold recomputeAll
    rw [recompute_voice]
    rfl
  case scale =>
    intro tb offs c
    obtain ⟨moved, frame, parts, tne, psc, cvo⟩ := moveNotes_maps (s := s) (x := { s.ptu with
      scales := put s.ptu.scales tb (tabulate fun c => clampInt (-500) 500 (look offs c).toInt) }) rfl rfl rfl
    refine ⟨_, scaleSet_taken hears tb offs, moved, frame, parts, tne, psc, cvo, rfl, rfl, fun u i => ?_⟩
    show look (look (put s.ptu.scales tb _) u) i = _
    rw [look_put]
    split
    · rw [look_tabulate]
      rfl
    · rfl
  case set =>
    intro p k pitch hk c
    have out : exec c s = .next (taken c (overrideSet (partByte p) (b1 k) pitch s).2
      (overrideSet (partByte p) (b1 k) pitch s).1) := hostCommand_taken hears
    rw [overrideSet_eq hk] at out
    refine ⟨fun absent full => ?_, fun room => ?_⟩
    · rwa [if_pos ⟨by rw [absent]; rfl, full⟩] at out
    · have room' : ¬((overridePitch s p k).isNone = true ∧ 32 ≤ s.ptu.overrides.length) := by
        rintro ⟨absent, full⟩
        rcases room with present | room
        · rw [Option.isNone_iff_eq_none.1 absent] at present
          cases present
        · omega
      obtain ⟨moved, frame, parts, tne, psc, cvo⟩ := moveNotes_maps (s := s) (x := { s.ptu with
        overrides := overrideInsert (sentOverride p k pitch) s.ptu.overrides }) rfl rfl rfl
      rw [if_neg room'] at out
      exact ⟨_, out, moved, frame, parts, tne, psc, cvo, rfl, rfl, fun q j =>
        (overridePitch_insert (sentOverride p k pitch) q j).trans
          (if_congr .rfl (congrArg some (Nat.zero_max _)) rfl)⟩
  case one =>
    intro p k hk c
    obtain ⟨moved, frame, parts, tne, psc, cvo⟩ := moveNotes_maps (s := s) (x := { s.ptu with
      overrides := s.ptu.overrides.filter fun o => !(o.part == p && o.key == k) }) rfl rfl rfl
    refine ⟨_, (hostCommand_taken hears).trans ?_, moved, frame, parts, tne, psc, cvo, rfl, rfl, rfl⟩
    rw [overrideClear_one hk]
    rfl
  case all =>
    intro part key c
    obtain ⟨moved, frame, parts, tne, psc, cvo⟩ := moveNotes_maps (s := s) (x := { s.ptu with
      overrides := s.ptu.overrides.filter fun _ => !true }) rfl rfl rfl
    exact ⟨_, hostCommand_taken hears, moved, frame, parts, tne, psc, cvo, rfl, rfl,
      List.filter_eq_nil_iff.2 fun _ _ => Bool.false_ne_true⟩

end Sys2Proof.Machine
end

