-- ==== Sys2Proof/Proofs/GroupHandOvers.lean ====
section
/-! A solo group's members, and what a hand-over of all of them leaves (R31, R33, R35, R41). -/

namespace Sys2Proof.Machine

/-! ## The members (R31) -/

section
variable {s : State} {p : Part} {g : VoiceSet}

theorem soloMembers_nodup : (soloMembers s g).Nodup := byUnison_nodup (setList_nodup g)

theorem soloMembers_sorted : (soloMembers s g).Pairwise fun v w =>
    (s.voice v).unisonIndex ≤ (s.voice w).unisonIndex := byUnison_sorted s _

theorem setOf_soloMembers : setOf (soloMembers s g) = g := voiceSet_ext fun v => by
  rw [inSet_setOf, Bool.eq_iff_iff, decide_eq_true_iff, mem_soloMembers]

theorem exists_member (h : g ≠ 0) : ∃ v, inSet g v = true := by
  by_contra none
  exact h (voiceSet_ext fun v => by
    rw [inSet_zero, ← Bool.not_eq_true]
    exact fun hv => none ⟨v, hv⟩)

theorem soloMembers_cons (h : g ≠ 0) : ∃ first rest, soloMembers s g = first :: rest := by
  obtain ⟨v, hv⟩ := exists_member h
  exact List.exists_cons_of_ne_nil (List.ne_nil_of_mem ((mem_soloMembers s g v).2 hv))

/-- The answer to a NOTE START that reaches the whole group and steals nothing (R189). -/
theorem noteAnswer_members (t : State) {first : VoiceNo} {rest : List VoiceNo}
    (h : soloMembers s g = first :: rest) : noteAnswer t .ok (soloMembers s g) [] =
      (t, 0x00 :: Frame.two g ++ [0x00, 0x00, b1 first.val]) := by
  unfold noteAnswer
  rw [setOf_soloMembers, h]
  rfl

theorem soloStart_present (k vel : Nat) (hg : (s.part p).solo = some g) : soloStart p k vel s =
    noteAnswer (if holdsOther k (s.part p).heldKeys then legatoMove p k (soloMembers s g) s
      else (soloMembers s g).foldl (soloRetriggerOne p k vel) s) .ok (soloMembers s g) [] := by
  unfold soloStart
  simp only [hg]

end

/-! ## A hand-over of every member (R41) -/

/-- Voices one after another have gone to a state told by their own, and have been handed over with a key. -/
structure GroupHanded (s t : State) (p : Part) (k : Nat) (another : Bool) (f : VoiceStatus → VoiceStatus)
    (l : List VoiceNo) : Prop where
  frame : NoteFrame s t
  stands : t.tne = s.tne ∧ t.psc = s.psc ∧ t.cvo.trial = s.cvo.trial ∧ t.val.freeList = s.val.freeList ∧
    t.val.seed = s.val.seed ∧ t.ptu.unison = s.ptu.unison
  parts : t.val.parts = s.val.parts
  other : ∀ v, v ∉ l → t.voice v = s.voice v ∧ t.glide v = s.glide v
  voice : ∀ v, v ∈ l →
    { t.voice v with clamp := (s.voice v).clamp } = { s.voice v with status := f (s.status v) }
  glide : ∀ v, v ∈ l → (t.glide v).part = p ∧ (t.glide v).key = k ∧ (t.glide v).target = notePitch s p k ∧
    (t.glide v).pos = handedPos s p k another (s.glide v).pos

section
variable {s t u : State} {p : Part} {k : Nat} {another : Bool} {f : VoiceStatus → VoiceStatus}

theorem GroupHanded.notePitch {l : List VoiceNo} (h : GroupHanded s t p k another f l) (q : Part) (i : Nat) :
    notePitch t q i = notePitch s q i :=
  notePitch_congr q i h.frame.overrides h.frame.scales (by unfold State.part; rw [h.parts])
    (by unfold State.patch; rw [h.frame.ebu])

theorem groupHanded_nil : GroupHanded s s p k another f [] where
  frame := (NotesOnly.refl s).frame
  stands := ⟨rfl, rfl, rfl, rfl, rfl, rfl⟩
  parts := rfl
  other _ _ := ⟨rfl, rfl⟩
  voice _ h := nomatch h
  glide _ h := nomatch h

/-- One voice sent to its state within the note path, then handed over. -/
theorem handOver_groupHanded {v : VoiceNo} (only : NotesOnly s u) (freeList : u.val.freeList = s.val.freeList)
    (parts : u.val.parts = s.val.parts)
    (voice : ∀ w, u.voice w = if w = v then { s.voice v with status := f (s.status v) } else s.voice w) :
    GroupHanded s (handOver v p k another u) p k another f [v] := by
  obtain ⟨tne, psc, trial, ptu, seed⟩ := only.stands
  have patch : u.patch p = s.patch p := by unfold State.patch; rw [only.ebu]
  have pitch : notePitch u p k = notePitch s p k :=
    notePitch_congr p k (by rw [ptu]) (by rw [ptu]) (by unfold State.part; rw [parts]) (by rw [patch])
  have glide (w : VoiceNo) : u.glide w = s.glide w := congrArg (fun x : Ptu => look x.glide w) ptu
  have hand : HandOnly u (handOver v p k another u) := rfl
  constructor
  case frame => exact only.frame.trans hand.frame
  case stands => exact ⟨tne, psc, trial, freeList, seed, (congrArg Ptu.unison ptu :)⟩
  case parts => exact parts
  case other =>
    intro w hw
    have hw : w ≠ v := by simpa using hw
    constructor
    · refine Eq.trans ?_ ((voice w).trans (if_neg hw))
      exact recompute_voice_unchosen fun i => by
        rw [sourceVoice_sourceNo]
        exact beq_false_of_ne hw
    · rw [handOver_glide, if_neg hw, glide]
  case voice =>
    intro w hw
    obtain rfl := List.mem_singleton.1 hw
    have own := (voice w).trans (if_pos rfl)
    unfold handOver recomputeVoice
    rw [recompute_voice]
    show ({ u.voice w with clamp := (s.voice w).clamp } : Voice) = _
    rw [own]
  case glide =>
    intro w hw
    obtain rfl := List.mem_singleton.1 hw
    rw [handOver_glide, if_pos rfl, pitch, patch, glide]
    exact ⟨rfl, rfl, rfl, rfl⟩

theorem GroupHanded.cons {v : VoiceNo} {l : List VoiceNo} (hv : v ∉ l)
    (a : GroupHanded s t p k another f [v]) (b : GroupHanded t u p k another f l) :
    GroupHanded s u p k another f (v :: l) := by
  have patch : t.patch p = s.patch p := by unfold State.patch; rw [a.frame.ebu]
  have before (w : VoiceNo) (hw : w ∈ l) : t.voice w = s.voice w ∧ t.glide w = s.glide w :=
    a.other w fun h => hv (List.mem_singleton.1 h ▸ hw)
  constructor
  case frame => exact a.frame.trans b.frame
  case stands =>
    obtain ⟨a1, a2, a3, a4, a5, a6⟩ := a.stands
    obtain ⟨b1, b2, b3, b4, b5, b6⟩ := b.stands
    exact ⟨b1.trans a1, b2.trans a2, b3.trans a3, b4.trans a4, b5.trans a5, b6.trans a6⟩
  case parts => exact b.parts.trans a.parts
  case other =>
    intro w hw
    simp only [List.mem_cons, not_or] at hw
    obtain ⟨e1, e2⟩ := a.other w (by simpa using hw.1)
    obtain ⟨e3, e4⟩ := b.other w hw.2
    exact ⟨e3.trans e1, e4.trans e2⟩
  case voice =>
    intro w hw
    rcases List.mem_cons.1 hw with rfl | hw
    · rw [(b.other w hv).1]
      exact a.voice w List.mem_cons_self
    · have own := b.voice w hw
      unfold State.status at own ⊢
      rwa [(before w hw).1] at own
  case glide =>
    intro w hw
    rcases List.mem_cons.1 hw with rfl | hw
    · rw [(b.other w hv).2]
      exact a.glide w List.mem_cons_self
    · obtain ⟨part, key, target, pos⟩ := b.glide w hw
      refine ⟨part, key, target.trans (a.notePitch p k), pos.trans ?_⟩
      unfold handedPos
      rw [patch, a.notePitch, (before w hw).2]

end

/-! ## The move of a group to a key (R33, R35) -/

/-- A voice's state with another key. -/
def VoiceStatus.onNewKey (x : VoiceStatus) (k : Nat) : VoiceStatus := x.withNote fun n => { n with key := k }

theorem legatoOne_handed (p : Part) (k : Nat) (s : State) (v : VoiceNo) :
    GroupHanded s (legatoOne p k s v) p k true (VoiceStatus.onNewKey · k) [v] := by
  unfold legatoOne
  rw [modNote_eq]
  exact handOver_groupHanded ⟨rfl, rfl⟩ rfl rfl fun w => setStatus_voice ..

theorem legatoMove_handed (p : Part) (k : Nat) {l : List VoiceNo} (nd : l.Nodup) (s : State) :
    GroupHanded s (legatoMove p k l s) p k true (VoiceStatus.onNewKey · k) l := by
  rw [legatoMove_eq]
  induction l generalizing s with
  | nil => exact groupHanded_nil
  | cons v l ih =>
    obtain ⟨hv, nd⟩ := List.nodup_cons.1 nd
    exact (legatoOne_handed p k s v).cons hv (ih nd _)

/-- A move to a key leaves the output, the release order and the start orders. -/
theorem legatoMove_stands (p : Part) (k : Nat) (l : List VoiceNo) (s : State) :
    (legatoMove p k l s).cvo = s.cvo ∧ (legatoMove p k l s).val.releaseOrder = s.val.releaseOrder ∧
      (legatoMove p k l s).val.startOrder = s.val.startOrder := by
  have kept := foldl_keeps (fun t : State => (t.cvo, t.val.releaseOrder, t.val.startOrder)) (legatoOne p k)
    (fun t v => by unfold legatoOne; rw [modNote_eq]; rfl) l s
  rw [legatoMove_eq]
  simpa only [Prod.mk.injEq] using kept

/-- A part's group has been moved to a key, with these keys held. -/
structure GroupMoved (s t : State) (p : Part) (k : Nat) (keys : List Nat) (g : VoiceSet) : Prop where
  frame : NoteFrame s t
  blocks : t.tne = s.tne ∧ t.psc = s.psc ∧ t.cvo = s.cvo
  lists : t.val.freeList = s.val.freeList ∧ t.val.releaseOrder = s.val.releaseOrder ∧
    t.val.startOrder = s.val.startOrder ∧ t.val.seed = s.val.seed
  unison : t.ptu.unison = s.ptu.unison
  part : ∀ q, t.part q = if q = p then { s.part p with heldKeys := keys } else s.part q
  other : ∀ v, inSet g v = false → t.voice v = s.voice v ∧ t.glide v = s.glide v
  member : ∀ v n ph, inSet g v = true → s.status v = .bound n ph →
    { t.voice v with clamp := (s.voice v).clamp } =
      { s.voice v with status := .bound { n with key := k } ph } ∧
    (t.glide v).part = p ∧ (t.glide v).key = k ∧ (t.glide v).target = notePitch s p k ∧
    (t.glide v).pos = if (s.patch p).param 69 = 0 then notePitch s p k else (s.glide v).pos

theorem setKeys_notePitch (s : State) (p : Part) (keys : List Nat) (q : Part) (i : Nat) :
    notePitch (s.setKeys p keys) q i = notePitch s q i := pitchView_notePitch (setKeys_pitchView s p keys) q i

theorem legatoMove_groupMoved (s : State) (p : Part) (k : Nat) (keys : List Nat) (g : VoiceSet) :
    GroupMoved s (legatoMove p k (soloMembers s g) (s.setKeys p keys)) p k keys g := by
  have frame : NoteFrame s (s.setKeys p keys) := NotesOnly.frame ⟨rfl, rfl⟩
  have handed := legatoMove_handed p k (soloMembers_nodup (s := s) (g := g)) (s.setKeys p keys)
  obtain ⟨tne, psc, -, freeList, seed, unison⟩ := handed.stands
  obtain ⟨cvo, releaseOrder, startOrder⟩ := legatoMove_stands p k (soloMembers s g) (s.setKeys p keys)
  constructor
  case frame => exact frame.trans handed.frame
  case blocks => exact ⟨tne, psc, cvo⟩
  case lists => exact ⟨freeList, releaseOrder, startOrder, seed⟩
  case unison => exact unison
  case part =>
    intro q
    rw [← setKeys_part]
    unfold State.part
    rw [handed.parts]
  case other =>
    intro v hv
    exact handed.other v fun h => by
      rw [mem_soloMembers, hv] at h
      cases h
  case member =>
    intro v n ph hv hn
    have hv := (mem_soloMembers s g v).2 hv
    obtain ⟨part, key, target, pos⟩ := handed.glide v hv
    rw [setKeys_notePitch] at target
    refine ⟨?_, part, key, target, pos.trans ?_⟩
    · have voice := handed.voice v hv
      have bound : (s.setKeys p keys).status v = .bound n ph := hn
      rw [bound] at voice
      exact voice
    · unfold handedPos
      rw [setKeys_notePitch, Bool.not_true, Bool.and_false, if_neg Bool.false_ne_true]
      rfl

/-- Settles O17: with another key held the members move to the key one after another. -/
theorem soloStartWithAnotherKeyHeldIsALegatoMove : Obligations.SoloStartWithAnotherKeyHeldIsALegatoMove := by
  intro s p k vel g hears law hk solo hg another
  obtain ⟨first, rest, cons⟩ := soloMembers_cons (s := s) (law p g hg).1
  have keys : ((s.setKeys p (enterKey k (s.part p).heldKeys)).part p).heldKeys =
      enterKey k (s.part p).heldKeys := by rw [setKeys_part, if_pos rfl]
  have out := hostCommand_taken (c := .noteStart (partByte p) (b1 k) vel)
    (f := noteStart (partByte p) (b1 k) vel) hears
  rw [noteStart_solo hk vel solo, soloStart_present _ _ ((setKeys_solo ..).trans hg), keys,
    if_pos ((holdsOther_iff k _).2 another)] at out
  have moved := legatoMove_groupMoved s p k (enterKey k (s.part p).heldKeys) g
  obtain ⟨tne, psc, cvo⟩ := moved.blocks
  obtain ⟨freeList, releaseOrder, startOrder, seed⟩ := moved.lists
  refine ⟨first, _, (mem_soloMembers s g first).1 (by rw [cons]; exact List.mem_cons_self), fun v hv => ?_,
    out.trans ?_, moved.frame, tne, psc, cvo, freeList, releaseOrder, startOrder, seed, moved.unison, moved.part,
    moved.other, moved.member⟩
  · have sorted := soloMembers_sorted (s := s) (g := g)
    rw [cons] at sorted
    have hv : v ∈ first :: rest := cons ▸ (mem_soloMembers s g v).2 hv
    rcases List.mem_cons.1 hv with rfl | hv
    · exact le_rfl
    · exact (List.pairwise_cons.1 sorted).1 v hv
  · rw [noteAnswer_members (s := s.setKeys p _) _ cons]
    rfl

end Sys2Proof.Machine
end

