-- ==== Sys2Proof/Proofs/SoloRetriggers.lean ====
section
/-! The retrigger of a solo group (R34, R39). -/

namespace Sys2Proof.Machine

/-! ## One member -/

/-- A member's state after its group is retriggered: the key and velocity, and HELD but for a MUTING voice. -/
def VoiceStatus.regrouped (x : VoiceStatus) (k velocity : Nat) : VoiceStatus :=
  match x with
  | .bound n (.muting d) => .bound { n with key := k, velocity } (.muting d)
  | .bound n _ => .bound { n with key := k, velocity } .held
  | x => x

/-- A member's retrigger gap, begun anew where its gate was open. -/
def regroupedGap (x : VoiceStatus) (gap : Option Countdown) : Option Countdown :=
  if x.isHeld || x.isSustained then some (restart gap Config.gapTicks) else gap

/-- A member has taken its state, its gap and its places on the lists, and has not been handed over. -/
def restruck (s : State) (p : Part) (k vel : Nat) (v : VoiceNo) : State :=
  let t := (s.setStatus v ((s.status v).regrouped k vel)).setGap v
    (regroupedGap (s.status v) (look s.cvo.gaps v))
  (t.setReleaseOrder (if (s.status v).isReleasing then without v s.val.releaseOrder
    else s.val.releaseOrder)).toStartTail p v

section
variable {s : State} {p : Part} {k vel : Nat} {v : VoiceNo}

theorem soloRegate_eq {n : Note} {ph : BoundPhase} (h : s.status v = .bound n ph) :
    soloRegate (s.modNote v fun n => { n with key := k, velocity := vel }) v =
      ((s.setStatus v ((s.status v).regrouped k vel)).setGap v
        (regroupedGap (s.status v) (look s.cvo.gaps v))).setReleaseOrder
          (if (s.status v).isReleasing then without v s.val.releaseOrder else s.val.releaseOrder) := by
  have status : (s.setStatus v (.bound { n with key := k, velocity := vel } ph)).status v =
      .bound { n with key := k, velocity := vel } ph := by rw [setStatus_status, if_pos rfl]
  rw [modNote_bound _ h, h]
  unfold soloRegate
  rw [status]
  cases ph with
  | held => exact retriggerGate_open s v (.inl rfl)
  | sustained => exact retriggerGate_open s v (.inr rfl)
  | releasing t =>
    refine (congrArg (State.setReleaseOrder · (without v s.val.releaseOrder)) ?_)
    rw [setPhase_bound _ status, setStatus_again]
    exact (setGap_self (s.setStatus v _) v).symm
  | muting d => exact (retriggerGate_muting s v).trans (setGap_self (s.setStatus v _) v).symm

theorem soloRetriggerOne_bound {n : Note} {ph : BoundPhase} (h : s.status v = .bound n ph) :
    soloRetriggerOne p k vel s v = handOver v p k false (restruck s p k vel v) := by
  rw [soloRetriggerOne_eq, soloRegate_eq h]
  rfl

end

/-! ## The members one after another -/

/-- What the retrigger of members of a group makes of a state. -/
structure Regrouped (s t : State) (p : Part) (k vel : Nat) (l : List VoiceNo) : Prop where
  handed : GroupHanded s t p k false (VoiceStatus.regrouped · k vel) l
  releaseOrder : t.val.releaseOrder =
    s.val.releaseOrder.filter fun w => !(decide (w ∈ l) && (s.status w).isReleasing)
  startOrder : ∀ q, t.val.startOrder.get q =
    if q = p then (s.val.startOrder.get p).filter (fun v => v ∉ l) ++ l else s.val.startOrder.get q
  gap : ∀ v, look t.cvo.gaps v =
    if v ∈ l then regroupedGap (s.status v) (look s.cvo.gaps v) else look s.cvo.gaps v

section
variable {s t u : State} {p : Part} {k vel : Nat} {v : VoiceNo}

theorem regrouped_nil : Regrouped s s p k vel [] where
  handed := groupHanded_nil
  releaseOrder := by simp
  startOrder q := by
    split
    · rename_i hq
      simp [hq]
    · rfl
  gap _ := rfl

theorem soloRetriggerOne_regrouped {n : Note} {ph : BoundPhase} (h : s.status v = .bound n ph) :
    Regrouped s (soloRetriggerOne p k vel s v) p k vel [v] := by
  rw [soloRetriggerOne_bound h]
  constructor
  case handed => exact handOver_groupHanded ⟨rfl, rfl⟩ rfl rfl fun w => setStatus_voice ..
  case releaseOrder =>
    show (if (s.status v).isReleasing then without v s.val.releaseOrder else s.val.releaseOrder) = _
    simp only [List.mem_singleton]
    split
    · rename_i releasing
      refine List.filter_congr fun w _ => ?_
      by_cases hw : w = v
      · simp [hw, releasing]
      · simp [hw]
    · rename_i stays
      refine (List.filter_eq_self.2 fun w _ => ?_).symm
      by_cases hw : w = v
      · simp [hw, stays]
      · simp [hw]
  case startOrder =>
    intro q
    refine (toStartTail_startOrder ..).trans ?_
    simp only [List.mem_singleton]
    rw [← without_eq]
    rfl
  case gap =>
    intro w
    refine (setGap_gap ..).trans ?_
    simp only [List.mem_singleton]
    split
    · rename_i hw
      rw [hw]
    · rfl

theorem Regrouped.cons {l : List VoiceNo} (hv : v ∉ l) (a : Regrouped s t p k vel [v])
    (b : Regrouped t u p k vel l) : Regrouped s u p k vel (v :: l) := by
  have status (w : VoiceNo) (hw : w ≠ v) : t.status w = s.status w :=
    congrArg Voice.status (a.handed.other w (by simpa using hw)).1
  constructor
  case handed => exact a.handed.cons hv b.handed
  case releaseOrder =>
    rw [b.releaseOrder, a.releaseOrder, List.filter_filter]
    refine List.filter_congr fun w _ => ?_
    by_cases hw : w = v
    · subst hw
      simp [hv]
    · simp [hw, status w hw]
  case startOrder =>
    intro q
    rw [b.startOrder, a.startOrder, a.startOrder, if_pos rfl]
    split
    · rw [List.filter_append, List.filter_filter]
      simp [hv, Bool.and_comm]
    · rfl
  case gap =>
    intro w
    rw [b.gap, a.gap]
    by_cases hw : w = v
    · subst hw
      simp [hv]
    · simp [hw, status w hw]

theorem soloRetrigger_regrouped {l : List VoiceNo} (nd : l.Nodup)
    (bound : ∀ v ∈ l, ∃ n ph, s.status v = .bound n ph) :
    Regrouped s (l.foldl (soloRetriggerOne p k vel) s) p k vel l := by
  induction l generalizing s with
  | nil => exact regrouped_nil
  | cons v l ih =>
    obtain ⟨hv, nd⟩ := List.nodup_cons.1 nd
    obtain ⟨n, ph, h⟩ := bound v List.mem_cons_self
    have first : Regrouped s (soloRetriggerOne p k vel s v) p k vel [v] := soloRetriggerOne_regrouped h
    refine first.cons hv (ih nd fun w hw => ?_)
    have other := (first.handed.other w fun e => hv (List.mem_singleton.1 e ▸ hw)).1
    unfold State.status
    rw [other]
    exact bound w (List.mem_cons_of_mem v hw)

end

/-- Where a hand-over with no other key held puts the glide position (R41). -/
theorem handedPos_alone (s : State) (p : Part) (k : Nat) (old : Int) : handedPos s p k false old =
    if (s.patch p).param 69 = 0 ∨ 512 ≤ (s.patch p).param 70 then notePitch s p k else old := by
  refine (handedPos_eq s p k [] old).trans (if_congr ?_ rfl rfl)
  simp

theorem onPart_bound {x : VoiceStatus} {p : Part} (h : x.onPart p = true) :
    ∃ n ph, x = .bound n ph ∧ n.part = p := by
  cases x with
  | bound n ph => exact ⟨n, ph, rfl, eq_of_beq h⟩
  | _ => cases h

/-- Settles O18: with no other key held the members are retriggered one after another. -/
theorem soloStartWithNoOtherKeyRetriggersTheGroup :
    Obligations.SoloStartWithNoOtherKeyRetriggersTheGroup := by
  intro s p k vel g hears lists law hk solo hg alone
  obtain ⟨nonempty, onPart, -⟩ := law p g hg
  obtain ⟨first, rest, cons⟩ := soloMembers_cons (s := s) nonempty
  set s₁ := s.setKeys p (enterKey k (s.part p).heldKeys) with hs₁
  set vs := soloMembers s g with hvs
  have keys : (s₁.part p).heldKeys = enterKey k (s.part p).heldKeys := by rw [hs₁, setKeys_part, if_pos rfl]
  have noOther : ¬ holdsOther k (enterKey k (s.part p).heldKeys) = true := by
    rw [holdsOther_iff]
    exact fun ⟨q, hq, ne⟩ => ne (alone q hq)
  have out := hostCommand_taken (c := .noteStart (partByte p) (b1 k) vel)
    (f := noteStart (partByte p) (b1 k) vel) hears
  rw [noteStart_solo hk vel solo, soloStart_present _ _ ((setKeys_solo ..).trans hg), keys,
    if_neg noOther] at out
  have mem (v : VoiceNo) : v ∈ vs ↔ inSet g v = true := mem_soloMembers s g v
  have frame : NoteFrame s s₁ := NotesOnly.frame ⟨rfl, rfl⟩
  have r := soloRetrigger_regrouped (s := s₁) (p := p) (k := k) (vel := max 1 (min 127 vel.toNat))
    (soloMembers_nodup (s := s) (g := g)) fun v hv => by
      obtain ⟨n, ph, h, -⟩ := onPart_bound (onPart v ((mem v).1 hv))
      exact ⟨n, ph, h⟩
  obtain ⟨tne, psc, trial, freeList, seed, unison⟩ := r.handed.stands
  refine ⟨vs, first, _, mem, soloMembers_nodup, by rw [cons]; rfl, soloMembers_sorted, out.trans ?_,
    frame.trans r.handed.frame, tne, psc, trial, freeList, seed, r.releaseOrder.trans ?_, unison, r.startOrder,
    fun q => ?_, fun v hv => ?_, fun v n ph hv hn => ?_⟩
  · rw [noteAnswer_members (s := s₁) _ cons]
    rfl
  · refine List.filter_congr fun v hv => ?_
    have releasing : (s₁.status v).isReleasing = true := (lists.release v).1 hv
    rw [releasing, Bool.and_true]
    simp [hvs]
  · rw [← setKeys_part]
    unfold State.part
    rw [r.handed.parts]
    rfl
  · obtain ⟨voice, glide⟩ := r.handed.other v hv
    exact ⟨voice, glide, (r.gap v).trans (if_neg hv)⟩
  · have hn₁ : s₁.status v = .bound n ph := hn
    obtain ⟨part, key, target, pos⟩ := r.handed.glide v hv
    have voice := r.handed.voice v hv
    have gap := (r.gap v).trans (if_pos hv)
    rw [hn₁] at voice gap
    rw [hs₁, setKeys_notePitch] at target
    refine ⟨voice.trans ?_, gap.trans ?_, part, key, target, pos.trans ?_⟩
    · cases ph <;> rfl
    · cases ph <;> rfl
    · rw [handedPos_alone, hs₁, setKeys_notePitch]
      rfl

end Sys2Proof.Machine
end

