-- ==== Sys2Proof/Proofs/SoloEnds.lean ====
section
/-! The end of a SOLO note (R31, R35, R36). -/

namespace Sys2Proof.Machine

/-! ## The command -/

section
variable {s : State} {p : Part} {k : Nat} {g : VoiceSet}

theorem noteEnd_solo (hk : k ≤ 127) (solo : (s.patch p).keyMode = .solo) :
    noteEnd (partByte p) (b1 k) s = soloEnd p k s := by
  unfold noteEnd
  rw [part?_partByte, key?_b1 hk]
  simp only [solo]

theorem soloEnd_unknown (h : k ∉ (s.part p).heldKeys) : soloEnd p k s = refuse s .unknownNote 0 := by
  unfold soloEnd
  simp only [h, if_false]

/-- A group whose members are on a key sounds it, and no other. -/
theorem soundingKey_eq (h : g ≠ 0) (on : ∀ v, inSet g v = true → (s.status v).onKey p k = true) :
    soundingKey s g = some k := by
  obtain ⟨first, rest, cons⟩ := soloMembers_cons (s := s) h
  have key := on first ((mem_soloMembers s g first).1 (by rw [cons]; exact List.mem_cons_self))
  unfold soundingKey
  rw [cons]
  cases hs : s.status first with
  | bound n ph =>
    rw [hs] at key
    have : n.key = k := (by simpa [VoiceStatus.onKey] using key : n.part = p ∧ n.key = k).2
    simp [hs, VoiceStatus.note?, this]
  | _ => rw [hs] at key; cases key

theorem soundingKey_ne (onPart : ∀ v, inSet g v = true → (s.status v).onPart p = true)
    (off : ∀ v, inSet g v = true → (s.status v).onKey p k = false) : soundingKey s g ≠ some k := by
  intro h
  unfold soundingKey at h
  obtain ⟨first, hf, hk⟩ := Option.bind_eq_some_iff.1 h
  have member := (mem_soloMembers s g first).1 (List.mem_of_head? hf)
  obtain ⟨n, ph, hn, part⟩ := onPart_bound (onPart first member)
  have key := off first member
  rw [hn] at hk key
  have : n.key = k := by simpa [VoiceStatus.note?] using hk
  simp [VoiceStatus.onKey, part, this] at key

/-- A held key that does not sound leaves the list, and nothing else happens. -/
theorem soloEnd_silent (held : k ∈ (s.part p).heldKeys)
    (h : ∀ g, (s.part p).solo = some g → soundingKey s g ≠ some k) :
    soloEnd p k s = ok (s.setKeys p (leaveKey k (s.part p).heldKeys)) [] := by
  unfold soloEnd
  simp only [held, if_true]
  split
  · rename_i g hg
    rw [setKeys_solo] at hg
    exact congrArg (ok · []) (if_neg (h g hg))
  · rfl

theorem soloEnd_sounding (held : k ∈ (s.part p).heldKeys) (hg : (s.part p).solo = some g)
    (h : soundingKey s g = some k) : soloEnd p k s =
      ok (soloKeyUp p g (leaveKey k (s.part p).heldKeys)
        (s.setKeys p (leaveKey k (s.part p).heldKeys))) [] := by
  have sounding : soundingKey (s.setKeys p (leaveKey k (s.part p).heldKeys)) g = some k := h
  have group : ((s.setKeys p (leaveKey k (s.part p).heldKeys)).part p).solo = some g :=
    (setKeys_solo ..).trans hg
  unfold soloEnd
  simp only [held, if_true, group, sounding]

end

/-! ## The last key: the group let go (R36) -/

/-- The voice's end sends it on: it is HELD or MUTING. -/
def VoiceStatus.ends (x : VoiceStatus) : Bool := x.isHeld || x.isMuting

theorem endVoice_stays {s : State} {v : VoiceNo} (p : Part) (h : (s.status v).ends = false) :
    endVoice p s v = s := by
  obtain ⟨held, muting⟩ := Bool.or_eq_false_iff.1 h
  unfold endVoice
  rw [held, muting]
  rfl

theorem endVoice_status_ne {s : State} {v w : VoiceNo} (p : Part) (h : w ≠ v) :
    (endVoice p s v).status w = s.status w := by
  unfold endVoice
  split
  · rw [enterFree_status, if_neg h]
  · split
    · split
      · rw [setPhase_eq, setStatus_status, if_neg h]
      · unfold State.enterReleasing
        split
        · simp [setStatus_status, h]
        · rfl
    · rfl

/-- Where an operation reaches each voice alone, and leaves alone the voices in states that are not selected,
its run over a list is that over the voices selected. -/
theorem foldl_selected {f : State → VoiceNo → State} {sel : VoiceStatus → Bool}
    (stays : ∀ s v, sel (s.status v) = false → f s v = s)
    (alone : ∀ s v w, w ≠ v → (f s v).status w = s.status w) {l : List VoiceNo} (nd : l.Nodup) (s : State) :
    l.foldl f s = (l.filter fun v => sel (s.status v)).foldl f s := by
  induction l generalizing s with
  | nil => rfl
  | cons v l ih =>
    obtain ⟨hv, nd⟩ := List.nodup_cons.1 nd
    rw [List.foldl_cons, List.filter_cons]
    split
    · rw [List.foldl_cons, ih nd]
      congr 1
      refine List.filter_congr fun w hw => ?_
      rw [alone s v w fun e : w = v => hv (e ▸ hw)]
    · rename_i not
      rw [stays s v (Bool.eq_false_iff.2 not), ih nd]

/-- The end of a list of voices is that of the HELD and MUTING ones on it. -/
theorem endVoices_filter (p : Part) {l : List VoiceNo} (nd : l.Nodup) (s : State) :
    l.foldl (endVoice p) s = (l.filter fun v => (s.status v).ends).foldl (endVoice p) s :=
  foldl_selected (fun _ _ => endVoice_stays p) (fun _ _ _ => endVoice_status_ne p) nd s

theorem soloKeyUp_last {s : State} (p : Part) (g : VoiceSet) :
    soloKeyUp p g [] s = kick ((soloMembers s g).foldl (endVoice p) s) := rfl

theorem isMuting_ends {x : VoiceStatus} (h : x.isMuting = true) : x.ends = true := by
  unfold VoiceStatus.ends
  rw [h, Bool.or_true]

theorem isHeld_ends {x : VoiceStatus} (h : x.isHeld = true) : x.ends = true := by
  unfold VoiceStatus.ends
  rw [h, Bool.true_or]

theorem endedTo_stays {s : State} {p : Part} {v : VoiceNo} (h : (s.status v).ends = false) :
    endedTo s p v = s.status v := by
  unfold endedTo
  split
  · rename_i hs
    rw [hs] at h
    cases h
  · rename_i hs
    rw [hs] at h
    cases h
  · rfl

/-- Voices whose end leaves them as they are may be counted among those ended. -/
theorem VoicesEnded.of_filter {s t : State} {p : Part} {vs : List VoiceNo}
    (h : VoicesEnded s t p (vs.filter fun v => (s.status v).ends)) : VoicesEnded s t p vs := by
  have all {sel : VoiceNo → Bool} (hs : ∀ v, sel v = true → (s.status v).ends = true) :
      (vs.filter fun v => (s.status v).ends).filter sel = vs.filter sel := by
    rw [List.filter_filter]
    refine List.filter_congr fun v _ => ?_
    cases hv : sel v with
    | false => rfl
    | true => exact hs v hv
  have muting := all (sel := fun v => (s.status v).isMuting) fun _ => isMuting_ends
  have released := all (sel := fun v => (s.status v).isHeld && !(s.part p).sustain) fun _ hv =>
    isHeld_ends (Bool.and_eq_true_iff.1 hv).1
  have goes {v : VoiceNo} (hv : ((s.status v).isMuting || (s.status v).isHeld && !(s.part p).sustain) = true) :
      (s.status v).ends = true := by
    rcases Bool.or_eq_true_iff.1 hv with hv | hv
    · exact isMuting_ends hv
    · exact isHeld_ends (Bool.and_eq_true_iff.1 hv).1
  constructor
  case only => exact h.only
  case freeList => rw [h.freeList, muting]
  case releaseOrder => rw [h.releaseOrder, released]
  case startOrder => exact fun q => muting ▸ h.startOrder q
  case part => exact fun q => muting ▸ h.part q
  case voice =>
    intro v
    refine (h.voice v).trans ?_
    cases ends : (s.status v).ends with
    | true => exact if_congr (List.mem_filter.trans (and_iff_left ends)) rfl rfl
    | false =>
      rw [endedTo_stays ends]
      exact (ite_self (s.voice v)).trans (ite_self (s.voice v)).symm
  case gap =>
    exact fun v => (h.gap v).trans (if_congr ⟨fun x => ⟨(List.mem_filter.1 x.1).1, x.2⟩,
      fun x => ⟨List.mem_filter.2 ⟨x.1, goes x.2⟩, x.2⟩⟩ rfl rfl)

/-- What the end of the last key makes of a group of lawful lists. -/
theorem groupEnded {s : State} (lists : VoiceLaw s) (p : Part) (g : VoiceSet) :
    VoicesEnded s ((soloMembers s g).foldl (endVoice p) s) p (soloMembers s g) := by
  rw [endVoices_filter p soloMembers_nodup]
  exact (endVoices_ended lists (soloMembers_nodup.filter _) fun v hv =>
    Bool.or_eq_true_iff.1 (List.mem_filter.1 hv).2).of_filter

/-- No voice of a part is a member of the other part's group. -/
theorem not_memberOf_other {s : State} (law : SoloLaw s) {p q : Part} (hq : q ≠ p) {v : VoiceNo}
    (hv : (s.status v).onPart p = true) : ¬ memberOf (s.part q).solo v := by
  rintro ⟨m, hm, hin⟩
  obtain ⟨n, ph, hn, part⟩ := onPart_bound hv
  obtain ⟨n', ph', hn', part'⟩ := onPart_bound ((law q m hm).2.1 v hin)
  rw [hn] at hn'
  cases hn'
  exact hq (part'.symm.trans part)

/-- Settles O20: a held key leaves the list; a sounding one moves the group to the newest key, or lets its
members go one after another. -/
theorem soloEndReturnsToTheNewestKeyOrLetsGo : Obligations.SoloEndReturnsToTheNewestKeyOrLetsGo := by
  constructor
  · intro s p k hears law hk solo c rest
    have left : leaveKey k (s.part p).heldKeys = rest := leaveKey_eq _
    have out : exec c s = .next (taken c (soloEnd p k s).2 (soloEnd p k s).1) := by
      rw [← noteEnd_solo hk solo]
      exact hostCommand_taken hears
    refine ⟨fun h => ?_, fun held off => ?_, fun g next held hg on last => ?_⟩
    · rw [out, soloEnd_unknown h]
      rfl
    · rw [out, soloEnd_silent held fun g hg => soundingKey_ne (law p g hg).2.1 (off g hg), left]
      rfl
    · have moved := legatoMove_groupMoved s p next rest g
      obtain ⟨tne, psc, cvo⟩ := moved.blocks
      obtain ⟨freeList, releaseOrder, startOrder, seed⟩ := moved.lists
      refine ⟨_, ?_, moved.frame, tne, psc, cvo, freeList, releaseOrder, startOrder, seed, moved.unison,
        moved.part, moved.other, moved.member⟩
      rw [out, soloEnd_sounding held hg (soundingKey_eq (law p g hg).1 on), left]
      unfold soloKeyUp
      rw [last]
      rfl
  · intro s p k g hears lists law hk solo hg held only on
    obtain ⟨nonempty, onPart, -⟩ := law p g hg
    have left : leaveKey k (s.part p).heldKeys = [] := List.filter_eq_nil_iff.2 fun q hq => by
      rw [only q hq]
      simp
    set s₁ := s.setKeys p [] with hs₁
    have lists₁ : VoiceLaw s₁ := lists.modPart _
    have e := groupEnded lists₁ p g
    have sustain : (s₁.part p).sustain = (s.part p).sustain := setKeys_sustain ..
    have mem (v : VoiceNo) : v ∈ soloMembers s g ↔ inSet g v = true := mem_soloMembers s g v
    have notOther (q : Part) (hq : q ≠ p) :
        ∀ v ∈ (soloMembers s g).filter fun v => (s₁.status v).isMuting, ¬ memberOf (s.part q).solo v :=
      fun v hv => not_memberOf_other law hq (onPart v ((mem v).1 (List.mem_filter.1 hv).1))
    have notes : NotesOnly s ((soloMembers s₁ g).foldl (endVoice p) s₁) :=
      (show NotesOnly s s₁ from ⟨rfl, rfl⟩).trans e.only
    obtain ⟨tne, psc, trial, ptu, seed⟩ := notes.stands
    refine ⟨(soloMembers s₁ g).foldl (endVoice p) s₁, ?_, notes.frame, tne, psc, trial, ptu, seed,
      ⟨soloMembers s g, mem, soloMembers_nodup, soloMembers_sorted, e.freeList, ?_, e.startOrder⟩, ?_,
      fun v => ?_, fun h => ?_, fun q hq => ?_, fun v hv => ?_, fun v n ph hv hn => ?_⟩
    · refine (hostCommand_taken hears).trans ?_
      rw [noteEnd_solo hk solo, soloEnd_sounding held hg (soundingKey_eq nonempty on), left, soloKeyUp_last]
      rfl
    · rw [e.releaseOrder, sustain]
      rfl
    · rw [e.part, hs₁, setKeys_part, if_pos rfl]
    · show memberOf _ v ↔ _
      rw [e.part]
      simp only
      rw [memberOf_soloDrops, hs₁, setKeys_solo, hg, List.mem_filter]
      constructor
      · rintro ⟨stays, m, ⟨⟩, member⟩
        exact ⟨member, Bool.eq_false_iff.2 fun muting => stays ⟨(mem v).2 member, muting⟩⟩
      · rintro ⟨member, quiet⟩
        exact ⟨fun h => Bool.eq_false_iff.1 quiet h.2, g, rfl, member⟩
    · rw [e.part]
      refine soloDrops_ne_zero (fun m hm => ?_) h
      rw [hs₁, setKeys_solo] at hm
      exact (law p m hm).1
    · rw [e.part, hs₁, setKeys_part, if_neg hq]
      refine congrArg (fun x => { s.part q with solo := x }) ?_
      exact soloDrops_eq_self (fun m hm => (law q m hm).1) (notOther q hq)
    · have hv : v ∉ soloMembers s g := fun h => by
        rw [mem, hv] at h
        cases h
      exact ⟨(e.voice v).trans (if_neg hv), (e.gap v).trans (if_neg fun h => hv h.1)⟩
    · have hn₁ : s₁.status v = .bound n ph := hn
      have hv : v ∈ soloMembers s₁ g := (mem v).2 hv
      rw [e.voice, if_pos hv, e.gap, sustain]
      cases ph with
      | held =>
        rw [endedTo_held hn₁, sustain, hn₁]
        cases (s.part p).sustain
        · exact ⟨rfl, if_pos ⟨hv, rfl⟩⟩
        · exact ⟨rfl, if_neg fun h => nomatch h.2⟩
      | muting d =>
        rw [endedTo_muting hn₁, hn₁]
        exact ⟨rfl, if_pos ⟨hv, rfl⟩⟩
      | _ =>
        rw [endedTo_stays (by rw [hn₁]; rfl), hn₁]
        exact ⟨rfl, if_neg fun h => nomatch h.2⟩

end Sys2Proof.Machine
end

