-- ==== Sys2Proof/Proofs/PartReleases.lean ====
section
/-! A change of key mode releases the notes of a part (R37). -/

namespace Sys2Proof.Machine

/-! ## One voice let go -/

section
variable {s : State} {p : Part} {v : VoiceNo} {x : VoiceStatus}

theorem sounding_cases (part : x.onPart p = true) (sounding : x.isSounding = true) :
    ∃ n, n.part = p ∧ (x = .bound n .held ∨ x = .bound n .sustained ∨ ∃ d, x = .bound n (.muting d)) := by
  obtain ⟨n, ph, rfl, hn⟩ := onPart_bound part
  refine ⟨n, hn, ?_⟩
  cases ph with
  | held => exact .inl rfl
  | sustained => exact .inr (.inl rfl)
  | releasing d => cases sounding
  | muting d => exact .inr (.inr ⟨d, rfl⟩)

section
variable {n : Note} (tail : Nat) (hn : n.part = p)
include hn

theorem letGo_held :
    (VoiceStatus.bound n .held).letGo p tail = .bound n (.releasing tail) := if_pos hn

theorem letGo_sustained :
    (VoiceStatus.bound n .sustained).letGo p tail = .bound n (.releasing tail) := if_pos hn

theorem letGo_muting {d : Nat} : (VoiceStatus.bound n (.muting d)).letGo p tail = .free := if_pos hn

end

/-- Letting go frees just the MUTING voices of those that sound, and releases the others. -/
theorem letGo_lists (tail : Nat) (part : x.onPart p = true) (sounding : x.isSounding = true) :
    (x.letGo p tail).isFree = x.isMuting ∧ (x.letGo p tail).leaves = x.isMuting ∧
      (x.letGo p tail).isReleasing = (x.isHeld || x.isSustained) := by
  obtain ⟨n, hn, rfl | rfl | ⟨d, rfl⟩⟩ := sounding_cases part sounding
  · rw [letGo_held tail hn]
    exact ⟨rfl, rfl, rfl⟩
  · rw [letGo_sustained tail hn]
    exact ⟨rfl, rfl, rfl⟩
  · rw [letGo_muting tail hn]
    exact ⟨rfl, rfl, rfl⟩

theorem letGo_leaves_or_isReleasing (tail : Nat) (part : x.onPart p = true) (sounding : x.isSounding = true) :
    (x.letGo p tail).leaves = true ∨ (x.letGo p tail).isReleasing = true := by
  obtain ⟨-, leaves, releasing⟩ := letGo_lists tail part sounding
  rw [leaves, releasing]
  obtain ⟨n, -, rfl | rfl | ⟨d, rfl⟩⟩ := sounding_cases part sounding
  · exact .inr rfl
  · exact .inr rfl
  · exact .inl rfl

/-- A voice of the other part, or one that no longer sounds, is not touched. -/
theorem letGo_stays (tail : Nat) (h : x.onPart p = true → x.isSounding = false) : x.letGo p tail = x := by
  unfold VoiceStatus.letGo
  split
  · rename_i n ph
    split
    · rename_i hn
      have silent := h (beq_iff_eq.2 hn)
      cases ph with
      | releasing d => rfl
      | _ => cases silent
    · rfl
  · rfl

theorem isMuting_isSounding (h : x.isMuting = true) : x.isSounding = true := by
  obtain ⟨n, d, rfl⟩ := isMuting_bound h
  rfl

theorem isHeld_or_isSustained_isSounding (h : (x.isHeld || x.isSustained) = true) :
    x.isSounding = true := by
  rcases Bool.or_eq_true_iff.1 h with h | h
  · obtain ⟨n, rfl⟩ := isHeld_bound h
    rfl
  · obtain ⟨n, rfl⟩ := isSustained_bound h
    rfl

theorem modeChangeVoice_stays (p : Part) (h : (s.status v).isSounding = false) :
    modeChangeVoice p s v = s := by
  unfold modeChangeVoice
  rw [if_neg fun x => Bool.eq_false_iff.1 h (isMuting_isSounding x),
    if_neg fun x => Bool.eq_false_iff.1 h (isHeld_or_isSustained_isSounding x)]

theorem modeChangeVoice_status_ne (p : Part) {w : VoiceNo} (h : w ≠ v) :
    (modeChangeVoice p s v).status w = s.status w := by
  unfold modeChangeVoice State.enterReleasing
  split
  · rw [enterFree_status, if_neg h]
  · split
    · split
      · simp [setStatus_status, h]
      · rfl
    · rfl

theorem modeChangeVoice_send {t : State} (agree : Agrees s t v) (part : (s.status v).onPart p = true)
    (sounding : (s.status v).isSounding = true) :
    modeChangeVoice p t v = t.send v ((s.status v).letGo p (s.patch p).releaseTicks) := by
  unfold modeChangeVoice
  rw [agree.status, agree.patch]
  obtain ⟨n, hn, hs | hs | ⟨d, hs⟩⟩ := sounding_cases part sounding <;> rw [hs]
  · rw [letGo_held _ hn]
    exact enterReleasing_send _ (agree.status.trans hs)
  · rw [letGo_sustained _ hn]
    exact enterReleasing_send _ (agree.status.trans hs)
  · rw [letGo_muting _ hn]
    rfl

theorem modeChangeVoice_only (p : Part) (s : State) (v : VoiceNo) : NotesOnly s (modeChangeVoice p s v) := by
  unfold modeChangeVoice State.enterReleasing
  split
  · exact ⟨rfl, rfl⟩
  · split
    · split
      · exact ⟨rfl, rfl⟩
      · exact .refl s
    · exact .refl s

end

/-! ## A part released -/

/-- The voices of a part that a change of key mode lets go, in start order. -/
def soundingOf (s : State) (p : Part) : List VoiceNo :=
  (s.val.startOrder.get p).filter fun v => (s.status v).isSounding

section
variable {s : State} {p : Part}

theorem mem_soundingOf (lists : VoiceLaw s) (v : VoiceNo) :
    v ∈ soundingOf s p ↔ (s.status v).onPart p = true ∧ (s.status v).isSounding = true :=
  List.mem_filter.trans (and_congr_left' (lists.start p v))

theorem releasePart_only (s : State) (p : Part) : NotesOnly s (releasePart p s) :=
  (NotesOnly.foldl (modeChangeVoice_only p) _ s).trans ⟨rfl, rfl⟩

/-- The part's voices that sound are sent on one after another. -/
theorem releasePart_eq (lists : VoiceLaw s) (p : Part) : releasePart p s =
    ((s.sendAll (fun v => (s.status v).letGo p (s.patch p).releaseTicks) (soundingOf s p)).setKeys p []).setSolo
      p none := by
  unfold releasePart
  rw [foldl_selected (fun _ _ => modeChangeVoice_stays p) (fun _ _ _ => modeChangeVoice_status_ne p)
    (lists.startNodup p)]
  rw [foldl_eq_sendAll ((lists.startNodup p).filter _) fun t v hv agree => ?_]
  · rfl
  · obtain ⟨part, sounding⟩ := (mem_soundingOf lists v).1 hv
    exact modeChangeVoice_send agree part sounding

theorem releasePart_voice (lists : VoiceLaw s) (v : VoiceNo) : (releasePart p s).voice v =
    { s.voice v with status := (s.status v).letGo p (s.patch p).releaseTicks } := by
  rw [releasePart_eq lists]
  refine (sendAll_voice ..).trans ?_
  split
  · rfl
  · rename_i hv
    have silent (part : (s.status v).onPart p = true) : (s.status v).isSounding = false :=
      Bool.eq_false_iff.2 fun sounding => hv ((mem_soundingOf lists v).2 ⟨part, sounding⟩)
    rw [letGo_stays _ silent]
    rfl

theorem filter_soundingOf {sel : VoiceStatus → Bool} (h : ∀ x, sel x = true → x.isSounding = true) :
    ((soundingOf s p).filter fun v => sel (s.status v)) =
      (s.val.startOrder.get p).filter fun v => sel (s.status v) := by
  unfold soundingOf
  rw [List.filter_filter]
  refine List.filter_congr fun v _ => ?_
  cases hv : sel (s.status v) with
  | false => rfl
  | true => exact h _ hv

/-- A part is released in lawful lists. -/
theorem releasePart_released (lists : VoiceLaw s) (solo : SoloLaw s) (p : Part) :
    PartReleased s (releasePart p s) p (s.patch p).releaseTicks := by
  have nd : (soundingOf s p).Nodup := (lists.startNodup p).filter _
  have mem := mem_soundingOf (p := p) lists
  have goes (v : VoiceNo) (hv : v ∈ soundingOf s p) :=
    letGo_lists (s.patch p).releaseTicks ((mem v).1 hv).1 ((mem v).1 hv).2
  have part (q : Part) : (releasePart p s).part q =
      if q = p then { s.part p with heldKeys := [], solo := none } else s.part q := by
    rw [releasePart_eq lists, setSolo_part]
    split
    · rename_i hq
      subst hq
      rw [setKeys_part, if_pos rfl, sendAll_part]
    · rename_i hq
      rw [setKeys_part, if_neg hq, sendAll_part]
      refine congrArg (fun x => { s.part q with solo := x }) ?_
      refine soloDrops_eq_self (fun m hm => (solo q m hm).1) fun v hv => ?_
      exact not_memberOf_other solo hq ((mem v).1 (List.mem_filter.1 hv).1).1
  constructor
  case status => exact fun v => congrArg Voice.status (releasePart_voice lists v)
  case seed => exact (releasePart_only s p).2
  case part => rw [part, if_pos rfl]
  case otherPart => exact fun q hq => (part q).trans (if_neg hq)
  case voices =>
    intro v
    rw [releasePart_voice lists]
  case freeList =>
    rw [releasePart_eq lists]
    refine (sendAll_freeList s _ nd).trans ?_
    rw [listAfter_of_disjoint, List.filter_congr fun v hv => (goes v hv).1,
      filter_soundingOf fun _ => isMuting_isSounding]
    intro v hv hl
    have free := (lists.free v).1 hv
    rw [onPart_not_free ((mem v).1 hl).1] at free
    cases free
  case release =>
    rw [releasePart_eq lists]
    refine (sendAll_releaseOrder s _ nd).trans ?_
    rw [listAfter_of_disjoint, List.filter_congr fun v hv => (goes v hv).2.2,
      filter_soundingOf (sel := fun x => x.isHeld || x.isSustained) fun _ => isHeld_or_isSustained_isSounding]
    intro v hv hl
    obtain ⟨n, d, hn⟩ := isReleasing_bound ((lists.release v).1 hv)
    have sounding := ((mem v).1 hl).2
    rw [hn] at sounding
    cases sounding
  case start =>
    intro q
    rw [releasePart_eq lists]
    refine (sendAll_startOrder s _ nd q).trans (List.filter_congr fun v _ => congrArg (!·) ?_)
    rw [Bool.eq_iff_iff, Bool.and_eq_true, Bool.and_eq_true, decide_eq_true_iff]
    constructor
    · rintro ⟨hv, leaves⟩
      rw [(goes v hv).2.1] at leaves
      exact ⟨((mem v).1 hv).1, leaves⟩
    · rintro ⟨part, muting⟩
      have hv := (mem v).2 ⟨part, isMuting_isSounding muting⟩
      exact ⟨hv, (goes v hv).2.1.trans muting⟩
  case gaps =>
    intro v
    rw [releasePart_eq lists]
    refine (sendAll_gap s _ _ v).trans (if_congr ?_ rfl rfl)
    rw [mem, Bool.and_eq_true]
    exact and_iff_left_of_imp fun h => letGo_leaves_or_isReleasing _ h.1 h.2

end

end Sys2Proof.Machine
end

