-- ==== Sys2Proof/Proofs/PartRecomputes.lean ====
section
/-! What a recomputation of a part's voices does, and what a write or a load of its patch moves and re-arms
(R44, R61, R141). -/

namespace Sys2Proof.Machine

/-! ## Notes that stand -/

theorem NotesStand.trans {s t u : State} (a : NotesStand s t) (b : NotesStand t u) : NotesStand s u := by
  obtain ⟨records, voices⟩ := a
  obtain ⟨records', voices'⟩ := b
  refine ⟨?_, fun v => ?_⟩
  · rw [← records'] at records
    exact records
  · have h := voices v
    rw [← voices' v] at h
    exact h

theorem NotesStand.of_val {s t : State} (h : t.val = s.val) : NotesStand s t := by
  unfold NotesStand State.voice
  rw [h]
  exact ⟨rfl, fun _ => rfl⟩

theorem recompute_stands (sel : SourceNo → Bool) (s : State) : NotesStand s (recompute sel s) :=
  ⟨rfl, fun v => by rw [recompute_voice]⟩

theorem moveNotes_stands (s t : State) : NotesStand t (moveNotes s t) := by
  refine ⟨rfl, fun v => ?_⟩
  unfold moveNotes
  rw [recompute_voice]
  rfl

theorem VoiceLaw.of_val {s t : State} (h : t.val = s.val) (law : VoiceLaw s) : VoiceLaw t :=
  law.congr (fun v => congrArg (fun x => (look x.voices v).status) h) (congrArg Val.freeList h)
    (congrArg Val.startOrder h) (congrArg Val.releaseOrder h)

theorem SoloLaw.of_val {s t : State} (h : t.val = s.val) (law : SoloLaw s) : SoloLaw t := by
  unfold SoloLaw State.part State.status State.voice
  rw [h]
  exact law

section
variable {s t : State} (h : NotesStand s t)
include h

theorem NotesStand.status (v : VoiceNo) : t.status v = s.status v := by
  have voice := h.2 v
  exact (congrArg Voice.status voice :)

/-- The lists, the part records and the seed of notes that stand. -/
theorem NotesStand.records : t.val.freeList = s.val.freeList ∧ t.val.startOrder = s.val.startOrder ∧
    t.val.releaseOrder = s.val.releaseOrder ∧ t.val.parts = s.val.parts ∧ t.val.seed = s.val.seed := by
  obtain ⟨records, -⟩ := h
  exact ⟨(congrArg Val.freeList records :), (congrArg Val.startOrder records :),
    (congrArg Val.releaseOrder records :), (congrArg Val.parts records :), (congrArg Val.seed records :)⟩

theorem NotesStand.part (p : Part) : t.part p = s.part p :=
  congrArg (fun x : ByPart PartRec => x.get p) h.records.2.2.2.1

end

/-- A release is told by the notes and gaps alone of the state before it, and by those of the state after it
but for clamp flags. -/
theorem PartReleased.congr {s t u w : State} {p : Part} {tail : Nat} (h : PartReleased t u p tail)
    (val : t.val = s.val) (gaps : t.cvo.gaps = s.cvo.gaps) (stands : NotesStand u w)
    (after : w.cvo.gaps = u.cvo.gaps) : PartReleased s w p tail := by
  have voice (v : VoiceNo) : t.voice v = s.voice v := congrArg (fun x : Val => look x.voices v) val
  have status (v : VoiceNo) : t.status v = s.status v := congrArg Voice.status (voice v)
  have part (q : Part) : t.part q = s.part q := congrArg (fun x : Val => x.parts.get q) val
  obtain ⟨freeList, startOrder, releaseOrder, -, seed⟩ := stands.records
  constructor
  case status => exact fun v => (stands.status v).trans (status v ▸ h.status v)
  case freeList => simpa only [freeList, val, status] using h.freeList
  case release => simpa only [releaseOrder, val, status] using h.release
  case start => simpa only [startOrder, val, status] using h.start
  case part => simpa only [stands.part, part] using h.part
  case otherPart => simpa only [stands.part, part] using h.otherPart
  case seed => simpa only [seed, val] using h.seed
  case gaps => simpa only [after, status, gaps] using h.gaps
  case voices =>
    intro v
    have before := h.voices v
    rw [voice, ← stands.2 v] at before
    exact before

/-! ## Note pitches that one part's patch moves -/

section
variable {s t : State} {p : Part}

/-- What the patch of a part alone forms of note pitches moves no voice that glides for the other part. -/
theorem noteMove_other (ptu : t.ptu = s.ptu) (scale : ∀ q, (t.part q).scale = (s.part q).scale)
    (patch : ∀ q, q ≠ p → t.patch q = s.patch q) {v : VoiceNo} (h : pitchPart s v ≠ p) :
    noteMove s t v = 0 := by
  have same : notePitch t (pitchPart s v) (s.glide v).key = notePitch s (pitchPart s v) (s.glide v).key :=
    notePitch_congr _ _ (congrArg Ptu.overrides ptu) (congrArg Ptu.scales ptu) (scale _)
      (congrArg Patch.transpose (patch _ h))
  exact Int.sub_eq_zero_of_eq same

/-- A move of note pitches passes by a voice that it does not move. -/
theorem moveNotes_passes {n : SourceNo} (h : noteMove s t (sourceVoice n) = 0) :
    look (moveNotes s t).ptu.codes n = look t.ptu.codes n ∧
      (moveNotes s t).voice (sourceVoice n) = t.voice (sourceVoice n) := by
  unfold moveNotes
  constructor
  · rw [recompute_code, h]
    rfl
  · rw [recompute_voice_unchosen fun i => by rw [sourceVoice_sourceNo, h]; rfl]
    rfl

end

/-! ## A part recomputed -/

section
variable {s : State} {p : Part} {n : SourceNo}

theorem recomputePart_own (h : pitchPart s (sourceVoice n) = p) :
    look (recomputePart p s).ptu.codes n = (chain (recomputePart p s) n).1 ∧
      look ((recomputePart p s).voice (sourceVoice n)).clamp (sourceIdx n) = (chain (recomputePart p s) n).2 :=
  recompute_current s _ (beq_iff_eq.2 h)

theorem recomputePart_other (h : pitchPart s (sourceVoice n) ≠ p) :
    look (recomputePart p s).ptu.codes n = look s.ptu.codes n ∧
      look ((recomputePart p s).voice (sourceVoice n)).clamp (sourceIdx n) =
        look (s.voice (sourceVoice n)).clamp (sourceIdx n) := by
  have passed : ¬ (pitchPart s (sourceVoice n) == p) = true := fun x => h (beq_iff_eq.1 x)
  unfold recomputePart
  rw [recompute_code, recompute_clamp, if_neg passed, if_neg passed]
  exact ⟨rfl, rfl⟩

theorem recomputePart_stands : NotesStand s (recomputePart p s) := recompute_stands ..

end

/-- A part's voices are recomputed, and no note, list or part record is touched. -/
def PartRecomputed (s t : State) (p : Part) : Prop :=
  (∀ i, pitchPart s (sourceVoice i) = p → look t.ptu.codes i = (chain t i).1) ∧
    (∀ i, pitchPart s (sourceVoice i) ≠ p → look t.ptu.codes i = look s.ptu.codes i) ∧
    NotesStand s t ∧ t.cvo = s.cvo

/-! ## A part recomputed after its note pitches have moved -/

section
variable {s t : State} {p : Part}

theorem moveNotes_pitchPart (v : VoiceNo) : pitchPart (moveNotes s t) v = pitchPart t v := by
  unfold pitchPart
  rw [moveNotes_glide]

theorem movedPart_glide (glide : t.ptu.glide = s.ptu.glide) (v : VoiceNo) :
    let u := recomputePart p (moveNotes s t)
    u.glide v = { s.glide v with
      target := (s.glide v).target + pitchMove s u v
      pos := (s.glide v).pos + pitchMove s u v } := by
  have same : t.glide v = s.glide v := congrArg (fun x => look x v) glide
  have move : pitchMove s (recomputePart p (moveNotes s t)) v = noteMove s t v := by
    rw [← moveNotes_pitchMove]
    exact congrArg (· - _) (pitchView_notePitch (recomputePart_pitchView ..) ..)
  intro u
  rw [move]
  refine (moveNotes_glide s t v).trans ?_
  rw [same]

theorem movedPart_own {n : SourceNo} (glide : t.ptu.glide = s.ptu.glide)
    (h : pitchPart s (sourceVoice n) = p) : let u := recomputePart p (moveNotes s t)
    look u.ptu.codes n = (chain u n).1 ∧
      look (u.voice (sourceVoice n)).clamp (sourceIdx n) = (chain u n).2 := by
  refine recomputePart_own ?_
  rw [moveNotes_pitchPart, ← h]
  exact congrArg (fun x => (look x (sourceVoice n)).part) glide

theorem movedPart_other {n : SourceNo} (ptu : t.ptu = s.ptu) (scale : ∀ q, (t.part q).scale = (s.part q).scale)
    (patch : ∀ q, q ≠ p → t.patch q = s.patch q) (h : pitchPart s (sourceVoice n) ≠ p) :
    let u := recomputePart p (moveNotes s t)
    look u.ptu.codes n = look s.ptu.codes n ∧
      look (u.voice (sourceVoice n)).clamp (sourceIdx n) =
        look (t.voice (sourceVoice n)).clamp (sourceIdx n) := by
  have part : pitchPart t (sourceVoice n) = pitchPart s (sourceVoice n) :=
    congrArg (fun x => (look x.glide (sourceVoice n)).part) ptu
  have passed : pitchPart (moveNotes s t) (sourceVoice n) ≠ p := by
    rw [moveNotes_pitchPart, part]
    exact h
  obtain ⟨code, clamp⟩ := recomputePart_other passed
  obtain ⟨code', voice⟩ := moveNotes_passes (noteMove_other ptu scale patch h)
  refine ⟨code.trans (code'.trans ?_), clamp.trans ?_⟩
  · rw [ptu]
  · rw [voice]

theorem movedPart_stands : NotesStand t (recomputePart p (moveNotes s t)) :=
  (moveNotes_stands s t).trans recomputePart_stands

end

/-! ## Records re-armed -/

theorem armed_eq (e : PotEntry) (stable : Option Nat) (x : Patch) : armed e stable x = reArmed e stable x := by
  unfold armed reArmed
  cases e.link with
  | none => rfl
  | some l =>
    cases stable with
    | none => rfl
    | some k => cases hm : l.mode <;> simp [hm]

theorem names_iff (e : PotEntry) (n : ParamNo) :
    e.names n = true ↔ ∃ l, e.link = some l ∧ l.param = n := by
  unfold PotEntry.names
  cases e.link <;> simp

end Sys2Proof.Machine
end

