-- ==== Sys2Proof/Proofs/ParameterWrites.lean ====
section
/-! Parameter writes, and PARAM WRITE (R129, R130). -/

namespace Sys2Proof.Machine

/-! ## The value stored -/

/-- A parameter write up to its effect: the value stored and the records re-armed. -/
def paramStored (w : Writer) (p : Part) (n : ParamNo) (x : Nat) (s : State) : State :=
  reArm (fun q => (s.potEntry q).names n && w != .pot q) p (storeParam p n x s)

/-- A parameter write up to its mark. -/
def paramInEffect (w : Writer) (p : Part) (n : ParamNo) (x : Nat) (s : State) : State :=
  if x ≠ (s.patch p).param n then engineEffect s p n (paramStored w p n x s) else paramStored w p n x s

section
variable {s t : State} {p : Part} {n : ParamNo} {w : Writer} {x : Nat}

theorem paramStored_param (m : ParamNo) :
    ((paramStored w p n x s).patch p).param m = if m = n then x else (s.patch p).param m := by
  refine (storeParam_param p p n m x s).trans ?_
  simp

/-- A parameter but the one stored, or one stored as it was, is unchanged. -/
theorem paramStored_param_same {m : ParamNo} (h : m ≠ n ∨ x = (s.patch p).param n) :
    ((paramStored w p n x s).patch p).param m = (s.patch p).param m := by
  rw [paramStored_param]
  split
  · rename_i hm
    subst hm
    exact h.resolve_left fun ne => ne rfl
  · rfl

theorem paramStored_patch_other {q : Part} (hq : q ≠ p) : (paramStored w p n x s).patch q = s.patch q :=
  (setBuffer_patch ..).trans (if_neg hq)

/-! ## The effect -/

/-- An effect reaches the notes, their gaps, the glides and the source codes alone. -/
structure EffectReach (s t : State) : Prop where
  blocks : { t with val := s.val, ptu := s.ptu, cvo := s.cvo } = s
  gaps : { t.cvo with gaps := s.cvo.gaps } = s.cvo
  glides : { t.ptu with glide := s.ptu.glide, codes := s.ptu.codes } = s.ptu

theorem EffectReach.ebu (h : EffectReach s t) : t.ebu = s.ebu := (congrArg State.ebu h.blocks :)

theorem EffectReach.lnk (h : EffectReach s t) : t.lnk = s.lnk := (congrArg State.lnk h.blocks :)

theorem engineEffect_else (old : State) (p : Part) (h : n.val ∉ [64, 71, 74, 75, 76, 77, 78]) :
    engineEffect old p n s = s := by
  unfold engineEffect
  split
  case h_8 => rfl
  all_goals
    rename_i hn
    exact absurd (by rw [hn]; decide) h

theorem engineEffect_keyMode (old : State) (p : Part) (h : n.val = 64) : engineEffect old p n s =
    if (s.patch p).keyMode = (old.patch p).keyMode then s else releasePart p s := by
  unfold engineEffect
  rw [h]
  rfl

theorem engineEffect_recomputes (old : State) (p : Part) (h : n.val ∈ [71, 74, 75, 76, 77]) :
    engineEffect old p n s = recomputePart p s := by
  unfold engineEffect
  split
  case h_1 hn => exact absurd h (by rw [hn]; decide)
  case h_7 hn => exact absurd h (by rw [hn]; decide)
  case h_8 => simp_all
  all_goals rfl

theorem engineEffect_transpose (old : State) (p : Part) (h : n.val = 78) :
    engineEffect old p n s = recomputePart p (moveNotes old s) := by
  unfold engineEffect
  rw [h]
  rfl

theorem releasePart_reach (s : State) (p : Part) : EffectReach s (releasePart p s) := by
  obtain ⟨only, -⟩ := releasePart_only s p
  have ptu := releasePart_ptu s p
  constructor
  case blocks =>
    rw [ptu] at only
    exact congrArg (fun x : State => { x with cvo := s.cvo }) only
  case gaps => exact congrArg State.cvo only
  case glides => rw [ptu]

theorem engineEffect_reach (old : State) (p : Part) (n : ParamNo) (s : State) :
    EffectReach s (engineEffect old p n s) := by
  unfold engineEffect
  split
  case h_1 =>
    split
    · exact ⟨rfl, rfl, rfl⟩
    · exact releasePart_reach s p
  all_goals exact ⟨rfl, rfl, rfl⟩

theorem paramInEffect_reach (w : Writer) (p : Part) (n : ParamNo) (x : Nat) (s : State) :
    EffectReach (paramStored w p n x s) (paramInEffect w p n x s) := by
  unfold paramInEffect
  split
  · exact engineEffect_reach ..
  · exact ⟨rfl, rfl, rfl⟩

/-- The write marks a panel's change and does nothing more. -/
theorem writeParam_eq (w : Writer) (p : Part) (n : ParamNo) (value : Nat) (s : State) :
    writeParam w p n value s = { paramInEffect w p n (min 1023 value) s with
      lnk := if min 1023 value ≠ (s.patch p).param n ∧ w ≠ .host then
        { s.lnk with notices := s.lnk.notices.set (.paramChanged p n) } else s.lnk } := by
  have lnk : (paramInEffect w p n (min 1023 value) s).lnk = s.lnk := (paramInEffect_reach ..).lnk
  show (if _ then (paramInEffect w p n (min 1023 value) s).mark _ else paramInEffect w p n (min 1023 value) s) = _
  split
  · unfold State.mark
    rw [lnk]
  · rw [← lnk]

/-- What the write leaves of the edit buffers is what the store leaves of them. -/
theorem paramInEffect_ebu : (paramInEffect w p n x s).ebu = (paramStored w p n x s).ebu :=
  (paramInEffect_reach ..).ebu

theorem paramInEffect_same (h : x = (s.patch p).param n) :
    paramInEffect w p n x s = paramStored w p n x s := if_neg (not_not.2 h)

theorem paramInEffect_changed (h : x ≠ (s.patch p).param n) :
    paramInEffect w p n x s = engineEffect s p n (paramStored w p n x s) := if_pos h

theorem paramInEffect_idle (h : x = (s.patch p).param n ∨ n.val ∉ [64, 71, 74, 75, 76, 77, 78]) :
    paramInEffect w p n x s = paramStored w p n x s := by
  rcases eq_or_ne x ((s.patch p).param n) with same | changed
  · exact paramInEffect_same same
  · rw [paramInEffect_changed changed, engineEffect_else _ _ (h.resolve_left changed)]

theorem paramStored_keyMode_same (h : x = (s.patch p).param n) :
    ((paramStored w p n x s).patch p).keyMode = (s.patch p).keyMode := by
  unfold Patch.keyMode
  rw [paramStored_param_same (.inr h)]

theorem paramStored_releaseTicks (h : n.val ≠ 72) :
    ((paramStored w p n x s).patch p).releaseTicks = (s.patch p).releaseMs * 8000 := by
  unfold Patch.releaseTicks Patch.releaseMs
  rw [paramStored_param_same (.inl fun e => h (congrArg Fin.val e.symm))]
  rfl

/-- The effect of the key mode parameter: the notes are let go where the mode changes. -/
theorem paramInEffect_keyMode (h : n.val = 64) : paramInEffect w p n x s =
    if ((paramStored w p n x s).patch p).keyMode = (s.patch p).keyMode then paramStored w p n x s
    else releasePart p (paramStored w p n x s) := by
  rcases eq_or_ne x ((s.patch p).param n) with same | changed
  · rw [paramInEffect_same same, if_pos (paramStored_keyMode_same same)]
  · rw [paramInEffect_changed changed, engineEffect_keyMode _ _ h]

theorem paramInEffect_recomputes (changed : x ≠ (s.patch p).param n) (h : n.val ∈ [71, 74, 75, 76, 77]) :
    PartRecomputed s (paramInEffect w p n x s) p ∧ (paramInEffect w p n x s).ptu.glide = s.ptu.glide := by
  rw [paramInEffect_changed changed, engineEffect_recomputes _ _ h]
  exact ⟨⟨fun i own => (recomputePart_own (s := paramStored w p n x s) own).1,
    fun i other => (recomputePart_other (s := paramStored w p n x s) other).1,
    NotesStand.trans (.of_val rfl) (recomputePart_stands (s := paramStored w p n x s)), rfl⟩, rfl⟩

theorem paramInEffect_transposes (changed : x ≠ (s.patch p).param n) (h : n.val = 78) :
    PartRecomputed s (paramInEffect w p n x s) p ∧ ∀ v, (paramInEffect w p n x s).glide v = { s.glide v with
      target := (s.glide v).target + pitchMove s (paramInEffect w p n x s) v
      pos := (s.glide v).pos + pitchMove s (paramInEffect w p n x s) v } := by
  rw [paramInEffect_changed changed, engineEffect_transpose _ _ h]
  exact ⟨⟨fun i own => (movedPart_own (s := s) (t := paramStored w p n x s) rfl own).1,
    fun i other => (movedPart_other (s := s) (t := paramStored w p n x s) rfl (fun _ => rfl)
      (fun q => paramStored_patch_other) other).1,
    NotesStand.trans (.of_val rfl) (movedPart_stands (s := s) (t := paramStored w p n x s)), rfl⟩,
    movedPart_glide (s := s) (t := paramStored w p n x s) rfl⟩

/-- Where the key mode changes, the part's notes are let go, and no voice is touched but for its state. -/
theorem paramInEffect_releases (h : n.val = 64)
    (changed : ((paramStored w p n x s).patch p).keyMode ≠ (s.patch p).keyMode) (lists : VoiceLaw s)
    (solo : SoloLaw s) : PartReleased s (paramInEffect w p n x s) p ((s.patch p).releaseMs * 8000) ∧
      ∀ v, { (paramInEffect w p n x s).voice v with status := (s.voice v).status } = s.voice v := by
  have lists' : VoiceLaw (paramStored w p n x s) := VoiceLaw.of_val (s := s) rfl lists
  rw [paramInEffect_keyMode h, if_neg changed, ← paramStored_releaseTicks (w := w) (x := x) (n := n) (by omega)]
  have released := releasePart_released lists' (SoloLaw.of_val (s := s) rfl solo) p
  refine ⟨released.congr rfl rfl (.of_val rfl) rfl, fun v => ?_⟩
  rw [releasePart_voice lists']
  rfl

end

/-- The value written stands, and a measurement that begins then leaves it. -/
theorem writeParam_param (w : Writer) (p : Part) (n : ParamNo) (value : Nat) (s : State) :
    ((kick (writeParam w p n value s)).patch p).param n = min 1023 value := by
  obtain ⟨-, -, -, -, ebu, -⟩ := kick_blocks (writeParam w p n value s)
  have stored : (writeParam w p n value s).ebu = (paramStored w p n (min 1023 value) s).ebu := by
    rw [writeParam_eq]
    exact paramInEffect_ebu
  have patch : (kick (writeParam w p n value s)).patch p = (paramStored w p n (min 1023 value) s).patch p :=
    congrArg (fun b : Ebu => (b.buffers.get p).patch) (ebu.trans stored)
  rw [patch, paramStored_param, if_pos rfl]

/-- Settles O49: the value is stored, and each parameter's effect is that of its case. -/
theorem parameterWriteStoresAndTakesEffect : Obligations.ParameterWriteStoresAndTakesEffect := by
  constructor
  · intro s w p n value x old t recomputed
    obtain ⟨l, hl, ht⟩ : ∃ l, l = (if x ≠ old ∧ w ≠ .host then
          { s.lnk with notices := s.lnk.notices.set (.paramChanged p n) } else s.lnk) ∧
        t = { paramInEffect w p n x s with lnk := l } := ⟨_, rfl, writeParam_eq w p n value s⟩
    clear_value t
    subst ht
    have reach := paramInEffect_reach w p n x s
    have ebu : (paramInEffect w p n x s).ebu = (paramStored w p n x s).ebu := paramInEffect_ebu
    have patch : (paramInEffect w p n x s).patch p = (paramStored w p n x s).patch p :=
      congrArg (fun b : Ebu => (b.buffers.get p).patch) ebu
    have takeover (i : PotNo) (q : Part) : (paramInEffect w p n x s).takeover i q =
        (paramStored w p n x s).takeover i q := congrArg (fun b : Ebu => look (b.takeover.get q) i) ebu
    have named (i : PotNo) : ((s.potEntry i).names n && w != .pot i) = true ↔
        w ≠ .pot i ∧ ∃ l, (s.potEntry i).link = some l ∧ l.param = n := by
      rw [Bool.and_eq_true, names_iff, bne_iff_ne, and_comm]
    refine ⟨fun q => ?_, fun i q => ⟨fun h => ?_, fun h => ?_⟩, ?_, hl, ?_, reach.gaps, reach.glides,
      fun h => ?_, fun h => ⟨?_, fun same => ?_, fun changed lists solo => ?_⟩,
      paramInEffect_recomputes, paramInEffect_transposes⟩
    · refine (congrArg (fun b : Ebu => b.buffers.get q) ebu).trans ((storeParam_buffer p q n x s).trans ?_)
      rw [show (x != (s.buffer p).patch.param n) = decide (x ≠ old) from decide_not.symm]
      rfl
    · refine (takeover i q).trans ((reArm_takeover ..).trans ?_)
      obtain ⟨hq, reArms⟩ := h
      rw [if_pos ⟨hq, (named i).2 reArms⟩, armed_eq]
      exact congrArg (reArmed _ _) patch.symm
    · refine (takeover i q).trans ((reArm_takeover ..).trans (if_neg fun x => h ?_))
      exact ⟨x.1, (named i).1 x.2⟩
    · show ({ (paramInEffect w p n x s).ebu with buffers := _, takeover := _ } : Ebu) = _
      rw [ebu]
      rfl
    · exact congrArg (fun u : State => { u with ebu := s.ebu, lnk := s.lnk }) reach.blocks
    · rw [paramInEffect_idle h]
      exact ⟨rfl, rfl, rfl⟩
    · rw [paramInEffect_keyMode h]
      split
      · rfl
      · exact releasePart_ptu ..
    · have unchanged : ((paramStored w p n x s).patch p).keyMode = (s.patch p).keyMode := patch ▸ same
      rw [paramInEffect_keyMode h, if_pos unchanged]
      exact ⟨rfl, rfl⟩
    · have released : ((paramStored w p n x s).patch p).keyMode ≠ (s.patch p).keyMode := patch ▸ changed
      obtain ⟨letGo, voices⟩ := paramInEffect_releases h released lists solo
      exact ⟨letGo.congr rfl rfl (.of_val rfl) rfl, voices⟩
  · intro s p n value hears c
    refine (hostCommand_taken hears).trans ?_
    have stored : paramWrite (partByte p) (b1 n.val) value s =
        ok (kick (writeParam .host p n value.toNat s)) (b2 (min 1023 value.toNat)) := by
      unfold paramWrite
      rw [part?_partByte, fin?_b1 n (by decide)]
      exact congrArg (fun x => ok _ (b2 x)) (writeParam_param ..)
    rw [stored]
    rfl

end Sys2Proof.Machine
end

