-- ==== Sys2Proof/Proofs/SlotReads.lean ====
section
/-! SLOT READ and PATCH RECALL: what a slot reads as, the write suspended by a read, and the patch loaded
(R37, R44, R62, R136, R141, R161 to R164). -/

namespace Sys2Proof.Machine

/-! ## The bytes read -/

section
variable {s : State} {n : SlotNo} {w : NvWrite}

theorem slotBytes_image {img : List Byte} (hw : s.smc.write = some w)
    (job : w.job = .store n img ∨ w.job = .write n img) : slotBytes s n = img := by
  unfold slotBytes writeOn
  rcases job with job | job <;> simp [hw, job, Job.slot?]

theorem slotBytes_cleared (hw : s.smc.write = some w) (job : w.job = .clear n) :
    slotBytes s n = List.replicate 128 0xFF := by
  unfold slotBytes writeOn
  simp [hw, job, Job.slot?, erasedByte]

theorem slotBytes_stored (h : ¬ ∃ w, s.smc.write = some w ∧ w.job.slot? = some n) :
    slotBytes s n = slotImage s.smc.slots n := by
  unfold slotBytes writeOn
  cases hw : s.smc.write with
  | none => rfl
  | some w => simp only [if_neg fun own => h ⟨w, hw, own⟩]

theorem suspendFor_stays (h : s.smc.write = none ∨ ∃ w, s.smc.write = some w ∧ w.job.slot? = some n) :
    suspendFor n s = s := by
  unfold suspendFor
  rcases h with none | ⟨w, hw, own⟩
  · rw [none]
  · rw [hw]
    exact if_pos own

theorem suspendFor_other (hw : s.smc.write = some w) (other : w.job.slot? ≠ some n) :
    suspendFor n s = { s with smc := { s.smc with
      write := some { w with resume := some (restart w.resume 1600) } } } := by
  unfold suspendFor
  rw [hw]
  exact if_neg other

theorem suspendFor_smc (n : SlotNo) (s : State) : ∃ m, suspendFor n s = { s with smc := m } := by
  unfold suspendFor
  split
  · split
    · exact ⟨s.smc, rfl⟩
    · exact ⟨_, rfl⟩
  · exact ⟨s.smc, rfl⟩

end

theorem readout_erased_iff (img : List Byte) : readout img = .erased ↔ img.getD 0 0 = 0xFF := by
  unfold readout
  split
  · rename_i h
    exact ⟨fun _ => h, fun _ => rfl⟩
  · rename_i h
    split <;> exact ⟨fun e => (nomatch e), fun e => absurd e h⟩

theorem readout_valid_iff (img : List Byte) : (∃ x, readout img = .valid x) ↔
    img.getD 0 0 = 0x3F ∧ img.getD 1 0 = 0x01 ∧ imageCheckOk img = true := by
  unfold readout
  split
  · rename_i h
    refine ⟨fun ⟨_, e⟩ => (nomatch e), fun ⟨e, _⟩ => ?_⟩
    rw [h] at e
    exact absurd e (by decide)
  · split
    · rename_i h
      exact ⟨fun _ => h, fun _ => ⟨_, rfl⟩⟩
    · rename_i h
      exact ⟨fun ⟨_, e⟩ => (nomatch e), fun e => absurd e h⟩

/-! ## The patch loaded -/

/-- A patch in a part's buffer, its flag cleared and the part's records re-armed. -/
def imageStored (p : Part) (x : Patch) (s : State) : State :=
  reArm (fun _ => true) p (s.setBuffer p { patch := x, modified := false })

/-- The same with the part's notes let go where the key mode changes. -/
def imageReleased (p : Part) (x : Patch) (s : State) : State :=
  if x.keyMode = (s.patch p).keyMode then imageStored p x s else releasePart p (imageStored p x s)

section
variable {s : State} {p : Part} {x : Patch}

theorem imageStored_patch (q : Part) : (imageStored p x s).patch q = if q = p then x else s.patch q :=
  setBuffer_patch ..

theorem imageStored_patch_own : (imageStored p x s).patch p = x := (imageStored_patch p).trans (if_pos rfl)

theorem loadImage_eq (p : Part) (x : Patch) (s : State) :
    loadImage p x s = recomputePart p (moveNotes s (imageReleased p x s)) := by
  show recomputePart p (moveNotes s (if ((imageStored p x s).patch p).keyMode = (s.patch p).keyMode then
    imageStored p x s else releasePart p (imageStored p x s))) = _
  rw [imageStored_patch_own]
  rfl

theorem EffectReach.trans {s t u : State} (a : EffectReach s t) (b : EffectReach t u) : EffectReach s u := by
  obtain ⟨blocks, gaps, glides⟩ := a
  obtain ⟨blocks', gaps', glides'⟩ := b
  rw [← blocks'] at blocks
  rw [← gaps'] at gaps
  rw [← glides'] at glides
  exact ⟨blocks, gaps, glides⟩

theorem imageReleased_reach (p : Part) (x : Patch) (s : State) :
    EffectReach (imageStored p x s) (imageReleased p x s) := by
  unfold imageReleased
  split
  · exact ⟨rfl, rfl, rfl⟩
  · exact releasePart_reach ..

theorem loadImage_reach (p : Part) (x : Patch) (s : State) :
    EffectReach (imageStored p x s) (loadImage p x s) := by
  rw [loadImage_eq]
  exact (imageReleased_reach p x s).trans ⟨rfl, rfl, rfl⟩

theorem imageReleased_ptu : (imageReleased p x s).ptu = s.ptu := by
  unfold imageReleased
  split
  · rfl
  · exact releasePart_ptu ..

theorem imageReleased_scale (q : Part) : ((imageReleased p x s).part q).scale = (s.part q).scale := by
  unfold imageReleased
  split
  · rfl
  · have h := congrArg (fun v => v.select.get q) (releasePart_pitchView (imageStored p x s) p)
    cases q <;> exact h

theorem imageReleased_patch_other {q : Part} (hq : q ≠ p) : (imageReleased p x s).patch q = s.patch q := by
  have ebu := (imageReleased_reach p x s).ebu
  refine (congrArg (fun b : Ebu => (b.buffers.get q).patch) ebu).trans ?_
  exact (imageStored_patch q).trans (if_neg hq)

theorem imageReleased_clamp (lists : VoiceLaw s) (v : VoiceNo) :
    ((imageReleased p x s).voice v).clamp = (s.voice v).clamp := by
  unfold imageReleased
  split
  · rfl
  · rw [releasePart_voice (VoiceLaw.of_val (s := s) (t := imageStored p x s) rfl lists)]
    rfl

theorem loadImage_buffer (q : Part) : (loadImage p x s).buffer q =
    if q = p then { patch := x, modified := false } else s.buffer q :=
  (congrArg (fun b : Ebu => b.buffers.get q) (loadImage_reach p x s).ebu).trans (setBuffer_buffer ..)

theorem loadImage_takeover (i : PotNo) (q : Part) : (loadImage p x s).takeover i q =
    if q = p then reArmed (s.potEntry i) (s.pot i).stable x else s.takeover i q := by
  refine (congrArg (fun b : Ebu => look (b.takeover.get q) i) (loadImage_reach p x s).ebu).trans ?_
  refine (reArm_takeover ..).trans (if_congr (and_iff_left rfl) ?_ rfl)
  rw [armed_eq]
  exact congrArg (reArmed _ _) imageStored_patch_own

theorem loadImage_stands (h : (s.patch p).keyMode = x.keyMode) :
    NotesStand s (loadImage p x s) ∧ (loadImage p x s).cvo = s.cvo := by
  have stored : imageReleased p x s = imageStored p x s := if_pos h.symm
  rw [loadImage_eq, stored]
  exact ⟨NotesStand.trans (.of_val rfl) (movedPart_stands (s := s) (t := imageStored p x s)), rfl⟩

theorem loadImage_released (h : (s.patch p).keyMode ≠ x.keyMode) (lists : VoiceLaw s) (solo : SoloLaw s) :
    PartReleased s (loadImage p x s) p (x.releaseMs * 8000) := by
  have released : imageReleased p x s = releasePart p (imageStored p x s) := if_neg fun e => h e.symm
  have tail : ((imageStored p x s).patch p).releaseTicks = x.releaseMs * 8000 :=
    congrArg Patch.releaseTicks imageStored_patch_own
  have lists' : VoiceLaw (imageStored p x s) := VoiceLaw.of_val (s := s) rfl lists
  have solo' : SoloLaw (imageStored p x s) := SoloLaw.of_val (s := s) rfl solo
  rw [loadImage_eq, released, ← tail]
  exact (releasePart_released lists' solo' p).congr (s := s) rfl rfl
    (movedPart_stands (s := s) (t := releasePart p (imageStored p x s))) rfl

theorem loadImage_glide (v : VoiceNo) : (loadImage p x s).glide v = { s.glide v with
    target := (s.glide v).target + pitchMove s (loadImage p x s) v
    pos := (s.glide v).pos + pitchMove s (loadImage p x s) v } := by
  rw [loadImage_eq]
  exact movedPart_glide (congrArg Ptu.glide imageReleased_ptu) v

theorem loadImage_own {i : SourceNo} (h : pitchPart s (sourceVoice i) = p) :
    look (loadImage p x s).ptu.codes i = (chain (loadImage p x s) i).1 ∧
      look ((loadImage p x s).voice (sourceVoice i)).clamp (sourceIdx i) = (chain (loadImage p x s) i).2 := by
  rw [loadImage_eq]
  exact movedPart_own (congrArg Ptu.glide imageReleased_ptu) h

theorem loadImage_other (lists : VoiceLaw s) {i : SourceNo} (h : pitchPart s (sourceVoice i) ≠ p) :
    look (loadImage p x s).ptu.codes i = look s.ptu.codes i ∧
      look ((loadImage p x s).voice (sourceVoice i)).clamp (sourceIdx i) =
        look (s.voice (sourceVoice i)).clamp (sourceIdx i) := by
  rw [loadImage_eq, ← imageReleased_clamp (p := p) (x := x) lists (sourceVoice i)]
  exact movedPart_other imageReleased_ptu imageReleased_scale (fun _ => imageReleased_patch_other) h

end

/-! ## The commands -/

section
variable {s : State} {n : SlotNo} {p : Part}

theorem slotRead_slot (s : State) (n : SlotNo) : slotRead (BitVec.ofNat 16 n.val) s =
    answer (suspendFor n s) (readout (slotBytes s n)).code (slotBytes s n) := by
  unfold slotRead
  rw [slot?_val]

theorem patchRecall_erased (h : readout (slotBytes s n) = .erased) :
    patchRecall (BitVec.ofNat 16 n.val) (partByte p) s = answer (suspendFor n s) .empty [] := by
  unfold patchRecall
  simp only [slot?_val, part?_partByte, h]

theorem patchRecall_damaged (h : readout (slotBytes s n) = .damaged) :
    patchRecall (BitVec.ofNat 16 n.val) (partByte p) s = answer (suspendFor n s) .damaged [] := by
  unfold patchRecall
  simp only [slot?_val, part?_partByte, h]

theorem patchRecall_valid {x : Patch} (h : readout (slotBytes s n) = .valid x) :
    patchRecall (BitVec.ofNat 16 n.val) (partByte p) s = ok (kick (loadImage p x (suspendFor n s))) [] := by
  unfold patchRecall
  simp only [slot?_val, part?_partByte, h]

end

/-- Settles O42: the bytes are those stored or those of the write's own target, and a VALID patch is loaded into
the state with the other write suspended. -/
theorem slotReadAndRecallReadTheSlot : Obligations.SlotReadAndRecallReadTheSlot := by
  intro s n hears own
  refine ⟨slotBytes s n, suspendFor n s, suspendFor_stays, fun w hw other => ?_, fun other => ?_,
    fun _ _ => slotBytes_image, fun _ => slotBytes_cleared, readout_erased_iff _, readout_valid_iff _, ?_, fun p => ?_⟩
  · exact suspendFor_other hw fun h => other ⟨w, hw, h⟩
  · rw [slotBytes_stored other]
    exact ⟨slotImage_length .., fun a ha => slotImage_getD ha⟩
  · refine (hostCommand_taken hears).trans ?_
    rw [slotRead_slot]
    cases readout (slotBytes s n) <;> rfl
  · have out := hostCommand_taken (c := .patchRecall (BitVec.ofNat 16 n.val) (partByte p))
      (f := patchRecall (BitVec.ofNat 16 n.val) (partByte p)) hears
    intro c
    refine ⟨fun erased => ?_, fun damaged => ?_, fun x valid lists solo => ?_⟩
    · rw [patchRecall_erased erased] at out
      exact out
    · rw [patchRecall_damaged damaged] at out
      exact out
    · rw [patchRecall_valid valid] at out
      obtain ⟨m, hm⟩ := suspendFor_smc n s
      have lists' : VoiceLaw { s with smc := m } := .of_val (s := s) rfl lists
      have solo' : SoloLaw { s with smc := m } := .of_val (s := s) rfl solo
      have reach := loadImage_reach p x { s with smc := m }
      have ebu := reach.ebu
      rw [hm] at out ⊢
      refine ⟨_, out, fun q => loadImage_buffer q, fun i => ?_, fun i q hq => ?_, fun same => ?_, fun mode => ?_,
        fun v => ?_, fun i h => ?_, fun i h => ?_, ?_, ?_, ?_, ?_, ?_, reach.gaps, reach.glides⟩
      · exact (loadImage_takeover i p).trans (if_pos rfl)
      · exact (loadImage_takeover i q).trans (if_neg hq)
      · obtain ⟨stands, cvo⟩ := loadImage_stands (s := { s with smc := m }) same
        exact ⟨NotesStand.trans (.of_val rfl) stands, cvo⟩
      · exact (loadImage_released (s := { s with smc := m }) mode lists' solo').congr rfl rfl (.of_val rfl) rfl
      · exact loadImage_glide v
      · exact loadImage_own (s := { s with smc := m }) h
      · exact loadImage_other lists' h
      · rw [ebu]
        rfl
      · rw [ebu]
        rfl
      · rw [ebu]
        rfl
      · exact (congrArg State.smc reach.blocks :)
      · exact congrArg (fun u : State => { u with ebu := s.ebu, smc := s.smc }) reach.blocks

end Sys2Proof.Machine
end

