-- ==== Sys2Proof/Proofs/SourceCodes.lean ====
section
/-! When the code of one source is what the chain of arithmetic gives, what that reads of a state, and how
recomputation, hand-over and the moves of note pitches keep it or bring it about (R45, R59, R61). -/

namespace Sys2Proof.Machine

/-! ## What the chain reads of one source -/

/-- The pitch that a voice's state fixes for its sources, if any (R45). -/
def VoiceStatus.fixedPitch? : VoiceStatus → Option Int
  | .tuning _ _ => some 69000
  | .parked _ => some 60000
  | _ => none

theorem sourcePitch_eq (s : State) (v : VoiceNo) (i : SourceIdx) :
    sourcePitch s v i = ((s.status v).fixedPitch?).getD (stage4 s v i) := by
  unfold sourcePitch
  cases s.status v <;> rfl

/-- The parameters that Stages 3 and 4 read: bend range, detune, interval, cutoff and track (R52, R55, R56). -/
def pitchParams : List ParamNo := [71, 74, 75, 76, 77]

/-- Two states agree on all that the law of source codes reads of one source. -/
structure SameSource (s t : State) (n : SourceNo) : Prop where
  code : look t.ptu.codes n = look s.ptu.codes n
  clamp : look (t.voice (sourceVoice n)).clamp (sourceIdx n) =
    look (s.voice (sourceVoice n)).clamp (sourceIdx n)
  record : (t.record n).codes = (s.record n).codes
  fixed : (t.status (sourceVoice n)).fixedPitch? = (s.status (sourceVoice n)).fixedPitch?
  slop : (t.voice (sourceVoice n)).slop = (s.voice (sourceVoice n)).slop
  part : (t.glide (sourceVoice n)).part = (s.glide (sourceVoice n)).part
  pos : (t.glide (sourceVoice n)).pos = (s.glide (sourceVoice n)).pos
  unison : look t.ptu.unison (sourceVoice n) = look s.ptu.unison (sourceVoice n)
  master : t.ptu.master = s.ptu.master
  bend : (t.part (pitchPart s (sourceVoice n))).bend = (s.part (pitchPart s (sourceVoice n))).bend
  param : ∀ m ∈ pitchParams, (t.patch (pitchPart s (sourceVoice n))).param m =
    (s.patch (pitchPart s (sourceVoice n))).param m

theorem SameSource.refl (s : State) (n : SourceNo) : SameSource s s n :=
  ⟨rfl, rfl, rfl, rfl, rfl, rfl, rfl, rfl, rfl, rfl, fun _ _ => rfl⟩

/-- What the law of source codes reads of a state outside the records of the voices. -/
def sharedInputs (s : State) :=
  (s.part, s.ptu.codes, s.ptu.master, s.ptu.unison, s.glide, s.record, s.patch)

theorem SameSource.of_inputs {s t : State} {n : SourceNo}
    (voice : t.voice (sourceVoice n) = s.voice (sourceVoice n)) (shared : sharedInputs t = sharedInputs s) :
    SameSource s t n := by
  simp only [sharedInputs, Prod.mk.injEq] at shared
  obtain ⟨part, codes, master, unison, glide, record, patch⟩ := shared
  exact
    { code := by rw [codes]
      clamp := by rw [voice]
      record := by rw [record]
      fixed := by unfold State.status; rw [voice]
      slop := by rw [voice]
      part := by rw [glide]
      pos := by rw [glide]
      unison := by rw [unison]
      master := master
      bend := by rw [part]
      param := fun _ _ => by rw [patch] }

theorem SameSource.chain_eq {s t : State} {n : SourceNo} (h : SameSource s t n) : chain t n = chain s n := by
  have part : pitchPart t (sourceVoice n) = pitchPart s (sourceVoice n) := h.part
  have common : commonPitch t (sourceVoice n) = commonPitch s (sourceVoice n) := by
    simp only [commonPitch, part, h.pos, h.bend, h.master, h.slop, h.unison, Patch.bendRange,
      h.param 71 (by decide)]
  have formed : stage4 t (sourceVoice n) (sourceIdx n) = stage4 s (sourceVoice n) (sourceIdx n) := by
    simp only [stage4, part, common, Patch.interval, Patch.detune, Patch.cutoff, Patch.track,
      h.param 74 (by decide), h.param 75 (by decide), h.param 76 (by decide), h.param 77 (by decide)]
  have codes : (look t.cal.records n).codes = (look s.cal.records n).codes := h.record
  simp only [chain, sourcePitch_eq, h.fixed, formed, codes]

/-! ## A current code -/

/-- The code and clamp flag of a source are what the chain gives as the state stands. -/
def CodeCurrent (s : State) (n : SourceNo) : Prop :=
  look s.ptu.codes n = (chain s n).1 ∧
    look (s.voice (sourceVoice n)).clamp (sourceIdx n) = (chain s n).2

theorem CodeCurrent.congr {s t : State} {n : SourceNo} (same : SameSource s t n) (h : CodeCurrent s n) :
    CodeCurrent t n := by
  unfold CodeCurrent
  rw [same.code, same.clamp, same.chain_eq]
  exact h

/-- Each code that is current in one state is current in another. -/
structure CodesKept (s t : State) : Prop where
  current : ∀ {n}, CodeCurrent s n → CodeCurrent t n

theorem CodesKept.refl (s : State) : CodesKept s s := ⟨id⟩

theorem CodesKept.trans {s t u : State} (a : CodesKept s t) (b : CodesKept t u) : CodesKept s u :=
  ⟨fun h => b.current (a.current h)⟩

theorem CodesKept.of_same {s t : State} (h : ∀ n, SameSource s t n) : CodesKept s t :=
  ⟨CodeCurrent.congr (h _)⟩

theorem CodesKept.of_inputs {s t : State} (voices : t.voice = s.voice)
    (shared : sharedInputs t = sharedInputs s) : CodesKept s t :=
  .of_same fun _ => .of_inputs (congrFun voices _) shared

/-- Steps for each element of a list keep what one step keeps. -/
theorem CodesKept.foldl {α : Type} {f : State → α → State} (h : ∀ s x, CodesKept s (f s x)) (l : List α)
    (s : State) : CodesKept s (l.foldl f s) := by
  induction l generalizing s with
  | nil => exact .refl s
  | cons x l ih => exact (h s x).trans (ih _)

/-! ## Recomputation (R61) -/

theorem recompute_codes (sel : SourceNo → Bool) (s : State) : CodesKept s (recompute sel s) := by
  refine ⟨fun {n} h => ?_⟩
  by_cases chosen : sel n = true
  · exact recompute_current s sel chosen
  · unfold CodeCurrent
    rw [recompute_code, recompute_clamp, recompute_chain, if_neg chosen, if_neg chosen]
    exact h

/-- A recomputation repairs what a change has done to the codes of the sources it chooses. -/
theorem CodesKept.recompute {s t : State} {sel : SourceNo → Bool}
    (h : ∀ n, sel n = false → CodeCurrent s n → CodeCurrent t n) : CodesKept s (recompute sel t) := by
  refine ⟨fun {n} current => ?_⟩
  by_cases chosen : sel n = true
  · exact recompute_current t sel chosen
  · exact (recompute_codes sel t).current (h n (Bool.eq_false_iff.2 chosen) current)

/-- A voice is changed, and recomputed. -/
theorem CodesKept.recomputeVoice {s t : State} {v : VoiceNo}
    (h : ∀ n, sourceVoice n ≠ v → SameSource s t n) : CodesKept s (recomputeVoice v t) :=
  .recompute fun n other => (CodeCurrent.congr (h n (beq_eq_false_iff_ne.1 other)))

theorem recomputeVoice_codeCurrent {v : VoiceNo} (s : State) {n : SourceNo} (h : sourceVoice n = v) :
    CodeCurrent (recomputeVoice v s) n := recompute_current s _ (beq_iff_eq.2 h)

theorem recomputeAll_codesLaw (s : State) : CodesLaw (recomputeAll s) := recomputeAll_current s

/-! ## Glides -/

theorem setGlide_other (s : State) {v : VoiceNo} (g : Glide) {n : SourceNo} (h : sourceVoice n ≠ v) :
    SameSource s (s.setGlide v g) n where
  __ := SameSource.refl s _
  part := by rw [setGlide_glide, if_neg h]
  pos := by rw [setGlide_glide, if_neg h]

theorem handOver_codes (v : VoiceNo) (p : Part) (k : Nat) (another : Bool) (s : State) :
    CodesKept s (handOver v p k another s) := by
  unfold handOver
  exact .recomputeVoice fun _ => setGlide_other s _

/-- A hand-over leaves the codes of its voice current, whatever they were. -/
theorem handOver_codeCurrent {v : VoiceNo} (p : Part) (k : Nat) (another : Bool) (s : State) {n : SourceNo}
    (h : sourceVoice n = v) : CodeCurrent (handOver v p k another s) n := by
  unfold handOver
  exact recomputeVoice_codeCurrent _ h

theorem glideUpdate_codes (v : VoiceNo) (s : State) : CodesKept s (glideUpdate v s) := by
  unfold glideUpdate
  simp only
  split
  · exact .refl s
  · exact .recomputeVoice fun _ => setGlide_other s _

/-- Whatever note pitches move, the voices that move are recomputed (R44). -/
theorem moveNotes_codes (old s : State) : CodesKept s (moveNotes old s) := by
  unfold moveNotes
  refine .recompute fun n still => CodeCurrent.congr ?_
  have zero : noteMove old s (sourceVoice n) = 0 := bne_eq_false_iff_eq.1 still
  have stays : look (tabulate fun v => { s.glide v with
      target := (s.glide v).target + noteMove old s v, pos := (s.glide v).pos + noteMove old s v })
      (sourceVoice n) = s.glide (sourceVoice n) := by
    rw [look_tabulate, zero]
    simp
  exact { SameSource.refl s _ with part := congrArg Glide.part stays, pos := congrArg Glide.pos stays }

/-! ## Updates of one voice, part or buffer -/

theorem setVoice_other (s : State) {v : VoiceNo} (x : Voice) {n : SourceNo} (h : sourceVoice n ≠ v) :
    SameSource s (s.setVoice v x) n :=
  .of_inputs (by rw [setVoice_voice, if_neg h]) rfl

/-- A change of state that leaves TUNING and PARKED as they are. -/
theorem setStatus_codes (s : State) (v : VoiceNo) {x : VoiceStatus}
    (h : x.fixedPitch? = (s.status v).fixedPitch?) : CodesKept s (s.setStatus v x) := by
  refine .of_same fun n => ?_
  by_cases hv : sourceVoice n = v
  · have voice : (s.setStatus v x).voice (sourceVoice n) = { s.voice (sourceVoice n) with status := x } := by
      rw [setStatus_voice, if_pos hv, hv]
    exact
      { SameSource.refl s _ with
        clamp := by rw [voice]
        fixed := by rw [setStatus_status, if_pos hv, h, hv]
        slop := by rw [voice] }
  · exact setVoice_other s _ hv

/-- A change of a part record that leaves its bend. -/
theorem modPart_codes (s : State) (p : Part) {f : PartRec → PartRec}
    (h : (f (s.part p)).bend = (s.part p).bend) : CodesKept s (s.modPart p f) :=
  .of_same fun _ =>
    { SameSource.refl s _ with
      bend := by
        rw [modPart_part]
        split
        · rename_i hp
          rw [h, hp]
        · rfl }

theorem setKeys_codes (s : State) (p : Part) (l : List Nat) : CodesKept s (s.setKeys p l) :=
  modPart_codes s p rfl

theorem setSolo_codes (s : State) (p : Part) (g : Option VoiceSet) : CodesKept s (s.setSolo p g) :=
  modPart_codes s p rfl

/-- An edit buffer whose patch differs in no parameter that pitches are formed of. -/
theorem setBuffer_codes (s : State) (p : Part) {b : EditBuffer}
    (h : ∀ m ∈ pitchParams, b.patch.param m = (s.patch p).param m) : CodesKept s (s.setBuffer p b) :=
  .of_same fun _ =>
    { SameSource.refl s _ with
      param := fun m hm => by
        rw [setBuffer_patch]
        split
        · rename_i hp
          rw [h m hm, hp]
        · rfl }

/-- A part's edit buffer does not reach the sources whose pitch part is the other. -/
theorem setBuffer_other (s : State) {p : Part} (b : EditBuffer) {n : SourceNo}
    (h : pitchPart s (sourceVoice n) ≠ p) : SameSource s (s.setBuffer p b) n where
  __ := SameSource.refl s _
  param m _ := by rw [setBuffer_patch, if_neg h]

theorem detach_codes (s : State) (v : VoiceNo) : CodesKept s (s.detach v) :=
  .of_same fun _ => { SameSource.refl s _ with bend := by rw [detach_part] }

/-- A record with the codes that stand. -/
theorem setRecord_codes (s : State) (n : SourceNo) {r : SourceRec} (h : r.codes = (s.record n).codes) :
    CodesKept s (s.setRecord n r) :=
  .of_same fun i =>
    { SameSource.refl s _ with
      record := by
        show (look (put s.cal.records n r) i).codes = _
        rw [look_put]
        split
        · rename_i hi
          rw [h, hi]
        · rfl }

/-! ## Updates that the chain does not read -/

section
variable (s : State)

theorem setFreeList_codes (l : List VoiceNo) : CodesKept s (s.setFreeList l) := .of_inputs rfl rfl
theorem setReleaseOrder_codes (l : List VoiceNo) : CodesKept s (s.setReleaseOrder l) := .of_inputs rfl rfl
theorem toStartTail_codes (p : Part) (v : VoiceNo) : CodesKept s (s.toStartTail p v) := .of_inputs rfl rfl
theorem setGap_codes (v : VoiceNo) (x : Option Countdown) : CodesKept s (s.setGap v x) := .of_inputs rfl rfl
theorem mark_codes (m : Mark) : CodesKept s (s.mark m) := .of_inputs rfl rfl
theorem setPlan_codes (l : List Entry) : CodesKept s (s.setPlan l) := .of_inputs rfl rfl
theorem setMode_codes (m : TuneMode) : CodesKept s (s.setMode m) := .of_inputs rfl rfl
theorem setLastM_codes (m : Option Nat) : CodesKept s (s.setLastM m) := .of_inputs rfl rfl
theorem setFailed_codes (m : VoiceSet) : CodesKept s (s.setFailed m) := .of_inputs rfl rfl
theorem setActivity_codes (a : Activity) : CodesKept s (s.setActivity a) := .of_inputs rfl rfl
theorem setCurrent_codes (c : Option Current) : CodesKept s (s.setCurrent c) := .of_inputs rfl rfl
theorem setPsc_codes (x : Psc) : CodesKept s (s.setPsc x) := .of_inputs rfl rfl
theorem setPot_codes (q : PotNo) (x : Pot) : CodesKept s (s.setPot q x) := .of_inputs rfl rfl
theorem setSwitch_codes (n : SwitchNo) (x : Switch) : CodesKept s (s.setSwitch n x) := .of_inputs rfl rfl
theorem setFocus_codes (f : Focus) : CodesKept s (s.setFocus f) := .of_inputs rfl rfl
theorem setSmc_codes (x : Smc) : CodesKept s (s.setSmc x) := .of_inputs rfl rfl
theorem setLnk_codes (x : Lnk) : CodesKept s (s.setLnk x) := .of_inputs rfl rfl

theorem setTakeover_codes (q : PotNo) (p : Part) (x : Takeover) : CodesKept s (s.setTakeover q p x) :=
  .of_inputs rfl rfl

theorem reArm_codes (sel : PotNo → Bool) (p : Part) : CodesKept s (reArm sel p s) := .of_inputs rfl rfl

end

end Sys2Proof.Machine
end

