-- ==== Sys2Proof/Proofs/SourceCodesOfNotes.lean ====
section
/-! Transitions of a voice, what the engine gives up and placements keep source codes current (R15, R45, R61). -/

namespace Sys2Proof.Machine

/-! ## Transitions of a voice -/

theorem inPhase_fixedPitch (x : VoiceStatus) (ph : BoundPhase) :
    (x.inPhase ph).fixedPitch? = x.fixedPitch? := by cases x <;> rfl

theorem withNote_fixedPitch (x : VoiceStatus) (f : Note → Note) :
    (x.withNote f).fixedPitch? = x.fixedPitch? := by cases x <;> rfl

theorem onPart_fixedPitch {x : VoiceStatus} {p : Part} (h : x.onPart p = true) : x.fixedPitch? = none := by
  cases x with
  | bound n ph => rfl
  | _ => cases h

section
variable (s : State)

theorem setPhase_codes (v : VoiceNo) (ph : BoundPhase) : CodesKept s (s.setPhase v ph) := by
  rw [setPhase_eq]
  exact setStatus_codes s v (inPhase_fixedPitch ..)

theorem modNote_codes (v : VoiceNo) (f : Note → Note) : CodesKept s (s.modNote v f) := by
  rw [modNote_eq]
  exact setStatus_codes s v (withNote_fixedPitch ..)

/-- A voice that its state gives no fixed pitch goes to FREE without a recomputation. -/
theorem enterFree_codes {v : VoiceNo} (h : (s.status v).fixedPitch? = none) : CodesKept s (s.enterFree v) :=
  ((detach_codes s v).trans (setStatus_codes (x := .free) _ v h.symm)).trans (setFreeList_codes ..)

theorem enterReleasing_codes (v : VoiceNo) (tail : Nat) : CodesKept s (s.enterReleasing v tail) := by
  unfold State.enterReleasing
  split
  · rename_i n _ h
    have status : CodesKept s (s.setStatus v (.bound n (.releasing tail))) :=
      setStatus_codes s v (by rw [h]; rfl)
    exact (status.trans (setGap_codes ..)).trans (setReleaseOrder_codes ..)
  · exact .refl s

theorem retriggerGate_codes (v : VoiceNo) : CodesKept s (retriggerGate v s) := by
  unfold retriggerGate
  split
  · exact (setPhase_codes s v .held).trans (setGap_codes ..)
  · exact .refl s

theorem retriggerOne_codes (p : Part) (vel : Nat) (v : VoiceNo) : CodesKept s (retriggerOne p vel s v) :=
  ((modNote_codes ..).trans (retriggerGate_codes ..)).trans (toStartTail_codes ..)

theorem soloRegate_codes (v : VoiceNo) : CodesKept s (soloRegate s v) := by
  unfold soloRegate
  split
  · exact (setPhase_codes s v .held).trans (setReleaseOrder_codes ..)
  · exact retriggerGate_codes ..

theorem endVoice_codes (p : Part) (v : VoiceNo) : CodesKept s (endVoice p s v) := by
  rw [endVoice_eq]
  split
  · rename_i h
    exact enterFree_codes s (by rw [h]; rfl)
  · rename_i h
    split
    · exact setStatus_codes s v (by rw [h]; rfl)
    · exact enterReleasing_codes ..
  · exact .refl s

theorem modeChangeVoice_codes (p : Part) (v : VoiceNo) : CodesKept s (modeChangeVoice p s v) := by
  rw [modeChangeVoice_eq]
  split
  · rename_i h
    exact enterFree_codes s (by rw [h]; rfl)
  · exact enterReleasing_codes ..
  · exact enterReleasing_codes ..
  · exact .refl s

theorem releasePart_codes (p : Part) : CodesKept s (releasePart p s) :=
  ((CodesKept.foldl (fun t v => modeChangeVoice_codes t p v) _ s).trans (setKeys_codes _ p [])).trans
    (setSolo_codes _ p none)

theorem releaseSustained_codes (p : Part) : CodesKept s (releaseSustained p s) :=
  .foldl (fun t v => enterReleasing_codes t v _) _ s

/-- Voices that no state fixes a pitch for go to FREE one after another. -/
theorem enterFree_all_codes (l : List VoiceNo) (h : ∀ v ∈ l, (s.status v).fixedPitch? = none) :
    CodesKept s (l.foldl State.enterFree s) := by
  induction l generalizing s with
  | nil => exact .refl s
  | cons v l ih =>
    refine (enterFree_codes s (h v List.mem_cons_self)).trans (ih _ fun w hw => ?_)
    rw [enterFree_status]
    split
    · rfl
    · exact h w (List.mem_cons_of_mem v hw)

theorem clearPart_codes (p : Part) : CodesKept s (clearPart s p) := by
  unfold clearPart
  refine (enterFree_all_codes s _ fun v hv => ?_).trans (modPart_codes _ p rfl)
  exact onPart_fixedPitch (List.mem_filter.1 hv).2

end

/-! ## What the bus and a measurement given up leave -/

theorem BusOnly.codes {s t : State} (h : BusOnly s t) : CodesKept s t := by
  unfold BusOnly at h
  rw [← h]
  exact .of_inputs rfl rfl

theorem EngineReach.codes {s t : State} (h : EngineReach s t) : CodesKept s t := by
  unfold EngineReach at h
  rw [← h]
  exact .of_inputs rfl rfl

/-! ## Placement (R15, R54) -/

section
variable (s : State)

/-- A placement does not reach the sources of another voice. -/
theorem placeOne_other (p : Part) (k vel size : Nat) {v : VoiceNo} (b : FoundBy) (j : Nat) {n : SourceNo}
    (h : sourceVoice n ≠ v) (current : CodeCurrent s n) :
    CodeCurrent (placeOne p k vel size s ((v, b), j)) n := by
  have placed (t : State) {b : FoundBy} (hb : b ≠ .background) (current : CodeCurrent t n) :
      CodeCurrent (placeOne p k vel size t ((v, b), j)) n := by
    have voice := placeOne_voice_ne' p k vel size t v (sourceVoice n) b j h
    rw [placeOne_eq p k vel size t v j hb] at voice ⊢
    exact ((detach_codes t v).current current).congr (.of_inputs (s := t.detach v) voice rfl)
  by_cases hb : b = .background
  · subst hb
    rw [placeOne_background]
    exact placed _ (by decide) (((engineLoses_reach v s).codes.current current))
  · exact placed s hb current

theorem placeAll_other (p : Part) (k vel : Nat) (found : Found) {n : SourceNo}
    (h : sourceVoice n ∉ found.map Prod.fst) (current : CodeCurrent s n) :
    CodeCurrent (placeAll p k vel found s) n := by
  unfold placeAll
  generalize (s.patch p).unison = size
  have out : ∀ x ∈ found.zipIdx, x.1.1 ≠ sourceVoice n := fun x hx e =>
    h (e ▸ List.mem_map_of_mem (List.fst_mem_of_mem_zipIdx hx))
  generalize found.zipIdx = l at out
  induction l generalizing s with
  | nil => exact current
  | cons x l ih =>
    obtain ⟨⟨v, b⟩, j⟩ := x
    refine ih _ (placeOne_other s p k vel size b j ?_ current) fun y hy => out y (List.mem_cons_of_mem _ hy)
    exact (out _ List.mem_cons_self).symm

theorem setUnison_other {v : VoiceNo} (p : Part) {n : SourceNo} (h : sourceVoice n ≠ v) :
    SameSource s (setUnison v p s) n where
  __ := SameSource.refl s _
  unison := look_put_ne _ _ h

/-- The hand-overs keep every current code and bring about those of the voices handed over. -/
theorem handAll_codeCurrent (p : Part) (k : Nat) (another : Bool) (found : Found) {n : SourceNo}
    (h : CodeCurrent s n ∨ sourceVoice n ∈ found.map Prod.fst) :
    CodeCurrent (handAll p k another found s) n := by
  unfold handAll
  induction found generalizing s with
  | nil => exact h.resolve_right List.not_mem_nil
  | cons x l ih =>
    refine ih _ ?_
    by_cases hx : sourceVoice n = x.1
    · exact .inl (handOver_codeCurrent p k another _ hx)
    · rcases h with current | mem
      · exact .inl ((handOver_codes ..).current (current.congr (setUnison_other s p hx)))
      · exact .inr ((List.mem_cons.1 mem).resolve_left hx)

theorem place_codes (p : Part) (k vel : Nat) (found : Found) : CodesKept s (place p k vel found s) := by
  refine ⟨fun {n} current => ?_⟩
  rw [place_eq]
  refine handAll_codeCurrent _ p k _ found ?_
  by_cases h : sourceVoice n ∈ found.map Prod.fst
  · exact .inr h
  · exact .inl ((modPart_codes _ p rfl).current (placeAll_other s p k vel found h current))

end

end Sys2Proof.Machine
end

