-- ==== Sys2Proof/Proofs/SourceCodesOfEngine.lean ====
section
/-! The Tune Engine keeps source codes current: each voice lent or returned and each commit is recomputed (R24,
R25, R64, R65). -/

namespace Sys2Proof.Machine

section
variable (s : State)

/-! ## Voices lent and returned (R24, R25) -/

theorem setStatus_other {v : VoiceNo} (x : VoiceStatus) {n : SourceNo} (h : sourceVoice n ≠ v) :
    SameSource s (s.setStatus v x) n := setVoice_other s _ h

/-- A voice leaves its lists for another state, and is recomputed. -/
theorem detached_recompute_codes (v : VoiceNo) (x : VoiceStatus) :
    CodesKept s (recomputeVoice v ((s.detach v).setStatus v x)) :=
  (detach_codes s v).trans (.recomputeVoice fun _ => setStatus_other _ x)

theorem claimVoice_codes (v : VoiceNo) (fg : Bool) : CodesKept s (claimVoice v fg s) := by
  have relent (x : VoiceStatus) : CodesKept s (recomputeVoice v (s.setStatus v x)) :=
    .recomputeVoice fun _ => setStatus_other s x
  unfold claimVoice
  split
  · exact (relent _).trans (setFailed_codes ..)
  · exact relent _
  · exact detached_recompute_codes ..

theorem parkVoice_codes (v : VoiceNo) (r : ParkReason) : CodesKept s (parkVoice v r s) :=
  (detached_recompute_codes s v (.parked r)).trans (setFailed_codes ..)

theorem enterFree_other {v : VoiceNo} {n : SourceNo} (h : sourceVoice n ≠ v) :
    SameSource s (s.enterFree v) n where
  __ := SameSource.refl s _
  clamp := by rw [enterFree_voice, if_neg h]
  fixed := by rw [enterFree_status, if_neg h]
  slop := by rw [enterFree_voice, if_neg h]
  bend := by cases pitchPart s (sourceVoice n) <;> rfl

theorem freeVoice_codes (v : VoiceNo) : CodesKept s (freeVoice v s) :=
  ((CodesKept.recomputeVoice fun _ => enterFree_other s).trans (setFailed_codes ..))

theorem returnVoice_codes (v : VoiceNo) : CodesKept s (returnVoice v s) := by
  unfold returnVoice
  split
  · split
    · exact parkVoice_codes ..
    · exact freeVoice_codes ..
  · exact freeVoice_codes ..
  · exact .refl s

/-! ## Choosing work (R84, R85) -/

theorem startNext_codes : CodesKept s (startNext s) := by
  unfold startNext
  split
  · exact (beginMeasurement_only s).codes
  · split
    · rename_i e _
      have claimed : CodesKept s (if (s.status e.voice).isFree then claimVoice e.voice false s else s) := by
        split
        · exact claimVoice_codes ..
        · exact .refl s
      exact (claimed.trans (setCurrent_codes ..)).trans (beginMeasurement_only _).codes
    · exact setActivity_codes ..

theorem kick_codes : CodesKept s (kick s) := by
  unfold kick
  split
  · exact startNext_codes s
  · exact .refl s

/-! ## The end of an entry (R98 to R101) -/

theorem doneIfEmpty_codes : CodesKept s (doneIfEmpty s) := by
  unfold doneIfEmpty
  split
  · exact mark_codes ..
  · exact .refl s

theorem dropEntry_codes (c : Current) : CodesKept s (dropEntry c s) :=
  (setPlan_codes ..).trans (setCurrent_codes ..)

theorem returnIfDone_codes (v : VoiceNo) : CodesKept s (returnIfDone v s) := by
  unfold returnIfDone
  split
  · exact .refl s
  · exact returnVoice_codes ..

/-- A commit is recomputed where it changes a record (R64). -/
theorem commit_codes (n : SourceNo) (codes : Vector Nat 9) : CodesKept s (commit n codes s) := by
  refine .recompute fun i other => CodeCurrent.congr { SameSource.refl s _ with record := ?_ }
  exact congrArg SourceRec.codes (look_put_ne _ _ (beq_eq_false_iff_ne.1 other))

theorem entrySucceeds_codes (c : Current) (codes : Vector Nat 9) : CodesKept s (entrySucceeds c codes s) :=
  (((dropEntry_codes ..).trans (commit_codes ..)).trans (returnIfDone_codes ..)).trans (doneIfEmpty_codes _)

theorem reportFailure_codes (n : SourceNo) (r : FailReason) : CodesKept s (reportFailure n r s) :=
  setRecord_codes s n rfl

theorem entryFails_codes (c : Current) (r : FailReason) : CodesKept s (entryFails c r s) := by
  have reported : CodesKept s ((reportFailure c.source r (dropEntry c s)).mark (.tuneFailed c.source)) :=
    ((dropEntry_codes s c).trans (reportFailure_codes ..)).trans (mark_codes ..)
  unfold entryFails
  simp only
  split
  · exact ((((reported.trans (setFailed_codes ..)).trans (setPlan_codes ..)).trans (parkVoice_codes ..)).trans
      (mark_codes ..)).trans (doneIfEmpty_codes _)
  · exact ((reported.trans (setFailed_codes ..)).trans (returnIfDone_codes ..)).trans (doneIfEmpty_codes _)

/-! ## The search (R95 to R97) -/

theorem convergeAt_codes (c : Current) : CodesKept s (convergeAt c s) := by
  unfold convergeAt
  split
  · simp only
    split
    · exact setCurrent_codes ..
    · exact entrySucceeds_codes ..
  · exact entryFails_codes ..

theorem correctTrial_codes (c : Current) (m : Nat) : CodesKept s (correctTrial c m s) := by
  unfold correctTrial
  simp only
  split
  · exact entryFails_codes ..
  · split
    · exact (setCurrent_codes ..).trans (entryFails_codes ..)
    · exact setCurrent_codes ..

theorem applyCount_codes (m : Nat) : CodesKept s (applyCount m s) := by
  unfold applyCount
  refine (setLastM_codes s (some m)).trans ?_
  simp only
  split
  · split
    · exact convergeAt_codes ..
    · exact correctTrial_codes ..
  · exact .refl _

theorem applyNoSignal_codes : CodesKept s (applyNoSignal s) := by
  unfold applyNoSignal
  refine (setLastM_codes s none).trans ?_
  simp only
  split
  · exact entryFails_codes ..
  · exact .refl _

theorem afterMeasurement_codes : CodesKept s (afterMeasurement s) := by
  unfold afterMeasurement
  split
  · exact startNext_codes s
  · exact (setMode_codes ..).trans (setActivity_codes ..)
  · exact setActivity_codes ..

theorem endMeasurement_codes (count : Option Nat) : CodesKept s (endMeasurement count s) := by
  unfold endMeasurement
  refine (releaseBus_only .engine s).codes.trans (CodesKept.trans ?_ (afterMeasurement_codes _))
  split
  · exact applyCount_codes ..
  · exact applyNoSignal_codes _

/-! ## Events of a measurement -/

theorem settlingExpiry_codes : CodesKept s (settlingExpiry s) := by
  unfold settlingExpiry
  split
  · exact setActivity_codes ..
  · exact .refl s

theorem firstProbeEdge_codes (e : Edge) : CodesKept s (firstProbeEdge e s) := by
  unfold firstProbeEdge
  split
  · split
    · exact setActivity_codes ..
    · exact .refl s
  · exact .refl s

theorem gateClose_codes (e : Edge) (ticks : Nat) : CodesKept s (gateClose e ticks s) := by
  unfold gateClose
  split
  · split
    · exact .refl s
    · split
      · exact endMeasurement_codes ..
      · split
        · exact setActivity_codes ..
        · exact endMeasurement_codes ..
  · exact .refl s

theorem gateWindowExpiry_codes : CodesKept s (gateWindowExpiry s) := by
  unfold gateWindowExpiry
  split
  · exact endMeasurement_codes ..
  · exact endMeasurement_codes ..
  · exact .refl s

/-! ## The engine's commands -/

theorem claimAll_codes (l : List VoiceNo) : CodesKept s (claimAll l s) := by
  refine CodesKept.foldl (fun t v => ?_) l s
  split
  · exact .refl t
  · exact claimVoice_codes ..

theorem tuneAdd_codes (voices : VoiceSet) (sources mode : Byte) :
    CodesKept s (tuneAdd voices sources mode s).1 := by
  unfold tuneAdd
  split
  · exact .refl s
  · split
    · exact .refl s
    · simp only [ok_fst]
      refine CodesKept.trans ?_ (kick_codes _)
      split
      · exact (setPlan_codes ..).trans (claimAll_codes ..)
      · exact setPlan_codes ..

theorem tuneRun_codes (action : Byte) : CodesKept s (tuneRun action s).1 := by
  unfold tuneRun
  split
  · exact (setMode_codes ..).trans (kick_codes _)
  · exact .refl s

theorem tuneStep_codes : CodesKept s (tuneStep s).1 := by
  unfold tuneStep
  split
  · exact (setMode_codes ..).trans (kick_codes _)
  · exact .refl s

theorem cancelVoice_codes (v : VoiceNo) : CodesKept s (cancelVoice s v) := by
  unfold cancelVoice
  split
  · exact parkVoice_codes ..
  · exact freeVoice_codes ..
  · exact .refl s

theorem tuneCancel_codes : CodesKept s (tuneCancel s).1 := by
  have cancelled := ((abandonCurrent_reach s).codes.trans (setPlan_codes _ [])).trans
    (.foldl cancelVoice_codes (List.finRange 16) _)
  exact ((cancelled.trans (setFailed_codes ..)).trans (setLastM_codes ..)).trans (setMode_codes ..)

theorem removeEntries_codes (v : VoiceNo) : CodesKept s (removeEntries v s) := by
  have removed := (engineLoses_reach v s).codes.trans
    (setPlan_codes _ ((engineLoses v s).tne.plan.filter fun e => e.voice != v))
  unfold removeEntries
  simp only
  split
  · exact removed.trans (doneIfEmpty_codes _)
  · exact removed

theorem serviceOff_codes (voice setting : Byte) : CodesKept s (serviceOff voice setting s).1 := by
  unfold serviceOff
  split
  · exact .refl s
  · split
    · exact .refl s
    · simp only [ok_fst]
      refine CodesKept.trans (CodesKept.trans ?_ (parkVoice_codes ..)) (kick_codes _)
      split
      · exact removeEntries_codes ..
      · exact .refl s

theorem serviceOn_codes (voice : Byte) : CodesKept s (serviceOn voice s).1 := by
  unfold serviceOn
  split
  · exact .refl s
  · split
    · exact (freeVoice_codes ..).trans (kick_codes _)
    · exact .refl s

/-- An age is not read by the chain (R72). -/
theorem minuteEvent_codes : CodesKept s (minuteEvent s) := by
  have aged (t : State) : CodesKept t (ageAll t) := .of_same fun _ =>
    { SameSource.refl t _ with
      record := by
        unfold ageAll State.record
        rw [look_tabulate] }
  have begun : CodesKept s { s with cal := { s.cal with minute := Config.minuteTicks } } := .of_inputs rfl rfl
  unfold minuteEvent
  exact ((begun.trans (aged _)).trans (setPlan_codes ..)).trans (kick_codes _)

end

end Sys2Proof.Machine
end

