-- ==== Sys2Proof/Proofs/SourceCodesOfCommands.lean ====
section
/-! Note commands, pitch commands, parameter writes, image loads and the panel keep source codes current (R45, R61,
R62). -/

namespace Sys2Proof.Machine

/-- A part's sources are recomputed after a change that the others' sources do not read. -/
theorem CodesKept.recomputePart {s t : State} {p : Part}
    (h : ∀ n, pitchPart t (sourceVoice n) ≠ p → CodeCurrent s n → CodeCurrent t n) :
    CodesKept s (recomputePart p t) := .recompute fun n other => h n (beq_eq_false_iff_ne.1 other)

section
variable (s : State)

/-! ## Note starts and ends -/

theorem searchAndPlace_codes (p : Part) (k vel : Nat) (solo : Bool) :
    CodesKept s (searchAndPlace p k vel solo s).1 := by
  by_cases h : search s p k = []
  · rw [searchAndPlace_none vel solo h]
    exact .refl s
  · rw [searchAndPlace_some vel solo h]
    refine CodesKept.trans (t := placeGroup p k vel solo s) ?_ (kick_codes _)
    unfold placeGroup
    simp only
    split
    · exact (place_codes ..).trans (setSolo_codes ..)
    · exact place_codes ..

theorem polyStart_codes (p : Part) (k vel : Nat) : CodesKept s (polyStart p k vel s).1 := by
  unfold polyStart
  split
  · exact searchAndPlace_codes ..
  · exact .foldl (fun t v => retriggerOne_codes t p vel v) _ s

theorem legatoMove_codes (p : Part) (k : Nat) (members : List VoiceNo) : CodesKept s (legatoMove p k members s) :=
  .foldl (fun t v => (modNote_codes t v _).trans (handOver_codes ..)) members s

theorem soloRetriggerOne_codes (p : Part) (k vel : Nat) (v : VoiceNo) :
    CodesKept s (soloRetriggerOne p k vel s v) := by
  rw [soloRetriggerOne_eq]
  exact (((modNote_codes ..).trans (soloRegate_codes ..)).trans (toStartTail_codes ..)).trans (handOver_codes ..)

theorem soloStart_codes (p : Part) (k vel : Nat) : CodesKept s (soloStart p k vel s).1 := by
  unfold soloStart
  split
  · exact searchAndPlace_codes ..
  · simp only [noteAnswer, answer_fst]
    split
    · exact legatoMove_codes ..
    · exact .foldl (fun t v => soloRetriggerOne_codes t p k vel v) _ s

theorem noteStart_codes (part key velocity : Byte) : CodesKept s (noteStart part key velocity s).1 := by
  unfold noteStart
  split
  · rename_i p k _ _
    refine (setKeys_codes s p (enterKey k (s.part p).heldKeys)).trans ?_
    simp only
    split
    · exact polyStart_codes ..
    · exact soloStart_codes ..
  · exact .refl s

theorem endVoices_codes (p : Part) (l : List VoiceNo) : CodesKept s (kick (l.foldl (endVoice p) s)) :=
  (CodesKept.foldl (fun t v => endVoice_codes t p v) l s).trans (kick_codes _)

theorem polyEnd_codes (p : Part) (k : Nat) : CodesKept s (polyEnd p k s).1 := by
  unfold polyEnd
  refine (setKeys_codes s p (leaveKey k (s.part p).heldKeys)).trans ?_
  simp only
  split
  · exact .refl _
  · exact endVoices_codes ..

theorem soloEnd_codes (p : Part) (k : Nat) : CodesKept s (soloEnd p k s).1 := by
  unfold soloEnd
  simp only
  split
  · refine (setKeys_codes s p (leaveKey k (s.part p).heldKeys)).trans ?_
    split
    · rw [ok_fst]
      split
      · unfold soloKeyUp
        split
        · exact legatoMove_codes ..
        · exact endVoices_codes ..
      · exact .refl _
    · exact .refl _
  · exact .refl s

theorem noteEnd_codes (part key : Byte) : CodesKept s (noteEnd part key s).1 := by
  unfold noteEnd
  split
  · split
    · exact polyEnd_codes ..
    · exact soloEnd_codes ..
  · exact .refl s

theorem notePressure_codes (part key value : Byte) : CodesKept s (notePressure part key value s).1 := by
  unfold notePressure
  split
  · split
    · exact .refl s
    · exact .foldl (fun t v => modNote_codes t v _) _ s
  · exact .refl s

/-! ## Part controls and expiries -/

theorem sustain_codes (part setting : Byte) : CodesKept s (sustain part setting s).1 := by
  unfold sustain
  split
  · rename_i p x _ _
    have set : CodesKept s (s.modPart p fun r => { r with sustain := x }) := modPart_codes s p rfl
    split
    · exact .refl s
    · simp only [ok_fst]
      split
      · exact set
      · exact set.trans (releaseSustained_codes ..)
  · exact .refl s

/-- A part record does not reach the sources whose pitch part is the other. -/
theorem modPart_other (p : Part) (f : PartRec → PartRec) {n : SourceNo} (h : pitchPart s (sourceVoice n) ≠ p) :
    SameSource s (s.modPart p f) n where
  __ := SameSource.refl s _
  bend := by rw [modPart_part, if_neg h]

theorem performanceSet_codes (part control : Byte) (value : BitVec 16) :
    CodesKept s (performanceSet part control value s).1 := by
  unfold performanceSet
  split
  · rename_i p c _ _
    simp only [ok_fst]
    split
    · exact .recomputePart fun _ other => .congr (modPart_other s p _ other)
    · rename_i same
      refine modPart_codes s p ?_
      cases c with
      | bend => exact not_not.1 fun new => same ⟨rfl, new⟩
      | _ => rfl
  · exact .refl s

theorem allNotesClear_codes (target : Byte) : CodesKept s (allNotesClear target s).1 := by
  unfold allNotesClear
  split
  · exact (CodesKept.foldl clearPart_codes _ s).trans (kick_codes _)
  · exact .refl s

theorem seed_codes (value : BitVec 16) : CodesKept s (seed value s).1 := .of_inputs rfl rfl

theorem dampExpiry_codes (v : VoiceNo) : CodesKept s (dampExpiry v s) := by
  unfold dampExpiry
  split
  · exact setPhase_codes ..
  · exact .refl s

theorem tailExpiry_codes (v : VoiceNo) : CodesKept s (tailExpiry v s) := by
  unfold tailExpiry
  split
  · rename_i releasing
    refine (enterFree_codes s ?_).trans (kick_codes _)
    cases h : s.status v with
    | bound n ph => rfl
    | _ => simp [h, VoiceStatus.isReleasing] at releasing
  · exact .refl s

/-! ## The commands of the Pitch Unit -/

/-- A change that the chain does not read, and the moves of note pitches that it brings. -/
theorem CodesKept.moveNotes {s t : State} (h : CodesKept s t) : CodesKept s (moveNotes s t) :=
  h.trans (moveNotes_codes s t)

theorem partSettings_codes (part : Byte) (pool : BitVec 16) (scale : Byte) :
    CodesKept s (partSettings part pool scale s).1 := by
  unfold partSettings
  split
  · exact (modPart_codes s _ rfl).moveNotes
  · exact .refl s

theorem masterPitch_codes (x : Int) : CodesKept s (masterPitch x s).1 := ⟨fun _ => recomputeAll_codesLaw _ _⟩

theorem setScales_codes (x : Vector (Vector Int 12) 2) :
    CodesKept s { s with ptu := { s.ptu with scales := x } } := .of_inputs rfl rfl

theorem setOverrides_codes (l : List Override) :
    CodesKept s { s with ptu := { s.ptu with overrides := l } } := .of_inputs rfl rfl

theorem scaleSet_codes (table : Byte) (offsets : Vector (BitVec 16) 12) :
    CodesKept s (scaleSet table offsets s).1 := by
  unfold scaleSet
  split
  · exact .refl s
  · exact (setScales_codes ..).moveNotes

theorem overrideSet_codes (part key : Byte) (pitch : BitVec 24) :
    CodesKept s (overrideSet part key pitch s).1 := by
  unfold overrideSet
  split
  · split
    · exact .refl s
    · exact (setOverrides_codes ..).moveNotes
  · exact .refl s

theorem overrideRemove_codes (gone : Override → Bool) : CodesKept s (overrideRemove gone s) :=
  (setOverrides_codes ..).moveNotes

theorem overrideClear_codes (selector part key : Byte) : CodesKept s (overrideClear selector part key s).1 := by
  unfold overrideClear
  split
  · exact .refl s
  · exact overrideRemove_codes ..
  · split
    · exact overrideRemove_codes ..
    · exact .refl s

/-! ## Parameter writes and image loads (R62) -/

/-- A stored value of a parameter that pitches are not formed of, or one stored as it was. -/
theorem paramStored_codes (w : Writer) (p : Part) {n : ParamNo} {x : Nat}
    (h : n ∉ pitchParams ∨ x = (s.patch p).param n) : CodesKept s (paramStored w p n x s) :=
  .of_same fun i =>
    { SameSource.refl s _ with
      param := fun m hm => by
        by_cases hp : pitchPart s (sourceVoice i) = p
        · rw [hp]
          exact paramStored_param_same (h.imp_left fun out e => out (e ▸ hm))
        · rw [paramStored_patch_other hp] }

theorem paramStored_other (w : Writer) {p : Part} (n : ParamNo) (x : Nat) {i : SourceNo}
    (h : pitchPart s (sourceVoice i) ≠ p) : SameSource s (paramStored w p n x s) i where
  __ := SameSource.refl s _
  param _ _ := by rw [paramStored_patch_other h]

theorem paramInEffect_codes (w : Writer) (p : Part) (n : ParamNo) (x : Nat) :
    CodesKept s (paramInEffect w p n x s) := by
  rcases eq_or_ne x ((s.patch p).param n) with same | changed
  · rw [paramInEffect_same same]
    exact paramStored_codes s w p (.inr same)
  have stored (h : n.val ∉ [71, 74, 75, 76, 77]) : CodesKept s (paramStored w p n x s) :=
    paramStored_codes s w p (.inl fun mem => h (List.mem_map_of_mem (f := Fin.val) mem))
  rw [paramInEffect_changed changed]
  by_cases formed : n.val ∈ [71, 74, 75, 76, 77]
  · rw [engineEffect_recomputes s p formed]
    exact .recomputePart fun _ other => .congr (paramStored_other s w n x other)
  refine (stored formed).trans ?_
  by_cases mode : n.val = 64
  · rw [engineEffect_keyMode s p mode]
    split
    · exact .refl _
    · exact releasePart_codes ..
  by_cases transposed : n.val = 78
  · rw [engineEffect_transpose s p transposed]
    exact (moveNotes_codes ..).trans (recompute_codes ..)
  · rw [engineEffect_else s p (by simp at formed ⊢; omega)]
    exact .refl _

theorem writeParam_codes (w : Writer) (p : Part) (n : ParamNo) (value : Nat) :
    CodesKept s (writeParam w p n value s) := by
  rw [writeParam_eq]
  exact (paramInEffect_codes s w p n _).trans (setLnk_codes ..)

theorem imageReleased_codes {p : Part} (x : Patch) {n : SourceNo} (h : pitchPart s (sourceVoice n) ≠ p)
    (current : CodeCurrent s n) : CodeCurrent (imageReleased p x s) n := by
  have stored : CodeCurrent (imageStored p x s) n :=
    (reArm_codes ..).current (current.congr (setBuffer_other s _ h))
  unfold imageReleased
  split
  · exact stored
  · exact (releasePart_codes ..).current stored

theorem loadImage_codes (p : Part) (x : Patch) : CodesKept s (loadImage p x s) := by
  rw [loadImage_eq]
  refine .recomputePart fun n other current => ?_
  have part : pitchPart (imageReleased p x s) (sourceVoice n) = pitchPart s (sourceVoice n) :=
    congrArg (fun u : Ptu => (look u.glide (sourceVoice n)).part) imageReleased_ptu
  rw [moveNotes_pitchPart, part] at other
  exact (moveNotes_codes ..).current (imageReleased_codes s x other current)

theorem suspendFor_codes (n : SlotNo) : CodesKept s (suspendFor n s) := by
  unfold suspendFor
  split
  · split
    · exact .refl s
    · exact setSmc_codes ..
  · exact .refl s

theorem patchRecall_codes (slot : BitVec 16) (part : Byte) : CodesKept s (patchRecall slot part s).1 := by
  unfold patchRecall
  split
  · rename_i n p _ _
    refine (suspendFor_codes s n).trans ?_
    simp only
    split
    · exact .refl _
    · exact .refl _
    · exact (loadImage_codes ..).trans (kick_codes _)
  · exact .refl s

theorem paramWrite_codes (part param : Byte) (value : BitVec 16) :
    CodesKept s (paramWrite part param value s).1 := by
  unfold paramWrite
  split
  · exact (writeParam_codes ..).trans (kick_codes _)
  · exact .refl s

theorem nameSet_codes (part : Byte) (name : Name) (category : Byte) :
    CodesKept s (nameSet part name category s).1 := by
  unfold nameSet
  split
  · exact setBuffer_codes s _ fun _ _ => rfl
  · exact .refl s

/-! ## The panel -/

theorem applyTakeover_codes (q : PotNo) (l : PotLink) (k0 k1 : Nat) (p : Part) :
    CodesKept s (applyTakeover q l k0 k1 p s) := by
  have caught : CodesKept s ((writeParam (.pot q) p l.param k1 s).setTakeover q p .caught) :=
    (writeParam_codes ..).trans (setTakeover_codes ..)
  unfold applyTakeover
  simp only
  split
  · split
    · exact caught
    · split
      · exact .refl s
      · exact writeParam_codes ..
  · split
    · exact caught
    · exact .refl s

theorem stableChangeAt_codes (q : PotNo) (k0 k1 : Nat) (p : Part) :
    CodesKept s (stableChangeAt q k0 k1 s p) := by
  unfold stableChangeAt
  split
  · split
    · exact applyTakeover_codes ..
    · exact reArm_codes ..
  · exact reArm_codes ..

theorem stableChange_codes (q : PotNo) (k0 k1 : Nat) : CodesKept s (stableChange q k0 k1 s) := by
  have parts := (stableChangeAt_codes s q k0 k1 .A).trans (stableChangeAt_codes _ q k0 k1 .B)
  unfold stableChange
  simp only
  split
  · split
    · exact parts.trans (mark_codes ..)
    · exact parts
  · exact parts

theorem firstReading_codes (q : PotNo) : CodesKept s (firstReading q s) :=
  (reArm_codes ..).trans (reArm_codes ..)

theorem readPot_codes (q : PotNo) (x : Nat) : CodesKept s (readPot q x s) := by
  unfold readPot
  simp only
  split
  · exact (setPot_codes ..).trans (firstReading_codes ..)
  · split
    · exact (setPot_codes ..).trans (stableChange_codes ..)
    · exact setPot_codes ..

theorem stepAt_codes (t : Target) (n : ParamNo) (count : Nat) (p : Part) :
    CodesKept s (stepAt t n count s p) := by
  unfold stepAt
  split
  · exact writeParam_codes ..
  · exact .refl s

theorem switchChange_codes (n : SwitchNo) (pressed : Bool) : CodesKept s (switchChange n pressed s) := by
  unfold switchChange
  split
  · exact mark_codes ..
  · split
    · exact setFocus_codes ..
    · exact .refl s
  · split
    · exact (stepAt_codes ..).trans (stepAt_codes ..)
    · exact .refl s

theorem readSwitch_codes (n : SwitchNo) (swin : Bool) : CodesKept s (readSwitch n swin s) := by
  unfold readSwitch
  simp only
  split
  · exact setSwitch_codes ..
  · split
    · exact setSwitch_codes ..
    · exact (setSwitch_codes ..).trans (switchChange_codes ..)

theorem readItem_codes (group : Fin 11) (addr : Fin 16) (padc : BitVec 12) (swin : Bool) :
    CodesKept s (readItem group addr padc swin s) := by
  unfold readItem
  split
  · exact readPot_codes ..
  · split
    · exact readSwitch_codes ..
    · split
      · exact readSwitch_codes ..
      · exact .refl s

theorem endGroup_codes : CodesKept s (endGroup s) := by
  have released : CodesKept s ((releaseBus .scanner s).setPsc { (releaseBus .scanner s).psc with
      groups := (releaseBus .scanner s).psc.groups.drop 1, phase := .resting }) :=
    (releaseBus_only .scanner s).codes.trans (setPsc_codes ..)
  unfold endGroup
  simp only
  split
  · split
    · exact released.trans (startSweep_only _).codes
    · exact released
  · exact released.trans (requestBus_only .scanner _).codes

theorem scanSample_codes (padc : BitVec 12) (swin : Bool) : CodesKept s (scanSample padc swin s) := by
  unfold scanSample
  split
  · rename_i group _ _ _
    refine ((readItem_codes s group s.psc.addr padc swin).trans (kick_codes _)).trans ?_
    simp only
    split
    · exact setPsc_codes ..
    · exact endGroup_codes _
  · exact .refl s

theorem sweepTimerExpiry_codes : CodesKept s (sweepTimerExpiry s) := by
  have expired : CodesKept s (s.setPsc { s.psc with sweepTimer := none }) := setPsc_codes ..
  unfold sweepTimerExpiry
  simp only
  split
  · exact expired.trans (startSweep_only _).codes
  · exact expired.trans (setPsc_codes ..)

end
end Sys2Proof.Machine
end

