-- ==== Sys2Proof/Proofs/SourceCodesKept.lean ====
section
/-! Every step keeps every source code and clamp flag what the chain of arithmetic gives (R45, R61, R64, R65):
the slot memory, the resets and the clock, and every command by its arm of the dispatch. -/

namespace Sys2Proof.Machine

section
variable (s : State)

/-! ## The slot memory -/

theorem setStateByte_codes (j : Job) (x : Byte) : CodesKept s (setStateByte j x s) := by
  unfold setStateByte
  split <;> exact setSmc_codes ..

theorem accept_codes (j : Job) : CodesKept s (accept j s) :=
  (setStateByte_codes ..).trans (setSmc_codes ..)

theorem setDamaged_codes (b : Bool) : CodesKept s { s with cal := { s.cal with damaged := b } } :=
  .of_inputs rfl rfl

theorem complete_codes (j : Job) (good : Bool) : CodesKept s (complete j good s) := by
  have result : CodesKept s ((s.setSmc { s.smc with write := none }).mark
      (.nvResult { op := j.op, slot := j.slot?, ok := good })) := (setSmc_codes ..).trans (mark_codes ..)
  unfold complete
  simp only
  split
  · exact result.trans (setDamaged_codes ..)
  · exact (result.trans (setDamaged_codes _ false)).trans (setSmc_codes ..)
  · exact result

theorem eraseTarget_codes (j : Job) : CodesKept s (eraseTarget j s) := by
  unfold eraseTarget
  split <;> exact setSmc_codes ..

theorem endErase_codes (w : NvWrite) : CodesKept s (endErase w s) := by
  unfold endErase
  refine (eraseTarget_codes s w.job).trans ?_
  simp only
  split
  · exact complete_codes ..
  · exact (setStateByte_codes ..).trans (setSmc_codes ..)

theorem programSlot_codes (j : Job) (n : SlotNo) (img : List Byte) (stuck : StuckBits) :
    CodesKept s (programSlot j n img stuck s) := by
  unfold programSlot
  simp only
  split
  · exact ((setSmc_codes ..).trans (setStateByte_codes ..)).trans (complete_codes ..)
  · exact (setSmc_codes ..).trans (complete_codes ..)

theorem programSys_codes (j : Job) (r : SysRecord) (stuck : StuckBits) :
    CodesKept s (programSys j r stuck s) := by
  unfold programSys
  split
  · exact (setSmc_codes ..).trans (complete_codes ..)
  · exact complete_codes ..

theorem endProgram_codes (w : NvWrite) (stuck : StuckBits) : CodesKept s (endProgram w stuck s) := by
  unfold endProgram
  split
  · exact programSlot_codes ..
  · exact programSlot_codes ..
  · exact .refl s
  · exact programSys_codes ..
  · exact programSys_codes ..

theorem eraseExpiry_codes : CodesKept s (eraseExpiry s) := by
  unfold eraseExpiry
  split
  · split
    · exact endErase_codes ..
    · exact .refl s
  · exact .refl s

theorem programExpiry_codes (stuck : StuckBits) : CodesKept s (programExpiry stuck s) := by
  unfold programExpiry
  split
  · split
    · exact endProgram_codes ..
    · exact .refl s
  · exact .refl s

theorem resumeExpiry_codes (stuck : StuckBits) : CodesKept s (resumeExpiry stuck s) := by
  unfold resumeExpiry
  split
  · split
    · simp only
      split
      · split
        · exact (setSmc_codes ..).trans (endErase_codes ..)
        · exact (setSmc_codes ..).trans (endProgram_codes ..)
      · exact setSmc_codes ..
    · exact .refl s
  · exact .refl s

theorem patchStore_codes (part : Byte) (slot : BitVec 16) : CodesKept s (patchStore part slot s).1 := by
  unfold patchStore
  split
  · split
    · exact .refl s
    · refine (accept_codes ..).trans (setBuffer_codes _ _ fun m _ => ?_)
      unfold State.patch
      rw [accept_ebu]
      rfl
  · exact .refl s

theorem slotWrite_codes (slot : BitVec 16) (name : Name) (category : Byte) (params : Vector (BitVec 16) 80) :
    CodesKept s (slotWrite slot name category params s).1 := by
  unfold slotWrite
  split
  · split
    · exact .refl s
    · exact accept_codes ..
  · exact .refl s

theorem slotClear_codes (slot : BitVec 16) : CodesKept s (slotClear slot s).1 := by
  unfold slotClear
  split
  · split
    · exact .refl s
    · exact accept_codes ..
  · exact .refl s

theorem slotRead_codes (slot : BitVec 16) : CodesKept s (slotRead slot s).1 := by
  unfold slotRead
  split
  · exact suspendFor_codes ..
  · exact .refl s

theorem calSave_codes : CodesKept s (calSave s).1 := by
  unfold calSave
  split
  · exact .refl s
  · exact accept_codes ..

theorem guardSet_codes (extent anchor invert : Byte) : CodesKept s (guardSet extent anchor invert s).1 := by
  unfold guardSet
  split
  · split
    · exact .refl s
    · split
      · exact .refl s
      · exact accept_codes ..
  · exact .refl s

/-! ## Settings -/

theorem tuneSettings_codes (oscGain fltGain : BitVec 16) (oscEdge fltEdge retune autoPark : Byte) :
    CodesKept s (tuneSettings oscGain fltGain oscEdge fltEdge retune autoPark s).1 := by
  unfold tuneSettings
  split
  · exact .of_inputs rfl rfl
  · exact .refl s

theorem scheduleSet_codes (profile interval : Byte) (mask : BitVec 16) :
    CodesKept s (scheduleSet profile interval mask s).1 := by
  unfold scheduleSet
  split
  · exact setPsc_codes ..
  · exact .refl s

theorem profileSet_codes (slot shift deadband : Byte) : CodesKept s (profileSet slot shift deadband s).1 := by
  unfold profileSet
  split
  · exact setPsc_codes ..
  · exact .refl s

theorem potMapSet_codes (pot target param mode slot : Byte) :
    CodesKept s (potMapSet pot target param mode slot s).1 := by
  have mapped (x : Vector PotEntry 96) : CodesKept s { s with ebu := { s.ebu with potMap := x } } :=
    .of_inputs rfl rfl
  unfold potMapSet
  split
  · exact ((mapped _).trans (setPot_codes ..)).trans (firstReading_codes ..)
  · exact .refl s

theorem switchMapSet_codes (switch action field param count : Byte) :
    CodesKept s (switchMapSet switch action field param count s).1 := by
  unfold switchMapSet
  split
  · exact .of_inputs rfl rfl
  · exact .refl s

theorem focusSet_codes (focus : Byte) : CodesKept s (focusSet focus s).1 := by
  unfold focusSet
  split
  · exact setFocus_codes ..
  · exact .refl s

theorem routeSet_codes (channel source : Byte) : CodesKept s (routeSet channel source s).1 := by
  unfold routeSet
  split
  · split
    · exact .of_inputs rfl rfl
    · exact .refl s
  · exact .refl s

theorem refreshWrite_codes : CodesKept s (refreshWrite s) := .of_inputs rfl rfl

theorem nextNotice_codes : CodesKept s (nextNotice s).1 := by
  unfold nextNotice
  split
  · exact setLnk_codes ..
  · exact .refl s

/-! ## Resets and the clock -/

theorem enterReset_codesLaw (kind : Running) (frozen : Bool) : CodesLaw (enterReset kind frozen s) :=
  fun n => CodeCurrent.congr (s := State.reset) (.of_inputs rfl rfl) (reset_codesLaw n)

theorem leaveReset_codesLaw : CodesLaw (leaveReset s) := fun n =>
  (startSweep_only _).codes.current (recomputeAll_codesLaw _ n)

theorem elapse_fixedPitch (x : VoiceStatus) : x.elapse.fixedPitch? = x.fixedPitch? := by
  obtain h | ⟨n, t, ⟨rfl, h⟩ | ⟨rfl, h⟩⟩ := elapse_cases x <;> rw [h] <;> rfl

theorem elapse_codes : CodesKept s (elapse s) :=
  .of_same fun _ =>
    { SameSource.refl s _ with
      clamp := by rw [elapse_voice]
      fixed := by rw [elapse_status, elapse_fixedPitch]
      slop := by rw [elapse_voice]
      part := by rw [elapse_glide]
      pos := by rw [elapse_glide] }

end

/-! ## Every command -/

section
variable {s t : State}

theorem hostCommand_codes {c : Instr} {f : State → Answered} (h : CodesKept s (f s).1)
    (e : hostCommand c s f = .next t) : CodesKept s t := by
  unfold hostCommand at e
  split at e
  · cases e
    exact h.trans (setLnk_codes ..)
  · cases e
    exact .refl s

/-- A command that leaves the state. -/
theorem read_codes {c : Instr} {f : State → Answered} (h : (f s).1 = s) (e : hostCommand c s f = .next t) :
    CodesKept s t := hostCommand_codes (by rw [h]; exact .refl s) e

theorem event_codes {f : State → State} (h : CodesKept s (f s)) (e : event s f = .next t) : CodesKept s t := by
  unfold event at e
  split at e
  · cases e
    exact h
  · cases e
    exact .refl s

theorem frameStart_codes {sckHigh : Bool} (e : execFrameStart sckHigh s = .next t) : CodesKept s t := by
  unfold execFrameStart at e
  split at e <;> cases e <;> exact .of_inputs rfl rfl

theorem voidFrame_codes {code : Byte} (e : execVoidFrame code s = .next t) : CodesKept s t := by
  unfold execVoidFrame at e
  split at e <;> cases e <;> exact .of_inputs rfl rfl

theorem frameCut_codes {bits : Nat} (e : execFrameCut bits s = .next t) : CodesKept s t := by
  unfold execFrameCut at e
  split at e
  · simp only at e
    split at e <;> cases e <;> exact .of_inputs rfl rfl
  · cases e
    exact .of_inputs rfl rfl

theorem resetExit_codes (e : execResetExit s = .next t) : CodesKept s t := by
  unfold execResetExit at e
  split at e <;> cases e
  · exact .refl s
  · exact ⟨fun _ => leaveReset_codesLaw s _⟩

end

/-- Every command, by its arm of the dispatch. -/
theorem command_codes {s t : State} (i : Instr) (e : exec i s = .next t) : CodesKept s t := by
  cases i with
  | noteStart part key vel => exact hostCommand_codes (noteStart_codes s part key vel) e
  | noteEnd part key => exact hostCommand_codes (noteEnd_codes s part key) e
  | notePressure part key x => exact hostCommand_codes (notePressure_codes s part key x) e
  | sustain part x => exact hostCommand_codes (sustain_codes s part x) e
  | performanceSet part c x => exact hostCommand_codes (performanceSet_codes s part c x) e
  | allNotesClear a => exact hostCommand_codes (allNotesClear_codes s a) e
  | voiceRead v => exact read_codes (voiceRead_fst v s) e
  | partSettings part pool scale => exact hostCommand_codes (partSettings_codes s part pool scale) e
  | seed x => exact hostCommand_codes (seed_codes s x) e
  | voiceServiceOff v x => exact hostCommand_codes (serviceOff_codes s v x) e
  | voiceServiceOn v => exact hostCommand_codes (serviceOn_codes s v) e
  | dampExpiry v => exact event_codes (dampExpiry_codes s v) e
  | tailExpiry v => exact event_codes (tailExpiry_codes s v) e
  | retriggerGapExpiry v => exact event_codes (f := gapExpiry v) (setGap_codes s v _) e
  | glideUpdate v => exact event_codes (glideUpdate_codes v s) e
  | masterPitch x => exact hostCommand_codes (masterPitch_codes s x.toInt) e
  | scaleSet t o => exact hostCommand_codes (scaleSet_codes s t o) e
  | overrideSet part key x => exact hostCommand_codes (overrideSet_codes s part key x) e
  | overrideClear sel part key => exact hostCommand_codes (overrideClear_codes s sel part key) e
  | minuteEvent => exact event_codes (minuteEvent_codes s) e
  | calRead n => exact read_codes (calRead_fst n s) e
  | calSave => exact hostCommand_codes (calSave_codes s) e
  | tuneSettings a b c d x y => exact hostCommand_codes (tuneSettings_codes s a b c d x y) e
  | tuneAdd voices sources mode => exact hostCommand_codes (tuneAdd_codes s voices sources mode) e
  | tuneControlRun a => exact hostCommand_codes (tuneRun_codes s a) e
  | tuneControlHalt => exact hostCommand_codes (f := tuneHalt) (setMode_codes s .halt) e
  | tuneControlStep => exact hostCommand_codes (tuneStep_codes s) e
  | tuneControlCancel => exact hostCommand_codes (tuneCancel_codes s) e
  | tuneRead => exact read_codes (f := fun s => ok s (tuneData s)) rfl e
  | settlingExpiry => exact event_codes (settlingExpiry_codes s) e
  | firstProbeEdge x => exact event_codes (firstProbeEdge_codes s x) e
  | gateClose x n => exact event_codes (gateClose_codes s x n) e
  | gateWindowExpiry => exact event_codes (gateWindowExpiry_codes s) e
  | sweepTimerExpiry => exact event_codes (sweepTimerExpiry_codes s) e
  | scanSample x y => exact event_codes (scanSample_codes s x y) e
  | scheduleSet a b m => exact hostCommand_codes (scheduleSet_codes s a b m) e
  | profileSet a b c => exact hostCommand_codes (profileSet_codes s a b c) e
  | potRead q => exact read_codes (potRead_fst q s) e
  | paramWrite part n x => exact hostCommand_codes (paramWrite_codes s part n x) e
  | paramRead part n => exact read_codes (paramRead_fst part n s) e
  | nameSet part name cat => exact hostCommand_codes (nameSet_codes s part name cat) e
  | potMapSet a b c d x => exact hostCommand_codes (potMapSet_codes s a b c d x) e
  | switchMapSet a b c d x => exact hostCommand_codes (switchMapSet_codes s a b c d x) e
  | focusSet x => exact hostCommand_codes (focusSet_codes s x) e
  | patchStore part slot => exact hostCommand_codes (patchStore_codes s part slot) e
  | slotWrite slot name cat x => exact hostCommand_codes (slotWrite_codes s slot name cat x) e
  | slotClear slot => exact hostCommand_codes (slotClear_codes s slot) e
  | patchRecall slot part => exact hostCommand_codes (patchRecall_codes s slot part) e
  | slotRead slot => exact hostCommand_codes (slotRead_codes s slot) e
  | guardSet a b c => exact hostCommand_codes (guardSet_codes s a b c) e
  | guardFreeze => exact hostCommand_codes (f := guardFreeze) (setSmc_codes s _) e
  | guardRead => exact read_codes (f := fun s => ok s (guardData s)) rfl e
  | eraseExpiry => exact event_codes (eraseExpiry_codes s) e
  | programExpiry x => exact event_codes (programExpiry_codes s x) e
  | resumeExpiry x => exact event_codes (resumeExpiry_codes s x) e
  | routeSet a b => exact hostCommand_codes (routeSet_codes s a b) e
  | routeRead a => exact read_codes (routeRead_fst a s) e
  | refreshWrite => exact event_codes (refreshWrite_codes s) e
  | nextNotice => exact hostCommand_codes (nextNotice_codes s) e
  | noticeEnable m => exact hostCommand_codes (f := noticeEnable m) (setLnk_codes s _) e
  | voidFrame x => exact voidFrame_codes e
  | frameCut n => exact frameCut_codes e
  | powerOnReset => cases e; exact ⟨fun _ => enterReset_codesLaw s _ _ _⟩
  | pinReset => cases e; exact ⟨fun _ => enterReset_codesLaw s _ _ _⟩
  | resetExit => exact resetExit_codes e
  | frameStart x => exact frameStart_codes e

theorem step_codes {s t : State} (h : step s = .next t) : CodesKept s t := by
  obtain ⟨i, rest, h⟩ | rfl := step_cases h
  · have queue : CodesKept s { s with pending := rest } := .of_inputs rfl rfl
    exact queue.trans (command_codes i h)
  · unfold tick
    split
    · exact (elapse_codes s).trans (.of_inputs rfl rfl)
    · exact .refl s

/-- Settles O54: what changes an input of the chain recomputes the sources that read it, and nothing else
reaches a code, a clamp flag or an input. -/
theorem stepsKeepEverySourceCodeCurrent : Obligations.StepsKeepEverySourceCodeCurrent :=
  fun _ _ law h n => (step_codes h).current (law n)

end Sys2Proof.Machine
end

