-- ==== Sys2Proof/Proofs/Conversion.lean ====
section
/-! The last stage of the chain of arithmetic: segments, breakpoints and the conversion to a code (R57 to R60). -/

namespace Sys2Proof.Machine

/-! ## Rounding -/

/-- The rounding of an exact quotient. -/
theorem rhaz_mul (n : Int) {d : Nat} (h : 0 < d) : rhaz (n * d) d = n := by
  have exact_nonneg {n : Int} (hn : 0 ≤ n) : rhaz (n * d) d = n := by
    rw [rhaz_nonneg d (Int.mul_nonneg hn (Int.natCast_nonneg d)), Int.ediv_eq_iff_of_pos (by omega)]
    constructor <;> nlinarith
  rcases le_total 0 n with hn | hn
  · exact exact_nonneg hn
  · have neg := exact_nonneg (n := -n) (by omega)
    rw [Int.neg_mul, rhaz_neg] at neg
    omega

theorem rhaz_mono {m n : Int} {d : Nat} (h : 0 < d) (le : m ≤ n) : rhaz m d ≤ rhaz n d := by
  have d2 : (0 : Int) < 2 * d := by omega
  unfold rhaz
  split <;> split
  · exact Int.ediv_le_ediv d2 (by omega)
  · omega
  · have := Int.ediv_nonneg (show (0 : Int) ≤ 2 * -m + d by omega) d2.le
    have := Int.ediv_nonneg (show (0 : Int) ≤ 2 * n + d by omega) d2.le
    omega
  · exact Int.neg_le_neg (Int.ediv_le_ediv d2 (by omega))

/-! ## Segments (R57) -/

theorem segment_val (x : Int) : ((segment x).val : Int) = max 0 (min 7 ((x - 21000) / 12000)) := by
  unfold segment clampInt
  simp

/-- The pitch of breakpoint k (R57). -/
def breakpoint (k : Nat) : Int := 21000 + 12000 * k

theorem segment_eq_iff (x : Int) (k : Fin 8) :
    segment x = k ↔ (k.val = 0 ∨ breakpoint k ≤ x) ∧ (k.val = 7 ∨ x < breakpoint (k + 1)) := by
  have val := segment_val x
  unfold breakpoint
  rw [Fin.ext_iff]
  omega

theorem segment_mono {x y : Int} (h : x ≤ y) : segment x ≤ segment y := by
  have hx := segment_val x
  have hy := segment_val y
  rw [Fin.le_def]
  omega

/-! ## The code before clamping (R58) -/

/-- What the line of a segment adds to the code of its lower breakpoint. -/
def rise (codes : Vector Nat 9) (k : Fin 8) (frac : Int) : Int :=
  rhaz (((look codes k.succ : Nat) - (look codes k.castSucc : Nat) : Int) * frac) 12000

theorem rawCode_eq (codes : Vector Nat 9) {x : Int} {k : Fin 8} (h : segment x = k) :
    rawCode codes x = look codes k.castSucc + rise codes k (x - breakpoint k) := by
  subst h
  rfl

theorem rise_zero (codes : Vector Nat 9) (k : Fin 8) : rise codes k 0 = 0 := by
  unfold rise
  rw [Int.mul_zero]
  decide

/-- A whole segment rises to the code of its upper breakpoint. -/
theorem rise_segment (codes : Vector Nat 9) (k : Fin 8) :
    rise codes k 12000 = (look codes k.succ : Nat) - (look codes k.castSucc : Nat) :=
  rhaz_mul _ (d := 12000) (by decide)

theorem rawCode_breakpoint (codes : Vector Nat 9) (j : Fin 9) :
    rawCode codes (breakpoint j) = (look codes j : Nat) := by
  induction j using Fin.lastCases with
  | last =>
    have seg : segment (breakpoint 8) = 7 := (segment_eq_iff ..).2 (by decide)
    have frac : breakpoint 8 - breakpoint 7 = 12000 := by decide
    rw [Fin.val_last, rawCode_eq codes seg]
    show _ + rise codes 7 (breakpoint 8 - breakpoint 7) = _
    rw [frac, rise_segment]
    exact add_sub_cancel _ _
  | cast k =>
    have seg : segment (breakpoint k.castSucc) = k := by
      rw [segment_eq_iff]
      unfold breakpoint
      simp only [Fin.val_castSucc]
      omega
    rw [rawCode_eq codes seg, Fin.val_castSucc, Int.sub_self, rise_zero, Int.add_zero]

/-- Settles O30: the segment's value is the clamped floor, and a breakpoint's fraction is 0 or the whole
segment. -/
theorem segmentAndFractionOfAPitch : Obligations.SegmentAndFractionOfAPitch := by
  unfold Obligations.SegmentAndFractionOfAPitch
  intro pitch k frac
  have val : k = max 0 (min 7 ((pitch - 21000) / 12000)) := segment_val pitch
  have fraction : frac = pitch - (21000 + 12000 * k) := rfl
  refine ⟨val, by omega, by omega, by omega, by omega, by omega, fun codes j at_breakpoint => ?_⟩
  subst at_breakpoint
  exact rawCode_breakpoint codes j

/-! ## Rising codes (R59) -/

theorem Rising.breakpoint_le {codes : Vector Nat 9} (h : Rising codes) {i j : Fin 9} (le : i ≤ j) :
    look codes i ≤ look codes j := by
  rcases le.eq_or_lt with rfl | lt
  · exact le_rfl
  · exact (h.1 i j lt).le

theorem Rising.rise_mono {codes : Vector Nat 9} (h : Rising codes) (k : Fin 8) {a b : Int} (le : a ≤ b) :
    rise codes k a ≤ rise codes k b := by
  have up := h.breakpoint_le (Fin.castSucc_lt_succ (i := k)).le
  exact rhaz_mono (by decide) (Int.mul_le_mul_of_nonneg_left le (by omega))

/-- Through rising codes a higher pitch never has a lower code: along one segment the line rises, and the
codes of the breakpoints lie between those of two segments. -/
theorem Rising.rawCode_mono {codes : Vector Nat 9} (h : Rising codes) {x y : Int} (le : x ≤ y) :
    rawCode codes x ≤ rawCode codes y := by
  rcases (segment_mono le).eq_or_lt with same | lt
  · rw [rawCode_eq codes same, rawCode_eq codes rfl]
    have := h.rise_mono (segment y) (show x - breakpoint (segment y) ≤ y - breakpoint (segment y) by omega)
    omega
  · obtain ⟨-, below⟩ := (segment_eq_iff x _).1 rfl
    obtain ⟨above, -⟩ := (segment_eq_iff y _).1 rfl
    have upper := h.rise_mono (segment x) (show x - breakpoint (segment x) ≤ 12000 by
      unfold breakpoint at *; omega)
    have lower := h.rise_mono (segment y) (show 0 ≤ y - breakpoint (segment y) by omega)
    have between : look codes (segment x).succ ≤ look codes (segment y).castSucc :=
      h.breakpoint_le (Fin.le_def.2 (by simp only [Fin.val_succ, Fin.val_castSucc]; omega))
    rw [rise_segment] at upper
    rw [rise_zero] at lower
    rw [rawCode_eq codes rfl, rawCode_eq codes rfl]
    omega

/-! ## Clamping (R59, R60) -/

theorem toCode_flag (codes : Vector Nat 9) (x : Int) :
    (toCode codes x).2 = true ↔ rawCode codes x < 0 ∨ 65535 < rawCode codes x := decide_eq_true_iff

theorem toCode_mono {codes : Vector Nat 9} {x y : Int} (h : rawCode codes x ≤ rawCode codes y) :
    (toCode codes x).1 ≤ (toCode codes y).1 := by
  unfold toCode clampInt
  dsimp only
  omega

/-- A code that needs no clamp. -/
theorem toCode_of_rawCode {codes : Vector Nat 9} {x : Int} {c : Nat} (h : rawCode codes x = c)
    (le : c ≤ 65535) : toCode codes x = (c, false) := by
  unfold toCode clampInt
  dsimp only
  rw [h]
  refine Prod.ext ?_ (decide_eq_false (by omega))
  dsimp only
  omega

theorem toCode_unclamped {codes : Vector Nat 9} {x : Int} (h : (toCode codes x).2 = false) :
    ((toCode codes x).1 : Int) = rawCode codes x := by
  have fits := mt (toCode_flag codes x).2 (Bool.eq_false_iff.1 h)
  unfold toCode clampInt
  dsimp only
  omega

theorem Rising.toCode_breakpoint {codes : Vector Nat 9} (h : Rising codes) (k : Fin 9) :
    toCode codes (breakpoint k) = (look codes k, false) :=
  toCode_of_rawCode (rawCode_breakpoint codes k) (h.2 k)

/-! ## The nominal codes -/

theorem look_nominalCodes (k : Fin 9) : look nominalCodes k = 4096 + 6400 * k.val := look_tabulate _ k

/-- Through the nominal codes all segments lie on one line. -/
theorem rawCode_nominal (x : Int) : rawCode nominalCodes x = 4096 + rhaz (8 * (x - 21000)) 15 := by
  rw [rawCode_eq nominalCodes rfl]
  unfold rise breakpoint rhaz
  rw [look_nominalCodes, look_nominalCodes, Fin.val_succ, Fin.val_castSucc]
  split <;> split <;> omega

theorem rawCode_nominal_clamped (x : Int) :
    (rawCode nominalCodes x < 0 ∨ 65535 < rawCode nominalCodes x) ↔ x ≤ 13319 ∨ 136200 ≤ x := by
  rw [rawCode_nominal]
  unfold rhaz
  split <;> omega

theorem toCode_nominal (x : Int) : toCode nominalCodes x =
    ((max 0 (min 65535 (4096 + rhaz (8 * (x - 21000)) 15))).toNat, decide (x ≤ 13319 ∨ 136200 ≤ x)) :=
  Prod.ext (congrArg (fun c => (clampInt 0 65535 c).toNat) (rawCode_nominal x))
    (decide_eq_decide.2 (rawCode_nominal_clamped x))

/-- Settles O31. -/
theorem conversionFollowsTheBreakpoints : Obligations.ConversionFollowsTheBreakpoints :=
  ⟨fun codes rising => ⟨rising.toCode_breakpoint, fun _ _ le => toCode_mono (rising.rawCode_mono le),
    fun x => ⟨toCode_le codes x, toCode_flag codes x, toCode_unclamped⟩⟩, look_nominalCodes, toCode_nominal⟩

end Sys2Proof.Machine
end

