-- ==== Sys2Proof/Proofs/SourcePitches.lean ====
section
/-! What a source is converted from: the unison offset (R54) and the chain of arithmetic (R45, R50 to R56). -/

namespace Sys2Proof.Machine

/-! ## The unison offset (R54) -/

theorem unisonOffset_one {size : Nat} (spread j : Nat) (h : size ≤ 1) : unisonOffset spread size j = 0 :=
  if_pos h

theorem unisonOffset_many {size : Nat} (spread j : Nat) (h : 1 < size) :
    unisonOffset spread size j =
      Int.tdiv (spread * (2 * (j : Int) - ((size : Int) - 1))) ((2 * (size - 1) : Nat) : Int) :=
  if_neg (by omega)

/-- Mirrored indices lie on both sides of the middle at one distance. -/
theorem unisonOffset_mirror (spread : Nat) {size j : Nat} (h : j < size) :
    unisonOffset spread size (size - 1 - j) = -unisonOffset spread size j := by
  rcases Nat.lt_or_ge 1 size with many | one
  · have mirrored : (2 * ((size - 1 - j : Nat) : Int) - ((size : Int) - 1)) =
        -(2 * (j : Int) - ((size : Int) - 1)) := by omega
    rw [unisonOffset_many spread _ many, unisonOffset_many spread _ many, mirrored, Int.mul_neg, Int.neg_tdiv]
  · rw [unisonOffset_one spread _ one, unisonOffset_one spread _ one, Int.neg_zero]

theorem unisonOffset_le {spread size j : Nat} (hs : spread ≤ 1023) (h : j < size) :
    unisonOffset spread size j ≤ 511 := by
  rcases Nat.lt_or_ge 1 size with many | one
  · have below : (spread : Int) * (2 * (j : Int) - ((size : Int) - 1)) ≤ 1023 * (size - 1 : Nat) :=
      calc _ ≤ (spread : Int) * (size - 1 : Nat) := Int.mul_le_mul_of_nonneg_left (by omega) (by omega)
        _ ≤ _ := Int.mul_le_mul_of_nonneg_right (by omega) (by omega)
    rw [unisonOffset_many spread _ many]
    calc _ ≤ Int.tdiv (1023 * (size - 1 : Nat)) ((2 * (size - 1) : Nat) : Int) :=
          Int.tdiv_le_tdiv (by omega) below
      _ ≤ 511 := by
          rw [Int.tdiv_eq_ediv_of_nonneg (by omega)]
          exact Int.le_of_lt_add_one (Int.ediv_lt_of_lt_mul (by omega) (by push_cast; omega))
  · rw [unisonOffset_one spread j one]
    decide

theorem unisonOffset_ge {spread size j : Nat} (hs : spread ≤ 1023) (h : j < size) :
    -511 ≤ unisonOffset spread size j := by
  have mirror := unisonOffset_mirror spread h
  have := unisonOffset_le hs (show size - 1 - j < size by omega)
  omega

/-- Settles O32: the offset is a truncated quotient, so that mirrored indices have opposite ones, and the
bound above gives the one below. -/
theorem unisonOffsetsSpreadSymmetrically : Obligations.UnisonOffsetsSpreadSymmetrically :=
  ⟨fun spread _ j one => unisonOffset_one spread j one,
    fun spread _ _ hs h => ⟨unisonOffset_ge hs h, unisonOffset_le hs h, unisonOffset_mirror spread h⟩,
    rfl, rfl, rfl, rfl⟩

/-! ## The pitch of a source (R45) -/

/-- A voice that its state fixes no pitch for sounds what Stages 3 and 4 form. -/
theorem sourcePitch_formed {s : State} {v : VoiceNo} (tuning : (s.status v).isTuning = false)
    (parked : ∀ r, s.status v ≠ .parked r) (i : SourceIdx) : sourcePitch s v i = stage4 s v i := by
  have free : (s.status v).fixedPitch? = none := by
    cases h : s.status v with
    | tuning f r => rw [h] at tuning; cases tuning
    | parked r => exact absurd h (parked r)
    | _ => rfl
  rw [sourcePitch_eq, free]
  rfl

/-- In TUNING rising codes give their C_4. -/
theorem chain_tuning {s : State} {v : VoiceNo} {f : Bool} {r : Option ParkReason} {i : SourceIdx}
    (h : s.status v = .tuning f r) (rising : Rising (s.record (sourceNo v i)).codes) :
    chain s (sourceNo v i) = (look (s.record (sourceNo v i)).codes 4, false) := by
  unfold chain
  rw [sourceVoice_sourceNo, sourceIdx_sourceNo, sourcePitch_tuning h]
  exact rising.toCode_breakpoint 4

/-- Settles O33. -/
theorem sourcePitchFollowsTheChain : Obligations.SourcePitchFollowsTheChain := by
  unfold Obligations.SourcePitchFollowsTheChain
  intro s v p x common
  refine ⟨fun f r h i => ⟨sourcePitch_tuning h i, chain_tuning h⟩, fun r h i => sourcePitch_parked h i,
    fun tuning parked => ?_⟩
  have formed := sourcePitch_formed tuning parked
  exact ⟨formed 0, formed 1, formed 2⟩

end Sys2Proof.Machine
end

