-- ==== Sys2Proof/Proofs/ResetExit.lean ====
section
/-! The exit from reset: what the load takes, and the first sweep (R66, R76, R77, R111). -/

namespace Sys2Proof.Machine

/-! ## The load (R76, R77) -/

theorem sysLoad_some {a : SysArea} {r : SysRecord} (state : a.state = 0x3F) (contents : a.contents = some r)
    (passes : r.passes = true) : a.load = some r := by
  unfold SysArea.load
  rw [if_pos state, contents]
  exact if_pos passes

theorem sysLoad_none {a : SysArea} (h : a.state ≠ 0x3F ∨ ∀ r, a.contents = some r → r.passes = false) :
    a.load = none := by
  unfold SysArea.load
  split
  · rename_i state
    split
    · rename_i r contents
      exact if_neg (Bool.eq_false_iff.1 (h.resolve_left (not_not_intro state) r contents))
    · rfl
  · rfl

theorem calStatus?_of_le {x : Nat} (h : x ≤ 5) : ∃ y, calStatus? x = some y := by
  match x, h with
  | 0, _ | 1, _ | 2, _ | 3, _ | 4, _ | 5, _ => exact ⟨_, rfl⟩

theorem SysRecord.status_le {r : SysRecord} (h : r.passes = true) (n : SourceNo) : look r.status n ≤ 5 := by
  unfold SysRecord.passes at h
  simp only [Bool.and_eq_true, List.all_eq_true, decide_eq_true_eq] at h
  obtain ⟨⟨-, records⟩, -⟩ := h
  exact (records n (List.mem_finRange n)).1

/-- What a passing system record gives a source (R76). -/
def SysRecord.source (r : SysRecord) (n : SourceNo) : SourceRec :=
  { codes := look r.codes n, status := (calStatus? (look r.status n)).getD .nominal, age := 0 }

theorem SysRecord.source_status {r : SysRecord} (h : r.passes = true) (n : SourceNo) :
    some (r.source n).status = calStatus? (look r.status n) := by
  obtain ⟨y, hy⟩ := calStatus?_of_le (r.status_le h n)
  unfold SysRecord.source
  rw [hy]
  rfl

section
variable {s : State}

theorem loadSystem_of_some {r : SysRecord} (h : s.smc.sys.load = some r) :
    (∀ n, (loadSystem s).record n = r.source n) ∧ (loadSystem s).smc.guard = r.guard ∧
      (loadSystem s).cal.damaged = false := by
  unfold loadSystem
  rw [h]
  exact ⟨look_tabulate _, rfl, rfl⟩

theorem loadSystem_of_none (h : s.smc.sys.load = none) :
    (∀ n, (loadSystem s).record n = SourceRec.nominal) ∧ (loadSystem s).smc.guard = Guard.all ∧
      (loadSystem s).cal.damaged = true := by
  unfold loadSystem
  rw [h]
  exact ⟨look_replicate _, rfl, rfl⟩

/-- The load reaches the records, the damaged flag and the guard, and nothing else. -/
theorem loadSystem_frame (s : State) :
    { (loadSystem s).smc with guard := s.smc.guard } = s.smc ∧
      { (loadSystem s).cal with records := s.cal.records, damaged := s.cal.damaged } = s.cal ∧
      (loadSystem s).ptu = s.ptu ∧ (loadSystem s).lnk = s.lnk ∧ (loadSystem s).ebu = s.ebu ∧
      (loadSystem s).free = s.free ∧ (loadSystem s).pending = s.pending := by
  unfold loadSystem
  split <;> exact ⟨rfl, rfl, rfl, rfl, rfl, rfl, rfl⟩

/-! ## The first sweep (R111) -/

/-- The scanner's block with the first sweep begun. -/
def firstSweep (x : Psc) : Psc :=
  { x with
    holder := some .scanner, lastHolder := some .scanner, scannerWaits := false,
    groups := [0, 1, 2, 3, 4, 5, 9, 10], addr := 0, phase := .scanning 160, inUse := .normal,
    sweepTimer := some (4 * 8000), startPending := false }

/-- With the bus free and the engine idle, a sweep of the reset schedule begins at once. -/
theorem startSweep_first (psc : s.psc = Psc.reset) (idle : s.tne.activity = .idle) :
    startSweep s = s.setPsc (firstSweep s.psc) := by
  have begun : sweepPsc s = { Psc.reset with
      sweepTimer := some (4 * 8000), groups := [0, 1, 2, 3, 4, 5, 9, 10] } := by
    unfold sweepPsc selectedProfile
    rw [psc, idle]
    decide
  rw [startSweep_eq, begun, psc]
  rfl

theorem leaveReset_eq (law : ResetLaw s) (out : s.run ≠ .running) : leaveReset s =
    (recomputeAll (loadSystem { s with run := .running })).setPsc (firstSweep s.psc) := by
  obtain ⟨-, -, -, tne, psc, -⟩ := law out
  obtain ⟨tne', psc', -⟩ := loadSystem_blocks { s with run := .running }
  have psc' : (recomputeAll (loadSystem { s with run := .running })).psc = s.psc := psc'
  have tne' : (recomputeAll (loadSystem { s with run := .running })).tne = s.tne := tne'
  unfold leaveReset
  rw [startSweep_first (psc'.trans psc) (by rw [tne', tne]; rfl), psc']

end

/-- Settles O7: the load reaches records, damaged flag and guard, the recomputation codes and clamp flags, and
the sweep the scanner's block. -/
theorem resetExitLoadsAndStarts : Obligations.ResetExitLoadsAndStarts := by
  unfold Obligations.ResetExitLoadsAndStarts
  intro s out law
  have eq := leaveReset_eq law out
  have current := leaveReset_codesLaw s
  obtain ⟨tne, -, cvo, val, run⟩ := loadSystem_blocks { s with run := .running }
  obtain ⟨smc, cal, ptu, lnk, ebu, free, pending⟩ := loadSystem_frame { s with run := .running }
  have taken r (h : s.smc.sys.load = some r) := loadSystem_of_some (s := { s with run := .running }) h
  have fallback (h : s.smc.sys.load = none) := loadSystem_of_none (s := { s with run := .running }) h
  generalize loadSystem { s with run := .running } = m at *
  rw [eq] at current
  refine ⟨_, (if_neg out).trans (congrArg _ eq), run, current, fun r state contents passes => ?_,
    fun fails => ?_, rfl, smc, cal, ?_, ?_, fun v => ?_, lnk, ebu, cvo, tne, free, pending⟩
  · obtain ⟨record, guard, damaged⟩ := taken r (sysLoad_some state contents passes)
    refine ⟨fun n => ?_, guard, damaged⟩
    change (m.record n).codes = _ ∧ (m.record n).age = 0 ∧ some (m.record n).status = _
    rw [record]
    exact ⟨rfl, rfl, SysRecord.source_status passes n⟩
  · obtain ⟨record, guard, damaged⟩ := fallback (sysLoad_none fails)
    refine ⟨fun n => ?_, guard, damaged⟩
    change (m.record n).status = _ ∧ (m.record n).age = 0 ∧ ∀ k, look (m.record n).codes k = _
    rw [record]
    exact ⟨rfl, rfl, look_nominalCodes⟩
  · exact congrArg (fun x : Ptu => { x with codes := s.ptu.codes }) ptu
  · exact congrArg (fun x : Val => { x with voices := s.val.voices }) val
  · change { (recompute (fun _ => true) m).voice v with clamp := (s.voice v).clamp } = s.voice v
    rw [recompute_voice]
    unfold State.voice
    rw [val]

end Sys2Proof.Machine
end
